-- ==== Sys2Proof/Word.lean ====
section
/-! DEFINITION. The machine's plainest types: bytes, 32-bit words and register numbers. -/

namespace Sys2Proof

/-- A byte is 8 bits (R8). -/
abbrev Byte := BitVec 8

/-- A general register, and a virtual address, is 32 bits wide (R6 "register width", GK20). -/
abbrev Word := BitVec 32

/-- The number of a general register `x[0] .. x[15]` (R28). -/
abbrev Reg := Fin 16

end Sys2Proof
end

