-- ==== Sys2Proof/Config.lean ====
section
/-! DEFINITION. What an implementation or a system fixes (R6), as plain data, and the free values, as opaque
constants without a body. The functions that read a configuration stand in Machine/Ops.lean. -/

namespace Sys2Proof

/-- The memory types (R27, R50). -/
inductive MemType where
  | normal
  | device
deriving DecidableEq, Repr

/-- The Shareability a location has or is treated as if it has (R27). -/
inductive Shareability where
  | nonShareable
  | innerShareable
  | outerShareable
deriving DecidableEq, Repr

/-- The cacheabilities the source names, and one constructor for every other (R27). -/
inductive Cacheability where
  | writeBack
  | nonCacheable
  | treatedAsNonCacheable
  | other
deriving DecidableEq, Repr

/-- The memory attributes the rules read (R27). -/
structure MemAttr where
  memType : MemType
  share   : Shareability
  inner   : Cacheability
  outer   : Cacheability
deriving DecidableEq, Repr

/-- An observer: a PE, or a non-PE observer by its number (R20). -/
inductive Observer where
  | pe (p : Nat)
  | device (k : Nat)
deriving DecidableEq, Repr

/-- A range of physical addresses together with an attribute, or with every attribute (`none`): the
"address ranges or memory types" of R190 and R75. -/
structure PaRange where
  base : Nat
  len  : Nat
  attr : Option MemAttr
deriving DecidableEq, Repr

/-- A range of physical addresses as one observer sees it (R70, R75, D15). -/
structure ObserverRange where
  who   : Observer
  range : PaRange
deriving DecidableEq, Repr

/-- The six effects of an exclusive access to a location with no global monitor (R190): which of them the
system shows. -/
structure NoGMonEffects where
  externalAbort       : Bool
  mmuFault            : Bool
  asNop               : Bool
  loadAsNonShareable  : Bool
  storeAsNonShareable : Bool
  statusUnknown       : Bool
deriving DecidableEq, Repr

/-- `NoGMonBehaviour` (R6, R191): not configured; a fixed subset; or a subset drawn at each occurrence (the
full envelope, R191). -/
inductive NoGMonPolicy where
  | unconfigured
  | fixed (e : NoGMonEffects)
  | drawn
deriving DecidableEq, Repr

/-- What is done where the pairing test of R141 fails: the model fault of D10, or the envelope the source
lists (R141). -/
inductive PairPolicy where
  | fault
  | envelope
deriving DecidableEq, Repr

/-- The IMPLEMENTATION DEFINED choices that are Boolean (93_implementation_defined.md part 1). -/
inductive ChoiceId where
  | id2 | id3 | id4 | id5 | id6 | id7 | id8 | id9 | id10 | id11 | id12 | id16 | id19
deriving DecidableEq, Repr

/-- What a configuration says of a choice (R9 `choose`, D9): it is drawn at each occurrence, fixed to a constant, or
fixed to a function of the state. -/
inductive ChoiceSetting where
  | drawn
  | fixed (b : Bool)
  | ofState
deriving DecidableEq, Repr

/-- The setting of each choice (R6, D9). -/
structure Choices where
  id2  : ChoiceSetting
  id3  : ChoiceSetting
  id4  : ChoiceSetting
  id5  : ChoiceSetting
  id6  : ChoiceSetting
  id7  : ChoiceSetting
  id8  : ChoiceSetting
  id9  : ChoiceSetting
  id10 : ChoiceSetting
  id11 : ChoiceSetting
  id12 : ChoiceSetting
  id16 : ChoiceSetting
  id19 : ChoiceSetting
deriving DecidableEq, Repr

/-- The configuration of R6. It is constant during a run (log 1). -/
structure Config where
  /-- `a`, log2 of the Exclusives reservation granule in bytes, 4 to 11 (R53) -/
  ergLog2        : Nat
  /-- CTR identifies the granule (R53, ID17) -/
  ctrHasErg      : Bool
  /-- the bits of CTR outside the granule field, which the spec does not state (R31, log 5) -/
  ctrOther       : Word
  /-- width of a physical address (R6, D19) -/
  paBits         : Nat
  /-- attributes of every location no region of `State.attrs` lists (D21) -/
  defaultAttr    : MemAttr
  /-- where a global monitor is implemented beyond the two guaranteed memory types (R190, D13) -/
  gmon           : List PaRange
  /-- the effects of an exclusive access where none is implemented (R190, R191) -/
  noGMon         : NoGMonPolicy
  /-- the observers outside the Shareability domain of a location; all others are inside (D15) -/
  outOfDomain    : List ObserverRange
  /-- the non-PE observers and locations exempt from the guaranteed clear (R75) -/
  exemptNonPE    : List ObserverRange
  /-- how many non-PE observers there are (R6 `OBS`) -/
  observers      : Nat
  /-- the local monitor holds a physical address (R22, R61) -/
  localHoldsPA   : Bool
  choices        : Choices
  /-- FEAT_LSE is implemented: it selects only the strength of the forward-progress statement (R226, D25) -/
  haveLSE        : Bool
  /-- EL2 is implemented (R6) -/
  haveEL2        : Bool
  /-- the second stage of translation is enabled (R193) -/
  stage2Enabled  : Bool
  /-- the Long-descriptor translation table format is in use, else the Short-descriptor format (R192) -/
  longDescriptor : Bool
  /-- the translation regime is the Non-secure PL1&0 regime (R193) -/
  nonSecurePL10  : Bool
  /-- the MMU fault comes from the memory type defined in the first stage of translation (R193) -/
  mmuCauseStage1 : Bool
  /-- data accesses are big-endian (R55) -/
  bigEndian      : Bool
  /-- the treatment of a mismatched pair (R141) -/
  pairPolicy     : PairPolicy
deriving DecidableEq, Repr

/-- Where in a step a free value is drawn. Together with the step's counter and a PE or byte index it names one
occurrence, so that two occurrences share no value (D9, log 7). -/
inductive Site where
  /-- `choose ID<n>`; `call` tells two observations of one step apart -/
  | choice (id : ChoiceId) (call : Nat)
  /-- an UNKNOWN local monitor (UNK1, UNK2, UNK4) -/
  | lmUnknown
  /-- an UNKNOWN global monitor state (UNK1, UNK4) -/
  | gmUnknown
  /-- an UNKNOWN status value (UNK3, UNK4) -/
  | status
  /-- UNKNOWN data, the first or the second range (UNK4) -/
  | data (range : Nat)
  /-- whether a mismatched pair shows the ordinary outcome or the listed one (R141) -/
  | pairOrdinary
  /-- which of the six no-global-monitor effects are shown (R191) -/
  | noGMonEffect
  /-- whether a store took place where only the status is stated (R191) -/
  | noGMonStore
  /-- whether a waiting WFE ends without an event (R163) -/
  | wfeSpontaneous
  /-- whether an event of another agent clears a local monitor (R174 to R177) -/
  | mayClearLocal
  /-- whether an event of another agent clears a global monitor (R174 to R177) -/
  | mayClearGlobal
  /-- the part of a fault-reporting register that no rule states (R192, R198) -/
  | report
  /-- the Exception level of an MMU fault outside the stated regime (R193) -/
  | route
deriving DecidableEq, Repr

/-- The kinds of instruction that R227 and R228 do not name and of which R166 says that it is open whether they count
among the kinds named (91_not_in_source.md N15). -/
inductive EventKind where
  | wfe
  | sev
  | sevl
deriving DecidableEq, Repr

/-- Whether an event instruction counts as one of the kinds R227 and R228 bar: open in the source (R166, N15), so a free
value. DESIGN CHOICE (log 38). -/
opaque Config.countsAsBarred : EventKind → Bool

/-- A free Boolean. The arguments are the step's counter, the site, and a PE or effect index. -/
opaque Config.freeBool : Nat → Site → Nat → Bool

/-- A free 32-bit value: an UNKNOWN status is any 32-bit value (R152). -/
opaque Config.freeWord : Nat → Site → Nat → Word

/-- A free byte: UNKNOWN data (R141). -/
opaque Config.freeByte : Nat → Site → Nat → Byte

/-- A free block index: the mark of an UNKNOWN monitor may be any block (D11). -/
opaque Config.freeBlock : Nat → Site → Nat → Nat

end Sys2Proof
end

