-- ==== Sys2Proof/Syntax.lean ====
section
/-! DEFINITION. The instructions: one constructor per row of spec/opcode_table.json.
A constructor's name is the row's mnemonic followed by `A` (A32), `T` (T32) or `W` (the 32-bit T32 form of a
hint, whose 16-bit form is `T`). -/

namespace Sys2Proof

/-- The two instruction sets of Table E2-6 (R100). -/
inductive ISet where
  | a32
  | t32
deriving DecidableEq, Repr

/-- The fifteen conditions of an A32 instruction's `cond` field (R103). The value 0b1111 is none of them: it
selects the unconditional space. Their names and meanings are PRESUMED (log 11). -/
inductive Cond where
  | eq | ne | cs | cc | mi | pl | vs | vc | hi | ls | ge | lt | gt | le | al
deriving DecidableEq, Repr

/-- The instructions (R100, R106). Operands as in R105 and R109: `rt`, `rt2` data registers, `rd` the status
register, `rn` the base register, `imm8` the T32 word offset. The A32 doubleword forms name `rt` alone, the
second register being `rt + 1` (R103). -/
inductive Instr where
  -- Load-Exclusive, A32
  | ldrexbA (c : Cond) (rt rn : Reg)
  | ldaexbA (c : Cond) (rt rn : Reg)
  | ldrexhA (c : Cond) (rt rn : Reg)
  | ldaexhA (c : Cond) (rt rn : Reg)
  | ldrexA (c : Cond) (rt rn : Reg)
  | ldaexA (c : Cond) (rt rn : Reg)
  | ldrexdA (c : Cond) (rt rn : Reg)
  | ldaexdA (c : Cond) (rt rn : Reg)
  -- Store-Exclusive, A32
  | strexbA (c : Cond) (rd rt rn : Reg)
  | stlexbA (c : Cond) (rd rt rn : Reg)
  | strexhA (c : Cond) (rd rt rn : Reg)
  | stlexhA (c : Cond) (rd rt rn : Reg)
  | strexA (c : Cond) (rd rt rn : Reg)
  | stlexA (c : Cond) (rd rt rn : Reg)
  | strexdA (c : Cond) (rd rt rn : Reg)
  | stlexdA (c : Cond) (rd rt rn : Reg)
  -- Clear-Exclusive, A32
  | clrexA
  -- Load-Exclusive, T32
  | ldrexbT (rt rn : Reg)
  | ldaexbT (rt rn : Reg)
  | ldrexhT (rt rn : Reg)
  | ldaexhT (rt rn : Reg)
  | ldrexT (rt rn : Reg) (imm8 : BitVec 8)
  | ldaexT (rt rn : Reg)
  | ldrexdT (rt rt2 rn : Reg)
  | ldaexdT (rt rt2 rn : Reg)
  -- Store-Exclusive, T32
  | strexbT (rd rt rn : Reg)
  | stlexbT (rd rt rn : Reg)
  | strexhT (rd rt rn : Reg)
  | stlexhT (rd rt rn : Reg)
  | strexT (rd rt rn : Reg) (imm8 : BitVec 8)
  | stlexT (rd rt rn : Reg)
  | strexdT (rd rt rt2 rn : Reg)
  | stlexdT (rd rt rt2 rn : Reg)
  -- Clear-Exclusive, T32
  | clrexT
  -- the event instructions: A32, 16-bit T32, 32-bit T32
  | wfeA (c : Cond)
  | sevA (c : Cond)
  | sevlA (c : Cond)
  | wfeT
  | sevT
  | sevlT
  | wfeW
  | sevW
  | sevlW
deriving DecidableEq, Repr

/-- Why a word is no instruction of the table. -/
inductive DecodeError where
  /-- fewer bytes than the instruction's length (R102) -/
  | truncated
  /-- the word matches no row of the table (R106, R112) -/
  | noRow
  /-- the word matches a row and breaks a restriction of R107 -/
  | restricted
deriving DecidableEq, Repr

end Sys2Proof
end

