-- ==== Sys2Proof/Machine/State.lean ====
section
/-! DEFINITION. The state of the machine as plain data (R21), the reasons a step can stop, and the state after
reset (R36, R220). -/

namespace Sys2Proof.Machine

/-- An Exclusives monitor, or one PE's state machine of the global monitor (R22, R23): Open Access (clear), or
Exclusive Access (set) with the index of the marked block (R52). -/
inductive Monitor where
  | openAccess
  | exclusive (b : Nat)
deriving DecidableEq, Repr

/-- The kinds of access Translate is asked about (R51). -/
inductive AccessKind where
  | read
  | write
deriving DecidableEq, Repr

/-- The record of a Load-Exclusive (R26): virtual address, physical address, transaction size, attributes. -/
structure LoadRecord where
  va   : Word
  pa   : Nat
  n    : Nat
  attr : MemAttr
deriving DecidableEq, Repr

/-- Which of the CONSTRAINED UNPREDICTABLE pairings a Store-Exclusive is (R141). -/
inductive PairKind where
  /-- CU1: another virtual address -/
  | va
  /-- CU2: another transaction size -/
  | size
  /-- CU3: other memory attributes -/
  | attr
deriving DecidableEq, Repr

/-- The Exception level an exception is taken to (R193). -/
inductive ExceptionLevel where
  | el1
  | el2
deriving DecidableEq, Repr

/-- Why a PE's run ended before the end of its program (R198, D16). -/
inductive EndCause where
  /-- model fault: an exclusive access not aligned to its size (R56); the address -/
  | unalignedExclusive (va : Word)
  /-- model fault: a mismatched pair under the policy `fault` (R141); which case -/
  | unpredictablePair (kind : PairKind)
  /-- model fault: no global monitor, and no effect configured (R191); the address -/
  | noGlobalMonitor (va : Word)
  /-- exception: an External abort (R190, R197); the address -/
  | externalAbort (va : Word)
  /-- exception: the IMPLEMENTATION DEFINED MMU fault (R190, R192); the address and the level it is taken to (R193) -/
  | implDefMMUFault (va : Word) (level : ExceptionLevel)
  /-- exception: a fault of Translate (R197, D21); the address -/
  | translationFault (va : Word)
deriving DecidableEq, Repr

/-- Where a thread stands between a Load-Exclusive and its Store-Exclusive: the model's own record of what D21, R177 and
R235 speak of (log 24). -/
inductive PairStatus where
  /-- no Load-Exclusive awaits its Store-Exclusive -/
  | closed
  /-- a Load-Exclusive of this virtual address has executed, its Store-Exclusive has not -/
  | waiting (va : Word)
  /-- since then the physical address was changed by a break-before-make sequence -/
  | moved (va : Word)
  /-- and since that, a write reached the block of the new physical address -/
  | written (va : Word)
deriving DecidableEq, Repr

/-- The address of the Load-Exclusive that awaits its Store-Exclusive. -/
def PairStatus.address : PairStatus → Option Word
  | .closed => none
  | .waiting va | .moved va | .written va => some va

/-- One PE (R21). -/
structure PE where
  /-- the general registers `x[0] .. x[15]` (R28) -/
  regs    : Vector Word 16
  /-- index of the next instruction in `program` (R29) -/
  pc      : Nat
  /-- the program text, one encoded instruction a position, outside Mem (R29, R80, log 8) -/
  program : List (List Byte)
  /-- CPSR: the flags the conditions read, the instruction set bit, the IT state (R30, R31, R102; log 5) -/
  cpsr    : Word
  /-- FPSCR (R30, R31) -/
  fpscr   : Word
  /-- Data Fault Status Register (R31, R192) -/
  dfsr    : Word
  /-- Data Fault Address Register (R192) -/
  dfar    : Word
  /-- Hyp Syndrome Register (R31, R192) -/
  hsr     : Word
  /-- Hyp Data Fault Address Register (R192) -/
  hdfar   : Word
  /-- the local Exclusives monitor (R22) -/
  lm      : Monitor
  /-- this PE's state machine of the global Exclusives monitor (R23) -/
  gm      : Monitor
  /-- the Event register: an event is held (R25) -/
  ev      : Bool
  /-- the last Load-Exclusive of the thread that runs here (R26) -/
  lx      : Option LoadRecord
  /-- between a Load-Exclusive and its Store-Exclusive: the model's own (log 24) -/
  pair    : PairStatus
  /-- the cause that ended this PE's run, if one did (D16, D26) -/
  ended   : Option EndCause
deriving DecidableEq, Repr

/-- A region of the map Attr (R27): its attributes, and whether a read or a write there is answered by an External
abort (R197, log 22). -/
structure AttrRegion where
  base        : Nat
  len         : Nat
  attr        : MemAttr
  abortsRead  : Bool
  abortsWrite : Bool
deriving DecidableEq, Repr

/-- One mapping of Translate (R51, D21, log 23): the virtual addresses `vaBase .. vaBase+len-1` of one PE, or of
every PE (`none`), for accesses of one kind, or of both (`none`), go to `paBase ..`, with attributes of the mapping's
own or (`none`) those of the location. -/
structure Mapping where
  pe       : Option Nat
  kind     : Option AccessKind
  vaBase   : Nat
  len      : Nat
  paBase   : Nat
  attr     : Option MemAttr
  readable : Bool
  writable : Bool
deriving DecidableEq, Repr

/-- What a data or unified cache maintenance instruction names (R175). -/
inductive CacheTarget where
  | address (pa : Nat)
  | setWayOrAll
deriving DecidableEq, Repr

/-- The general, status and control registers that a foreign instruction may write. -/
structure RegisterFile where
  regs  : Vector Word 16
  pc    : Nat
  cpsr  : Word
  fpscr : Word
deriving DecidableEq, Repr

/-- The kinds of instruction outside the table that have no monitor effect of their own (R77, R180, R227, R228; D4). -/
inductive ForeignKind where
  /-- register-to-register data processing, comparisons (with their changes of the flags), direct branches without
  link -/
  | registerOnly
  /-- a software prefetch of this address -/
  | prefetch (va : Word)
  /-- a System register write, with the values it leaves in DFSR, DFAR, HSR and HDFAR -/
  | systemRegisterWrite (dfsr dfar hsr hdfar : Word)
  | addressTranslation
  | exceptionGenerating
  | isb
  | indirectBranch
  | branchWithLink
deriving DecidableEq, Repr

/-- The operations other than the table's instructions that agents perform (43_other_operations.md; R195, R196;
R161; log 28). -/
inductive Action where
  /-- R170: a write of the low `n` bytes of `v` by PE `p` that is no Store-Exclusive -/
  | store (p : Nat) (va : Word) (n : Nat) (v : BitVec 64)
  /-- R171: a read by PE `p` that is no Load-Exclusive -/
  | load (p : Nat) (va : Word) (n : Nat)
  /-- R172: a write of the low `n` bytes of `v` by the non-PE observer `k`; no rule bounds `n` -/
  | observerWrite (k pa n v : Nat)
  /-- R173: a read by the non-PE observer `k` -/
  | observerRead (k pa n : Nat)
  /-- R174: a preload with intent to write by PE `q` -/
  | pldw (q : Nat) (va : Word)
  /-- R175: data or unified cache maintenance by PE `q` -/
  | dcacheMaint (q : Nat) (target : CacheTarget)
  /-- R176: instruction cache invalidate all, by PE `q` -/
  | icacheInvalidateAll (q : Nat)
  /-- R176: instruction cache invalidate by virtual address, by PE `q` -/
  | icacheInvalidateVA (q : Nat) (va : Word)
  /-- R177: TLB invalidation by PE `q` -/
  | tlbInvalidate (q : Nat)
  /-- R177, R235: the translation changes, with or without a break-before-make sequence -/
  | remap (maps : List Mapping) (breakBeforeMake : Bool)
  /-- R178: `SpontaneousClearLocal(m)` -/
  | spontaneousClearLocal (m : Nat)
  /-- R178: `SpontaneousClearGlobal(m)` -/
  | spontaneousClearGlobal (m : Nat)
  /-- R195: `TakeDataAbort(p)` -/
  | takeDataAbort (p : Nat)
  /-- R196: `ExceptionReturn(p)`, to the same thread -/
  | exceptionReturn (p : Nat)
  /-- R196: `ExceptionReturn(p, lx)`, to a thread whose record is `lx`; `pair` is that thread's own (log 24) -/
  | exceptionReturnTo (p : Nat) (lx : Option LoadRecord) (pair : PairStatus)
  /-- R161: a thread switch without an exception return installs the new thread's record; `pair` as above -/
  | installThread (p : Nat) (lx : Option LoadRecord) (pair : PairStatus)
  /-- R180, D4: an instruction outside the table that has no monitor effect; `u` are the registers after it, but of a
  barrier, which is a no-op (R77) -/
  | foreign (p : Nat) (kind : ForeignKind) (u : RegisterFile)
deriving DecidableEq, Repr

/-- One turn of the schedule (R33, log 12). -/
inductive Turn where
  /-- PE `p` executes its next instruction -/
  | run (p : Nat)
  /-- an agent performs an action -/
  | act (a : Action)
deriving DecidableEq, Repr

/-- Memory: the bytes that differ from what an unlisted address reads as, by rising address (R27, log 6). -/
abbrev Memory := List Host.Cell

/-- The whole state (R21), with the configuration and the launch parameters (R6, R33; log 1). -/
structure State where
  /-- the configuration; no step changes it (R6) -/
  cfg    : Config
  /-- Mem (R27) -/
  mem    : Memory
  /-- Attr (R27) -/
  attrs  : List AttrRegion
  /-- Translate (R51) -/
  xlat   : List Mapping
  /-- the PEs; their number is NPE (R6) -/
  pes    : List PE
  /-- the executing PE: the model's own (log 12) -/
  cur    : Nat
  /-- the turns to come; where there are none, `cur` executes: the model's own (log 12) -/
  agenda : List Turn
  /-- the step's counter, to which free values are applied: the model's own (log 7) -/
  fresh  : Nat
deriving DecidableEq, Repr

/-- A choice fixed to a function of the state (D9, `ChoiceSetting.ofState`): which function is open, so it is a free
value. The arguments are the choice, the state, the observation's number and the PE. -/
opaque Config.choiceOfState : ChoiceId → State → Nat → Nat → Bool

/-- Why the machine stops with a fault. Raised by `step` only. -/
inductive Fault where
  /-- a turn was given to a PE whose run has ended with this cause (D16, D26). Safe: the hardware goes on in a
  handler of which the spec says nothing -/
  | runEnded (p : Nat) (cause : EndCause)
  /-- a turn was given to a PE that is past the end of its program (D26). Safe -/
  | programEnd (p : Nat)
deriving DecidableEq, Repr

/-- Why a step has no meaning. -/
inductive Refusal where
  /-- raised by `exec` for an instruction without a meaning: no arm of this model does. Safe -/
  | notModelled (mnemonic : String)
  /-- raised by `step`: the bytes at the PC are no instruction of the table (R107, R112). Safe -/
  | invalidInstruction (reason : DecodeError)
  /-- raised by `step`: the configuration breaks a constraint of R6 (ID1, R191), there is no PE, or a mapping breaks the
  alignment (logs 23, 37, 39). Safe -/
  | badConfiguration
  /-- raised by `step`: the agenda names a PE or an observer that does not exist (R20). Safe -/
  | noSuchAgent
  /-- raised by `step`: an action's access has no byte, or a PE's plain store more than 8 (R170; log 28). Safe -/
  | badAccessSize
  /-- raised by `step`: an action's physical address lies outside the `PA_BITS` wide space (R27). Safe -/
  | noSuchAddress
  /-- raised by `step`: the translation of a Load-Exclusive's address changed without break-before-make (R235). Safe -/
  | translationChanged
  /-- raised by `step`: a thread's record is none that a Load-Exclusive could have left (R26). Safe -/
  | badLoadRecord
deriving DecidableEq, Repr

/-- A PE after reset (R36; logs 3, 4, 5, 8). The monitors and the Event register are as in the premise
MonitorsOpenAtStart (D12): DESIGN CHOICE. General registers 0: DESIGN CHOICE. CPSR 0x1D3 (Supervisor mode, A, I and
F set) and zero in the other system registers: PRESUMED, the family's. -/
def PE.reset : PE where
  regs := Vector.replicate 16 0
  pc := 0
  program := []
  cpsr := 0x000001D3#32
  fpscr := 0
  dfsr := 0
  dfar := 0
  hsr := 0
  hdfar := 0
  lm := .openAccess
  gm := .openAccess
  ev := false
  lx := none
  pair := .closed
  ended := none

/-- Normal memory, Inner Shareable, Inner and Outer Write-Back: one of the two types for which a global monitor is
guaranteed (R190). -/
def sharedWriteBack : MemAttr where
  memType := .normal
  share := .innerShareable
  inner := .writeBack
  outer := .writeBack

/-- No choice is fixed (D9). -/
def choicesOpen : Choices where
  id2 := .drawn
  id3 := .drawn
  id4 := .drawn
  id5 := .drawn
  id6 := .drawn
  id7 := .drawn
  id8 := .drawn
  id9 := .drawn
  id10 := .drawn
  id11 := .drawn
  id12 := .drawn
  id16 := .drawn
  id19 := .drawn

/-- The configuration `State.reset` runs under. DESIGN CHOICE throughout (log 2): the spec leaves every entry OPEN;
statements are made for every configuration. -/
def initialConfig : Config where
  ergLog2 := 4
  ctrHasErg := true
  ctrOther := 0
  paBits := 48
  defaultAttr := sharedWriteBack
  gmon := []
  noGMon := .drawn
  outOfDomain := []
  exemptNonPE := []
  observers := 1
  localHoldsPA := true
  choices := choicesOpen
  haveLSE := false
  haveEL2 := true
  stage2Enabled := false
  longDescriptor := true
  nonSecurePL10 := true
  mmuCauseStage1 := true
  bigEndian := false
  pairPolicy := .envelope

/-- The machine right after reset (R36, R220; logs 2 to 8, 12). -/
def State.reset : State where
  cfg := initialConfig
  mem := []
  attrs := []
  xlat := []
  pes := [PE.reset, PE.reset]
  cur := 0
  agenda := []
  fresh := 0

end Sys2Proof.Machine
end

