-- ==== Sys2Proof/Machine/Ops.lean ====
section
/-! DEFINITION. The named operations over memory, registers, attributes, translation and monitors, and taking and
returning from an exception. The rules are those of 20_memory.md and 60_exceptions.md unless another is named. -/

namespace Sys2Proof.Machine

/-! ## Memory (R27, log 6) -/

/-- What an address that memory does not list reads as. DESIGN CHOICE (log 6). -/
def fillByte : Byte := 0

/-- The byte at an address. -/
def memRead : Memory → Nat → Byte
  | [], _ => fillByte
  | (k, v) :: m, a => if k = a then v else memRead m a

/-- Write one byte, keeping the canonical form: a byte equal to what an unlisted address reads as is not listed. -/
def memWrite : Memory → Nat → Byte → Memory
  | [], a, b => if b = fillByte then [] else [(a, b)]
  | (k, v) :: m, a, b =>
    if a < k then (if b = fillByte then (k, v) :: m else (a, b) :: (k, v) :: m)
    else if a = k then (if b = fillByte then m else (a, b) :: m)
    else (k, v) :: memWrite m a b

/-- The canonical form: addresses strictly rising, no byte listed that an unlisted address reads as. -/
def memWf : Memory → Bool
  | [] => true
  | (k, v) :: m => v ≠ fillByte && m.all (fun c => k < c.1) && memWf m

/-- The `n` bytes at `a .. a+n-1`. -/
def memReadBytes (m : Memory) (a n : Nat) : List Byte := (List.range n).map fun i => memRead m (a + i)

/-- Write the bytes `bs` at `a ..`. -/
def memWriteBytes : Memory → Nat → List Byte → Memory
  | m, _, [] => m
  | m, a, b :: bs => memWriteBytes (memWrite m a b) (a + 1) bs

/-! ## Byte order (R9, R55, log 29) -/

/-- The number whose bytes, the least significant first, are `bs`. -/
def numberLE : List Byte → Nat
  | [] => 0
  | b :: bs => b.toNat + 256 * numberLE bs

/-- The `n` least significant bytes of a number, the least significant first. -/
def bytesLE : Nat → Nat → List Byte
  | 0, _ => []
  | n + 1, v => BitVec.ofNat 8 v :: bytesLE n (v / 256)

/-- The number the bytes at rising addresses stand for. -/
def assemble (big : Bool) (bs : List Byte) : Nat := numberLE (if big then bs.reverse else bs)

/-- The bytes at rising addresses that stand for the low `n` bytes of a number. -/
def disassemble (big : Bool) (n v : Nat) : List Byte :=
  if big then (bytesLE n v).reverse else bytesLE n v

/-- `MemRead(pa, n)` for `n ≤ 4`, zero-extended to a register (R9, R55, log 31). -/
def memNumber (s : State) (pa n : Nat) : Word :=
  BitVec.ofNat 32 (assemble s.cfg.bigEndian (memReadBytes s.mem pa n))

/-- `MemWrite` of bytes at rising physical addresses (R9). It has no monitor effect of its own. -/
def State.writeBytes (s : State) (pa : Nat) (bs : List Byte) : State :=
  { s with mem := memWriteBytes s.mem pa bs }

/-! ## PEs -/

/-- PE `p` (an out-of-range `p` reads as a PE after reset; `step` refuses such a turn). -/
def State.pe (s : State) (p : Nat) : PE := s.pes[p]?.getD PE.reset

/-- `NPE` (R6). -/
def State.npe (s : State) : Nat := s.pes.length

/-- Change PE `p` only. -/
def State.updatePE (s : State) (p : Nat) (f : PE → PE) : State := { s with pes := s.pes.modify p f }

/-- Change every PE, each by its number. -/
def State.updateAll (s : State) (f : Nat → PE → PE) : State := { s with pes := s.pes.mapIdx f }

/-- Read general register `r` of PE `p`: `x[r]` (R9, R28). -/
def State.reg (s : State) (p : Nat) (r : Reg) : Word := (s.pe p).regs[r]

/-- Write general register `r` of PE `p`: `x[r] <- v` (R9, R28). -/
def State.setReg (s : State) (p : Nat) (r : Reg) (v : Word) : State :=
  s.updatePE p fun x => { x with regs := x.regs.set r v }

/-- A step is over: the next step draws other free values (log 7). -/
def State.tick (s : State) : State := { s with fresh := s.fresh + 1 }

/-! ## The configuration read by the rules (R6) -/

/-- `v` lies in the `len` values from `base`. -/
def inRange (base len v : Nat) : Bool := base ≤ v && v < base + len

/-- A range holds an address with these attributes. -/
def rangeCovers (r : PaRange) (pa : Nat) (attr : MemAttr) : Bool :=
  inRange r.base r.len pa &&
    match r.attr with
    | none => true
    | some a => a == attr

/-- "has, or is treated as if it has, a Shareability attribute of Inner Shareable or Outer Shareable" (R27). -/
def shareable (attr : MemAttr) : Bool := attr.share ≠ .nonShareable

/-- The two memory types for which a global monitor is architecturally guaranteed (R190). -/
def guaranteedGMon (attr : MemAttr) : Bool :=
  attr.memType = .normal && shareable attr && attr.inner = .writeBack && attr.outer = .writeBack

/-- `GMon(pa, attr)` (R6, R190). -/
def gMon (cfg : Config) (pa : Nat) (attr : MemAttr) : Bool :=
  guaranteedGMon attr || cfg.gmon.any fun r => rangeCovers r pa attr

/-- `InDomain(o, pa)` (R6, D15, log 36): no observer but the owning PE is in the domain of a Non-shareable location. -/
def inDomain (cfg : Config) (o : Observer) (pa : Nat) (attr : MemAttr) : Bool :=
  shareable attr && !cfg.outOfDomain.any fun r => r.who == o && rangeCovers r.range pa attr

/-- The guaranteed clear of other PEs' global marks does not cover this write: a non-PE observer for which
`ExemptNonPE(o, pa)` holds (R70, R75, log 36). -/
def exempt (cfg : Config) (o : Observer) (pa : Nat) (attr : MemAttr) : Bool :=
  match o with
  | .pe _ => false
  | .device _ => cfg.exemptNonPE.any fun r => r.who == o && rangeCovers r.range pa attr

/-- The setting of a choice. Where the local monitor holds no PA, ID2 is fixed to true (R61). -/
def choiceSetting (cfg : Config) (id : ChoiceId) : ChoiceSetting :=
  match id with
  | .id2 => if cfg.localHoldsPA then cfg.choices.id2 else .fixed true
  | .id3 => cfg.choices.id3
  | .id4 => cfg.choices.id4
  | .id5 => cfg.choices.id5
  | .id6 => cfg.choices.id6
  | .id7 => cfg.choices.id7
  | .id8 => cfg.choices.id8
  | .id9 => cfg.choices.id9
  | .id10 => cfg.choices.id10
  | .id11 => cfg.choices.id11
  | .id12 => cfg.choices.id12
  | .id16 => cfg.choices.id16
  | .id19 => cfg.choices.id19

/-- The constant to which the configuration fixes a choice, if it does. -/
def fixedChoice (cfg : Config) (id : ChoiceId) : Option Bool :=
  match choiceSetting cfg id with
  | .fixed b => some b
  | .drawn | .ofState => none

/-- `choose ID<n>` (R9, D9): the constant, the function of the state (without the model's step counter and agenda), or a
free Boolean of this occurrence: this step, observation `call`, PE `m`. -/
def choose (s : State) (id : ChoiceId) (call m : Nat) : Bool :=
  match choiceSetting s.cfg id with
  | .fixed b => b
  | .ofState => Config.choiceOfState id { s with fresh := 0, agenda := [] } call m
  | .drawn => Config.freeBool s.fresh (.choice id call) m

/-- `Block(pa) = pa >> a` (R52). -/
def block (cfg : Config) (pa : Nat) : Nat := pa >>> cfg.ergLog2

/-- `b` is one of `Blocks(pa, n)`, the blocks an access of `n` bytes at `pa` touches (R54). -/
def inBlocks (cfg : Config) (pa n b : Nat) : Bool :=
  block cfg pa ≤ b && b ≤ block cfg (pa + n - 1)

/-- The granule field of CTR: log2 of the granule in words where CTR identifies it, else 0 (R31, GK6, log 5). -/
def ctrErg (cfg : Config) : BitVec 4 := if cfg.ctrHasErg then BitVec.ofNat 4 (cfg.ergLog2 - 2) else 0

/-- The register CTR: ERG in bits [23:20], the rest as configured (R31, log 5). -/
def ctr (cfg : Config) : Word :=
  cfg.ctrOther.extractLsb' 24 8 ++ ctrErg cfg ++ cfg.ctrOther.extractLsb' 0 20

/-- The `a` that software must assume: read from CTR, or the maximum, 512 words (R53, R221). -/
def softwareErgLog2 (cfg : Config) : Nat := if ctrErg cfg = 0 then 11 else (ctrErg cfg).toNat + 2

/-- Some effect is named (R6: a non-empty subset). -/
def someEffect (e : NoGMonEffects) : Bool :=
  e.externalAbort || e.mmuFault || e.asNop || e.loadAsNonShareable || e.storeAsNonShareable || e.statusUnknown

/-- The constraints of R6 and of 93_implementation_defined.md part 1: the granule (ID1), a non-empty configured
`NoGMonBehaviour`, and for a local monitor that holds no PA neither ID2 fixed to false nor own stores told apart by their
address (90_conflicts.md C10). Two are the model's own: the bound `ergLog2 ≤ paBits`, that the space holds a marked
block, since R6 leaves PA_BITS open, DESIGN CHOICE (log 37); and no second stage without EL2, since R6 leaves the two
open and ties neither to the other, DESIGN CHOICE (log 39). -/
def configOk (cfg : Config) : Bool :=
  4 ≤ cfg.ergLog2 && cfg.ergLog2 ≤ 11 && cfg.ergLog2 ≤ cfg.paBits &&
  (match cfg.noGMon with
    | .fixed e => someEffect e
    | _ => true) &&
  (!cfg.stage2Enabled || cfg.haveEL2) &&
  (cfg.localHoldsPA || (cfg.choices.id2 ≠ .fixed false && cfg.choices.id3 = cfg.choices.id4))

/-! ## Attributes and translation -/

/-- The region of Attr that lists a location. -/
def regionAt (s : State) (pa : Nat) : Option AttrRegion := s.attrs.find? fun r => inRange r.base r.len pa

/-- `Attr(pa)` (R27). -/
def attrAt (s : State) (pa : Nat) : MemAttr :=
  match regionAt s pa with
  | some r => r.attr
  | none => s.cfg.defaultAttr

/-- A read of the `n` bytes at `pa` reports an External abort (R197, log 22). -/
def readAborts (s : State) (pa n : Nat) : Bool :=
  (List.range n).any fun i => (regionAt s (pa + i)).any (·.abortsRead)

/-- A write of the `n` bytes at `pa` reports an External abort (R197, log 22). -/
def writeAborts (s : State) (pa n : Nat) : Bool :=
  (List.range n).any fun i => (regionAt s (pa + i)).any (·.abortsWrite)

/-- A mapping serves this virtual address of PE `p` for this kind of access. -/
def mappingCovers (m : Mapping) (p va : Nat) (kind : AccessKind) : Bool :=
  inRange m.vaBase m.len va && m.pe.all (· == p) && m.kind.all (· == kind)

/-- A mapping keeps the alignment of every exclusive access (R54: an aligned access lies in one block). -/
def mappingOk (m : Mapping) : Bool := m.vaBase % 8 == m.paBase % 8

/-- The `PA_BITS` wide physical address space (R27). -/
def inSpace (cfg : Config) (pa n : Nat) : Bool := pa + n ≤ 2 ^ cfg.paBits

/-- `Translate(p, va, kind)` by a list of mappings: the first that covers the address, the identity where none does
(R51, D21, log 23); none is a fault. -/
def translateBy (s : State) (maps : List Mapping) (p : Nat) (va : Word) (kind : AccessKind) : Option (Nat × MemAttr) :=
  match maps.find? fun m => mappingCovers m p va.toNat kind with
  | none => if inSpace s.cfg va.toNat 1 then some (va.toNat, attrAt s va.toNat) else none
  | some m =>
    let pa := m.paBase + (va.toNat - m.vaBase)
    let allowed := match kind with
      | .read => m.readable
      | .write => m.writable
    if allowed && inSpace s.cfg pa 1 then some (pa, m.attr.getD (attrAt s pa)) else none

/-- `Translate(p, va, kind)` (R51). -/
def translate (s : State) (p : Nat) (va : Word) (kind : AccessKind) : Option (Nat × MemAttr) :=
  translateBy s s.xlat p va kind

/-! ## Monitors: clearing and marking (R58 to R67) -/

/-- A monitor is set (R23). -/
def Monitor.isSet : Monitor → Bool
  | .openAccess => false
  | .exclusive _ => true

/-- `ClearGlobal` (R58): a change from Exclusive to Open Access puts an event in the Event register. -/
def clearGlobal (x : PE) : PE :=
  match x.gm with
  | .openAccess => x
  | .exclusive _ => { x with gm := .openAccess, ev := true }

/-- `ClearLocal` (R59). -/
def clearLocal (x : PE) : PE := { x with lm := .openAccess }

/-- `if GM[p] = Excl(_) and b then ClearGlobal(p)`: an open monitor asks for no choice. -/
def clearGlobalIf (b : Bool) (x : PE) : PE :=
  match x.gm with
  | .openAccess => x
  | .exclusive _ => if b then clearGlobal x else x

/-- `if b then ClearLocal`. -/
def clearLocalIf (b : Bool) (x : PE) : PE := if b then clearLocal x else x

/-- `MarkLocal` (R65). -/
def markLocal (b : Nat) (x : PE) : PE := { x with lm := .exclusive b }

/-- `MarkGlobal` (R66): the mark moves without passing through Open Access, so no event. -/
def markGlobal (b : Nat) (x : PE) : PE := { x with gm := .exclusive b }

/-- The mark `b` of a local monitor covers one of the blocks of an access. A monitor that holds no PA reads no mark
(R22, log 19). -/
def localCovers (cfg : Config) (pa n b : Nat) : Bool := cfg.localHoldsPA && inBlocks cfg pa n b

/-- The result of `LocalCheck` (R60, R61); the local monitor is Open afterwards in every case. -/
def localCheck (s : State) (p pa : Nat) : Bool :=
  match (s.pe p).lm with
  | .openAccess => false
  | .exclusive b => if block s.cfg pa = b then true else choose s .id2 0 p

/-- The result of `GlobalCheck` (R62 to R64). -/
def globalCheck (s : State) (p pa : Nat) : Bool :=
  match (s.pe p).gm with
  | .openAccess => false
  | .exclusive g => if block s.cfg pa = g then true else choose s .id8 0 p

/-- Whether a Store-Exclusive that reached the global monitor clears the PE's own state machine: ID7 after a store
to the marked block (R62), ID9 where another block is marked (R64). -/
def globalCheckClears (s : State) (p pa : Nat) : Bool :=
  match (s.pe p).gm with
  | .openAccess => false
  | .exclusive g => if block s.cfg pa = g then choose s .id7 0 p else choose s .id9 0 p

/-- The guarantee of R177 and R235: a Store-Exclusive whose address was moved by a break-before-make sequence, and whose
new address was written since, does not pass its monitor check. Where the local monitor holds no PA and the location is
Non-shareable the rule leaves this to the draw of the TLB invalidation (log 24). The attributes are those of the access:
that a location treated as Non-shareable (R191) keeps the guarantee is the model's reading, DESIGN CHOICE (log 40). -/
def movedAndWritten (s : State) (p : Nat) (va : Word) (attr : MemAttr) : Bool :=
  (s.pe p).pair == .written va && (shareable attr || s.cfg.localHoldsPA)

/-- An UNKNOWN monitor (D11): Open, or Exclusive with any block. -/
def freeMonitor (n : Nat) (site : Site) (p : Nat) : Monitor :=
  if Config.freeBool n site p then .exclusive (Config.freeBlock n site p) else .openAccess

/-- The local monitor becomes UNKNOWN. -/
def unknownLocal (n p : Nat) (x : PE) : PE := { x with lm := freeMonitor n .lmUnknown p }

/-- The global monitor state becomes UNKNOWN, with the event if it leaves Exclusive Access (R195). -/
def unknownGlobal (n p : Nat) (x : PE) : PE :=
  { x with
    gm := freeMonitor n .gmUnknown p
    ev := x.ev || (x.gm.isSet && !(freeMonitor n .gmUnknown p).isSet) }

/-! ## The effect of a write on every monitor (R70 to R75) -/

/-- The kinds of write `ObserveWrite` tells apart (R70). -/
inductive WriteKind where
  | storeExcl
  | store
deriving DecidableEq, Repr

/-- Whether a write by `o ≠ PE m` clears PE `m`'s global mark on a written block: guaranteed for an observer in the
Shareability domain (R71), else by choice (R70, R74, R75). -/
def clearsOtherGlobal (s : State) (call : Nat) (o : Observer) (pa : Nat) (attr : MemAttr) (m : Nat) : Bool :=
  if shareable attr && inDomain s.cfg o pa attr && !exempt s.cfg o pa attr then true
  else choose s (if shareable attr then .id16 else .id11) call m

/-- A write of `len` bytes at `pa` is noted for PE `m` where its pair's address was moved and the write reaches the block
of the new physical address (R177, log 24). -/
def noteWrite (s : State) (pa len m : Nat) (x : PE) : PE :=
  match x.pair with
  | .moved va =>
    match translate s m va .write with
    | some (q, _) => if inBlocks s.cfg pa len (block s.cfg q) then { x with pair := .written va } else x
    | none => x
  | .closed | .waiting _ | .written _ => x

/-- What a write of `len` bytes at `pa` by an observer other than PE `m` does to PE `m` (R70 to R72, R74, R75). -/
def observeOther (s : State) (call : Nat) (o : Observer) (pa len : Nat) (attr : MemAttr) (m : Nat) (x : PE) : PE :=
  let g := match x.gm with
    | .openAccess => false
    | .exclusive b => inBlocks s.cfg pa len b && clearsOtherGlobal s call o pa attr m
  let l := match x.lm with
    | .openAccess => false
    | .exclusive b => choose s (if localCovers s.cfg pa len b then .id5 else .id6) call m
  noteWrite s pa len m (clearLocalIf l (clearGlobalIf g x))

/-- What PE `m`'s own write that is no Store-Exclusive does to its monitors (R70, R73). -/
def observeOwn (s : State) (call pa len m : Nat) (x : PE) : PE :=
  let g := match x.gm with
    | .openAccess => false
    | .exclusive b => inBlocks s.cfg pa len b && choose s .id19 call m
  let l := match x.lm with
    | .openAccess => false
    | .exclusive b => choose s (if localCovers s.cfg pa len b then .id4 else .id3) call m
  noteWrite s pa len m (clearGlobalIf g (clearLocalIf l x))

/-- `ObserveWrite(o, pa, len, kind)` (R70), applied after every write that took place. `attr` are the attributes of
the access (log 18); `call` tells two observations of one step apart. -/
def observeWrite (s : State) (call : Nat) (o : Observer) (pa len : Nat) (kind : WriteKind) (attr : MemAttr) : State :=
  s.updateAll fun m x =>
    if o = .pe m then
      match kind with
      | .storeExcl => x
      | .store => observeOwn s call pa len m x
    else observeOther s call o pa len attr m x

/-! ## Exceptions and the end of a PE's run (60_exceptions.md) -/

/-- A model fault: the PE's run ends with the cause recorded and nothing else changes (D16, log 14). -/
def endRun (s : State) (p : Nat) (cause : EndCause) : State :=
  (s.updatePE p fun x => { x with ended := some cause }).tick

/-- After a Data Abort the monitors of the PE that takes it are UNKNOWN (R195). -/
def dataAbortMonitors (n p : Nat) (x : PE) : PE := unknownGlobal n p (unknownLocal n p x)

/-- A word with bits [5:0] replaced: DFSR.STATUS, or ISS[5:0] in HSR (R192, GK5). -/
def withLow6 (w : Word) (v : BitVec 6) : Word := w.extractLsb' 6 26 ++ v

/-- DFSR with FS, bit 10 and bits [3:0], replaced (R192, GK5). -/
def withFS (w : Word) (v : BitVec 5) : Word :=
  w.extractLsb' 11 21 ++ v.extractLsb' 4 1 ++ w.extractLsb' 4 6 ++ v.extractLsb' 0 4

/-- The fault status code of the IMPLEMENTATION DEFINED MMU fault, Long-descriptor format and HSR (R192). -/
def mmuFaultStatus : BitVec 6 := 0b110101

/-- The same in DFSR.FS, Short-descriptor format (R192). -/
def mmuFaultFS : BitVec 5 := 0b10101

/-- The reporting of an exception (R192): the stated fields as the rule gives them; everything else of the report is
a free value (log 16). Model faults report nothing. -/
def reportFault (cfg : Config) (n : Nat) (cause : EndCause) (x : PE) : PE :=
  match cause with
  | .implDefMMUFault va .el1 =>
    if cfg.longDescriptor then
      { x with dfsr := withLow6 (Config.freeWord n .report 0) mmuFaultStatus, dfar := va }
    else { x with dfsr := withFS (Config.freeWord n .report 0) mmuFaultFS, dfar := va }
  | .implDefMMUFault va .el2 =>
    { x with hsr := withLow6 (Config.freeWord n .report 0) mmuFaultStatus, hdfar := va }
  | .externalAbort _ | .translationFault _ =>
    { x with
      dfsr := Config.freeWord n .report 0
      dfar := Config.freeWord n .report 1
      hsr := Config.freeWord n .report 2
      hdfar := Config.freeWord n .report 3 }
  | .unalignedExclusive _ | .unpredictablePair _ | .noGlobalMonitor _ => x

/-- Taking an exception (R195, R197, R201, D16): the monitors of the PE become UNKNOWN (every abort counts as a Data
Abort, log 15), the fault is reported (R192), and the PE's run ends with the cause recorded; the PC stays. The spec
gives no saved state, mode change or vector. -/
def takeException (s : State) (p : Nat) (cause : EndCause) : State :=
  (s.updatePE p fun x =>
    { reportFault s.cfg s.fresh cause (dataAbortMonitors s.fresh p x) with ended := some cause }).tick

/-- The record of a thread, with the model's own status of its pair, is installed (R26, R161, R196). -/
def installRecord (lx : Option LoadRecord) (pair : PairStatus) (x : PE) : PE := { x with lx := lx, pair := pair }

/-- Returning from an exception (R196): the local monitor is cleared and the record of the resumed thread installed. -/
def returnFromException (s : State) (p : Nat) (lx : Option LoadRecord) (pair : PairStatus) : State :=
  s.updatePE p fun x => installRecord lx pair (clearLocal x)

/-- Where the MMU fault is taken (R193); outside the Non-secure PL1&0 regime the rule states nothing and the level is
free (log 17). -/
def mmuFaultLevel (cfg : Config) (n p : Nat) : ExceptionLevel :=
  if cfg.nonSecurePL10 then
    if cfg.mmuCauseStage1 || !cfg.stage2Enabled then .el1 else .el2
  else if cfg.haveEL2 && Config.freeBool n .route p then .el2 else .el1

/-- The effects shown where no global monitor is implemented (R190, R191): none where unconfigured; the configured
subset; or a non-empty subset drawn at this occurrence (log 21). -/
def shownEffects (cfg : Config) (n : Nat) : Option NoGMonEffects :=
  match cfg.noGMon with
  | .unconfigured => none
  | .fixed e => some e
  | .drawn =>
    let e : NoGMonEffects := {
      externalAbort := Config.freeBool n .noGMonEffect 0
      mmuFault := Config.freeBool n .noGMonEffect 1
      asNop := Config.freeBool n .noGMonEffect 2
      loadAsNonShareable := Config.freeBool n .noGMonEffect 3
      storeAsNonShareable := Config.freeBool n .noGMonEffect 4
      statusUnknown := Config.freeBool n .noGMonEffect 5 }
    some (if someEffect e then e else { e with externalAbort := true })

end Sys2Proof.Machine
end

