-- ==== Sys2Proof/Machine/Flags.lean ====
section
/-! DEFINITION. CPSR: the instruction set bit, the flag fields, and conditional execution (R30, R102, R103, R108).
The layout and the meaning of the conditions are PRESUMED, the family's (logs 5 and 11). No instruction of the table
writes a flag (R30). -/

namespace Sys2Proof.Machine

/-- The flag N, CPSR bit 31. -/
def flagN (cpsr : Word) : Bool := cpsr.getLsbD 31

/-- The flag Z, CPSR bit 30. -/
def flagZ (cpsr : Word) : Bool := cpsr.getLsbD 30

/-- The flag C, CPSR bit 29. -/
def flagC (cpsr : Word) : Bool := cpsr.getLsbD 29

/-- The flag V, CPSR bit 28. -/
def flagV (cpsr : Word) : Bool := cpsr.getLsbD 28

/-- Which instruction set the PE decodes: CPSR.T, bit 5 (R102). -/
def isetOf (cpsr : Word) : ISet := if cpsr.getLsbD 5 then .t32 else .a32

/-- CPSR with the instruction set bit for `set`. -/
def withISet (set : ISet) (cpsr : Word) : Word :=
  match set with
  | .a32 => cpsr &&& ~~~(0x20#32)
  | .t32 => cpsr ||| 0x20#32

/-- Whether a condition holds (R103). -/
def condHolds (c : Cond) (cpsr : Word) : Bool :=
  match c with
  | .eq => flagZ cpsr
  | .ne => !flagZ cpsr
  | .cs => flagC cpsr
  | .cc => !flagC cpsr
  | .mi => flagN cpsr
  | .pl => !flagN cpsr
  | .vs => flagV cpsr
  | .vc => !flagV cpsr
  | .hi => flagC cpsr && !flagZ cpsr
  | .ls => !(flagC cpsr && !flagZ cpsr)
  | .ge => flagN cpsr == flagV cpsr
  | .lt => flagN cpsr != flagV cpsr
  | .gt => !flagZ cpsr && flagN cpsr == flagV cpsr
  | .le => !(!flagZ cpsr && flagN cpsr == flagV cpsr)
  | .al => true

/-- The IT state: bits [7:2] in CPSR[15:10], bits [1:0] in CPSR[26:25]. -/
def itState (cpsr : Word) : BitVec 8 := cpsr.extractLsb' 10 6 ++ cpsr.extractLsb' 25 2

/-- CPSR with another IT state. -/
def withItState (it : BitVec 8) (cpsr : Word) : Word :=
  cpsr.extractLsb' 27 5 ++ it.extractLsb' 0 2 ++ cpsr.extractLsb' 16 9 ++ it.extractLsb' 2 6 ++ cpsr.extractLsb' 0 10

/-- The condition a 4-bit field names; 0b1111 is read as always, as inside an IT block. -/
def condField (n : BitVec 4) : Cond :=
  match n.toNat with
  | 0 => .eq
  | 1 => .ne
  | 2 => .cs
  | 3 => .cc
  | 4 => .mi
  | 5 => .pl
  | 6 => .vs
  | 7 => .vc
  | 8 => .hi
  | 9 => .ls
  | 10 => .ge
  | 11 => .lt
  | 12 => .gt
  | 13 => .le
  | _ => .al

/-- Whether a T32 instruction executes: outside an IT block (low nibble of the IT state 0) always, inside it by the
condition in the high nibble (R108). -/
def itHolds (cpsr : Word) : Bool :=
  (itState cpsr).extractLsb' 0 4 = 0 || condHolds (condField ((itState cpsr).extractLsb' 4 4)) cpsr

/-- The IT state after an instruction: the block ends after its last instruction, else the low five bits shift. -/
def itNext (it : BitVec 8) : BitVec 8 :=
  if it.extractLsb' 0 3 = 0 then 0 else it.extractLsb' 5 3 ++ (it.extractLsb' 0 5 <<< 1)

/-- CPSR after a completed instruction of an instruction set: in T32 the IT state advances. -/
def afterInstr (set : ISet) (cpsr : Word) : Word :=
  match set with
  | .a32 => cpsr
  | .t32 => withItState (itNext (itState cpsr)) cpsr

/-- An instruction of PE `p` is complete: the PC advances by one position (R29, D4). -/
def complete (set : ISet) (s : State) (p : Nat) : State :=
  (s.updatePE p fun x => { x with pc := x.pc + 1, cpsr := afterInstr set x.cpsr }).tick

/-- An A32 instruction whose condition fails is a no-op with no effect on any monitor (R103, R108). -/
def gateA32 (c : Cond) (s : State) (body : State) : State :=
  if condHolds c (s.pe s.cur).cpsr then body else complete .a32 s s.cur

/-- A T32 instruction inside an IT block is conditional like any other (R108). -/
def gateT32 (s : State) (body : State) : State :=
  if itHolds (s.pe s.cur).cpsr then body else complete .t32 s s.cur

end Sys2Proof.Machine
end

