-- ==== Sys2Proof/Machine/Agents.lean ====
section
/-! DEFINITION. The operations of the agents other than the table's instructions: plain stores and loads, the non-PE
observers, PLDW, cache and TLB maintenance, changed translations, the monitor environment, and the abstract steps of a
scheduler (43_other_operations.md; R195, R196, R161). Each is one atomic step (R76). -/

namespace Sys2Proof.Machine

/-- The outcome of a step of this machine. -/
abbrev StepOutcome := Host.Outcome State Fault Refusal

/-- An operation of PE `p`: only of a PE that exists and whose run has not ended (D16). -/
def byPE (s : State) (p : Nat) (k : StepOutcome) : StepOutcome :=
  if p < s.npe then
    match (s.pe p).ended with
    | some c => .fault (.runEnded p c)
    | none => k
  else .refused .noSuchAgent

/-- An operation of the non-PE observer `k` (R6 `OBS`). -/
def byObserver (s : State) (k : Nat) (o : StepOutcome) : StepOutcome :=
  if k < s.cfg.observers then o else .refused .noSuchAgent

/-- A plain store of a PE is 1 to 8 bytes wide: R170 makes a wider one a sequence of such steps. No rule bounds a plain
load or an access of a non-PE observer (R171 to R173). -/
def storeSizeOk (n : Nat) : Bool := 1 ≤ n && n ≤ 8

/-- `Store(p, va, n, v)` (R170). -/
def plainStore (s : State) (p : Nat) (va : Word) (n : Nat) (v : BitVec 64) : StepOutcome :=
  if storeSizeOk n then
    match translate s p va .write with
    | none => .next (takeException s p (.translationFault va))
    | some (pa, attr) =>
      if inSpace s.cfg pa n then
        if writeAborts s pa n then .next (takeException s p (.externalAbort va))
        else
          .next (observeWrite (s.writeBytes pa (disassemble s.cfg.bigEndian n v.toNat)) 0 (.pe p) pa n .store attr).tick
      else .refused .noSuchAddress
  else .refused .badAccessSize

/-- `Load(p, va, n)` (R171), of any number of bytes: no effect on any monitor (R69). -/
def plainLoad (s : State) (p : Nat) (va : Word) (n : Nat) : StepOutcome :=
  if 0 < n then
    match translate s p va .read with
    | none => .next (takeException s p (.translationFault va))
    | some (pa, _) =>
      if inSpace s.cfg pa n then
        if readAborts s pa n then .next (takeException s p (.externalAbort va)) else .next s.tick
      else .refused .noSuchAddress
  else .refused .badAccessSize

/-- `ObserverWrite(o, pa, n, v)` (R172): one write of any number of bytes, observed as one, so that a local mark on any of
its blocks draws ID5 (R72). A write that the location answers with an abort does not take place: DESIGN CHOICE (log 22). -/
def observerWrites (s : State) (k pa n v : Nat) : StepOutcome :=
  if 0 < n then
    if inSpace s.cfg pa n then
      if writeAborts s pa n then .next s.tick
      else
        .next (observeWrite (s.writeBytes pa (disassemble s.cfg.bigEndian n v)) 0 (.device k) pa n .store
          (attrAt s pa)).tick
    else .refused .noSuchAddress
  else .refused .badAccessSize

/-- `ObserverRead(o, pa, n)` (R173), of any number of bytes: no monitor effect. -/
def observerReads (s : State) (pa n : Nat) : StepOutcome :=
  if 0 < n then
    if inSpace s.cfg pa n then .next s.tick else .refused .noSuchAddress
  else .refused .badAccessSize

/-- A global mark is on block `b`. -/
def globalMarks (x : PE) (b : Nat) : Bool := x.gm == .exclusive b

/-- A local mark may be on block `b`: any mark, for a monitor that holds no PA (R22, log 19). -/
def localMarks (cfg : Config) (x : PE) (b : Nat) : Bool := x.lm == .exclusive b || (x.lm.isSet && !cfg.localHoldsPA)

/-- Each monitor of PE `m` that is concerned (`l`, `g`) may be cleared, by a free Boolean each. -/
def mayClear (n m : Nat) (l g : Bool) (x : PE) : PE :=
  clearLocalIf (l && Config.freeBool n .mayClearLocal m) (clearGlobalIf (g && Config.freeBool n .mayClearGlobal m) x)

/-- `PLDW(q, va)` (R174): another PE's mark on the block may be lost; without a translation nothing happens. -/
def preloadWrite (s : State) (q : Nat) (va : Word) : State :=
  match translate s q va .write with
  | none => s.tick
  | some (pa, _) =>
    (s.updateAll fun m x =>
      if m = q then x
      else mayClear s.fresh m (localMarks s.cfg x (block s.cfg pa)) (globalMarks x (block s.cfg pa)) x).tick

/-- `DCacheMaint(q, target)` (R175): the PE's own monitors may be cleared; by address also those of the other PEs in
the Shareability domain of the address. -/
def dataCacheMaintenance (s : State) (q : Nat) (target : CacheTarget) : State :=
  (s.updateAll fun m x =>
    let concerned := m == q ||
      match target with
      | .address pa => inDomain s.cfg (.pe m) pa (attrAt s pa)
      | .setWayOrAll => false
    mayClear s.fresh m concerned concerned x).tick

/-- Instruction cache invalidate all (R176): any monitor may be cleared. -/
def instrCacheInvalidateAll (s : State) : State :=
  (s.updateAll fun m x => mayClear s.fresh m true true x).tick

/-- Instruction cache invalidate by virtual address (R176): any monitor whose mark is the block of the target. The rule
does not say for which kind of access the target is translated: the model asks for a read, and where that faults nothing
happens. DESIGN CHOICE (log 33). -/
def instrCacheInvalidateVA (s : State) (q : Nat) (va : Word) : State :=
  match translate s q va .read with
  | none => s.tick
  | some (pa, _) =>
    (s.updateAll fun m x =>
      mayClear s.fresh m (localMarks s.cfg x (block s.cfg pa)) (globalMarks x (block s.cfg pa)) x).tick

/-- `TLBInvalidate(q)` (R177): any monitor may be cleared (log 33). -/
def tlbInvalidation (s : State) : State :=
  (s.updateAll fun m x => mayClear s.fresh m true true x).tick

/-- `maps` translates the address otherwise than now, for a read or for a write. -/
def retranslated (s : State) (maps : List Mapping) (p : Nat) (va : Word) : Bool :=
  translateBy s maps p va .read != translate s p va .read || translateBy s maps p va .write != translate s p va .write

/-- No PE that still runs is between a Load-Exclusive and its Store-Exclusive at an address that `maps` translates
otherwise (D21, R235). -/
def keepsOutstanding (s : State) (maps : List Mapping) : Bool :=
  (List.range s.npe).all fun p =>
    (s.pe p).ended.isSome || (s.pe p).pair.address.all fun va => !retranslated s maps p va

/-- After a break-before-make sequence: a pair whose physical address it changed is noted (R177, R235). -/
def noteMove (s : State) (maps : List Mapping) (p : Nat) (x : PE) : PE :=
  match x.pair.address with
  | none => x
  | some va =>
    if (translateBy s maps p va .write).map (·.1) = (translate s p va .write).map (·.1) then x
    else { x with pair := .moved va }

/-- The translation changes (R177, R235, log 24): with break-before-make it does, and the TLB invalidation of the
sequence may clear any monitor; otherwise a run that changes the translation between a Load-Exclusive and its
Store-Exclusive is refused (D21). -/
def changeTranslation (s : State) (maps : List Mapping) (breakBeforeMake : Bool) : StepOutcome :=
  if maps.all mappingOk then
    if breakBeforeMake then .next (tlbInvalidation { s.updateAll (noteMove s maps) with xlat := maps })
    else if keepsOutstanding s maps then .next { s with xlat := maps }.tick
    else .refused .translationChanged
  else .refused .badConfiguration

/-- A record that a Load-Exclusive can have left (R26, R54, R56). -/
def recordOk (cfg : Config) (r : LoadRecord) : Bool :=
  [1, 2, 4, 8].contains r.n && r.va.toNat % r.n == 0 && r.pa % r.n == 0 && inSpace cfg r.pa r.n

/-- A thread's record (R26): none, or one that a Load-Exclusive can have left. -/
def threadOk (cfg : Config) (lx : Option LoadRecord) : Bool := lx.all (recordOk cfg)

/-- `SpontaneousClearLocal(m)` and `SpontaneousClearGlobal(m)` (R178). -/
def spontaneous (s : State) (m : Nat) (f : PE → PE) : StepOutcome :=
  if m < s.npe then .next (s.updatePE m f).tick else .refused .noSuchAgent

/-- An instruction outside the table without a monitor effect (R180, D4): the registers become those it leaves; the fault
report registers only by a System register write. A barrier is a no-op (R77): it moves on like any instruction, and the
registers of the action are not used. -/
def foreignStep (kind : ForeignKind) (u : RegisterFile) (x : PE) : PE :=
  let y := { x with regs := u.regs, pc := u.pc, cpsr := u.cpsr, fpscr := u.fpscr }
  match kind with
  | .isb => { x with pc := x.pc + 1, cpsr := afterInstr (isetOf x.cpsr) x.cpsr }
  | .systemRegisterWrite dfsr dfar hsr hdfar => { y with dfsr := dfsr, dfar := dfar, hsr := hsr, hdfar := hdfar }
  | .registerOnly | .prefetch _ | .addressTranslation | .exceptionGenerating | .indirectBranch | .branchWithLink => y

/-- One action as one step. -/
def perform (s : State) : Action → StepOutcome
  | .store p va n v => byPE s p (plainStore s p va n v)
  | .load p va n => byPE s p (plainLoad s p va n)
  | .observerWrite k pa n v => byObserver s k (observerWrites s k pa n v)
  | .observerRead k pa n => byObserver s k (observerReads s pa n)
  | .pldw q va => byPE s q (.next (preloadWrite s q va))
  | .dcacheMaint q target => byPE s q (.next (dataCacheMaintenance s q target))
  | .icacheInvalidateAll q => byPE s q (.next (instrCacheInvalidateAll s))
  | .icacheInvalidateVA q va => byPE s q (.next (instrCacheInvalidateVA s q va))
  | .tlbInvalidate q => byPE s q (.next (tlbInvalidation s))
  | .remap maps bbm => changeTranslation s maps bbm
  | .spontaneousClearLocal m => spontaneous s m clearLocal
  | .spontaneousClearGlobal m => spontaneous s m clearGlobal
  | .takeDataAbort p => byPE s p (.next (s.updatePE p (dataAbortMonitors s.fresh p)).tick)
  | .exceptionReturn p => byPE s p (.next (returnFromException s p (s.pe p).lx (s.pe p).pair).tick)
  | .exceptionReturnTo p lx pair =>
    byPE s p (if threadOk s.cfg lx then .next (returnFromException s p lx pair).tick else .refused .badLoadRecord)
  | .installThread p lx pair =>
    byPE s p
      (if threadOk s.cfg lx then .next (s.updatePE p (installRecord lx pair)).tick else .refused .badLoadRecord)
  | .foreign p kind u => byPE s p (.next (s.updatePE p (foreignStep kind u)).tick)

end Sys2Proof.Machine
end

