-- ==== Sys2Proof/Machine/ClrexEvents.lean ====
section
/-! DEFINITION. CLREX and the event instructions WFE, SEV and SEVL, in every encoding (42_clrex_and_events.md). -/

namespace Sys2Proof.Machine

/-- CLREX (R160): the local monitor is cleared (log 35), the global state machine by choice ID10, with its event. -/
def clrex (set : ISet) (s : State) : State :=
  complete set
    (s.updatePE s.cur fun x => clearGlobalIf (choose s .id10 0 s.cur) (clearLocal x)) s.cur

/-- WFE (R163): with an event held it takes the event and completes; without one it completes spontaneously or holds,
the PC staying at the WFE (log 25). -/
def waitForEvent (set : ISet) (s : State) : State :=
  if (s.pe s.cur).ev then complete set (s.updatePE s.cur fun x => { x with ev := false }) s.cur
  else if Config.freeBool s.fresh .wfeSpontaneous s.cur then complete set s s.cur
  else s.tick

/-- SEV (R164): an event for every PE. -/
def sendEvent (set : ISet) (s : State) : State :=
  complete set (s.updateAll fun _ x => { x with ev := true }) s.cur

/-- SEVL (R165): an event for the executing PE. -/
def sendEventLocal (set : ISet) (s : State) : State :=
  complete set (s.updatePE s.cur fun x => { x with ev := true }) s.cur

/-- CLREX, A32: unconditional (R103, R160). -/
def execClrexA (s : State) : Host.Outcome State Fault Refusal :=
  .next (clrex .a32 s)

/-- CLREX, T32 (R160). -/
def execClrexT (s : State) : Host.Outcome State Fault Refusal :=
  .next (gateT32 s (clrex .t32 s))

/-- WFE, A32 (R163). -/
def execWfeA (c : Cond) (s : State) : Host.Outcome State Fault Refusal :=
  .next (gateA32 c s (waitForEvent .a32 s))

/-- WFE, 16-bit T32 (R163). -/
def execWfeT (s : State) : Host.Outcome State Fault Refusal :=
  .next (gateT32 s (waitForEvent .t32 s))

/-- WFE.W, 32-bit T32 (R163). -/
def execWfeW (s : State) : Host.Outcome State Fault Refusal :=
  .next (gateT32 s (waitForEvent .t32 s))

/-- SEV, A32 (R164). -/
def execSevA (c : Cond) (s : State) : Host.Outcome State Fault Refusal :=
  .next (gateA32 c s (sendEvent .a32 s))

/-- SEV, 16-bit T32 (R164). -/
def execSevT (s : State) : Host.Outcome State Fault Refusal :=
  .next (gateT32 s (sendEvent .t32 s))

/-- SEV.W, 32-bit T32 (R164). -/
def execSevW (s : State) : Host.Outcome State Fault Refusal :=
  .next (gateT32 s (sendEvent .t32 s))

/-- SEVL, A32 (R165). -/
def execSevlA (c : Cond) (s : State) : Host.Outcome State Fault Refusal :=
  .next (gateA32 c s (sendEventLocal .a32 s))

/-- SEVL, 16-bit T32 (R165). -/
def execSevlT (s : State) : Host.Outcome State Fault Refusal :=
  .next (gateT32 s (sendEventLocal .t32 s))

/-- SEVL.W, 32-bit T32 (R165). -/
def execSevlW (s : State) : Host.Outcome State Fault Refusal :=
  .next (gateT32 s (sendEventLocal .t32 s))

end Sys2Proof.Machine
end

