-- ==== Sys2Proof/Machine/Operands.lean ====
section
/-! DEFINITION. The operand forms (R105, R109): the addresses, the second register of an A32 doubleword form, and the
bytes a data register or a pair supplies (log 31). -/

namespace Sys2Proof.Machine

/-- The address `[Rn]`: the base register of the executing PE (R105). -/
def addrBase (s : State) (rn : Reg) : Word := s.reg s.cur rn

/-- The address `[Rn, #imm]` of T32 LDREX and STREX: `x[Rn] + zext_32(imm8 : 0b00)` (R105). -/
def addrOffset (s : State) (rn : Reg) (imm8 : BitVec 8) : Word :=
  s.reg s.cur rn + (imm8 ++ 0b00#2).setWidth 32

/-- The second register of an A32 doubleword form: `Rt2 = Rt + 1` (R103). -/
def nextReg (rt : Reg) : Reg := rt + 1

/-- The low `n` bytes of a register, at rising addresses in the byte order of data (R55, R142, R144, R146). -/
def regBytes (s : State) (r : Reg) (n : Nat) : List Byte :=
  disassemble s.cfg.bigEndian n (s.reg s.cur r).toNat

/-- The eight bytes whose word at the lower address is `x[rt]` and at the higher address `x[rt2]` (R148). -/
def pairBytes (s : State) (rt rt2 : Reg) : List Byte := regBytes s rt 4 ++ regBytes s rt2 4

end Sys2Proof.Machine
end

