-- ==== Sys2Proof/Machine/LoadExclusive.lean ====
section
/-! DEFINITION. The eight Load-Exclusive instructions, in A32 and in T32 (40_load_exclusive.md). Each meaning is one
line over the common step `loadExcl` (R120). The Load-Acquire forms step exactly as the plain ones (R78, log 13). -/

namespace Sys2Proof.Machine

/-- What the common step gives its caller. -/
inductive LoadResult where
  /-- the load took place: the state after it, and the physical address read -/
  | value (s : State) (pa : Nat)
  /-- the instruction was treated as a NOP (R191) -/
  | noWriteback (s : State)
  /-- the PE's run ended (D16) -/
  | ended (s : State)
deriving DecidableEq, Repr

/-- The record of a Load-Exclusive that has executed (R26, R120 step 7); its pair now awaits the Store-Exclusive. -/
def recordLoad (r : LoadRecord) (x : PE) : PE := { x with lx := some r, pair := .waiting r.va }

/-- What a Load-Exclusive does to its own PE, but for registers (R120 steps 5 to 7). `toShareable` says whether the
location is treated as shareable (R191). -/
def loadMarks (s : State) (p : Nat) (toShareable : Bool) (r : LoadRecord) (x : PE) : PE :=
  let y := markLocal (block s.cfg r.pa) x
  recordLoad r (if toShareable || choose s .id12 0 p then markGlobal (block s.cfg r.pa) y else y)

/-- `NoGlobalMonitor_Load` (R191). The effects come in the order the rule gives them. -/
def noGlobalMonitorLoad (s : State) (p : Nat) (va : Word) (pa n : Nat) (attr : MemAttr) : LoadResult :=
  match shownEffects s.cfg s.fresh with
  | none => .ended (endRun s p (.noGlobalMonitor va))
  | some e =>
    if e.externalAbort then .ended (takeException s p (.externalAbort va))
    else if e.mmuFault then .ended (takeException s p (.implDefMMUFault va (mmuFaultLevel s.cfg s.fresh p)))
    else if e.asNop then .noWriteback s
    else if e.loadAsNonShareable then
      if readAborts s pa n then .ended (takeException s p (.externalAbort va))
      else
        .value (s.updatePE p fun x =>
          unknownLocal s.fresh p (loadMarks s p false { va := va, pa := pa, n := n, attr := attr } x)) pa
    else .ended (endRun s p (.noGlobalMonitor va))

/-- `LoadExcl(p, va, n)` (R120): alignment, translation, the global monitor's existence, the read, the marks. -/
def loadExcl (s : State) (p : Nat) (va : Word) (n : Nat) : LoadResult :=
  if va.toNat % n ≠ 0 then .ended (endRun s p (.unalignedExclusive va))
  else
    match translate s p va .read with
    | none => .ended (takeException s p (.translationFault va))
    | some (pa, attr) =>
      if shareable attr && !gMon s.cfg pa attr then noGlobalMonitorLoad s p va pa n attr
      else if readAborts s pa n then .ended (takeException s p (.externalAbort va))
      else .value (s.updatePE p (loadMarks s p (shareable attr) { va := va, pa := pa, n := n, attr := attr })) pa

/-- A Load-Exclusive of 1, 2 or 4 bytes into `x[rt]`, zero-extended (R121 to R126). -/
def loadSingle (set : ISet) (s : State) (rt : Reg) (va : Word) (n : Nat) : State :=
  match loadExcl s s.cur va n with
  | .value t pa => complete set (t.setReg s.cur rt (memNumber t pa n)) s.cur
  | .noWriteback t => complete set t s.cur
  | .ended t => t

/-- A Load-Exclusive of 8 bytes: `x[rt]` the word at the lower address, `x[rt2]` the word at the higher (R127). -/
def loadDouble (set : ISet) (s : State) (rt rt2 : Reg) (va : Word) : State :=
  match loadExcl s s.cur va 8 with
  | .value t pa =>
    complete set ((t.setReg s.cur rt (memNumber t pa 4)).setReg s.cur rt2 (memNumber t (pa + 4) 4)) s.cur
  | .noWriteback t => complete set t s.cur
  | .ended t => t

/-- `LDREXB, A32` (R121). -/
def execLdrexbA (c : Cond) (rt rn : Reg) (s : State) : Host.Outcome State Fault Refusal :=
  .next (gateA32 c s (loadSingle .a32 s rt (addrBase s rn) 1))

/-- `LDAEXB, A32` (R122). -/
def execLdaexbA (c : Cond) (rt rn : Reg) (s : State) : Host.Outcome State Fault Refusal :=
  .next (gateA32 c s (loadSingle .a32 s rt (addrBase s rn) 1))

/-- `LDREXH, A32` (R123). -/
def execLdrexhA (c : Cond) (rt rn : Reg) (s : State) : Host.Outcome State Fault Refusal :=
  .next (gateA32 c s (loadSingle .a32 s rt (addrBase s rn) 2))

/-- `LDAEXH, A32` (R124). -/
def execLdaexhA (c : Cond) (rt rn : Reg) (s : State) : Host.Outcome State Fault Refusal :=
  .next (gateA32 c s (loadSingle .a32 s rt (addrBase s rn) 2))

/-- `LDREX, A32` (R125). -/
def execLdrexA (c : Cond) (rt rn : Reg) (s : State) : Host.Outcome State Fault Refusal :=
  .next (gateA32 c s (loadSingle .a32 s rt (addrBase s rn) 4))

/-- `LDAEX, A32` (R126). -/
def execLdaexA (c : Cond) (rt rn : Reg) (s : State) : Host.Outcome State Fault Refusal :=
  .next (gateA32 c s (loadSingle .a32 s rt (addrBase s rn) 4))

/-- `LDREXD, A32` (R127). -/
def execLdrexdA (c : Cond) (rt rn : Reg) (s : State) : Host.Outcome State Fault Refusal :=
  .next (gateA32 c s (loadDouble .a32 s rt (nextReg rt) (addrBase s rn)))

/-- `LDAEXD, A32` (R128). -/
def execLdaexdA (c : Cond) (rt rn : Reg) (s : State) : Host.Outcome State Fault Refusal :=
  .next (gateA32 c s (loadDouble .a32 s rt (nextReg rt) (addrBase s rn)))

/-- `LDREXB, T32` (R121). -/
def execLdrexbT (rt rn : Reg) (s : State) : Host.Outcome State Fault Refusal :=
  .next (gateT32 s (loadSingle .t32 s rt (addrBase s rn) 1))

/-- `LDAEXB, T32` (R122). -/
def execLdaexbT (rt rn : Reg) (s : State) : Host.Outcome State Fault Refusal :=
  .next (gateT32 s (loadSingle .t32 s rt (addrBase s rn) 1))

/-- `LDREXH, T32` (R123). -/
def execLdrexhT (rt rn : Reg) (s : State) : Host.Outcome State Fault Refusal :=
  .next (gateT32 s (loadSingle .t32 s rt (addrBase s rn) 2))

/-- `LDAEXH, T32` (R124). -/
def execLdaexhT (rt rn : Reg) (s : State) : Host.Outcome State Fault Refusal :=
  .next (gateT32 s (loadSingle .t32 s rt (addrBase s rn) 2))

/-- `LDREX, T32, the form with an offset` (R125). -/
def execLdrexT (rt rn : Reg) (imm8 : BitVec 8) (s : State) : Host.Outcome State Fault Refusal :=
  .next (gateT32 s (loadSingle .t32 s rt (addrOffset s rn imm8) 4))

/-- `LDAEX, T32` (R126). -/
def execLdaexT (rt rn : Reg) (s : State) : Host.Outcome State Fault Refusal :=
  .next (gateT32 s (loadSingle .t32 s rt (addrBase s rn) 4))

/-- `LDREXD, T32` (R127). -/
def execLdrexdT (rt rt2 rn : Reg) (s : State) : Host.Outcome State Fault Refusal :=
  .next (gateT32 s (loadDouble .t32 s rt rt2 (addrBase s rn)))

/-- `LDAEXD, T32` (R128). -/
def execLdaexdT (rt rt2 rn : Reg) (s : State) : Host.Outcome State Fault Refusal :=
  .next (gateT32 s (loadDouble .t32 s rt rt2 (addrBase s rn)))

end Sys2Proof.Machine
end

