-- ==== Sys2Proof/Machine/StoreExclusive.lean ====
section
/-! DEFINITION. The eight Store-Exclusive instructions, in A32 and in T32 (41_store_exclusive.md). Each meaning is one
line over the common step `storeExcl` (R140). The Store-Release forms step exactly as the plain ones (R78, log 13). -/

namespace Sys2Proof.Machine

/-- What the common step gives its caller. -/
inductive StoreResult where
  /-- the state after it, the value for the status register: 0, 1, or a free word (R152), and the ranges of memory that
  were written, each by its physical address and size -/
  | status (s : State) (v : Word) (written : List (Nat × Nat))
  /-- the instruction was treated as a NOP: the status register is not written (R191) -/
  | noWriteback (s : State)
  /-- the PE's run ended (D16); the status register is not written (R151) -/
  | ended (s : State)
deriving DecidableEq, Repr

/-- `PairMismatch` (R141): which of CU1, CU2, CU3 a Store-Exclusive is, in that order (log 20). -/
def pairMismatch (lx : Option LoadRecord) (va : Word) (n : Nat) (attr : MemAttr) : Option (PairKind × LoadRecord) :=
  match lx with
  | none => none
  | some r =>
    if va ≠ r.va then some (.va, r)
    else if n ≠ r.n then some (.size, r)
    else if attr ≠ r.attr then some (.attr, r)
    else none

/-- `n` UNKNOWN bytes (R141, D11). -/
def freeBytes (fresh range n : Nat) : List Byte :=
  (List.range n).map fun i => Config.freeByte fresh (.data range) i

/-- A range of memory becomes UNKNOWN, and the write is observed (R141). -/
def scramble (s : State) (p range pa n : Nat) (attr : MemAttr) : State :=
  observeWrite (s.writeBytes pa (freeBytes s.fresh range n)) range (.pe p) pa n .storeExcl attr

/-- How many of the `size` bytes at `pa` lie in the address space. -/
def sizeInSpace (cfg : Config) (pa size : Nat) : Nat := min size (2 ^ cfg.paBits - pa)

/-- The envelope of a mismatched pair (R141): UNKNOWN status; UNKNOWN data; the monitors UNKNOWN for CU1, the local
monitor Open for CU2 and CU3. Where several cases hold their ranges are united: the data of the Load-Exclusive (CU1),
and at the Store-Exclusive's address the larger of the two sizes (CU2) (log 20). Only the Store-Exclusive's own `n`
bytes are tested for an External abort: the rule does not say whether the UNKNOWN data at the Load-Exclusive's range, or
in the wider range beyond those `n` bytes, can meet one, and here they do not. DESIGN CHOICE (log 42). -/
def pairEnvelope (s : State) (p : Nat) (va : Word) (pa n : Nat) (attr : MemAttr) (kind : PairKind)
    (r : LoadRecord) : StoreResult :=
  let size := sizeInSpace s.cfg pa (max n r.n)
  if writeAborts s pa n then .ended (takeException s p (.externalAbort va))
  else
    let v := Config.freeWord s.fresh .status p
    match kind with
    | .va =>
      .status (scramble (scramble (s.updatePE p (dataAbortMonitors s.fresh p)) p 0 r.pa r.n r.attr) p 1 pa size attr) v
        [(r.pa, r.n), (pa, size)]
    | .size => .status (scramble (s.updatePE p clearLocal) p 0 pa size attr) v [(pa, size)]
    | .attr => .status (scramble (s.updatePE p clearLocal) p 0 pa n attr) v [(pa, n)]

/-- The write of a Store-Exclusive that passed (R140 step 6): memory, the PE's own monitors, every other monitor. -/
def storePasses (s : State) (p pa : Nat) (attr : MemAttr) (bs : List Byte) (own : PE → PE) : State :=
  observeWrite ((s.writeBytes pa bs).updatePE p own) 0 (.pe p) pa bs.length .storeExcl attr

/-- Steps 5 and 6 of R140 for a Non-shareable location: the local monitor alone decides (R61, R74), but for the
guarantee of R235. -/
def storeNonShareable (s : State) (p : Nat) (va : Word) (pa : Nat) (attr : MemAttr) (bs : List Byte) : StoreResult :=
  if localCheck s p pa && !movedAndWritten s p va attr then
    if writeAborts s pa bs.length then .ended (takeException s p (.externalAbort va))
    else
      .status (storePasses s p pa attr bs fun x =>
        clearGlobalIf (choose s .id11 0 p) (clearLocal x)) 0 [(pa, bs.length)]
  else .status (s.updatePE p clearLocal) 1 []

/-- Steps 5 and 6 of R140 for a shareable location: the local monitor, then the global monitor (R68). A global check
that fails may still clear the PE's own state machine (R64). The guarantee of R235 fails the local check. -/
def storeShareable (s : State) (p : Nat) (va : Word) (pa : Nat) (attr : MemAttr) (bs : List Byte) : StoreResult :=
  if localCheck s p pa && !movedAndWritten s p va attr then
    let own := fun x => clearGlobalIf (globalCheckClears s p pa) (clearLocal x)
    if globalCheck s p pa then
      if writeAborts s pa bs.length then .ended (takeException s p (.externalAbort va))
      else .status (storePasses s p pa attr bs own) 0 [(pa, bs.length)]
    else .status (s.updatePE p own) 1 []
  else .status (s.updatePE p clearLocal) 1 []

/-- `NoGlobalMonitor_Store` (R191). The effects come in the order the rule gives them. A store treated as to a Non-shareable
location keeps the guarantee of R235 also where the local monitor holds no PA: the exception of R177 is read of locations
that are Non-shareable, not of those treated so. DESIGN CHOICE (log 40). -/
def noGlobalMonitorStore (s : State) (p : Nat) (va : Word) (pa : Nat) (attr : MemAttr) (bs : List Byte) : StoreResult :=
  match shownEffects s.cfg s.fresh with
  | none => .ended (endRun s p (.noGlobalMonitor va))
  | some e =>
    if e.externalAbort then .ended (takeException s p (.externalAbort va))
    else if e.mmuFault then .ended (takeException s p (.implDefMMUFault va (mmuFaultLevel s.cfg s.fresh p)))
    else if e.asNop then
      if e.statusUnknown then .status s (Config.freeWord s.fresh .status p) [] else .noWriteback s
    else if e.storeAsNonShareable then
      match storeNonShareable s p va pa attr bs with
      | .status t v written =>
        .status (t.updatePE p (unknownLocal s.fresh p))
          (if e.statusUnknown then Config.freeWord s.fresh .status p else v) written
      | other => other
    else if e.statusUnknown then
      if Config.freeBool s.fresh .noGMonStore p then
        if writeAborts s pa bs.length then .ended (takeException s p (.externalAbort va))
        else .status (storePasses s p pa attr bs id) (Config.freeWord s.fresh .status p) [(pa, bs.length)]
      else .status s (Config.freeWord s.fresh .status p) []
    else .ended (endRun s p (.noGlobalMonitor va))

/-- Steps 4 to 6 of R140. -/
def storeChecked (s : State) (p : Nat) (va : Word) (pa : Nat) (attr : MemAttr) (bs : List Byte) : StoreResult :=
  if shareable attr then
    if gMon s.cfg pa attr then storeShareable s p va pa attr bs else noGlobalMonitorStore s p va pa attr bs
  else storeNonShareable s p va pa attr bs

/-- `StoreExcl(p, va, n, v)` (R140): alignment, translation, pairing (R141), then the monitors. `bs` are the bytes of
`v` at rising addresses, so `n` is their number. Pairing comes before the guarantee of R235: a pair that was moved and
written and is mismatched too has the outcomes of R141. DESIGN CHOICE (log 41). -/
def storeExcl (s : State) (p : Nat) (va : Word) (bs : List Byte) : StoreResult :=
  if va.toNat % bs.length ≠ 0 then .ended (endRun s p (.unalignedExclusive va))
  else
    match translate s p va .write with
    | none => .ended (takeException s p (.translationFault va))
    | some (pa, attr) =>
      match pairMismatch (s.pe p).lx va bs.length attr with
      | none => storeChecked s p va pa attr bs
      | some (kind, r) =>
        match s.cfg.pairPolicy with
        | .fault => .ended (endRun s p (.unpredictablePair kind))
        | .envelope =>
          if Config.freeBool s.fresh .pairOrdinary p then storeChecked s p va pa attr bs
          else pairEnvelope s p va pa bs.length attr kind r

/-- A Store-Exclusive has executed: no Load-Exclusive awaits one (log 24). -/
def closePair (x : PE) : PE := { x with pair := .closed }

/-- The register effect of a Store-Exclusive: the status goes to `x[rd]` (R140, R152). Its pair is over. -/
def storeTo (set : ISet) (s : State) (rd : Reg) (va : Word) (bs : List Byte) : State :=
  match storeExcl s s.cur va bs with
  | .status t v _ => complete set ((t.updatePE s.cur closePair).setReg s.cur rd v) s.cur
  | .noWriteback t => complete set (t.updatePE s.cur closePair) s.cur
  | .ended t => t

/-- `STREXB, A32` (R142). -/
def execStrexbA (c : Cond) (rd rt rn : Reg) (s : State) : Host.Outcome State Fault Refusal :=
  .next (gateA32 c s (storeTo .a32 s rd (addrBase s rn) (regBytes s rt 1)))

/-- `STLEXB, A32` (R143). -/
def execStlexbA (c : Cond) (rd rt rn : Reg) (s : State) : Host.Outcome State Fault Refusal :=
  .next (gateA32 c s (storeTo .a32 s rd (addrBase s rn) (regBytes s rt 1)))

/-- `STREXH, A32` (R144). -/
def execStrexhA (c : Cond) (rd rt rn : Reg) (s : State) : Host.Outcome State Fault Refusal :=
  .next (gateA32 c s (storeTo .a32 s rd (addrBase s rn) (regBytes s rt 2)))

/-- `STLEXH, A32` (R145). -/
def execStlexhA (c : Cond) (rd rt rn : Reg) (s : State) : Host.Outcome State Fault Refusal :=
  .next (gateA32 c s (storeTo .a32 s rd (addrBase s rn) (regBytes s rt 2)))

/-- `STREX, A32` (R146). -/
def execStrexA (c : Cond) (rd rt rn : Reg) (s : State) : Host.Outcome State Fault Refusal :=
  .next (gateA32 c s (storeTo .a32 s rd (addrBase s rn) (regBytes s rt 4)))

/-- `STLEX, A32` (R147). -/
def execStlexA (c : Cond) (rd rt rn : Reg) (s : State) : Host.Outcome State Fault Refusal :=
  .next (gateA32 c s (storeTo .a32 s rd (addrBase s rn) (regBytes s rt 4)))

/-- `STREXD, A32` (R148). -/
def execStrexdA (c : Cond) (rd rt rn : Reg) (s : State) : Host.Outcome State Fault Refusal :=
  .next (gateA32 c s (storeTo .a32 s rd (addrBase s rn) (pairBytes s rt (nextReg rt))))

/-- `STLEXD, A32` (R149). -/
def execStlexdA (c : Cond) (rd rt rn : Reg) (s : State) : Host.Outcome State Fault Refusal :=
  .next (gateA32 c s (storeTo .a32 s rd (addrBase s rn) (pairBytes s rt (nextReg rt))))

/-- `STREXB, T32` (R142). -/
def execStrexbT (rd rt rn : Reg) (s : State) : Host.Outcome State Fault Refusal :=
  .next (gateT32 s (storeTo .t32 s rd (addrBase s rn) (regBytes s rt 1)))

/-- `STLEXB, T32` (R143). -/
def execStlexbT (rd rt rn : Reg) (s : State) : Host.Outcome State Fault Refusal :=
  .next (gateT32 s (storeTo .t32 s rd (addrBase s rn) (regBytes s rt 1)))

/-- `STREXH, T32` (R144). -/
def execStrexhT (rd rt rn : Reg) (s : State) : Host.Outcome State Fault Refusal :=
  .next (gateT32 s (storeTo .t32 s rd (addrBase s rn) (regBytes s rt 2)))

/-- `STLEXH, T32` (R145). -/
def execStlexhT (rd rt rn : Reg) (s : State) : Host.Outcome State Fault Refusal :=
  .next (gateT32 s (storeTo .t32 s rd (addrBase s rn) (regBytes s rt 2)))

/-- `STREX, T32, the form with an offset` (R146). -/
def execStrexT (rd rt rn : Reg) (imm8 : BitVec 8) (s : State) : Host.Outcome State Fault Refusal :=
  .next (gateT32 s (storeTo .t32 s rd (addrOffset s rn imm8) (regBytes s rt 4)))

/-- `STLEX, T32` (R147). -/
def execStlexT (rd rt rn : Reg) (s : State) : Host.Outcome State Fault Refusal :=
  .next (gateT32 s (storeTo .t32 s rd (addrBase s rn) (regBytes s rt 4)))

/-- `STREXD, T32` (R148). -/
def execStrexdT (rd rt rt2 rn : Reg) (s : State) : Host.Outcome State Fault Refusal :=
  .next (gateT32 s (storeTo .t32 s rd (addrBase s rn) (pairBytes s rt rt2)))

/-- `STLEXD, T32` (R149). -/
def execStlexdT (rd rt rt2 rn : Reg) (s : State) : Host.Outcome State Fault Refusal :=
  .next (gateT32 s (storeTo .t32 s rd (addrBase s rn) (pairBytes s rt rt2)))

end Sys2Proof.Machine
end

