-- ==== Sys2Proof/Machine/Dispatch.lean ====
section
/-! DEFINITION. exec: one arm per constructor of Instr, each one direct call of its meaning. -/

namespace Sys2Proof.Machine

def exec (i : Instr) (s : State) : Host.Outcome State Fault Refusal :=
  match i with
  | .ldrexbA c rt rn => Sys2Proof.Machine.execLdrexbA c rt rn s
  | .ldaexbA c rt rn => Sys2Proof.Machine.execLdaexbA c rt rn s
  | .ldrexhA c rt rn => Sys2Proof.Machine.execLdrexhA c rt rn s
  | .ldaexhA c rt rn => Sys2Proof.Machine.execLdaexhA c rt rn s
  | .ldrexA c rt rn => Sys2Proof.Machine.execLdrexA c rt rn s
  | .ldaexA c rt rn => Sys2Proof.Machine.execLdaexA c rt rn s
  | .ldrexdA c rt rn => Sys2Proof.Machine.execLdrexdA c rt rn s
  | .ldaexdA c rt rn => Sys2Proof.Machine.execLdaexdA c rt rn s
  | .strexbA c rd rt rn => Sys2Proof.Machine.execStrexbA c rd rt rn s
  | .stlexbA c rd rt rn => Sys2Proof.Machine.execStlexbA c rd rt rn s
  | .strexhA c rd rt rn => Sys2Proof.Machine.execStrexhA c rd rt rn s
  | .stlexhA c rd rt rn => Sys2Proof.Machine.execStlexhA c rd rt rn s
  | .strexA c rd rt rn => Sys2Proof.Machine.execStrexA c rd rt rn s
  | .stlexA c rd rt rn => Sys2Proof.Machine.execStlexA c rd rt rn s
  | .strexdA c rd rt rn => Sys2Proof.Machine.execStrexdA c rd rt rn s
  | .stlexdA c rd rt rn => Sys2Proof.Machine.execStlexdA c rd rt rn s
  | .clrexA => Sys2Proof.Machine.execClrexA s
  | .ldrexbT rt rn => Sys2Proof.Machine.execLdrexbT rt rn s
  | .ldaexbT rt rn => Sys2Proof.Machine.execLdaexbT rt rn s
  | .ldrexhT rt rn => Sys2Proof.Machine.execLdrexhT rt rn s
  | .ldaexhT rt rn => Sys2Proof.Machine.execLdaexhT rt rn s
  | .ldrexT rt rn imm8 => Sys2Proof.Machine.execLdrexT rt rn imm8 s
  | .ldaexT rt rn => Sys2Proof.Machine.execLdaexT rt rn s
  | .ldrexdT rt rt2 rn => Sys2Proof.Machine.execLdrexdT rt rt2 rn s
  | .ldaexdT rt rt2 rn => Sys2Proof.Machine.execLdaexdT rt rt2 rn s
  | .strexbT rd rt rn => Sys2Proof.Machine.execStrexbT rd rt rn s
  | .stlexbT rd rt rn => Sys2Proof.Machine.execStlexbT rd rt rn s
  | .strexhT rd rt rn => Sys2Proof.Machine.execStrexhT rd rt rn s
  | .stlexhT rd rt rn => Sys2Proof.Machine.execStlexhT rd rt rn s
  | .strexT rd rt rn imm8 => Sys2Proof.Machine.execStrexT rd rt rn imm8 s
  | .stlexT rd rt rn => Sys2Proof.Machine.execStlexT rd rt rn s
  | .strexdT rd rt rt2 rn => Sys2Proof.Machine.execStrexdT rd rt rt2 rn s
  | .stlexdT rd rt rt2 rn => Sys2Proof.Machine.execStlexdT rd rt rt2 rn s
  | .clrexT => Sys2Proof.Machine.execClrexT s
  | .wfeA c => Sys2Proof.Machine.execWfeA c s
  | .sevA c => Sys2Proof.Machine.execSevA c s
  | .sevlA c => Sys2Proof.Machine.execSevlA c s
  | .wfeT => Sys2Proof.Machine.execWfeT s
  | .sevT => Sys2Proof.Machine.execSevT s
  | .sevlT => Sys2Proof.Machine.execSevlT s
  | .wfeW => Sys2Proof.Machine.execWfeW s
  | .sevW => Sys2Proof.Machine.execSevW s
  | .sevlW => Sys2Proof.Machine.execSevlW s

end Sys2Proof.Machine
end

