-- ==== Sys2Proof/WellFormed.lean ====
section
/-! DEFINITION. Which instructions an encoding may name: the operand restrictions of R107.
The restrictions are PRESUMED by the spec itself ("from general knowledge"), log 10. -/

namespace Sys2Proof

/-- A32: no register field is 15 (R107). -/
def a32Reg (r : Reg) : Bool := r ≠ 15

/-- T32: no register field is 13 or 15 (R107). -/
def t32Reg (r : Reg) : Bool := r ≠ 13 && r ≠ 15

/-- A32 doubleword: `Rt` is even and not 14 (R103, R107). -/
def a32Pair (rt : Reg) : Bool := rt.val % 2 == 0 && rt ≠ 14

/-- The status register differs from the base and from every data register (R107). -/
def statusApart (rd rn : Reg) (data : List Reg) : Bool := rd ≠ rn && !data.contains rd

/-- The restrictions R107 puts on each form. -/
def Instr.wellFormed : Instr → Bool
  | .ldrexbA _ rt rn | .ldaexbA _ rt rn | .ldrexhA _ rt rn | .ldaexhA _ rt rn
  | .ldrexA _ rt rn | .ldaexA _ rt rn => a32Reg rt && a32Reg rn
  | .ldrexdA _ rt rn | .ldaexdA _ rt rn => a32Pair rt && a32Reg rn
  | .strexbA _ rd rt rn | .stlexbA _ rd rt rn | .strexhA _ rd rt rn | .stlexhA _ rd rt rn
  | .strexA _ rd rt rn | .stlexA _ rd rt rn =>
    a32Reg rd && a32Reg rt && a32Reg rn && statusApart rd rn [rt]
  | .strexdA _ rd rt rn | .stlexdA _ rd rt rn =>
    a32Reg rd && a32Pair rt && a32Reg rn && statusApart rd rn [rt, rt + 1]
  | .ldrexbT rt rn | .ldaexbT rt rn | .ldrexhT rt rn | .ldaexhT rt rn
  | .ldrexT rt rn _ | .ldaexT rt rn => t32Reg rt && t32Reg rn
  | .ldrexdT rt rt2 rn | .ldaexdT rt rt2 rn => t32Reg rt && t32Reg rt2 && t32Reg rn && rt ≠ rt2
  | .strexbT rd rt rn | .stlexbT rd rt rn | .strexhT rd rt rn | .stlexhT rd rt rn
  | .strexT rd rt rn _ | .stlexT rd rt rn =>
    t32Reg rd && t32Reg rt && t32Reg rn && statusApart rd rn [rt]
  | .strexdT rd rt rt2 rn | .stlexdT rd rt rt2 rn =>
    t32Reg rd && t32Reg rt && t32Reg rt2 && t32Reg rn && statusApart rd rn [rt, rt2]
  | .clrexA | .clrexT | .wfeA _ | .sevA _ | .sevlA _
  | .wfeT | .sevT | .sevlT | .wfeW | .sevW | .sevlW => true

end Sys2Proof
end

