-- ==== Sys2Proof/Decode.lean ====
section
/-! DEFINITION. The decoder, total on any bytes, and the encoder, both from the formats of R103 and R104 and the
rows of R106. Every field of these formats is made of whole nibbles, except `cond`-free hints and `imm8`, so both
sides are written nibble by nibble. The bit patterns are PRESUMED by the spec itself ("from general knowledge",
R101, log 10). -/

namespace Sys2Proof

/-- Nibble `k` of a word: bits [4k+3:4k] (R7). -/
def nib (w : Word) (k : Nat) : BitVec 4 := w.extractLsb' (4 * k) 4

/-- The word with the given nibbles, the most significant first. -/
def ofNibs (n7 n6 n5 n4 n3 n2 n1 n0 : BitVec 4) : Word :=
  n7 ++ n6 ++ n5 ++ n4 ++ n3 ++ n2 ++ n1 ++ n0

/-- A 4-bit register field as a register number (R105). -/
def regOf (n : BitVec 4) : Reg := n.toFin

/-- A register number as a 4-bit field. -/
def regBits (r : Reg) : BitVec 4 := BitVec.ofFin r

/-- The condition a 4-bit `cond` field names; 0b1111 names none (R103). -/
def condOf (n : BitVec 4) : Option Cond :=
  match n.toNat with
  | 0 => some .eq
  | 1 => some .ne
  | 2 => some .cs
  | 3 => some .cc
  | 4 => some .mi
  | 5 => some .pl
  | 6 => some .vs
  | 7 => some .vc
  | 8 => some .hi
  | 9 => some .ls
  | 10 => some .ge
  | 11 => some .lt
  | 12 => some .gt
  | 13 => some .le
  | 14 => some .al
  | _ => none

/-- A condition as a 4-bit field. -/
def condBits : Cond → BitVec 4
  | .eq => 0x0
  | .ne => 0x1
  | .cs => 0x2
  | .cc => 0x3
  | .mi => 0x4
  | .pl => 0x5
  | .vs => 0x6
  | .vc => 0x7
  | .hi => 0x8
  | .ls => 0x9
  | .ge => 0xA
  | .lt => 0xB
  | .gt => 0xC
  | .le => 0xD
  | .al => 0xE

/-- The instruction `i` if it keeps the restrictions of R107, else the refusal that names them. -/
def checkForm (i : Instr) : Except DecodeError Instr :=
  if i.wellFormed then .ok i else .error .restricted

/-- The A32-LDX rows (R103, R106), by their size nibble `sz` (nibble 5) and their order nibble `ord` (nibble 2:
0xF plain, 0xE acquire). -/
def decodeA32Load (c : Cond) (sz ord : BitVec 4) (rn rt : Reg) : Except DecodeError Instr :=
  if ord = 0xF then
    if sz = 0x9 then checkForm (.ldrexA c rt rn)
    else if sz = 0xB then checkForm (.ldrexdA c rt rn)
    else if sz = 0xD then checkForm (.ldrexbA c rt rn)
    else if sz = 0xF then checkForm (.ldrexhA c rt rn)
    else .error .noRow
  else if ord = 0xE then
    if sz = 0x9 then checkForm (.ldaexA c rt rn)
    else if sz = 0xB then checkForm (.ldaexdA c rt rn)
    else if sz = 0xD then checkForm (.ldaexbA c rt rn)
    else if sz = 0xF then checkForm (.ldaexhA c rt rn)
    else .error .noRow
  else .error .noRow

/-- The A32-STX rows (R103, R106), by the same two nibbles. -/
def decodeA32Store (c : Cond) (sz ord : BitVec 4) (rn rd rt : Reg) : Except DecodeError Instr :=
  if ord = 0xF then
    if sz = 0x8 then checkForm (.strexA c rd rt rn)
    else if sz = 0xA then checkForm (.strexdA c rd rt rn)
    else if sz = 0xC then checkForm (.strexbA c rd rt rn)
    else if sz = 0xE then checkForm (.strexhA c rd rt rn)
    else .error .noRow
  else if ord = 0xE then
    if sz = 0x8 then checkForm (.stlexA c rd rt rn)
    else if sz = 0xA then checkForm (.stlexdA c rd rt rn)
    else if sz = 0xC then checkForm (.stlexbA c rd rt rn)
    else if sz = 0xE then checkForm (.stlexhA c rd rt rn)
    else .error .noRow
  else .error .noRow

/-- The A32-HINT rows (R103, R106): bits [27:0] but for the hint number `h`, nibble 0, are fixed. -/
def decodeA32Hint (c : Cond) (h : BitVec 4) : Except DecodeError Instr :=
  if h = 0x2 then .ok (.wfeA c)
  else if h = 0x4 then .ok (.sevA c)
  else if h = 0x5 then .ok (.sevlA c)
  else .error .noRow

/-- One A32 word (R103). Even size nibbles are stores, odd ones loads; a load's nibble 0 is should-be-one. -/
def decodeA32Word (w : Word) : Except DecodeError Instr :=
  if w = 0xF57FF01F#32 then .ok .clrexA
  else
    match condOf (nib w 7) with
    | none => .error .noRow
    | some c =>
      if nib w 6 = 0x1 ∧ nib w 1 = 0x9 then
        if (nib w 5).getLsbD 0 then
          if nib w 0 = 0xF then
            decodeA32Load c (nib w 5) (nib w 2) (regOf (nib w 4)) (regOf (nib w 3))
          else .error .noRow
        else decodeA32Store c (nib w 5) (nib w 2) (regOf (nib w 4)) (regOf (nib w 3)) (regOf (nib w 0))
      else if nib w 6 = 0x3 ∧ nib w 5 = 0x2 ∧ nib w 4 = 0x0 ∧ nib w 3 = 0xF ∧ nib w 2 = 0x0 ∧ nib w 1 = 0x0 then
        decodeA32Hint c (nib w 0)
      else .error .noRow

/-- The T32-LDX rows (R104, R106), by `op` (nibble 1); nibble 2 is `Rt2` or should-be-one. -/
def decodeT32Load (op n2 : BitVec 4) (rn rt : Reg) : Except DecodeError Instr :=
  if op = 0x7 then checkForm (.ldrexdT rt (regOf n2) rn)
  else if op = 0xF then checkForm (.ldaexdT rt (regOf n2) rn)
  else if n2 = 0xF then
    if op = 0x4 then checkForm (.ldrexbT rt rn)
    else if op = 0x5 then checkForm (.ldrexhT rt rn)
    else if op = 0xC then checkForm (.ldaexbT rt rn)
    else if op = 0xD then checkForm (.ldaexhT rt rn)
    else if op = 0xE then checkForm (.ldaexT rt rn)
    else .error .noRow
  else .error .noRow

/-- The T32-STX rows (R104, R106). -/
def decodeT32Store (op n2 : BitVec 4) (rn rt rd : Reg) : Except DecodeError Instr :=
  if op = 0x7 then checkForm (.strexdT rd rt (regOf n2) rn)
  else if op = 0xF then checkForm (.stlexdT rd rt (regOf n2) rn)
  else if n2 = 0xF then
    if op = 0x4 then checkForm (.strexbT rd rt rn)
    else if op = 0x5 then checkForm (.strexhT rd rt rn)
    else if op = 0xC then checkForm (.stlexbT rd rt rn)
    else if op = 0xD then checkForm (.stlexhT rd rt rn)
    else if op = 0xE then checkForm (.stlexT rd rt rn)
    else .error .noRow
  else .error .noRow

/-- A two-halfword T32 instruction, as the number `hw1 : hw2` (R102, R104). -/
def decodeT32Word (w : Word) : Except DecodeError Instr :=
  if w = 0xF3BF8F2F#32 then .ok .clrexT
  else if w = 0xF3AF8002#32 then .ok .wfeW
  else if w = 0xF3AF8004#32 then .ok .sevW
  else if w = 0xF3AF8005#32 then .ok .sevlW
  else if nib w 7 = 0xE ∧ nib w 6 = 0x8 then
    if nib w 5 = 0xD then
      if nib w 0 = 0xF then decodeT32Load (nib w 1) (nib w 2) (regOf (nib w 4)) (regOf (nib w 3))
      else .error .noRow
    else if nib w 5 = 0xC then
      decodeT32Store (nib w 1) (nib w 2) (regOf (nib w 4)) (regOf (nib w 3)) (regOf (nib w 0))
    else if nib w 5 = 0x5 then
      if nib w 2 = 0xF then checkForm (.ldrexT (regOf (nib w 3)) (regOf (nib w 4)) (nib w 1 ++ nib w 0))
      else .error .noRow
    else if nib w 5 = 0x4 then
      checkForm (.strexT (regOf (nib w 2)) (regOf (nib w 3)) (regOf (nib w 4)) (nib w 1 ++ nib w 0))
    else .error .noRow
  else .error .noRow

/-- A one-halfword T32 instruction (R104 T32-HINT16). -/
def decodeT32Half (hw : BitVec 16) : Except DecodeError Instr :=
  if hw = 0xBF20#16 then .ok .wfeT
  else if hw = 0xBF40#16 then .ok .sevT
  else if hw = 0xBF50#16 then .ok .sevlT
  else .error .noRow

/-- A T32 instruction has two halfwords when bits [15:11] of the first are 0b11101, 0b11110 or 0b11111 (R102). -/
def isTwoHalfwords (hw : BitVec 16) : Bool :=
  let top := hw.extractLsb' 11 5
  top == 0b11101#5 || top == 0b11110#5 || top == 0b11111#5

/-- The halfword whose low byte is `b0` (R102: each halfword is little-endian). -/
def halfOf (b0 b1 : Byte) : BitVec 16 := b1 ++ b0

/-- The word whose high halfword is `h`. -/
def wordOf (h l : BitVec 16) : Word := h ++ l

/-- The decoder: the instruction at the head of `bs` in the given instruction set, and the bytes after it. An A32
instruction is one little-endian word; a T32 instruction is one or two little-endian halfwords, `hw1` at the lower
address (R102). -/
def decode (set : ISet) (bs : List Byte) : Except DecodeError (Instr × List Byte) :=
  match set, bs with
  | .a32, b0 :: b1 :: b2 :: b3 :: rest =>
    (decodeA32Word (wordOf (halfOf b2 b3) (halfOf b0 b1))).map fun i => (i, rest)
  | .a32, _ => .error .truncated
  | .t32, b0 :: b1 :: rest =>
    if isTwoHalfwords (halfOf b0 b1) then
      match rest with
      | b2 :: b3 :: rest => (decodeT32Word (wordOf (halfOf b0 b1) (halfOf b2 b3))).map fun i => (i, rest)
      | _ => .error .truncated
    else (decodeT32Half (halfOf b0 b1)).map fun i => (i, rest)
  | .t32, _ => .error .truncated

/-- The instruction set an instruction belongs to. -/
def Instr.iset : Instr → ISet
  | .ldrexbA .. | .ldaexbA .. | .ldrexhA .. | .ldaexhA .. | .ldrexA .. | .ldaexA .. | .ldrexdA .. | .ldaexdA ..
  | .strexbA .. | .stlexbA .. | .strexhA .. | .stlexhA .. | .strexA .. | .stlexA .. | .strexdA .. | .stlexdA ..
  | .clrexA | .wfeA _ | .sevA _ | .sevlA _ => .a32
  | .ldrexbT .. | .ldaexbT .. | .ldrexhT .. | .ldaexhT .. | .ldrexT .. | .ldaexT .. | .ldrexdT .. | .ldaexdT ..
  | .strexbT .. | .stlexbT .. | .strexhT .. | .stlexhT .. | .strexT .. | .stlexT .. | .strexdT .. | .stlexdT ..
  | .clrexT | .wfeT | .sevT | .sevlT | .wfeW | .sevW | .sevlW => .t32

/-- The bytes of a halfword in memory order (R102). -/
def halfBytes (h : BitVec 16) : List Byte := [h.extractLsb' 0 8, h.extractLsb' 8 8]

/-- The bytes of an A32 word in memory order: the low halfword first. -/
def a32Bytes (w : Word) : List Byte := halfBytes (w.extractLsb' 0 16) ++ halfBytes (w.extractLsb' 16 16)

/-- The bytes of a two-halfword T32 instruction in memory order: `hw1`, the high halfword, first (R102). -/
def t32Bytes (w : Word) : List Byte := halfBytes (w.extractLsb' 16 16) ++ halfBytes (w.extractLsb' 0 16)

/-- An A32-LDX word (R103). -/
def a32LoadWord (c : Cond) (sz ord : BitVec 4) (rn rt : Reg) : Word :=
  ofNibs (condBits c) 0x1 sz (regBits rn) (regBits rt) ord 0x9 0xF

/-- An A32-STX word (R103). -/
def a32StoreWord (c : Cond) (sz ord : BitVec 4) (rn rd rt : Reg) : Word :=
  ofNibs (condBits c) 0x1 sz (regBits rn) (regBits rd) ord 0x9 (regBits rt)

/-- An A32-HINT word (R103). -/
def a32HintWord (c : Cond) (h : BitVec 4) : Word :=
  ofNibs (condBits c) 0x3 0x2 0x0 0xF 0x0 0x0 h

/-- A T32-LDX word (R104). -/
def t32LoadWord (op n2 : BitVec 4) (rn rt : Reg) : Word :=
  ofNibs 0xE 0x8 0xD (regBits rn) (regBits rt) n2 op 0xF

/-- A T32-STX word (R104). -/
def t32StoreWord (op n2 : BitVec 4) (rn rt rd : Reg) : Word :=
  ofNibs 0xE 0x8 0xC (regBits rn) (regBits rt) n2 op (regBits rd)

/-- The encoder: an instruction's bytes as the hardware stores them (R102 to R106). -/
def encode : Instr → List Byte
  | .ldrexbA c rt rn => a32Bytes (a32LoadWord c 0xD 0xF rn rt)
  | .ldaexbA c rt rn => a32Bytes (a32LoadWord c 0xD 0xE rn rt)
  | .ldrexhA c rt rn => a32Bytes (a32LoadWord c 0xF 0xF rn rt)
  | .ldaexhA c rt rn => a32Bytes (a32LoadWord c 0xF 0xE rn rt)
  | .ldrexA c rt rn => a32Bytes (a32LoadWord c 0x9 0xF rn rt)
  | .ldaexA c rt rn => a32Bytes (a32LoadWord c 0x9 0xE rn rt)
  | .ldrexdA c rt rn => a32Bytes (a32LoadWord c 0xB 0xF rn rt)
  | .ldaexdA c rt rn => a32Bytes (a32LoadWord c 0xB 0xE rn rt)
  | .strexbA c rd rt rn => a32Bytes (a32StoreWord c 0xC 0xF rn rd rt)
  | .stlexbA c rd rt rn => a32Bytes (a32StoreWord c 0xC 0xE rn rd rt)
  | .strexhA c rd rt rn => a32Bytes (a32StoreWord c 0xE 0xF rn rd rt)
  | .stlexhA c rd rt rn => a32Bytes (a32StoreWord c 0xE 0xE rn rd rt)
  | .strexA c rd rt rn => a32Bytes (a32StoreWord c 0x8 0xF rn rd rt)
  | .stlexA c rd rt rn => a32Bytes (a32StoreWord c 0x8 0xE rn rd rt)
  | .strexdA c rd rt rn => a32Bytes (a32StoreWord c 0xA 0xF rn rd rt)
  | .stlexdA c rd rt rn => a32Bytes (a32StoreWord c 0xA 0xE rn rd rt)
  | .clrexA => a32Bytes 0xF57FF01F#32
  | .ldrexbT rt rn => t32Bytes (t32LoadWord 0x4 0xF rn rt)
  | .ldaexbT rt rn => t32Bytes (t32LoadWord 0xC 0xF rn rt)
  | .ldrexhT rt rn => t32Bytes (t32LoadWord 0x5 0xF rn rt)
  | .ldaexhT rt rn => t32Bytes (t32LoadWord 0xD 0xF rn rt)
  | .ldrexT rt rn imm8 =>
    t32Bytes (ofNibs 0xE 0x8 0x5 (regBits rn) (regBits rt) 0xF (imm8.extractLsb' 4 4) (imm8.extractLsb' 0 4))
  | .ldaexT rt rn => t32Bytes (t32LoadWord 0xE 0xF rn rt)
  | .ldrexdT rt rt2 rn => t32Bytes (t32LoadWord 0x7 (regBits rt2) rn rt)
  | .ldaexdT rt rt2 rn => t32Bytes (t32LoadWord 0xF (regBits rt2) rn rt)
  | .strexbT rd rt rn => t32Bytes (t32StoreWord 0x4 0xF rn rt rd)
  | .stlexbT rd rt rn => t32Bytes (t32StoreWord 0xC 0xF rn rt rd)
  | .strexhT rd rt rn => t32Bytes (t32StoreWord 0x5 0xF rn rt rd)
  | .stlexhT rd rt rn => t32Bytes (t32StoreWord 0xD 0xF rn rt rd)
  | .strexT rd rt rn imm8 =>
    t32Bytes (ofNibs 0xE 0x8 0x4 (regBits rn) (regBits rt) (regBits rd) (imm8.extractLsb' 4 4) (imm8.extractLsb' 0 4))
  | .stlexT rd rt rn => t32Bytes (t32StoreWord 0xE 0xF rn rt rd)
  | .strexdT rd rt rt2 rn => t32Bytes (t32StoreWord 0x7 (regBits rt2) rn rt rd)
  | .stlexdT rd rt rt2 rn => t32Bytes (t32StoreWord 0xF (regBits rt2) rn rt rd)
  | .clrexT => t32Bytes 0xF3BF8F2F#32
  | .wfeA c => a32Bytes (a32HintWord c 0x2)
  | .sevA c => a32Bytes (a32HintWord c 0x4)
  | .sevlA c => a32Bytes (a32HintWord c 0x5)
  | .wfeT => halfBytes 0xBF20#16
  | .sevT => halfBytes 0xBF40#16
  | .sevlT => halfBytes 0xBF50#16
  | .wfeW => t32Bytes 0xF3AF8002#32
  | .sevW => t32Bytes 0xF3AF8004#32
  | .sevlW => t32Bytes 0xF3AF8005#32

/-- The instruction at the head of some bytes, if the decoder accepts them. -/
def decoded? (set : ISet) (bs : List Byte) : Option Instr :=
  match decode set bs with
  | .ok (i, _) => some i
  | .error _ => none

/-- The bytes a table word of `nbits` bits stands for, in each instruction set. The table numbers a two-halfword
T32 instruction as `hw1 : hw2`, `hw1` in the upper half (R102, log 9); bytes after a one-halfword instruction
are 0. -/
def tableBytes (set : ISet) (nbits w : Nat) : List Byte :=
  if nbits ≤ 16 then halfBytes (BitVec.ofNat 16 w) ++ [0, 0]
  else
    match set with
    | .a32 => a32Bytes (BitVec.ofNat 32 w)
    | .t32 => t32Bytes (BitVec.ofNat 32 w)

/-- The instruction set of a table word: T32 for a 16-bit row; for a 32-bit row A32 if the A32 decoder accepts the
word, else T32. No 32-bit word is an instruction of both sets (log 9). -/
def tableSet (nbits w : Nat) : ISet :=
  if nbits ≤ 16 then .t32
  else if (decoded? .a32 (tableBytes .a32 nbits w)).isSome then .a32 else .t32

/-- The instruction the decoder reads from a word of spec/opcode_table.json. -/
def decodeTableWord (nbits w : Nat) : Option Instr :=
  decoded? (tableSet nbits w) (tableBytes (tableSet nbits w) nbits w)

end Sys2Proof
end

