-- ==== Sys2Proof/Machine/Fetch.lean ====
section
/-! DEFINITION. Fetching from a PE's program text, and placing an instruction there (R29, R80, log 8). -/

namespace Sys2Proof.Machine

/-- The bytes at position `pc` of PE `p`'s program; none past its end (R29, D26). -/
def fetchBytes (s : State) (p : Nat) : Option (List Byte) := (s.pe p).program[(s.pe p).pc]?

/-- The instruction PE `p` would read from some bytes, in the instruction set its CPSR selects (R102). -/
def decodeFor (s : State) (p : Nat) (bs : List Byte) : Except DecodeError (Instr × List Byte) :=
  decode (isetOf (s.pe p).cpsr) bs

/-- A program with `bs` at position `k`; positions before it that the program lacks hold no bytes. -/
def putSlot (prog : List (List Byte)) (k : Nat) (bs : List Byte) : List (List Byte) :=
  prog.take k ++ List.replicate (k - prog.length) [] ++ [bs] ++ prog.drop (k + 1)

/-- The executing PE will fetch `bs` in instruction set `set`: its program holds them at its PC, its run has not
ended, and the next turn, if the agenda has any, is its own. -/
def placeInstr (s : State) (set : ISet) (bs : List Byte) : State :=
  let t := s.updatePE s.cur fun x =>
    { x with program := putSlot x.program x.pc bs, cpsr := withISet set x.cpsr, ended := none }
  { t with
    agenda :=
      match s.agenda with
      | [] => []
      | turns => .run s.cur :: turns }

/-- The constraints a system must meet to run at all: those of R6, with at least one PE, and mappings that keep alignment
(R54, log 23). -/
def systemOk (s : State) : Bool := configOk s.cfg && 1 ≤ s.npe && s.xlat.all mappingOk

end Sys2Proof.Machine
end

