-- ==== Sys2Proof/Machine/Step.lean ====
section
/-! DEFINITION. One step of the machine: the next turn of the agenda, or, where it holds none, the next instruction of
the executing PE (R20, R33, log 12). -/

namespace Sys2Proof.Machine

/-- The executing PE executes the instruction at its PC. -/
def runCurrent (s : State) : Host.Outcome State Fault Refusal :=
  byPE s s.cur
    (match fetchBytes s s.cur with
    | none => .fault (.programEnd s.cur)
    | some bs =>
      match decodeFor s s.cur bs with
      | .error e => .refused (.invalidInstruction e)
      | .ok (i, _) => exec i s)

/-- One step. -/
def step (s : State) : Host.Outcome State Fault Refusal :=
  if systemOk s then
    match s.agenda with
    | [] => runCurrent s
    | .run p :: turns => runCurrent { s with cur := p, agenda := turns }
    | .act a :: turns => perform { s with agenda := turns } a
  else .refused .badConfiguration

/-- `s` with the instruction of a table word placed where the next step fetches it: the executing PE's instruction set
bit, its program at its PC, and a turn of its own (log 8, log 9). -/
def State.withFetchWord (s : State) (nbits w : Nat) : State :=
  placeInstr s (tableSet nbits w) (tableBytes (tableSet nbits w) nbits w)

end Sys2Proof.Machine
end

