-- ==== Sys2Proof/Machine/Forms.lean ====
section
/-! DEFINITION. Table E2-6 as a function of the instruction (R100), and the operands each form names (R105, R109), in
the terms statements and Safety.lean use. No meaning calls these functions. -/

namespace Sys2Proof.Machine

/-- The columns of Table E2-6, and one for the event instructions of R163 to R165 (R100). -/
inductive Column where
  | loadExclusive
  | storeExclusive
  | clearExclusive
  | event
deriving DecidableEq, Repr

/-- The column an instruction stands in. -/
def columnOf : Instr → Column
  | .ldrexbA .. | .ldaexbA .. | .ldrexhA .. | .ldaexhA .. | .ldrexA .. | .ldaexA .. | .ldrexdA .. | .ldaexdA ..
  | .ldrexbT .. | .ldaexbT .. | .ldrexhT .. | .ldaexhT .. | .ldrexT .. | .ldaexT .. | .ldrexdT .. | .ldaexdT .. =>
    .loadExclusive
  | .strexbA .. | .stlexbA .. | .strexhA .. | .stlexhA .. | .strexA .. | .stlexA .. | .strexdA .. | .stlexdA ..
  | .strexbT .. | .stlexbT .. | .strexhT .. | .stlexhT .. | .strexT .. | .stlexT .. | .strexdT .. | .stlexdT .. =>
    .storeExclusive
  | .clrexA | .clrexT => .clearExclusive
  | .wfeA _ | .wfeT | .wfeW | .sevA _ | .sevT | .sevW | .sevlA _ | .sevlT | .sevlW => .event

/-- Which event instruction an instruction is (R163 to R165); none for the others. -/
def eventKind : Instr → Option EventKind
  | .wfeA _ | .wfeT | .wfeW => some .wfe
  | .sevA _ | .sevT | .sevW => some .sev
  | .sevlA _ | .sevlT | .sevlW => some .sevl
  | .ldrexbA .. | .ldaexbA .. | .ldrexhA .. | .ldaexhA .. | .ldrexA .. | .ldaexA .. | .ldrexdA .. | .ldaexdA ..
  | .ldrexbT .. | .ldaexbT .. | .ldrexhT .. | .ldaexhT .. | .ldrexT .. | .ldaexT .. | .ldrexdT .. | .ldaexdT ..
  | .strexbA .. | .stlexbA .. | .strexhA .. | .stlexhA .. | .strexA .. | .stlexA .. | .strexdA .. | .stlexdA ..
  | .strexbT .. | .stlexbT .. | .strexhT .. | .stlexhT .. | .strexT .. | .stlexT .. | .strexdT .. | .stlexdT ..
  | .clrexA | .clrexT => none

/-- The transaction size in bytes (R8, R100); none for CLREX and the events. -/
def transactionSize : Instr → Option Nat
  | .ldrexbA .. | .ldaexbA .. | .ldrexbT .. | .ldaexbT ..
  | .strexbA .. | .stlexbA .. | .strexbT .. | .stlexbT .. => some 1
  | .ldrexhA .. | .ldaexhA .. | .ldrexhT .. | .ldaexhT ..
  | .strexhA .. | .stlexhA .. | .strexhT .. | .stlexhT .. => some 2
  | .ldrexA .. | .ldaexA .. | .ldrexT .. | .ldaexT ..
  | .strexA .. | .stlexA .. | .strexT .. | .stlexT .. => some 4
  | .ldrexdA .. | .ldaexdA .. | .ldrexdT .. | .ldaexdT ..
  | .strexdA .. | .stlexdA .. | .strexdT .. | .stlexdT .. => some 8
  | .clrexA | .clrexT | .wfeA _ | .wfeT | .wfeW | .sevA _ | .sevT | .sevW | .sevlA _ | .sevlT | .sevlW => none

/-- The additional semantics Load-Acquire/Store-Release (R78, R100). -/
def acquireRelease : Instr → Bool
  | .ldaexbA .. | .ldaexhA .. | .ldaexA .. | .ldaexdA .. | .ldaexbT .. | .ldaexhT .. | .ldaexT .. | .ldaexdT ..
  | .stlexbA .. | .stlexhA .. | .stlexA .. | .stlexdA .. | .stlexbT .. | .stlexhT .. | .stlexT .. | .stlexdT .. => true
  | .ldrexbA .. | .ldrexhA .. | .ldrexA .. | .ldrexdA .. | .ldrexbT .. | .ldrexhT .. | .ldrexT .. | .ldrexdT ..
  | .strexbA .. | .strexhA .. | .strexA .. | .strexdA .. | .strexbT .. | .strexhT .. | .strexT .. | .strexdT ..
  | .clrexA | .clrexT | .wfeA _ | .wfeT | .wfeW | .sevA _ | .sevT | .sevW | .sevlA _ | .sevlT | .sevlW => false

/-- "the two instructions in a single row are a Load-Exclusive/Store-Exclusive instruction pair" (R100). -/
def sameRow (l st : Instr) : Bool :=
  columnOf l = .loadExclusive && columnOf st = .storeExclusive &&
    transactionSize l = transactionSize st && acquireRelease l = acquireRelease st

/-- The instruction's condition holds for the executing PE: an A32 condition, or the IT block in T32 (R103, R108). -/
def executes (s : State) : Instr → Bool
  | .ldrexbA c .. | .ldaexbA c .. | .ldrexhA c .. | .ldaexhA c .. | .ldrexA c .. | .ldaexA c .. | .ldrexdA c ..
  | .ldaexdA c .. | .strexbA c .. | .stlexbA c .. | .strexhA c .. | .stlexhA c .. | .strexA c .. | .stlexA c ..
  | .strexdA c .. | .stlexdA c .. | .wfeA c | .sevA c | .sevlA c => condHolds c (s.pe s.cur).cpsr
  | .clrexA => true
  | .ldrexbT .. | .ldaexbT .. | .ldrexhT .. | .ldaexhT .. | .ldrexT .. | .ldaexT .. | .ldrexdT .. | .ldaexdT ..
  | .strexbT .. | .stlexbT .. | .strexhT .. | .stlexhT .. | .strexT .. | .stlexT .. | .strexdT .. | .stlexdT ..
  | .clrexT | .wfeT | .wfeW | .sevT | .sevW | .sevlT | .sevlW => itHolds (s.pe s.cur).cpsr

/-- One register a Load-Exclusive writes: which, from how many bytes, at which distance from the address (R121 to
R128). -/
structure LoadDest where
  reg    : Reg
  offset : Nat
  width  : Nat
deriving DecidableEq, Repr

/-- The operands of a Load-Exclusive: the address, the transaction size, the registers it writes. -/
structure LoadForm where
  va    : Word
  n     : Nat
  dests : List LoadDest
deriving DecidableEq, Repr

/-- The form that loads one register. -/
def singleForm (va : Word) (n : Nat) (rt : Reg) : LoadForm :=
  { va := va, n := n, dests := [{ reg := rt, offset := 0, width := n }] }

/-- The form that loads two registers, `rt` from the lower address (R127). -/
def doubleForm (va : Word) (rt rt2 : Reg) : LoadForm :=
  { va := va, n := 8, dests := [{ reg := rt, offset := 0, width := 4 }, { reg := rt2, offset := 4, width := 4 }] }

/-- The operands of an instruction that is a Load-Exclusive. -/
def loadForm (s : State) : Instr → Option LoadForm
  | .ldrexbA _ rt rn | .ldaexbA _ rt rn | .ldrexbT rt rn | .ldaexbT rt rn => some (singleForm (addrBase s rn) 1 rt)
  | .ldrexhA _ rt rn | .ldaexhA _ rt rn | .ldrexhT rt rn | .ldaexhT rt rn => some (singleForm (addrBase s rn) 2 rt)
  | .ldrexA _ rt rn | .ldaexA _ rt rn | .ldaexT rt rn => some (singleForm (addrBase s rn) 4 rt)
  | .ldrexT rt rn imm8 => some (singleForm (addrOffset s rn imm8) 4 rt)
  | .ldrexdA _ rt rn | .ldaexdA _ rt rn => some (doubleForm (addrBase s rn) rt (nextReg rt))
  | .ldrexdT rt rt2 rn | .ldaexdT rt rt2 rn => some (doubleForm (addrBase s rn) rt rt2)
  | .strexbA .. | .stlexbA .. | .strexhA .. | .stlexhA .. | .strexA .. | .stlexA .. | .strexdA .. | .stlexdA ..
  | .strexbT .. | .stlexbT .. | .strexhT .. | .stlexhT .. | .strexT .. | .stlexT .. | .strexdT .. | .stlexdT ..
  | .clrexA | .clrexT | .wfeA _ | .wfeT | .wfeW | .sevA _ | .sevT | .sevW | .sevlA _ | .sevlT | .sevlW => none

/-- The operands of a Store-Exclusive: the status register, the address, the bytes at rising addresses. -/
structure StoreForm where
  rd    : Reg
  va    : Word
  bytes : List Byte
deriving DecidableEq, Repr

/-- The operands of an instruction that is a Store-Exclusive. -/
def storeForm (s : State) : Instr → Option StoreForm
  | .strexbA _ rd rt rn | .stlexbA _ rd rt rn | .strexbT rd rt rn | .stlexbT rd rt rn =>
    some { rd := rd, va := addrBase s rn, bytes := regBytes s rt 1 }
  | .strexhA _ rd rt rn | .stlexhA _ rd rt rn | .strexhT rd rt rn | .stlexhT rd rt rn =>
    some { rd := rd, va := addrBase s rn, bytes := regBytes s rt 2 }
  | .strexA _ rd rt rn | .stlexA _ rd rt rn | .stlexT rd rt rn =>
    some { rd := rd, va := addrBase s rn, bytes := regBytes s rt 4 }
  | .strexT rd rt rn imm8 => some { rd := rd, va := addrOffset s rn imm8, bytes := regBytes s rt 4 }
  | .strexdA _ rd rt rn | .stlexdA _ rd rt rn =>
    some { rd := rd, va := addrBase s rn, bytes := pairBytes s rt (nextReg rt) }
  | .strexdT rd rt rt2 rn | .stlexdT rd rt rt2 rn =>
    some { rd := rd, va := addrBase s rn, bytes := pairBytes s rt rt2 }
  | .ldrexbA .. | .ldaexbA .. | .ldrexhA .. | .ldaexhA .. | .ldrexA .. | .ldaexA .. | .ldrexdA .. | .ldaexdA ..
  | .ldrexbT .. | .ldaexbT .. | .ldrexhT .. | .ldaexhT .. | .ldrexT .. | .ldaexT .. | .ldrexdT .. | .ldaexdT ..
  | .clrexA | .clrexT | .wfeA _ | .wfeT | .wfeW | .sevA _ | .sevT | .sevW | .sevlA _ | .sevlT | .sevlW => none

end Sys2Proof.Machine
end

