-- ==== Sys2Proof/Safety.lean ====
section
/-! DEFINITION. What counts as a safe state and run, in the terms claims use: the invariant of the machine, the launch
premise of D12, the agent that moves in a step, the software conditions for forward progress (R226 to R230), and forward
progress and fairness as properties of infinite runs (R179, R225, R226, R229 to R231). They change nothing a step does
(log 34). -/

namespace Sys2Proof.Machine

/-- Every listed address lies in the physical address space (R27). -/
def memInSpace (s : State) : Bool := s.mem.all fun c => c.1 < 2 ^ s.cfg.paBits

/-- The invariant: the system may run (R6, R54); memory is canonical and inside its space (R27); the executing PE
exists; every Load-Exclusive record is one a Load-Exclusive can have left (R26). -/
def stateOk (s : State) : Bool :=
  systemOk s && memWf s.mem && memInSpace s && s.cur < s.npe && s.pes.all fun x => threadOk s.cfg x.lx

/-- The launch premise MonitorsOpenAtStart (D12, R36). -/
def monitorsOpenAtStart (s : State) : Bool :=
  s.pes.all fun x => x.lm = .openAccess && x.gm = .openAccess && !x.ev

/-- Nothing of a PE but its two monitors and its Event register differs, and the model's own record of its pair names the
same address (log 24). -/
def onlyMonitors (x y : PE) : Prop :=
  y = { x with lm := y.lm, gm := y.gm, ev := y.ev, pair := y.pair } ∧ y.pair.address = x.pair.address

/-- Nothing of a PE differs but that monitors may have been cleared, a cleared global monitor with its event (R58,
R59). -/
def onlyCleared (x y : PE) : Prop :=
  onlyMonitors x y ∧ (y.lm = x.lm ∨ y.lm = .openAccess) ∧
    (y.gm = x.gm ∧ y.ev = x.ev ∨ x.gm.isSet ∧ y.gm = .openAccess ∧ y.ev = true)

/-- PE `p` exists and its run has not ended (D16). -/
def running (s : State) (p : Nat) : Bool := p < s.npe && (s.pe p).ended = none

/-! ## The agent of a step -/

/-- The PE that an action belongs to, if the action is one that can change more of a PE than by clearing. -/
def actorOf : Action → Option Nat
  | .store p _ _ _ | .load p _ _ | .takeDataAbort p | .exceptionReturn p | .exceptionReturnTo p _ _
  | .installThread p _ _ | .foreign p _ _ => some p
  | .observerWrite .. | .observerRead .. | .pldw .. | .dcacheMaint .. | .icacheInvalidateAll _
  | .icacheInvalidateVA .. | .tlbInvalidate _ | .remap .. | .spontaneousClearLocal _ | .spontaneousClearGlobal _ => none

/-- The PE that performs an action, if a PE does. -/
def performerOf : Action → Option Nat
  | .store p _ _ _ | .load p _ _ | .pldw p _ | .dcacheMaint p _ | .icacheInvalidateAll p | .icacheInvalidateVA p _
  | .tlbInvalidate p | .takeDataAbort p | .exceptionReturn p | .exceptionReturnTo p _ _ | .installThread p _ _
  | .foreign p _ _ => some p
  | .observerWrite .. | .observerRead .. | .remap .. | .spontaneousClearLocal _ | .spontaneousClearGlobal _ => none

/-- The PE whose turn the next step is, if it is a PE's. -/
def mover (s : State) : Option Nat :=
  match s.agenda with
  | [] => some s.cur
  | .run p :: _ => some p
  | .act a :: _ => actorOf a

/-- The instruction the next step executes, if it executes one, and the PE that executes it. -/
def executed (s : State) : Option (Nat × Instr) :=
  let at_ p := (fetchBytes s p).bind fun bs =>
    match decodeFor s p bs with
    | .ok (i, _) => some (p, i)
    | .error _ => none
  match s.agenda with
  | [] => at_ s.cur
  | .run p :: _ => at_ p
  | .act _ :: _ => none

/-- What the next step's Store-Exclusive gives, if it executes one: the PE, the operands, the result of the common step
(R140). -/
def storeResult (s : State) : Option (Nat × StoreForm × StoreResult) :=
  match executed s with
  | none => none
  | some (p, i) =>
    let u := { s with cur := p, agenda := s.agenda.tail }
    if executes u i then (storeForm u i).map fun f => (p, f, storeExcl u p f.va f.bytes) else none

/-- The status the next step's Store-Exclusive returns, if it returns one: the PE, the operands, the value (R140,
R152). -/
def statusReturned (s : State) : Option (Nat × StoreForm × Word) :=
  match storeResult s with
  | some (p, f, .status _ v _) => some (p, f, v)
  | some (_, _, .noWriteback _) | some (_, _, .ended _) | none => none

/-- The ranges of memory the next step's Store-Exclusive writes, whatever status it returns: the PE, and each range by its
physical address and size. -/
def storesPerformed (s : State) : List (Nat × Nat × Nat) :=
  match storeResult s with
  | some (p, _, .status _ _ written) => written.map fun (pa, n) => (p, pa, n)
  | some (_, _, .noWriteback _) | some (_, _, .ended _) | none => []

/-! ## The software conditions -/

/-- A place in memory as one thread reaches it. -/
structure Place where
  va : Nat
  pa : Nat
  n  : Nat
deriving DecidableEq, Repr

/-- What the forward-progress conditions tell apart in a piece of software (R227, R228), and three kinds they do not name:
the event instructions (R166, N15), CLREX, and a thread switch (R161) (log 38). -/
inductive Activity where
  /-- register-to-register data processing, comparisons (with their changes of the flags), direct branches without
  link -/
  | registerOnly
  | load (place : Place)
  | store (place : Place)
  | storeExclusive (place : Place)
  /-- a software prefetch, with the place it reaches: none where it has no translation -/
  | prefetch (place : Option Place)
  /-- a PLDW, likewise: one that cannot translate does nothing (R174) -/
  | pldw (place : Option Place)
  | systemRegisterWrite
  | addressTranslation
  | cacheOrTlbMaintenance
  | exceptionGenerating
  | exceptionReturn
  | isb
  | indirectBranch
  | branchWithLink
  | event (kind : EventKind)
  | clearExclusive
  | threadSwitch
deriving DecidableEq, Repr

/-- Condition 1 for one activity (R227): the ten kinds it lists are barred, and CLREX and a thread switch too, since its
check on a program admits nothing but register-only instructions; for an event instruction the source leaves it open
(R166), and so does the model (log 38). -/
def betweenAllowed : Activity → Bool
  | .registerOnly => true
  | .event k => !Config.countsAsBarred k
  | .load _ | .store _ | .storeExclusive _ | .prefetch _ | .pldw _ | .systemRegisterWrite | .addressTranslation
  | .cacheOrTlbMaintenance | .exceptionGenerating | .exceptionReturn | .isb | .indirectBranch | .branchWithLink
  | .clearExclusive | .threadSwitch => false

/-- Condition 1, between the Load-Exclusive and the Store-Exclusive (R227). -/
def condition1 (between : List Activity) : Bool := between.all betweenAllowed

/-- The place lies, in part, in the granule of the lock. -/
def inGranule (cfg : Config) (lock p : Place) : Bool := inBlocks cfg p.pa p.n (block cfg lock.pa)

/-- Two places are reached through different aliases: the distance between VA and PA differs. R234 defines aliases of one
PA, and R228 does not say which alias of another address of the granule is the loop's own; it is read as the one at the
lock's distance VA - PA. DESIGN CHOICE (log 43). -/
def otherAlias (p q : Place) : Bool := (p.va : Int) - p.pa ≠ (q.va : Int) - q.pa

/-- The place lies in the granule of the lock and is reached through an alias other than the loop's (R228, second item). -/
def throughOtherAlias (cfg : Config) (lock p : Place) : Bool := inGranule cfg lock p && otherAlias lock p

/-- Condition 2 for one activity between a failing Store-Exclusive and the retry (R228, its first five items). A
Store-Exclusive is judged by the third item alone, so that one to the loop's own virtual address is allowed although the
first item bars stores in the granule: the model's reading, DEDUCED (log 34). A prefetch or PLDW without a translation
reaches no granule, so no item bars it. CLREX the condition names nowhere, so it is
allowed; a thread switch leaves the thread of the loop, so it is not; an event instruction is as open as for condition 1
(log 38). -/
def retryAllowed (cfg : Config) (lock : Place) : Activity → Bool
  | .registerOnly | .isb | .clearExclusive => true
  | .event k => !Config.countsAsBarred k
  | .load p => !throughOtherAlias cfg lock p
  | .prefetch place => !place.any (throughOtherAlias cfg lock)
  | .store p => !inGranule cfg lock p
  | .pldw place => !place.any (inGranule cfg lock)
  | .storeExclusive p => p.va = lock.va
  | .systemRegisterWrite | .addressTranslation | .cacheOrTlbMaintenance | .exceptionGenerating
  | .exceptionReturn | .indirectBranch | .branchWithLink | .threadSwitch => false

/-- The place an activity loads from or stores to. -/
def placeOf : Activity → Option Place
  | .load p | .store p | .storeExclusive p => some p
  | .registerOnly | .prefetch _ | .pldw _ | .systemRegisterWrite | .addressTranslation | .cacheOrTlbMaintenance
  | .exceptionGenerating | .exceptionReturn | .isb | .indirectBranch | .branchWithLink | .event _ | .clearExclusive
  | .threadSwitch => none

/-- The loads and stores are to one block of contiguous virtual memory of at most 512 bytes (R228, last item). -/
def within512 (xs : List Activity) : Bool :=
  let ps := xs.filterMap placeOf
  ps.all fun p => ps.all fun q => q.va + q.n ≤ p.va + 512

/-- Condition 2 (R228). -/
def condition2 (cfg : Config) (lock : Place) (retry : List Activity) : Bool :=
  retry.all (retryAllowed cfg lock) && within512 retry

/-- What a different thread may do repeatedly in a tight loop that excuses a lack of progress, with the physical address
it concerns (R230). -/
inductive Interference where
  | storeTo (pa n : Nat)
  | prefetchToWrite (pa : Nat)
  | dataCacheMaintenance (pa : Nat)
  | instrCacheInvalidateAll
  | instrCacheInvalidateVA (pa : Nat)
deriving DecidableEq, Repr

/-- The interference excuses a loop on `lock`: its physical address is covered by the mark (R230). -/
def excuses (cfg : Config) (lock : Place) : Interference → Bool
  | .storeTo pa n => inBlocks cfg pa n (block cfg lock.pa)
  | .prefetchToWrite pa | .dataCacheMaintenance pa | .instrCacheInvalidateVA pa => block cfg pa == block cfg lock.pa
  | .instrCacheInvalidateAll => true

/-- What the source promises a loop in a single thread (R226). -/
inductive ProgressPromise where
  | guaranteed
  | likelihoodMaximised
  | none
deriving DecidableEq, Repr

/-- The promise for a loop on `lock` with this text between and after, under this interference (R226 to R230). -/
def progressPromise (cfg : Config) (lock : Place) (between retry : List Activity) (others : List Interference) :
    ProgressPromise :=
  if condition1 between && condition2 cfg lock retry && !others.any (excuses cfg lock) then
    if cfg.haveLSE then .likelihoodMaximised else .guaranteed
  else .none

/-! ## Activities of a run -/

/-- The place an access reaches: none where it has no translation. -/
def placeAt (s : State) (p : Nat) (va : Word) (n : Nat) (kind : AccessKind) : Option Place :=
  (translate s p va kind).map fun (pa, _) => { va := va.toNat, pa := pa, n := n }

/-- A load or a store as an activity. One that has no translation takes an exception and counts as an instruction that
generates one, which both conditions bar. -/
def accessActivity (s : State) (p : Nat) (va : Word) (n : Nat) (kind : AccessKind) (f : Place → Activity) : Activity :=
  match placeAt s p va n kind with
  | some place => f place
  | none => .exceptionGenerating

/-- What the conditions see of an instruction of the table that the current PE executes; one whose condition fails is a
no-op (R103). -/
def instrActivity (s : State) (i : Instr) : Activity :=
  if executes s i then
    match loadForm s i, storeForm s i, eventKind i with
    | some f, _, _ => accessActivity s s.cur f.va f.n .read .load
    | none, some f, _ => accessActivity s s.cur f.va f.bytes.length .write .storeExclusive
    | none, none, some k => .event k
    | none, none, none => .clearExclusive
  else .registerOnly

/-- What they see of a foreign instruction. -/
def foreignActivity (s : State) (p : Nat) : ForeignKind → Activity
  | .registerOnly => .registerOnly
  | .prefetch va => .prefetch (placeAt s p va 1 .read)
  | .systemRegisterWrite .. => .systemRegisterWrite
  | .addressTranslation => .addressTranslation
  | .exceptionGenerating => .exceptionGenerating
  | .isb => .isb
  | .indirectBranch => .indirectBranch
  | .branchWithLink => .branchWithLink

/-- What they see of an action, with the PE that performs it. -/
def actionActivity (s : State) : Action → Option (Nat × Activity)
  | .store p va n _ => some (p, accessActivity s p va n .write .store)
  | .load p va n => some (p, accessActivity s p va n .read .load)
  | .pldw p va => some (p, .pldw (placeAt s p va 1 .write))
  | .dcacheMaint p _ | .icacheInvalidateAll p | .icacheInvalidateVA p _ | .tlbInvalidate p =>
    some (p, .cacheOrTlbMaintenance)
  | .takeDataAbort p => some (p, .exceptionGenerating)
  | .exceptionReturn p | .exceptionReturnTo p _ _ => some (p, .exceptionReturn)
  | .installThread p _ _ => some (p, .threadSwitch)
  | .foreign p kind _ => some (p, foreignActivity s p kind)
  | .observerWrite .. | .observerRead .. | .remap .. | .spontaneousClearLocal _ | .spontaneousClearGlobal _ => none

/-- What they see of the next step. -/
def activityOf (s : State) : Option (Nat × Activity) :=
  match s.agenda with
  | .act a :: _ => actionActivity s a
  | [] | .run _ :: _ => (executed s).map fun (p, i) => (p, instrActivity { s with cur := p } i)

/-- What the next step does of the five that excuse a loop, with the PE that does it (R230). A Store-Exclusive performs
the stores of the ranges it writes, whatever status it returns: the model's reading, DEDUCED (log 34). -/
def interferencesOf (s : State) : List (Nat × Interference) :=
  match s.agenda with
  | .act (.store q va n _) :: _ =>
    ((translate s q va .write).map fun (pa, _) => (q, Interference.storeTo pa n)).toList
  | .act (.pldw q va) :: _ => ((translate s q va .write).map fun (pa, _) => (q, Interference.prefetchToWrite pa)).toList
  | .act (.dcacheMaint q (.address pa)) :: _ => [(q, .dataCacheMaintenance pa)]
  | .act (.icacheInvalidateAll q) :: _ => [(q, .instrCacheInvalidateAll)]
  | .act (.icacheInvalidateVA q va) :: _ =>
    ((translate s q va .read).map fun (pa, _) => (q, Interference.instrCacheInvalidateVA pa)).toList
  | _ => (storesPerformed s).map fun (q, pa, n) => (q, .storeTo pa n)

/-! ## Infinite runs: forward progress and fairness -/

/-- The state of a run at moment `k`, with the turn that is taken there as its agenda. -/
def moment (sched : Nat → Turn) (r : Nat → State) (k : Nat) : State := { r k with agenda := [sched k] }

/-- An infinite execution: at every moment the turn of the schedule is taken and the step answers the next state (R33,
R76). -/
def infiniteRun (sched : Nat → Turn) (r : Nat → State) : Prop := ∀ k, step (moment sched r k) = .next (r (k + 1))

section Run

variable (sched : Nat → Turn) (r : Nat → State)

/-- At moment `k` PE `p` executes a Load-Exclusive of `lock`. -/
def loadsAt (p : Nat) (lock : Place) (k : Nat) : Prop :=
  let u := { moment sched r k with cur := p }
  ∃ i f, executed (moment sched r k) = some (p, i) ∧ executes u i = true ∧ loadForm u i = some f ∧
    f.va.toNat = lock.va ∧ f.n = lock.n ∧ (translate u p f.va .read).map (·.1) = some lock.pa

/-- At moment `k` PE `p` executes a Store-Exclusive to `lock`. -/
def storesAt (p : Nat) (lock : Place) (k : Nat) : Prop :=
  let u := { moment sched r k with cur := p }
  ∃ i f, executed (moment sched r k) = some (p, i) ∧ executes u i = true ∧ storeForm u i = some f ∧
    f.va.toNat = lock.va ∧ f.bytes.length = lock.n ∧ (translate u p f.va .write).map (·.1) = some lock.pa

/-- At moment `k` a Store-Exclusive of PE `p` returns 0: its loop makes forward progress (R225). -/
def progressAt (p k : Nat) : Prop := ∃ f, statusReturned (moment sched r k) = some (p, f, 0)

/-- PE `p` makes forward progress in the run (R225). -/
def makesProgress (p : Nat) : Prop := ∃ k, progressAt sched r p k

/-- What PE `p` does strictly between two moments, as the conditions see it. -/
def ownActivities (p j k : Nat) : List Activity :=
  (List.range (k - (j + 1))).filterMap fun d =>
    match activityOf (moment sched r (j + 1 + d)) with
    | some (q, a) => if q = p then some a else none
    | none => none

/-- A Load-Exclusive of `lock` by PE `p` at moment `j` and its Store-Exclusive at moment `k`. -/
def pairAt (p : Nat) (lock : Place) (j k : Nat) : Prop :=
  j < k ∧ loadsAt sched r p lock j ∧ storesAt sched r p lock k ∧
    ∀ m, j < m → m < k → ¬loadsAt sched r p lock m ∧ ¬storesAt sched r p lock m

/-- A failing Store-Exclusive of PE `p` at moment `j` and the retry of the Load-Exclusive at moment `k`. -/
def retryAt (p : Nat) (lock : Place) (j k : Nat) : Prop :=
  j < k ∧ (∃ f v, statusReturned (moment sched r j) = some (p, f, v) ∧ v ≠ 0) ∧ loadsAt sched r p lock k ∧
    ∀ m, j < m → m < k → ¬loadsAt sched r p lock m

/-- PE `p` keeps executing a LoadExcl/StoreExcl loop on `lock` that meets the conditions (R222, R227, R228): for ever, with
no exclusive access elsewhere, condition 1 between the pair, condition 2 before every retry. -/
def keepsLooping (p : Nat) (lock : Place) : Prop :=
  (∀ k, ∃ j, k ≤ j ∧ loadsAt sched r p lock j) ∧ (∀ k, ∃ j, k ≤ j ∧ storesAt sched r p lock j) ∧
    (∀ k i, executed (moment sched r k) = some (p, i) → executes { moment sched r k with cur := p } i = true →
      (columnOf i = .loadExclusive → loadsAt sched r p lock k) ∧
        (columnOf i = .storeExclusive → storesAt sched r p lock k)) ∧
    (∀ j k, pairAt sched r p lock j k → condition1 (ownActivities sched r p j k) = true) ∧
    ∀ j k, retryAt sched r p lock j k → condition2 (r 0).cfg lock (ownActivities sched r p j k) = true

/-- Another PE does, again and again, one of the five things that excuse the loop on `lock` (R230). -/
def excused (p : Nat) (lock : Place) : Prop :=
  ∃ q, q ≠ p ∧
    ∀ k, ∃ j x, k ≤ j ∧ (q, x) ∈ interferencesOf (moment sched r j) ∧ excuses (r 0).cfg lock x = true

/-- Between every Load-Exclusive and Store-Exclusive of PE `p` on `lock` the monitor environment clears one of its
monitors. -/
def clearedEveryPair (p : Nat) (lock : Place) : Prop :=
  ∀ j k, pairAt sched r p lock j k → ∃ m, j < m ∧ m < k ∧
    (sched m = .act (.spontaneousClearLocal p) ∨ sched m = .act (.spontaneousClearGlobal p))

/-- What the proviso of R178 excludes (R179, R229): threads keep executing loops, and the monitor environment clears a
monitor between every Load-Exclusive and its Store-Exclusive, for ever, for every contending thread. -/
def systematicClears : Prop :=
  (∃ p lock, keepsLooping sched r p lock) ∧
    ∀ p lock, keepsLooping sched r p lock → clearedEveryPair sched r p lock

/-- The fairness assumption, as R179 states it as a property (R179, R225, R229, D22): where threads keep executing loops that
meet the conditions, some Store-Exclusive returns 0. It promises no single one of them anything. A termination claim may
assume it; a safety claim may not. -/
def fairRun : Prop := (∃ p lock, keepsLooping sched r p lock) → ∃ p, makesProgress sched r p

/-- The guarantee for a single thread's loop (R226, R230): without FEAT_LSE, a loop that meets the conditions and is not
excused makes forward progress. -/
def threadProgress : Prop :=
  (r 0).cfg.haveLSE = false → ∀ p lock, keepsLooping sched r p lock → ¬excused sched r p lock → makesProgress sched r p

/-- PE `p` keeps running a loop that meets the conditions on block `b` (R231). -/
def contends (b p : Nat) : Prop := ∃ lock, keepsLooping sched r p lock ∧ block (r 0).cfg lock.pa = b

/-- At moment `k` a Store-Exclusive to block `b`, of whichever PE, returns 0. -/
def progressOn (b k : Nat) : Prop :=
  ∃ p f pa attr, statusReturned (moment sched r k) = some (p, f, 0) ∧
    translate (moment sched r k) p f.va .write = some (pa, attr) ∧ block (r 0).cfg pa = b

/-- The guarantee for the system (R231): where two or more PEs keep running such loops on one block, infinitely many
Store-Exclusives to it return 0 in total; no single PE is promised one. -/
def systemProgress : Prop :=
  ∀ b p q, p ≠ q → contends sched r b p → contends sched r b q → ∀ k, ∃ j, k ≤ j ∧ progressOn sched r b j

end Run

end Sys2Proof.Machine
end

