-- ==== Sys2Proof/Certificates/Slice0/Obligations.lean ====
section
/-! DEFINITION. The statements for the provers, with the words they are written in. A statement about an instruction
says its frame: everything of the state it does not name is unchanged. -/

namespace Sys2Proof.Machine

/-! ## Words of the statements -/

/-- The parts of the system that no instruction changes; the step's counter advances (log 7). -/
def sameSystem (s t : State) : Prop :=
  t.cfg = s.cfg ∧ t.attrs = s.attrs ∧ t.xlat = s.xlat ∧ t.npe = s.npe ∧ t.cur = s.cur ∧ t.agenda = s.agenda ∧
    t.fresh = s.fresh + 1

/-- Every byte of memory reads as before. -/
def sameMemory (s t : State) : Prop := ∀ a, memRead t.mem a = memRead s.mem a

/-- Every byte of memory outside `pa .. pa+n-1` reads as before. -/
def sameMemoryOutside (s t : State) (pa n : Nat) : Prop :=
  ∀ a, a < pa ∨ pa + n ≤ a → memRead t.mem a = memRead s.mem a

/-- The bytes at `pa ..` read as `bs`. -/
def holdsBytes (t : State) (pa : Nat) (bs : List Byte) : Prop := memReadBytes t.mem pa bs.length = bs

/-- Every PE but `p` is unchanged. -/
def sameOthers (s t : State) (p : Nat) : Prop := ∀ m, m ≠ p → t.pe m = s.pe m

/-- CPSR after an instruction: unchanged in A32; in T32 the IT state advances (log 11) and every bit outside
[26:25] and [15:10] is unchanged, the flags and the instruction set bit among them. -/
def cpsrAdvanced (set : ISet) (old new : Word) : Prop :=
  match set with
  | .a32 => new = old
  | .t32 =>
    itState new = itNext (itState old) ∧
      ∀ k, ¬(10 ≤ k ∧ k ≤ 15) → ¬(25 ≤ k ∧ k ≤ 26) → new.getLsbD k = old.getLsbD k

/-- One of two outcomes, by the choice `id`: where the configuration fixes it, the fixed one (D9). -/
def byChoice (cfg : Config) (id : ChoiceId) (yes no : Prop) : Prop :=
  (yes ∨ no) ∧ (fixedChoice cfg id = some true → yes) ∧ (fixedChoice cfg id = some false → no)

/-- The global monitor was cleared, with the event of R58. -/
def globalCleared (y : PE) : Prop := y.gm = .openAccess ∧ y.ev = true

/-- The global monitor and the Event register are unchanged. -/
def globalKept (x y : PE) : Prop := y.gm = x.gm ∧ y.ev = x.ev

/-- A write of `n` bytes at `pa` touches a byte of block `g` (R52, R54). -/
def touches (cfg : Config) (pa n g : Nat) : Prop := ∃ k, k < n ∧ block cfg (pa + k) = g

/-- What a write by `o` does to a PE that did not write (R70, R71, R72, R74, R75). -/
def observedByOther (cfg : Config) (o : Observer) (pa n : Nat) (attr : MemAttr) (x y : PE) : Prop :=
  onlyCleared x y ∧
    (∀ g, x.gm = .exclusive g → touches cfg pa n g →
      if shareable attr = true ∧ inDomain cfg o pa attr = true ∧ exempt cfg o pa attr = false then globalCleared y
      else byChoice cfg (if shareable attr then .id16 else .id11) (globalCleared y) (globalKept x y)) ∧
    ((∀ g, x.gm = .exclusive g → ¬touches cfg pa n g) → globalKept x y) ∧
    (∀ b, x.lm = .exclusive b → cfg.localHoldsPA = true → touches cfg pa n b →
      byChoice cfg .id5 (y.lm = .openAccess) (y.lm = x.lm)) ∧
    (∀ b, x.lm = .exclusive b → ¬(cfg.localHoldsPA = true ∧ touches cfg pa n b) →
      byChoice cfg .id6 (y.lm = .openAccess) (y.lm = x.lm))

/-- What a PE's own write that is no Store-Exclusive does to it (R70, R73). -/
def observedByWriter (cfg : Config) (pa n : Nat) (x y : PE) : Prop :=
  onlyCleared x y ∧
    (∀ g, x.gm = .exclusive g → touches cfg pa n g → byChoice cfg .id19 (globalCleared y) (globalKept x y)) ∧
    ((∀ g, x.gm = .exclusive g → ¬touches cfg pa n g) → globalKept x y) ∧
    (∀ b, x.lm = .exclusive b → cfg.localHoldsPA = true → touches cfg pa n b →
      byChoice cfg .id4 (y.lm = .openAccess) (y.lm = x.lm)) ∧
    (∀ b, x.lm = .exclusive b → ¬(cfg.localHoldsPA = true ∧ touches cfg pa n b) →
      byChoice cfg .id3 (y.lm = .openAccess) (y.lm = x.lm))

/-- The instruction only moved on: the PC, and in T32 the IT state. -/
def passedOver (i : Instr) (s t : State) : Prop :=
  sameSystem s t ∧ sameMemory s t ∧ sameOthers s t s.cur ∧
    cpsrAdvanced i.iset (s.pe s.cur).cpsr (t.pe s.cur).cpsr ∧
    t.pe s.cur = { s.pe s.cur with pc := (s.pe s.cur).pc + 1, cpsr := (t.pe s.cur).cpsr }

/-- A model fault: the executing PE's run ended with this cause and nothing else changed (D16). -/
def runEndedBy (s t : State) (cause : EndCause) : Prop :=
  sameSystem s t ∧ sameMemory s t ∧ sameOthers s t s.cur ∧
    t.pe s.cur = { s.pe s.cur with ended := some cause }

/-- An exception of PE `p`: its run ended with this cause; its monitors are UNKNOWN, with the event if the global monitor
left Exclusive Access; the fault report registers may have changed; nothing else did (R195, R197, D16; that every abort
counts as a Data Abort is the model's reading, log 15). -/
def exceptionTakenBy (s t : State) (p : Nat) (cause : EndCause) : Prop :=
  sameSystem s t ∧ sameMemory s t ∧ sameOthers s t p ∧
    let x := s.pe p
    let y := t.pe p
    y = { x with
          lm := y.lm, gm := y.gm, ev := y.ev, dfsr := y.dfsr, dfar := y.dfar, hsr := y.hsr, hdfar := y.hdfar
          ended := some cause } ∧
      (x.gm.isSet = true → y.gm = .openAccess → y.ev = true) ∧ (x.ev = true → y.ev = true)

/-- An exception of the executing PE. -/
def exceptionTaken (s t : State) (cause : EndCause) : Prop := exceptionTakenBy s t s.cur cause

/-- The value of register `r` after a Load-Exclusive of form `f` from `pa`: the last destination that names `r`, else
as before (R121 to R128). -/
def loadedReg (s : State) (f : LoadForm) (pa : Nat) (r : Reg) : Word :=
  match f.dests.reverse.find? fun d => d.reg = r with
  | some d => memNumber s (pa + d.offset) d.width
  | none => s.reg s.cur r

/-- A Load-Exclusive of form `f` reaches `pa`: aligned, translated (R120 steps 1 and 2). -/
def loadReaches (s : State) (f : LoadForm) (pa : Nat) (attr : MemAttr) : Prop :=
  s.cur < s.npe ∧ f.va.toNat % f.n = 0 ∧ translate s s.cur f.va .read = some (pa, attr)

/-- A Store-Exclusive of form `f` reaches `pa`: aligned, translated, and of the same address, size and attributes as
the Load-Exclusive before it, if there was one (R140 steps 1 to 3, R141). -/
def storeReaches (s : State) (f : StoreForm) (pa : Nat) (attr : MemAttr) : Prop :=
  s.cur < s.npe ∧ f.va.toNat % f.bytes.length = 0 ∧ translate s s.cur f.va .write = some (pa, attr) ∧
    ∀ r, (s.pe s.cur).lx = some r → r.va = f.va ∧ r.n = f.bytes.length ∧ r.attr = attr

/-- The location is Non-shareable, or a global monitor is implemented for it (R120 step 3, R140 step 4). -/
def monitored (s : State) (pa : Nat) (attr : MemAttr) : Prop :=
  shareable attr = true → gMon s.cfg pa attr = true

/-- The executing PE's monitors guarantee a Store-Exclusive from `va` to `pa` (R153), and R235 does not forbid it. -/
def markedFor (s : State) (va : Word) (pa : Nat) (attr : MemAttr) : Prop :=
  (s.pe s.cur).lm = .exclusive (block s.cfg pa) ∧
    (shareable attr = true → (s.pe s.cur).gm = .exclusive (block s.cfg pa)) ∧ movedAndWritten s s.cur va attr = false

/-- The register frame of a Store-Exclusive: the status register holds `v`, every other register is unchanged. -/
def statusWritten (s t : State) (rd : Reg) (v : Word) : Prop :=
  t.reg s.cur rd = v ∧ ∀ q, q ≠ rd → t.reg s.cur q = s.reg s.cur q

/-- A Store-Exclusive wrote nothing and failed with status 1: every other PE is unchanged, and of the executing PE
only the status register, the PC, the IT state, the monitors, the Event register and the status of the pair may differ. -/
def storeFailed (i : Instr) (f : StoreForm) (s t : State) : Prop :=
  sameSystem s t ∧ sameMemory s t ∧ sameOthers s t s.cur ∧ statusWritten s t f.rd 1 ∧
    cpsrAdvanced i.iset (s.pe s.cur).cpsr (t.pe s.cur).cpsr ∧
    let x := s.pe s.cur
    let y := t.pe s.cur
    y = { x with
          regs := y.regs, pc := x.pc + 1, cpsr := y.cpsr, lm := .openAccess, gm := y.gm, ev := y.ev, pair := .closed }

/-- A Store-Exclusive wrote its bytes at `pa` and passed with status 0: every other PE observed the write. -/
def storePassed (i : Instr) (f : StoreForm) (pa : Nat) (attr : MemAttr) (s t : State) : Prop :=
  sameSystem s t ∧ holdsBytes t pa f.bytes ∧ sameMemoryOutside s t pa f.bytes.length ∧ statusWritten s t f.rd 0 ∧
    (∀ m, m < s.npe → m ≠ s.cur → observedByOther s.cfg (.pe s.cur) pa f.bytes.length attr (s.pe m) (t.pe m)) ∧
    cpsrAdvanced i.iset (s.pe s.cur).cpsr (t.pe s.cur).cpsr ∧
    let x := s.pe s.cur
    let y := t.pe s.cur
    y = { x with
          regs := y.regs, pc := x.pc + 1, cpsr := y.cpsr, lm := .openAccess, gm := y.gm, ev := y.ev, pair := .closed }

/-- The event instructions' frame: only the PC and the IT state of the executing PE, and the Event registers as said,
differ (R166). -/
def eventFrame (i : Instr) (s t : State) (ev : Bool) : Prop :=
  sameSystem s t ∧ sameMemory s t ∧ cpsrAdvanced i.iset (s.pe s.cur).cpsr (t.pe s.cur).cpsr ∧
    t.pe s.cur = { s.pe s.cur with pc := (s.pe s.cur).pc + 1, cpsr := (t.pe s.cur).cpsr, ev := ev }

/-- `k` steps from `s` to `t`, none of them a turn of PE `p`. -/
def othersRun (p : Nat) : Nat → State → State → Prop
  | 0, s, t => t = s
  | k + 1, s, t => mover s ≠ some p ∧ ∃ u, step s = .next u ∧ othersRun p k u t

/-- An action that neither writes memory nor can touch a monitor of PE `p`, nor changes the translation. -/
def quietAction (p : Nat) : Action → Bool
  | .observerRead .. | .foreign .. => true
  | .load q _ _ | .takeDataAbort q | .exceptionReturn q | .exceptionReturnTo q _ _ | .installThread q _ _
  | .spontaneousClearLocal q | .spontaneousClearGlobal q => q ≠ p
  | .store .. | .observerWrite .. | .pldw .. | .dcacheMaint .. | .icacheInvalidateAll _ | .icacheInvalidateVA ..
  | .tlbInvalidate _ | .remap .. => false

/-- The next step is quiet for PE `p`: such an action; an instruction of another PE that is no Store-Exclusive; or of `p`
itself an event instruction, or one whose condition fails. -/
def quietFor (p : Nat) (s : State) : Prop :=
  match s.agenda with
  | .act a :: _ => quietAction p a = true
  | [] | .run _ :: _ =>
    ∀ q i, executed s = some (q, i) →
      (q ≠ p ∧ columnOf i ≠ .storeExclusive) ∨
        (q = p ∧ (columnOf i = .event ∨ executes { s with cur := p } i = false))

/-- `k` steps from `s` to `t`, each quiet for PE `p`. -/
def quietRun (p : Nat) : Nat → State → State → Prop
  | 0, s, t => t = s
  | k + 1, s, t => quietFor p s ∧ ∃ u, step s = .next u ∧ quietRun p k u t

/-- Whatever Store-Exclusive PE `p` executes next, to a location with the monitors it needs, fails with status 1 and
leaves memory alone. `only` restricts the attributes of the location. -/
def nextStoreFails (p : Nat) (u : State) (only : MemAttr → Prop) : Prop :=
  ∀ i f pa attr, storeForm { u with cur := p } i = some f → executes { u with cur := p } i = true →
    storeReaches { u with cur := p } f pa attr → monitored u pa attr → only attr →
    ∃ w, exec i { u with cur := p } = .next w ∧ storeFailed i f { u with cur := p } w

/-- The match and mask of an instruction's row in R106, over the A32 word or over `hw1 : hw2`; of a one-halfword row,
over the halfword. -/
def rowOf : Instr → Nat × Nat
  | .ldrexbA .. => (0x01D00F9F, 0x0FF00FFF)
  | .ldaexbA .. => (0x01D00E9F, 0x0FF00FFF)
  | .ldrexhA .. => (0x01F00F9F, 0x0FF00FFF)
  | .ldaexhA .. => (0x01F00E9F, 0x0FF00FFF)
  | .ldrexA .. => (0x01900F9F, 0x0FF00FFF)
  | .ldaexA .. => (0x01900E9F, 0x0FF00FFF)
  | .ldrexdA .. => (0x01B00F9F, 0x0FF00FFF)
  | .ldaexdA .. => (0x01B00E9F, 0x0FF00FFF)
  | .strexbA .. => (0x01C00F90, 0x0FF00FF0)
  | .stlexbA .. => (0x01C00E90, 0x0FF00FF0)
  | .strexhA .. => (0x01E00F90, 0x0FF00FF0)
  | .stlexhA .. => (0x01E00E90, 0x0FF00FF0)
  | .strexA .. => (0x01800F90, 0x0FF00FF0)
  | .stlexA .. => (0x01800E90, 0x0FF00FF0)
  | .strexdA .. => (0x01A00F90, 0x0FF00FF0)
  | .stlexdA .. => (0x01A00E90, 0x0FF00FF0)
  | .clrexA => (0xF57FF01F, 0xFFFFFFFF)
  | .ldrexbT .. => (0xE8D00F4F, 0xFFF00FFF)
  | .ldaexbT .. => (0xE8D00FCF, 0xFFF00FFF)
  | .ldrexhT .. => (0xE8D00F5F, 0xFFF00FFF)
  | .ldaexhT .. => (0xE8D00FDF, 0xFFF00FFF)
  | .ldrexT .. => (0xE8500F00, 0xFFF00F00)
  | .ldaexT .. => (0xE8D00FEF, 0xFFF00FFF)
  | .ldrexdT .. => (0xE8D0007F, 0xFFF000FF)
  | .ldaexdT .. => (0xE8D000FF, 0xFFF000FF)
  | .strexbT .. => (0xE8C00F40, 0xFFF00FF0)
  | .stlexbT .. => (0xE8C00FC0, 0xFFF00FF0)
  | .strexhT .. => (0xE8C00F50, 0xFFF00FF0)
  | .stlexhT .. => (0xE8C00FD0, 0xFFF00FF0)
  | .strexT .. => (0xE8400000, 0xFFF00000)
  | .stlexT .. => (0xE8C00FE0, 0xFFF00FF0)
  | .strexdT .. => (0xE8C00070, 0xFFF000F0)
  | .stlexdT .. => (0xE8C000F0, 0xFFF000F0)
  | .clrexT => (0xF3BF8F2F, 0xFFFFFFFF)
  | .wfeA _ => (0x0320F002, 0x0FFFFFFF)
  | .sevA _ => (0x0320F004, 0x0FFFFFFF)
  | .sevlA _ => (0x0320F005, 0x0FFFFFFF)
  | .wfeT => (0xBF20, 0xFFFF)
  | .sevT => (0xBF40, 0xFFFF)
  | .sevlT => (0xBF50, 0xFFFF)
  | .wfeW => (0xF3AF8002, 0xFFFFFFFF)
  | .sevW => (0xF3AF8004, 0xFFFFFFFF)
  | .sevlW => (0xF3AF8005, 0xFFFFFFFF)

/-- A 32-bit word matches the row of an instruction (R106): its masked bits, and in A32, but for CLREX, a condition
other than 0b1111. -/
def matchesRow (w : Word) (i : Instr) : Prop :=
  w.toNat &&& (rowOf i).2 = (rowOf i).1 ∧ (i.iset = .a32 → i ≠ .clrexA → nib w 7 ≠ 0xF)

/-- What a Load-Exclusive does where no global monitor is implemented and the effects `e` are shown (R191). -/
def noMonitorLoad (i : Instr) (s t : State) (f : LoadForm) (pa : Nat) (attr : MemAttr) (e : NoGMonEffects) : Prop :=
  if e.externalAbort then exceptionTaken s t (.externalAbort f.va)
  else if e.mmuFault then exceptionTaken s t (.implDefMMUFault f.va (mmuFaultLevel s.cfg s.fresh s.cur))
  else if e.asNop then passedOver i s t
  else if e.loadAsNonShareable then
    if readAborts s pa f.n then exceptionTaken s t (.externalAbort f.va)
    else
      sameSystem s t ∧ sameMemory s t ∧ sameOthers s t s.cur ∧ (∀ r, t.reg s.cur r = loadedReg s f pa r) ∧
        cpsrAdvanced i.iset (s.pe s.cur).cpsr (t.pe s.cur).cpsr ∧
        let x := s.pe s.cur
        let y := t.pe s.cur
        y = { x with
              regs := y.regs, pc := x.pc + 1, cpsr := y.cpsr, lm := y.lm, gm := y.gm
              lx := some { va := f.va, pa := pa, n := f.n, attr := attr }, pair := .waiting f.va } ∧
          byChoice s.cfg .id12 (y.gm = .exclusive (block s.cfg pa)) (y.gm = x.gm)
  else runEndedBy s t (.noGlobalMonitor f.va)

/-- The same for a Store-Exclusive (R191). Where the status is UNKNOWN the status register may hold any value. Treated as
to a Non-shareable location the local monitor decides: open, the store fails; on the block, it passes; on another, by
choice ID2 (R60, R61); a store that passes clears the PE's own global monitor by choice ID11 (R74). That a pair which was
moved and written (R177, R235) fails here too, also where the local monitor holds no PA, is the model's choice: the spec
does not say whether the exception of R177 covers a location treated as Non-shareable (log 40, DESIGN CHOICE, not safe). -/
def noMonitorStore (i : Instr) (s t : State) (f : StoreForm) (pa : Nat) (attr : MemAttr) (e : NoGMonEffects) : Prop :=
  let p := s.cur
  let n := f.bytes.length
  let x := s.pe p
  let y := t.pe p
  let written :=
    holdsBytes t pa f.bytes ∧ sameMemoryOutside s t pa n ∧
      ∀ m, m < s.npe → m ≠ p → observedByOther s.cfg (.pe p) pa n attr (s.pe m) (t.pe m)
  let nothing := sameMemory s t ∧ sameOthers s t p
  let completed (lm gm : Monitor) (ev : Bool) :=
    sameSystem s t ∧ (∀ q, q ≠ f.rd → t.reg p q = s.reg p q) ∧ cpsrAdvanced i.iset x.cpsr y.cpsr ∧
      y = { x with regs := y.regs, pc := x.pc + 1, cpsr := y.cpsr, lm := lm, gm := gm, ev := ev, pair := .closed }
  let status (v : Word) := e.statusUnknown = false → t.reg p f.rd = v
  let passes :=
    if writeAborts s pa n then exceptionTaken s t (.externalAbort f.va)
    else
      completed y.lm y.gm y.ev ∧ written ∧ status 0 ∧
        (x.gm.isSet = true → byChoice s.cfg .id11 (globalCleared y) (globalKept x y)) ∧
        (x.gm = .openAccess → globalKept x y)
  let fails := completed y.lm x.gm x.ev ∧ nothing ∧ status 1
  if e.externalAbort then exceptionTaken s t (.externalAbort f.va)
  else if e.mmuFault then exceptionTaken s t (.implDefMMUFault f.va (mmuFaultLevel s.cfg s.fresh p))
  else if e.asNop then completed x.lm x.gm x.ev ∧ nothing ∧ status (s.reg p f.rd)
  else if e.storeAsNonShareable then
    if x.lm = .openAccess ∨ movedAndWritten s p f.va attr = true then fails
    else if x.lm = .exclusive (block s.cfg pa) then passes
    else byChoice s.cfg .id2 passes fails
  else if e.statusUnknown then
    exceptionTaken s t (.externalAbort f.va) ∧ writeAborts s pa n = true ∨
      completed x.lm x.gm x.ev ∧ (written ∨ nothing)
  else runEndedBy s t (.noGlobalMonitor f.va)

/-- The outcomes of an ordinary Store-Exclusive that does not abort (R140): passed or failed, the PE's own global monitor
kept or cleared with its event. -/
def storeSettled (i : Instr) (f : StoreForm) (pa : Nat) (attr : MemAttr) (s t : State) : Prop :=
  (storePassed i f pa attr s t ∨ storeFailed i f s t) ∧
    (globalKept (s.pe s.cur) (t.pe s.cur) ∨ globalCleared (t.pe s.cur))

/-- The outcome R141 lists for a mismatched pair whose own bytes do not abort (that the rest of the UNKNOWN data meets no
abort is the model's choice, log 42): the status is UNKNOWN; the data are UNKNOWN, so memory is unchanged only
outside them, and every other PE observes a write of them. For another virtual address (CU1) the data of both accesses
are meant and the PE's monitors are UNKNOWN; else (CU2, CU3) the local monitor is open and the global one is kept. -/
def pairUnknown (i : Instr) (f : StoreForm) (pa : Nat) (attr : MemAttr) (r : LoadRecord) (s t : State) : Prop :=
  let p := s.cur
  let n := f.bytes.length
  let wide := sizeInSpace s.cfg pa (max n r.n)
  let size := if n = r.n then n else wide
  let x := s.pe p
  let y := t.pe p
  sameSystem s t ∧ (∀ q, q ≠ f.rd → t.reg p q = s.reg p q) ∧ cpsrAdvanced i.iset x.cpsr y.cpsr ∧
    y = { x with
          regs := y.regs, pc := x.pc + 1, cpsr := y.cpsr, lm := y.lm, gm := y.gm, ev := y.ev, pair := .closed } ∧
    if f.va = r.va then
      y.lm = .openAccess ∧ globalKept x y ∧ sameMemoryOutside s t pa size ∧
        ∀ m, m < s.npe → m ≠ p → observedByOther s.cfg (.pe p) pa size attr (s.pe m) (t.pe m)
    else
      (x.gm.isSet = true → y.gm = .openAccess → y.ev = true) ∧ (x.ev = true → y.ev = true) ∧
        (∀ a, (a < r.pa ∨ r.pa + r.n ≤ a) → (a < pa ∨ pa + wide ≤ a) → memRead t.mem a = memRead s.mem a) ∧
        ∀ m, m < s.npe → m ≠ p →
          ∃ z, observedByOther s.cfg (.pe p) r.pa r.n r.attr (s.pe m) z ∧
            observedByOther s.cfg (.pe p) pa wide attr z (t.pe m)

/-- The effects a configuration shows: as configured, or some non-empty set (R191). -/
def shows (cfg : Config) (e : NoGMonEffects) : Prop :=
  cfg.noGMon = .fixed e ∨ cfg.noGMon = .drawn ∧ someEffect e = true

end Sys2Proof.Machine

open Sys2Proof Sys2Proof.Machine

/-! ## Encoding (30_encoding.md) -/

/-- Decoding an encoded well-formed instruction gives it back and leaves the bytes after it (R102 to R107). -/
def Obligations.DecodeEncodeAgree : Prop :=
  ∀ (i : Instr) (rest : List Byte), i.wellFormed = true → decode i.iset (encode i ++ rest) = .ok (i, rest)

/-- Every accepted instruction is well-formed, of the set asked for, and its bytes are its encoding: no bit is dropped
and no other word means it (R102 to R107, R112). -/
def Obligations.EncodeDecodeAgree : Prop :=
  ∀ (set : ISet) (bs rest : List Byte) (i : Instr), decode set bs = .ok (i, rest) →
    i.wellFormed = true ∧ i.iset = set ∧ bs = encode i ++ rest

/-- The known instruction words of R111 decode to the instructions they stand for. -/
def Obligations.KnownWordsDecode : Prop :=
  decodeA32Word 0xE1901F9F#32 = .ok (.ldrexA .al 1 0) ∧
  decodeA32Word 0xE1802F91#32 = .ok (.strexA .al 2 1 0) ∧
  decodeA32Word 0xE1B02F9F#32 = .ok (.ldrexdA .al 2 0) ∧
  decodeA32Word 0xE1C04E91#32 = .ok (.stlexbA .al 4 1 0) ∧
  decodeA32Word 0xF57FF01F#32 = .ok .clrexA ∧
  decodeT32Word 0xE8501F00#32 = .ok (.ldrexT 1 0 0) ∧
  decodeT32Word 0xE8401201#32 = .ok (.strexT 2 1 0 1) ∧
  decodeT32Word 0xE8D023FF#32 = .ok (.ldaexdT 2 3 0) ∧
  decodeT32Word 0xE8C01F54#32 = .ok (.strexhT 4 1 0) ∧
  decodeT32Word 0xF3BF8F2F#32 = .ok .clrexT

/-- An accepted word matches the row of R106 of its instruction, and a word that matches a row of the set is never answered
`noRow`; a halfword is accepted exactly when it is one of the three words (R106, R107, R112). -/
def Obligations.WordsMatchTableRows : Prop :=
  (∀ (w : Word) (i : Instr), decodeA32Word w = .ok i → matchesRow w i ∧ i.iset = .a32) ∧
  (∀ (w : Word) (i : Instr), decodeT32Word w = .ok i → matchesRow w i ∧ i.iset = .t32) ∧
  (∀ (w : Word) (i : Instr), i.iset = .a32 → matchesRow w i → decodeA32Word w ≠ .error .noRow) ∧
  (∀ (w : Word) (i : Instr), i.iset = .t32 → (rowOf i).2 > 0xFFFF → matchesRow w i → decodeT32Word w ≠ .error .noRow) ∧
  (∀ (hw : BitVec 16) (i : Instr),
    decodeT32Half hw = .ok i ↔ (i = .wfeT ∨ i = .sevT ∨ i = .sevlT) ∧ hw.toNat = (rowOf i).1)

/-! ## The step -/

/-- A step runs the decoded instruction: of the PE whose turn it is, at its PC (R29, R33, log 12); an action's turn
performs the action. -/
def Obligations.StepRunsDecodedInstruction : Prop :=
  (∀ (s : State) (bs rest : List Byte) (i : Instr), systemOk s = true → s.agenda = [] → s.cur < s.npe →
    (s.pe s.cur).ended = none → (s.pe s.cur).program[(s.pe s.cur).pc]? = some bs →
    decode (isetOf (s.pe s.cur).cpsr) bs = .ok (i, rest) → step s = exec i s) ∧
  (∀ (s : State) (p : Nat) (turns : List Turn) (bs rest : List Byte) (i : Instr), systemOk s = true →
    s.agenda = .run p :: turns → p < s.npe → (s.pe p).ended = none →
    (s.pe p).program[(s.pe p).pc]? = some bs → decode (isetOf (s.pe p).cpsr) bs = .ok (i, rest) →
    step s = exec i { s with cur := p, agenda := turns }) ∧
  (∀ (s : State) (a : Action) (turns : List Turn), systemOk s = true → s.agenda = .act a :: turns →
    step s = perform { s with agenda := turns } a)

/-- When a turn does nothing but stop: a system outside its constraints runs nothing; a PE's turn, pending or, where none
is, the current PE's, stops where there is no such PE, its run has ended, it is past the end of its program, or the bytes
are no instruction; an action stops where its PE does not exist or has ended, its observer does not exist, its size, its
address, its record or its mappings are none that the machine has (R6, R26, R27, R107, R170, D16, D26; the names are the
model's, logs 8, 12, 14, 23, 28, 37). -/
def Obligations.StepStopsByName : Prop :=
  ∀ s : State,
    (systemOk s = false → step s = .refused .badConfiguration) ∧
    (∀ p : Nat, systemOk s = true → (s.agenda = [] ∧ p = s.cur ∨ ∃ turns, s.agenda = .run p :: turns) →
      (s.npe ≤ p → step s = .refused .noSuchAgent) ∧
      (p < s.npe →
        (∀ c, (s.pe p).ended = some c → step s = .fault (.runEnded p c)) ∧
        ((s.pe p).ended = none → (s.pe p).program.length ≤ (s.pe p).pc → step s = .fault (.programEnd p)) ∧
        (∀ bs e, (s.pe p).ended = none → (s.pe p).program[(s.pe p).pc]? = some bs →
          decode (isetOf (s.pe p).cpsr) bs = .error e → step s = .refused (.invalidInstruction e)))) ∧
    (∀ (a : Action) (turns : List Turn), systemOk s = true → s.agenda = .act a :: turns →
      (∀ p, performerOf a = some p →
        (s.npe ≤ p → step s = .refused .noSuchAgent) ∧
        (∀ c, p < s.npe → (s.pe p).ended = some c → step s = .fault (.runEnded p c)) ∧
        (p < s.npe → (s.pe p).ended = none →
          (∀ va n, (∃ v, a = .store p va n v ∧ (n = 0 ∨ 8 < n)) ∨ a = .load p va n ∧ n = 0 →
            step s = .refused .badAccessSize) ∧
          (∀ va n kind pa attr, 1 ≤ n →
            (∃ v, a = .store p va n v ∧ n ≤ 8 ∧ kind = .write) ∨ a = .load p va n ∧ kind = .read →
            translate s p va kind = some (pa, attr) → 2 ^ s.cfg.paBits < pa + n → step s = .refused .noSuchAddress) ∧
          (∀ lx pair, a = .exceptionReturnTo p lx pair ∨ a = .installThread p lx pair → threadOk s.cfg lx = false →
            step s = .refused .badLoadRecord))) ∧
      (∀ m, a = .spontaneousClearLocal m ∨ a = .spontaneousClearGlobal m → s.npe ≤ m →
        step s = .refused .noSuchAgent) ∧
      (∀ k pa n v, a = .observerWrite k pa n v ∨ a = .observerRead k pa n →
        (s.cfg.observers ≤ k → step s = .refused .noSuchAgent) ∧
        (k < s.cfg.observers → n = 0 → step s = .refused .badAccessSize) ∧
        (k < s.cfg.observers → 1 ≤ n → 2 ^ s.cfg.paBits < pa + n → step s = .refused .noSuchAddress)) ∧
      (∀ maps bbm, a = .remap maps bbm → maps.all mappingOk = false → step s = .refused .badConfiguration))

/-- A table word placed by `withFetchWord` is what the next step runs (log 8, log 9: the model's own). -/
def Obligations.FetchWordRuns : Prop :=
  ∀ (s : State) (nbits w : Nat) (i : Instr), systemOk s = true → s.cur < s.npe → decodeTableWord nbits w = some i →
    step (s.withFetchWord nbits w) = exec i { s.withFetchWord nbits w with agenda := s.agenda }

/-! ## Invariants and whole-machine rules -/

/-- Every step keeps the invariant: the system may run, memory is canonical and inside the physical address space, the
executing PE exists, and every record is one a Load-Exclusive can have left (R6, R26, R27, R54). -/
def Obligations.StepKeepsStateOk : Prop :=
  ∀ s t : State, stateOk s = true → step s = .next t → stateOk t = true

/-- The invariant holds after reset. -/
def Obligations.ResetIsStateOk : Prop := stateOk State.reset = true

/-- What R36 gives at the start of a run: PC 0, no Load-Exclusive executed. That no run has ended is the model's field
(D16); that the monitors are open with no event held is the model's choice (log 3). -/
def Obligations.ResetStartsPrograms : Prop :=
  ∀ p, p < State.reset.npe →
    (State.reset.pe p).pc = 0 ∧ (State.reset.pe p).lx = none ∧ (State.reset.pe p).ended = none ∧
      (State.reset.pe p).lm = .openAccess ∧ (State.reset.pe p).gm = .openAccess ∧ (State.reset.pe p).ev = false

/-- No step changes the configuration, the attributes, the number of PEs or a program text, and only a `remap` changes
the translation (R6, R33, R80). -/
def Obligations.ConfigurationAndProgramsStay : Prop :=
  ∀ s t : State, step s = .next t →
    t.cfg = s.cfg ∧ t.attrs = s.attrs ∧ t.npe = s.npe ∧ (∀ m, (t.pe m).program = (s.pe m).program) ∧
      (t.xlat = s.xlat ∨ ∃ maps bbm turns, s.agenda = .act (.remap maps bbm) :: turns ∧ t.xlat = maps)

/-- No instruction of the table and no action but a foreign instruction of the PE that is no barrier writes a flag, the instruction set bit or
FPSCR (R30); a fault report register changes only in a step in which the PE's run ends, or by the PE's System register
write (R192). -/
def Obligations.FlagsStay : Prop :=
  ∀ s t : State, step s = .next t → ∀ m,
    (flagN (t.pe m).cpsr = flagN (s.pe m).cpsr ∧ flagZ (t.pe m).cpsr = flagZ (s.pe m).cpsr ∧
      flagC (t.pe m).cpsr = flagC (s.pe m).cpsr ∧ flagV (t.pe m).cpsr = flagV (s.pe m).cpsr ∧
      isetOf (t.pe m).cpsr = isetOf (s.pe m).cpsr ∧ (t.pe m).fpscr = (s.pe m).fpscr ∨
      ∃ kind u turns, kind ≠ .isb ∧ s.agenda = .act (.foreign m kind u) :: turns) ∧
    ((t.pe m).ended = (s.pe m).ended →
      (t.pe m).dfsr = (s.pe m).dfsr ∧ (t.pe m).dfar = (s.pe m).dfar ∧ (t.pe m).hsr = (s.pe m).hsr ∧
        (t.pe m).hdfar = (s.pe m).hdfar ∨
      ∃ a b c d u turns, s.agenda = .act (.foreign m (.systemRegisterWrite a b c d) u) :: turns)

/-- A step changes nothing of a PE whose turn it is not, but that its monitors may be cleared and an event may come to be
held: no register, no record, no mark set (R66, R71, R72, R164). -/
def Obligations.OthersOnlyCleared : Prop :=
  ∀ (s t : State) (m : Nat), step s = .next t → mover s ≠ some m →
    onlyMonitors (s.pe m) (t.pe m) ∧ ((t.pe m).lm = (s.pe m).lm ∨ (t.pe m).lm = .openAccess) ∧
      ((t.pe m).gm = (s.pe m).gm ∨ (t.pe m).gm = .openAccess) ∧ ((s.pe m).ev = true → (t.pe m).ev = true)

/-- A monitor enters Exclusive Access only in its own PE's turn, by a Load-Exclusive, or by an UNKNOWN outcome: an abort,
a Data Abort, a Store-Exclusive to another virtual address than the Load-Exclusive's, or one to a location without a
global monitor (R34). -/
def Obligations.OnlyLoadExclusiveSets : Prop :=
  ∀ (s t : State) (m : Nat), step s = .next t →
    ((s.pe m).lm.isSet = false ∧ (t.pe m).lm.isSet = true ∨ (s.pe m).gm.isSet = false ∧ (t.pe m).gm.isSet = true) →
    mover s = some m ∧
      ((∃ i, executed s = some (m, i) ∧ columnOf i = .loadExclusive) ∨ (t.pe m).ended ≠ none ∨
        (∃ turns, s.agenda = .act (.takeDataAbort m) :: turns) ∨
        (∃ i f pa attr, executed s = some (m, i) ∧ storeForm { s with cur := m } i = some f ∧
          translate s m f.va .write = some (pa, attr) ∧
          (shareable attr = true ∧ gMon s.cfg pa attr = false ∨ ∃ r, (s.pe m).lx = some r ∧ r.va ≠ f.va)))

/-- `ClearGlobal` opens a set global monitor with an event and leaves an open one alone; and whenever a step takes a PE's
global monitor from Exclusive Access to Open Access, whatever caused it, an event is held in its Event register (R58,
R162). -/
def Obligations.EventOnGlobalClear : Prop :=
  (∀ x : PE,
    (x.gm.isSet = true → clearGlobal x = { x with gm := .openAccess, ev := true }) ∧
      (x.gm = .openAccess → clearGlobal x = x)) ∧
  ∀ (s t : State) (m : Nat), step s = .next t → (s.pe m).gm.isSet = true → (t.pe m).gm = .openAccess →
    (t.pe m).ev = true

/-- Only the PE's own WFE takes an event (R25, R163). -/
def Obligations.OnlyWfeTakesEvent : Prop :=
  ∀ (s t : State) (m : Nat), step s = .next t → (s.pe m).ev = true → (t.pe m).ev = false →
    ∃ i, executed s = some (m, i) ∧ (i = .wfeT ∨ i = .wfeW ∨ ∃ c, i = .wfeA c)

/-- Memory changes only in a Store-Exclusive of the table, a PE's plain store or a non-PE observer's write (R27, R70). -/
def Obligations.OnlyStoresWriteMemory : Prop :=
  ∀ (s t : State) (a : Nat), step s = .next t → memRead t.mem a ≠ memRead s.mem a →
    (∃ p i, executed s = some (p, i) ∧ columnOf i = .storeExclusive) ∨
      (∃ p va n v turns, s.agenda = .act (.store p va n v) :: turns) ∨
      (∃ k pa n v turns, s.agenda = .act (.observerWrite k pa n v) :: turns)

/-! ## Load-Exclusive (40_load_exclusive.md) -/

/-- The sixteen Load-Exclusives complete: the registers get the bytes read, both monitors are marked with the block (the
global one, for a Non-shareable location, by choice ID12), the record is written, and nothing else changes (R120 to
R128). -/
def Obligations.LoadExclusiveReadsAndMarks : Prop :=
  ∀ (s : State) (i : Instr) (f : LoadForm) (pa : Nat) (attr : MemAttr), loadForm s i = some f → executes s i = true →
    loadReaches s f pa attr → monitored s pa attr → readAborts s pa f.n = false →
    ∃ t, exec i s = .next t ∧ sameSystem s t ∧ sameMemory s t ∧ sameOthers s t s.cur ∧
      (∀ r, t.reg s.cur r = loadedReg s f pa r) ∧ cpsrAdvanced i.iset (s.pe s.cur).cpsr (t.pe s.cur).cpsr ∧
      let x := s.pe s.cur
      let y := t.pe s.cur
      y = { x with
            regs := y.regs, pc := x.pc + 1, cpsr := y.cpsr, lm := .exclusive (block s.cfg pa), gm := y.gm
            lx := some { va := f.va, pa := pa, n := f.n, attr := attr }, pair := .waiting f.va } ∧
        (shareable attr = true → y.gm = .exclusive (block s.cfg pa)) ∧
        (shareable attr = false → byChoice s.cfg .id12 (y.gm = .exclusive (block s.cfg pa)) (y.gm = x.gm))

/-- A misaligned exclusive access ends the PE's run and changes nothing else (R56). -/
def Obligations.MisalignedExclusiveEndsRun : Prop :=
  (∀ (s : State) (i : Instr) (f : LoadForm), loadForm s i = some f → executes s i = true → s.cur < s.npe →
    f.va.toNat % f.n ≠ 0 → ∃ t, exec i s = .next t ∧ runEndedBy s t (.unalignedExclusive f.va)) ∧
  (∀ (s : State) (i : Instr) (f : StoreForm), storeForm s i = some f → executes s i = true → s.cur < s.npe →
    f.va.toNat % f.bytes.length ≠ 0 → ∃ t, exec i s = .next t ∧ runEndedBy s t (.unalignedExclusive f.va))

/-- An exclusive access that aborts writes no general register, no record and no byte, and changes no other PE: a fault of
the translation, or an External abort of the read or of a guaranteed write (R130, R151, R197). The monitors of the PE are
UNKNOWN afterwards, since the model counts every abort as a Data Abort (R195, log 15). -/
def Obligations.AbortedExclusiveHasNoEffect : Prop :=
  (∀ (s : State) (i : Instr) (f : LoadForm), loadForm s i = some f → executes s i = true → s.cur < s.npe →
    f.va.toNat % f.n = 0 →
    (translate s s.cur f.va .read = none → ∃ t, exec i s = .next t ∧ exceptionTaken s t (.translationFault f.va)) ∧
    (∀ pa attr, translate s s.cur f.va .read = some (pa, attr) → monitored s pa attr → readAborts s pa f.n = true →
      ∃ t, exec i s = .next t ∧ exceptionTaken s t (.externalAbort f.va))) ∧
  (∀ (s : State) (i : Instr) (f : StoreForm), storeForm s i = some f → executes s i = true → s.cur < s.npe →
    f.va.toNat % f.bytes.length = 0 →
    (translate s s.cur f.va .write = none → ∃ t, exec i s = .next t ∧ exceptionTaken s t (.translationFault f.va)) ∧
    (∀ pa attr, storeReaches s f pa attr → monitored s pa attr → markedFor s f.va pa attr →
      writeAborts s pa f.bytes.length = true → ∃ t, exec i s = .next t ∧ exceptionTaken s t (.externalAbort f.va)))

/-- A Load-Exclusive from a shareable location without a global monitor: the outcomes of R191 in their order. -/
def Obligations.NoGlobalMonitorLoads : Prop :=
  ∀ (s : State) (i : Instr) (f : LoadForm) (pa : Nat) (attr : MemAttr), loadForm s i = some f → executes s i = true →
    loadReaches s f pa attr → shareable attr = true → gMon s.cfg pa attr = false →
    ∃ t, exec i s = .next t ∧
      (s.cfg.noGMon = .unconfigured ∧ runEndedBy s t (.noGlobalMonitor f.va) ∨
        ∃ e, shows s.cfg e ∧ noMonitorLoad i s t f pa attr e)

/-- The same for a Store-Exclusive (R191). Treated as to a Non-shareable location a pair that was moved and written (R177,
R235) fails, also where the local monitor holds no PA: that is the model's choice, not the spec's word (log 40, DESIGN
CHOICE, not safe). -/
def Obligations.NoGlobalMonitorStores : Prop :=
  ∀ (s : State) (i : Instr) (f : StoreForm) (pa : Nat) (attr : MemAttr), storeForm s i = some f →
    executes s i = true → memWf s.mem = true → storeReaches s f pa attr → shareable attr = true →
    gMon s.cfg pa attr = false →
    ∃ t, exec i s = .next t ∧
      (s.cfg.noGMon = .unconfigured ∧ runEndedBy s t (.noGlobalMonitor f.va) ∨
        ∃ e, shows s.cfg e ∧ noMonitorStore i s t f pa attr e)

/-! ## Store-Exclusive (41_store_exclusive.md) -/

/-- A Store-Exclusive to the marked block, with every monitor it needs in Exclusive Access, passes: the bytes are written,
the status is 0, the local monitor is open, the PE's own global monitor follows ID7 (Non-shareable: ID11), every other PE
observes the write (R62, R70, R140, R142 to R149, R153). -/
def Obligations.MarkedStorePasses : Prop :=
  ∀ (s : State) (i : Instr) (f : StoreForm) (pa : Nat) (attr : MemAttr), storeForm s i = some f →
    executes s i = true → memWf s.mem = true → storeReaches s f pa attr → monitored s pa attr → markedFor s f.va pa attr →
    writeAborts s pa f.bytes.length = false →
    ∃ t, exec i s = .next t ∧ storePassed i f pa attr s t ∧
      (shareable attr = true →
        byChoice s.cfg .id7 (globalCleared (t.pe s.cur)) (globalKept (s.pe s.cur) (t.pe s.cur))) ∧
      (shareable attr = false →
        ((s.pe s.cur).gm.isSet = true →
          byChoice s.cfg .id11 (globalCleared (t.pe s.cur)) (globalKept (s.pe s.cur) (t.pe s.cur))) ∧
        ((s.pe s.cur).gm = .openAccess → globalKept (s.pe s.cur) (t.pe s.cur)))

/-- With the local monitor in Open Access no store takes place, the status is 1, and the local monitor remains open; the
global monitor is not consulted and no event is generated (R60, R68). -/
def Obligations.OpenLocalMonitorFailsStore : Prop :=
  ∀ (s : State) (i : Instr) (f : StoreForm) (pa : Nat) (attr : MemAttr), storeForm s i = some f →
    executes s i = true → storeReaches s f pa attr → monitored s pa attr → (s.pe s.cur).lm = .openAccess →
    ∃ t, exec i s = .next t ∧ storeFailed i f s t ∧ globalKept (s.pe s.cur) (t.pe s.cur)

/-- With the PE's global state machine in Open Access a store to a shareable location does not succeed: status 1, the
global monitor stays open, whatever the local monitor holds (R63, R68). -/
def Obligations.OpenGlobalMonitorFailsStore : Prop :=
  ∀ (s : State) (i : Instr) (f : StoreForm) (pa : Nat) (attr : MemAttr), storeForm s i = some f →
    executes s i = true → storeReaches s f pa attr → monitored s pa attr → shareable attr = true →
    (s.pe s.cur).gm = .openAccess →
    ∃ t, exec i s = .next t ∧ storeFailed i f s t ∧ globalKept (s.pe s.cur) (t.pe s.cur)

/-- Every non-aborting Store-Exclusive completes with status 0 and its bytes written, or with status 1 and memory and
every other PE unchanged; the local monitor is open afterwards and the PE's own global monitor is kept or cleared with
its event (R61, R64, R140, R150, R152). -/
def Obligations.StatusTellsWrite : Prop :=
  ∀ (s : State) (i : Instr) (f : StoreForm) (pa : Nat) (attr : MemAttr), storeForm s i = some f →
    executes s i = true → memWf s.mem = true → storeReaches s f pa attr → monitored s pa attr →
    writeAborts s pa f.bytes.length = false →
    ∃ t, exec i s = .next t ∧ storeSettled i f pa attr s t

/-- Where the choices ID2 and ID8 are fixed to false, a Store-Exclusive passes exactly where the monitors guarantee it
(R61, R64, R153). -/
def Obligations.StorePassesOnlyIfMarked : Prop :=
  ∀ (s : State) (i : Instr) (f : StoreForm) (pa : Nat) (attr : MemAttr), storeForm s i = some f →
    executes s i = true → storeReaches s f pa attr → monitored s pa attr →
    writeAborts s pa f.bytes.length = false → fixedChoice s.cfg .id2 = some false →
    fixedChoice s.cfg .id8 = some false →
    ∃ t, exec i s = .next t ∧ (markedFor s f.va pa attr → t.reg s.cur f.rd = 0) ∧
      (¬markedFor s f.va pa attr → storeFailed i f s t)

/-- Under the policy `fault` a mismatched pair ends the PE's run, naming the case: the address before the size before the
attributes (R141, D10; the order is the model's choice, log 20). -/
def Obligations.MismatchedPairFaults : Prop :=
  ∀ (s : State) (i : Instr) (f : StoreForm) (pa : Nat) (attr : MemAttr) (r : LoadRecord), storeForm s i = some f →
    executes s i = true → s.cur < s.npe → f.va.toNat % f.bytes.length = 0 →
    translate s s.cur f.va .write = some (pa, attr) → (s.pe s.cur).lx = some r → s.cfg.pairPolicy = .fault →
    (f.va ≠ r.va → ∃ t, exec i s = .next t ∧ runEndedBy s t (.unpredictablePair .va)) ∧
    (f.va = r.va → f.bytes.length ≠ r.n → ∃ t, exec i s = .next t ∧ runEndedBy s t (.unpredictablePair .size)) ∧
    (f.va = r.va → f.bytes.length = r.n → attr ≠ r.attr →
      ∃ t, exec i s = .next t ∧ runEndedBy s t (.unpredictablePair .attr))

/-- Under the policy `envelope` a mismatched pair has the ordinary outcome of a Store-Exclusive, or the one R141 lists (the
union of the ranges where several cases hold is the model's reading, log 20; that the UNKNOWN data beyond the
Store-Exclusive's own bytes meets no External abort is the model's choice, log 42). -/
def Obligations.MismatchedPairEnvelope : Prop :=
  ∀ (s : State) (i : Instr) (f : StoreForm) (pa : Nat) (attr : MemAttr) (r : LoadRecord), storeForm s i = some f →
    executes s i = true → memWf s.mem = true → s.cur < s.npe → f.va.toNat % f.bytes.length = 0 →
    translate s s.cur f.va .write = some (pa, attr) → (s.pe s.cur).lx = some r → recordOk s.cfg r = true →
    s.cfg.pairPolicy = .envelope → ¬(f.va = r.va ∧ f.bytes.length = r.n ∧ attr = r.attr) → monitored s pa attr →
    writeAborts s pa f.bytes.length = false →
    ∃ t, exec i s = .next t ∧ (storeSettled i f pa attr s t ∨ pairUnknown i f pa attr r s t)

/-! ## CLREX and the events (42_clrex_and_events.md) -/

/-- CLREX, in A32 and in T32: the local monitor is open; a set global state machine is cleared, with its event, or kept,
by choice ID10; an open one is not touched; nothing else changes (R160). -/
def Obligations.ClrexClearsLocal : Prop :=
  ∀ (s : State) (i : Instr), i = .clrexA ∨ i = .clrexT → executes s i = true → s.cur < s.npe →
    ∃ t, exec i s = .next t ∧ sameSystem s t ∧ sameMemory s t ∧ sameOthers s t s.cur ∧
      cpsrAdvanced i.iset (s.pe s.cur).cpsr (t.pe s.cur).cpsr ∧
      let x := s.pe s.cur
      let y := t.pe s.cur
      y = { x with pc := x.pc + 1, cpsr := y.cpsr, lm := .openAccess, gm := y.gm, ev := y.ev } ∧
        (x.gm.isSet = true → byChoice s.cfg .id10 (globalCleared y) (globalKept x y)) ∧
        (x.gm = .openAccess → globalKept x y)

/-- WFE, in each encoding: with an event held it takes the event and completes; without one it completes with the event
unchanged or holds, nothing changing (R163). -/
def Obligations.WaitForEventTakesOrHolds : Prop :=
  ∀ (s : State) (i : Instr), (i = .wfeT ∨ i = .wfeW ∨ ∃ c, i = .wfeA c) → executes s i = true → s.cur < s.npe →
    ((s.pe s.cur).ev = true → ∃ t, exec i s = .next t ∧ sameOthers s t s.cur ∧ eventFrame i s t false) ∧
    ((s.pe s.cur).ev = false →
      ∃ t, exec i s = .next t ∧ sameOthers s t s.cur ∧
        (eventFrame i s t false ∨ sameSystem s t ∧ sameMemory s t ∧ t.pe s.cur = s.pe s.cur))

/-- SEV, in each encoding: an event is held by every PE, and nothing else changes (R164). -/
def Obligations.SendEventReachesAll : Prop :=
  ∀ (s : State) (i : Instr), (i = .sevT ∨ i = .sevW ∨ ∃ c, i = .sevA c) → executes s i = true → s.cur < s.npe →
    ∃ t, exec i s = .next t ∧ eventFrame i s t true ∧
      ∀ m, m < s.npe → m ≠ s.cur → t.pe m = { s.pe m with ev := true }

/-- SEVL, in each encoding: an event is held by the executing PE, and nothing else changes (R165). -/
def Obligations.SendEventLocalReachesSelf : Prop :=
  ∀ (s : State) (i : Instr), (i = .sevlT ∨ i = .sevlW ∨ ∃ c, i = .sevlA c) → executes s i = true → s.cur < s.npe →
    ∃ t, exec i s = .next t ∧ sameOthers s t s.cur ∧ eventFrame i s t true

/-- An instruction whose condition fails only moves the PC on: it has no effect on a monitor, a register or memory (R103,
R108). -/
def Obligations.FailedConditionIsNop : Prop :=
  ∀ (s : State) (i : Instr), executes s i = false → s.cur < s.npe → ∃ t, exec i s = .next t ∧ passedOver i s t

/-- The Load-Acquire and Store-Release forms step as the plain forms of the same size (R78). -/
def Obligations.AcquireReleaseAsPlain : Prop :=
  (∀ c rt rn s, exec (.ldaexbA c rt rn) s = exec (.ldrexbA c rt rn) s ∧
    exec (.ldaexhA c rt rn) s = exec (.ldrexhA c rt rn) s ∧ exec (.ldaexA c rt rn) s = exec (.ldrexA c rt rn) s ∧
    exec (.ldaexdA c rt rn) s = exec (.ldrexdA c rt rn) s) ∧
  (∀ c rd rt rn s, exec (.stlexbA c rd rt rn) s = exec (.strexbA c rd rt rn) s ∧
    exec (.stlexhA c rd rt rn) s = exec (.strexhA c rd rt rn) s ∧
    exec (.stlexA c rd rt rn) s = exec (.strexA c rd rt rn) s ∧
    exec (.stlexdA c rd rt rn) s = exec (.strexdA c rd rt rn) s) ∧
  (∀ rt rt2 rn s, exec (.ldaexbT rt rn) s = exec (.ldrexbT rt rn) s ∧
    exec (.ldaexhT rt rn) s = exec (.ldrexhT rt rn) s ∧ exec (.ldaexT rt rn) s = exec (.ldrexT rt rn 0) s ∧
    exec (.ldaexdT rt rt2 rn) s = exec (.ldrexdT rt rt2 rn) s) ∧
  (∀ rd rt rt2 rn s, exec (.stlexbT rd rt rn) s = exec (.strexbT rd rt rn) s ∧
    exec (.stlexhT rd rt rn) s = exec (.strexhT rd rt rn) s ∧
    exec (.stlexT rd rt rn) s = exec (.strexT rd rt rn 0) s ∧
    exec (.stlexdT rd rt rt2 rn) s = exec (.strexdT rd rt rt2 rn) s)

/-! ## Other operations (43_other_operations.md) and exceptions (60_exceptions.md) -/

/-- A plain store by a PE: its bytes are written in the byte order, its own monitors follow ID3, ID4 and ID19, every
other PE observes the write, and nothing else changes (R55, R70 to R74, R170). -/
def Obligations.PlainStoreObserved : Prop :=
  ∀ (s : State) (p : Nat) (va : Word) (n : Nat) (v : BitVec 64) (pa : Nat) (attr : MemAttr), memWf s.mem = true →
    p < s.npe → (s.pe p).ended = none → 1 ≤ n → n ≤ 8 → translate s p va .write = some (pa, attr) →
    inSpace s.cfg pa n = true → writeAborts s pa n = false →
    ∃ t, perform s (.store p va n v) = .next t ∧ sameSystem s t ∧ sameMemoryOutside s t pa n ∧
      (∀ k, k < n →
        memRead t.mem (pa + k) = (v >>> (8 * (if s.cfg.bigEndian then n - 1 - k else k))).setWidth 8) ∧
      observedByWriter s.cfg pa n (s.pe p) (t.pe p) ∧
      ∀ m, m < s.npe → m ≠ p → observedByOther s.cfg (.pe p) pa n attr (s.pe m) (t.pe m)

/-- A write by a non-PE observer, of any number of bytes from one up: its bytes are written and every PE observes it as one
write, the guaranteed clear subject to `ExemptNonPE` (R55, R70, R75, R172). -/
def Obligations.ObserverWriteObserved : Prop :=
  ∀ (s : State) (k pa n v : Nat), memWf s.mem = true → k < s.cfg.observers → 1 ≤ n →
    inSpace s.cfg pa n = true → writeAborts s pa n = false →
    ∃ t, perform s (.observerWrite k pa n v) = .next t ∧ sameSystem s t ∧ sameMemoryOutside s t pa n ∧
      (∀ j, j < n →
        memRead t.mem (pa + j) = BitVec.ofNat 8 (v >>> (8 * (if s.cfg.bigEndian then n - 1 - j else j)))) ∧
      ∀ m, m < s.npe → observedByOther s.cfg (.device k) pa n (attrAt s pa) (s.pe m) (t.pe m)

/-- A read that is not a Load-Exclusive, by a PE or by a non-PE observer, of any number of bytes from one up, changes
nothing: no monitor of any PE, no register, no byte (R69, R171, R173). -/
def Obligations.ReadsTouchNoMonitor : Prop :=
  (∀ (s : State) (p : Nat) (va : Word) (n pa : Nat) (attr : MemAttr), p < s.npe → (s.pe p).ended = none → 1 ≤ n →
    translate s p va .read = some (pa, attr) → inSpace s.cfg pa n = true → readAborts s pa n = false →
    ∃ t, perform s (.load p va n) = .next t ∧ sameSystem s t ∧ sameMemory s t ∧ ∀ m, t.pe m = s.pe m) ∧
  (∀ (s : State) (k pa n : Nat), k < s.cfg.observers → 1 ≤ n → inSpace s.cfg pa n = true →
    ∃ t, perform s (.observerRead k pa n) = .next t ∧ sameSystem s t ∧ sameMemory s t ∧ ∀ m, t.pe m = s.pe m)

/-- PLDW and cache and TLB maintenance change no memory and no PE but by clearing monitors. PLDW leaves the PE that
executes it alone; PLDW and instruction cache invalidation by address leave every monitor on another block alone, the local
one where it holds a PA (a target without a translation concerns none); maintenance by set/way leaves every other PE alone,
maintenance by address every PE outside the domain (R174 to R177; that TLB invalidation concerns every PE, and the access
kind of a target's translation, are the model's, log 33). -/
def Obligations.MaintenanceOnlyClears : Prop :=
  ∀ (s : State) (q : Nat), q < s.npe → (s.pe q).ended = none →
    (∀ a, (a = .icacheInvalidateAll q ∨ a = .tlbInvalidate q ∨ (∃ va, a = .pldw q va) ∨
        (∃ va, a = .icacheInvalidateVA q va) ∨ ∃ target, a = .dcacheMaint q target) →
      ∃ t, perform s a = .next t ∧ sameSystem s t ∧ sameMemory s t ∧ ∀ m, onlyCleared (s.pe m) (t.pe m)) ∧
    (∀ va, ∃ t, perform s (.pldw q va) = .next t ∧ t.pe q = s.pe q) ∧
    (∀ va pa attr, (translate s q va .write = some (pa, attr) →
        ∃ t, perform s (.pldw q va) = .next t ∧
          ∀ m, ((s.pe m).gm ≠ .exclusive (block s.cfg pa) → globalKept (s.pe m) (t.pe m)) ∧
            (s.cfg.localHoldsPA = true → (s.pe m).lm ≠ .exclusive (block s.cfg pa) → (t.pe m).lm = (s.pe m).lm)) ∧
      (translate s q va .read = some (pa, attr) →
        ∃ t, perform s (.icacheInvalidateVA q va) = .next t ∧
          ∀ m, ((s.pe m).gm ≠ .exclusive (block s.cfg pa) → globalKept (s.pe m) (t.pe m)) ∧
            (s.cfg.localHoldsPA = true → (s.pe m).lm ≠ .exclusive (block s.cfg pa) → (t.pe m).lm = (s.pe m).lm))) ∧
    (∀ va, (translate s q va .write = none →
        ∃ t, perform s (.pldw q va) = .next t ∧ ∀ m, t.pe m = s.pe m) ∧
      (translate s q va .read = none →
        ∃ t, perform s (.icacheInvalidateVA q va) = .next t ∧ ∀ m, t.pe m = s.pe m)) ∧
    (∃ t, perform s (.dcacheMaint q .setWayOrAll) = .next t ∧ sameOthers s t q) ∧
    (∀ pa, ∃ t, perform s (.dcacheMaint q (.address pa)) = .next t ∧
      ∀ m, m ≠ q → inDomain s.cfg (.pe m) pa (attrAt s pa) = false → t.pe m = s.pe m)

/-- The two steps of the monitor environment are enabled for every PE at any time: one opens its local monitor, the other
its global monitor, with the event if it was set; nothing else changes (R58, R59, R178). -/
def Obligations.SpontaneousClears : Prop :=
  ∀ (s : State) (m : Nat), m < s.npe →
    (∃ t, perform s (.spontaneousClearLocal m) = .next t ∧ sameSystem s t ∧ sameMemory s t ∧ sameOthers s t m ∧
      t.pe m = { s.pe m with lm := .openAccess }) ∧
    (∃ t, perform s (.spontaneousClearGlobal m) = .next t ∧ sameSystem s t ∧ sameMemory s t ∧ sameOthers s t m ∧
      t.pe m = { s.pe m with gm := .openAccess, ev := (s.pe m).ev || (s.pe m).gm.isSet })

/-- The translation changes as asked where it is done by a break-before-make sequence, or where no running PE is between a
Load-Exclusive and its Store-Exclusive at an address that is translated otherwise; else the run is refused (R177, R235,
D21). -/
def Obligations.ChangedTranslation : Prop :=
  ∀ (s : State) (maps : List Mapping), maps.all mappingOk = true →
    (∃ t, perform s (.remap maps true) = .next t ∧ t.xlat = maps ∧ sameMemory s t ∧
      ∀ m, onlyCleared (s.pe m) (t.pe m)) ∧
    ((∀ p va, p < s.npe → (s.pe p).ended = none → (s.pe p).pair.address = some va →
        ∀ kind, translateBy s maps p va kind = translate s p va kind) →
      perform s (.remap maps false) = .next { s with xlat := maps, fresh := s.fresh + 1 }) ∧
    ((∃ p va kind, p < s.npe ∧ (s.pe p).ended = none ∧ (s.pe p).pair.address = some va ∧
        translateBy s maps p va kind ≠ translate s p va kind) →
      perform s (.remap maps false) = .refused .translationChanged)

/-- The guarantee of R177 and R235. A break-before-make sequence that changes the physical address of a Load-Exclusive
that awaits its Store-Exclusive is remembered; so is any write to the block of the new physical address after it, but the
PE's own Store-Exclusive; and the Store-Exclusive then fails with status 1 and writes nothing, whatever the monitors hold.
Where the local monitor holds no PA a Non-shareable location is left out, as R177 leaves it (log 24). -/
def Obligations.MovedAndWrittenFailsStore : Prop :=
  (∀ (s : State) (maps : List Mapping) (p pa : Nat) (va : Word) (attr : MemAttr), maps.all mappingOk = true → p < s.npe →
    (s.pe p).pair.address = some va → translateBy s maps p va .write = some (pa, attr) →
    (translate s p va .write).map (·.1) ≠ some pa →
    ∃ t, perform s (.remap maps true) = .next t ∧ (t.pe p).pair = .moved va ∧
      translate t p va .write = some (pa, attr)) ∧
  (∀ (s : State) (call : Nat) (o : Observer) (wpa n : Nat) (kind : WriteKind) (wattr : MemAttr) (p pa : Nat) (va : Word)
    (attr : MemAttr), p < s.npe → 1 ≤ n → (s.pe p).pair = .moved va → translate s p va .write = some (pa, attr) →
    touches s.cfg wpa n (block s.cfg pa) → ¬(o = .pe p ∧ kind = .storeExcl) →
    ((observeWrite s call o wpa n kind wattr).pe p).pair = .written va) ∧
  ∀ (s : State) (i : Instr) (f : StoreForm) (pa : Nat) (attr : MemAttr), storeForm s i = some f →
    executes s i = true → storeReaches s f pa attr → monitored s pa attr → (s.pe s.cur).pair = .written f.va →
    (shareable attr = true ∨ s.cfg.localHoldsPA = true) →
    ∃ t, exec i s = .next t ∧ storeFailed i f s t ∧ globalKept (s.pe s.cur) (t.pe s.cur)

/-- Taking a Data Abort leaves the PE's monitors UNKNOWN, with the event if the global one left Exclusive Access, and
nothing else changed (R195). -/
def Obligations.DataAbortLeavesMonitorsUnknown : Prop :=
  ∀ (s : State) (p : Nat), p < s.npe → (s.pe p).ended = none →
    ∃ t, perform s (.takeDataAbort p) = .next t ∧ sameSystem s t ∧ sameMemory s t ∧ sameOthers s t p ∧
      onlyMonitors (s.pe p) (t.pe p) ∧
      ((s.pe p).gm.isSet = true → (t.pe p).gm = .openAccess → (t.pe p).ev = true) ∧
      ((s.pe p).ev = true → (t.pe p).ev = true)

/-- An exception return opens the local monitor, leaves the global one, and in its general form installs the record of
the thread that resumes; every Store-Exclusive of the PE then fails, whatever its global monitor holds, until the PE
moves (R196). A thread switch without an exception return installs the record alone (R161, R26). That these steps are
actions, that a record must be one a Load-Exclusive can have left, and the status of the pair that goes with it are the
model's choice (logs 24 and 28). -/
def Obligations.ExceptionReturnClearsLocal : Prop :=
  ∀ (s : State) (p : Nat), p < s.npe → (s.pe p).ended = none →
    (∃ t, perform s (.exceptionReturn p) = .next t ∧ sameSystem s t ∧ sameMemory s t ∧ sameOthers s t p ∧
      t.pe p = { s.pe p with lm := .openAccess } ∧
      ∀ k u, othersRun p k t u → nextStoreFails p u fun _ => True) ∧
    (∀ lx pair, threadOk s.cfg lx = true →
      (∃ t, perform s (.exceptionReturnTo p lx pair) = .next t ∧ sameSystem s t ∧ sameMemory s t ∧ sameOthers s t p ∧
        t.pe p = { s.pe p with lm := .openAccess, lx := lx, pair := pair } ∧
        ∀ k u, othersRun p k t u → nextStoreFails p u fun _ => True) ∧
      (∃ t, perform s (.installThread p lx pair) = .next t ∧ sameSystem s t ∧ sameMemory s t ∧ sameOthers s t p ∧
        t.pe p = { s.pe p with lx := lx, pair := pair }))

/-- A plain store or load that aborts takes an exception and has no other effect: a fault of the translation, or an
External abort (R170, R171, R195, R197; that each counts as a Data Abort is the model's reading, log 15). A non-PE
observer's write that aborts does not take place (R172; the model's choice, log 22). -/
def Obligations.PlainAccessAborts : Prop :=
  (∀ (s : State) (p : Nat) (va : Word) (n : Nat), p < s.npe → (s.pe p).ended = none → 1 ≤ n →
    (∀ v, n ≤ 8 → translate s p va .write = none →
      ∃ t, perform s (.store p va n v) = .next t ∧ exceptionTakenBy s t p (.translationFault va)) ∧
    (∀ v pa attr, n ≤ 8 → translate s p va .write = some (pa, attr) → inSpace s.cfg pa n = true →
      writeAborts s pa n = true →
      ∃ t, perform s (.store p va n v) = .next t ∧ exceptionTakenBy s t p (.externalAbort va)) ∧
    (translate s p va .read = none →
      ∃ t, perform s (.load p va n) = .next t ∧ exceptionTakenBy s t p (.translationFault va)) ∧
    (∀ pa attr, translate s p va .read = some (pa, attr) → inSpace s.cfg pa n = true → readAborts s pa n = true →
      ∃ t, perform s (.load p va n) = .next t ∧ exceptionTakenBy s t p (.externalAbort va))) ∧
  (∀ (s : State) (k pa n v : Nat), k < s.cfg.observers → 1 ≤ n → inSpace s.cfg pa n = true →
    writeAborts s pa n = true →
    ∃ t, perform s (.observerWrite k pa n v) = .next t ∧ sameSystem s t ∧ sameMemory s t ∧ ∀ m, t.pe m = s.pe m)

/-- A foreign instruction has no effect on a monitor, a record, memory or another PE. Of its own PE one that is no barrier
leaves the registers it says, the fault report registers only if it is a System register write (R180, D4). A barrier is a
no-op (R77): whatever registers its action gives, it only moves the PC, and in T32 the IT state, on, which is the model's
form of the no-op (log 28). -/
def Obligations.ForeignTouchesNoMonitor : Prop :=
  ∀ (s : State) (p : Nat) (kind : ForeignKind) (u : RegisterFile), p < s.npe → (s.pe p).ended = none →
    ∃ t, perform s (.foreign p kind u) = .next t ∧ sameSystem s t ∧ sameMemory s t ∧ sameOthers s t p ∧
      let x := s.pe p
      let y := t.pe p
      (kind = .isb → cpsrAdvanced (isetOf x.cpsr) x.cpsr y.cpsr ∧ y = { x with pc := x.pc + 1, cpsr := y.cpsr }) ∧
        (kind ≠ .isb →
          y = { x with
                regs := u.regs, pc := u.pc, cpsr := u.cpsr, fpscr := u.fpscr
                dfsr := y.dfsr, dfar := y.dfar, hsr := y.hsr, hdfar := y.hdfar }) ∧
        (∀ a b c d, kind = .systemRegisterWrite a b c d → y.dfsr = a ∧ y.dfar = b ∧ y.hsr = c ∧ y.hdfar = d) ∧
        ((∀ a b c d, kind ≠ .systemRegisterWrite a b c d) →
          y.dfsr = x.dfsr ∧ y.dfar = x.dfar ∧ y.hsr = x.hsr ∧ y.hdfar = x.hdfar)

/-- The report of the IMPLEMENTATION DEFINED MMU fault (R192): DFSR.STATUS = 0b110101 in the Long-descriptor format,
DFSR.FS = 0b10101 in the Short-descriptor format, HSR.ISS[5:0] = 0b110101 for an exception to Hyp mode. The faulting
address is in DFAR, or HDFAR (the field positions and these two registers are PRESUMED, log 5). The rule does not say
that the registers of the other level stay, nor that HSR has its code in the Short-descriptor format too: both are the
model's choice (log 16, DESIGN CHOICE). -/
def Obligations.MmuFaultReported : Prop :=
  ∀ (s : State) (p : Nat) (va : Word), p < s.npe →
    let el1 := (takeException s p (.implDefMMUFault va .el1)).pe p
    let el2 := (takeException s p (.implDefMMUFault va .el2)).pe p
    (s.cfg.longDescriptor = true → el1.dfsr.extractLsb' 0 6 = 0b110101#6) ∧
      (s.cfg.longDescriptor = false → el1.dfsr.extractLsb' 10 1 ++ el1.dfsr.extractLsb' 0 4 = 0b10101#5) ∧
      el1.dfar = va ∧ el1.hsr = (s.pe p).hsr ∧ el1.hdfar = (s.pe p).hdfar ∧
      el2.hsr.extractLsb' 0 6 = 0b110101#6 ∧ el2.hdfar = va ∧ el2.dfsr = (s.pe p).dfsr ∧ el2.dfar = (s.pe p).dfar

/-- Where the MMU fault of the Non-secure PL1&0 regime is taken: to EL1 if the cause is the memory type of the first stage
or the second stage is disabled, else to EL2 (R193). -/
def Obligations.MmuFaultRouted : Prop :=
  ∀ (cfg : Config) (n p : Nat), cfg.nonSecurePL10 = true →
    (cfg.mmuCauseStage1 = true ∨ cfg.stage2Enabled = false → mmuFaultLevel cfg n p = .el1) ∧
      (cfg.mmuCauseStage1 = false → cfg.stage2Enabled = true → mmuFaultLevel cfg n p = .el2)

/-! ## Memory, blocks and byte order (20_memory.md) -/

/-- A global monitor is implemented for the two guaranteed memory types, whatever the configuration says, and elsewhere
where the configuration lists it (R190). -/
def Obligations.GuaranteedGlobalMonitor : Prop :=
  ∀ (cfg : Config) (pa : Nat) (attr : MemAttr),
    (attr.memType = .normal → attr.inner = .writeBack → attr.outer = .writeBack →
      (attr.share = .innerShareable ∨ attr.share = .outerShareable) → gMon cfg pa attr = true) ∧
    (¬(attr.memType = .normal ∧ attr.inner = .writeBack ∧ attr.outer = .writeBack ∧
        (attr.share = .innerShareable ∨ attr.share = .outerShareable)) →
      (gMon cfg pa attr = true ↔
        ∃ g ∈ cfg.gmon, g.base ≤ pa ∧ pa < g.base + g.len ∧ (g.attr = none ∨ g.attr = some attr)))

/-- A marked block: the block of `pa` is the `2^a` bytes from `(pa >> a) << a`, an address is marked exactly when its
block is the mark, and the worked example of the source (R52). -/
def Obligations.MarkedBlockIsAligned : Prop :=
  (∀ (cfg : Config) (pa q : Nat),
    block cfg q = block cfg pa ↔
      (pa >>> cfg.ergLog2) <<< cfg.ergLog2 ≤ q ∧ q ≤ (pa >>> cfg.ergLog2) <<< cfg.ergLog2 + 2 ^ cfg.ergLog2 - 1) ∧
  (∀ cfg : Config, cfg.ergLog2 = 4 →
    block cfg 0x341B4 = 0x341B ∧ ∀ q, block cfg q = 0x341B ↔ 0x341B0 ≤ q ∧ q ≤ 0x341BF)

/-- An aligned access of 1, 2, 4 or 8 bytes lies in one block; a write touches the blocks from its first to its last byte
(R54). -/
def Obligations.AlignedAccessInOneBlock : Prop :=
  ∀ (cfg : Config) (pa n : Nat), configOk cfg = true →
    ((n = 1 ∨ n = 2 ∨ n = 4 ∨ n = 8) → pa % n = 0 → ∀ k, k < n → block cfg (pa + k) = block cfg pa) ∧
    (1 ≤ n → ∀ b, inBlocks cfg pa n b = true ↔ touches cfg pa n b)

/-- The number read from memory and the bytes a register supplies, byte by byte: little-endian or big-endian by the
configuration, narrow reads zero-extended (R55, R121 to R127, R142 to R148); the bytes of a pair, the first register at
the lower address in both byte orders (R148); the second register of an A32 pair (R103); the addresses (R105). -/
def Obligations.DataByteOrder : Prop :=
  (∀ (s : State) (pa n k : Nat) (r : Reg), n ≤ 4 → k < 4 →
    (k < n →
      (memNumber s pa n >>> (8 * k)).setWidth 8 = memRead s.mem (pa + if s.cfg.bigEndian then n - 1 - k else k) ∧
      (regBytes s r n)[k]? = some ((s.reg s.cur r >>> (8 * if s.cfg.bigEndian then n - 1 - k else k)).setWidth 8)) ∧
    (n ≤ k → (memNumber s pa n >>> (8 * k)).setWidth 8 = 0#8)) ∧
  (∀ (s : State) (r r2 : Reg) (k : Nat), k < 4 →
    (pairBytes s r r2)[k]? = some ((s.reg s.cur r >>> (8 * if s.cfg.bigEndian then 3 - k else k)).setWidth 8) ∧
    (pairBytes s r r2)[4 + k]? = some ((s.reg s.cur r2 >>> (8 * if s.cfg.bigEndian then 3 - k else k)).setWidth 8) ∧
    (pairBytes s r r2).length = 8 ∧ (regBytes s r k).length = k) ∧
  (∀ rt : Reg, rt.val < 15 → (nextReg rt).val = rt.val + 1) ∧
  ∀ (s : State) (rn : Reg) (imm8 : BitVec 8),
    addrBase s rn = s.reg s.cur rn ∧ (addrOffset s rn imm8).toNat = ((s.reg s.cur rn).toNat + 4 * imm8.toNat) % 2 ^ 32

/-- The granule software finds: read from CTR[23:20] as `a - 2` where CTR identifies it, else the maximum, 512 words
(R31, R53, R221; the field's position is PRESUMED, log 5). -/
def Obligations.GranuleFromCtr : Prop :=
  ∀ cfg : Config, configOk cfg = true →
    (cfg.ctrHasErg = true →
      ((ctr cfg).extractLsb' 20 4).toNat = cfg.ergLog2 - 2 ∧ softwareErgLog2 cfg = cfg.ergLog2) ∧
    (cfg.ctrHasErg = false → (ctr cfg).extractLsb' 20 4 = 0#4 ∧ softwareErgLog2 cfg = 11)

/-! ## Runs: what a reservation protects -/

/-- The property of the mechanism (R35): after another PE's plain store or a non-PE observer's write, in the Shareability
domain and not exempt, to any byte of the block a PE has marked, every Store-Exclusive of that PE to a shareable location
fails, whatever the other agents did in between, until the PE moves. -/
def Obligations.InterveningWriteFailsStore : Prop :=
  ∀ (s : State) (p g : Nat), systemOk s = true → p < s.npe → (s.pe p).gm = .exclusive g →
    (∀ (q : Nat) (va : Word) (n : Nat) (v : BitVec 64) (turns : List Turn) (pa : Nat) (attr : MemAttr),
      s.agenda = .act (.store q va n v) :: turns → q ≠ p → q < s.npe → (s.pe q).ended = none → 1 ≤ n → n ≤ 8 →
      translate s q va .write = some (pa, attr) → inSpace s.cfg pa n = true → writeAborts s pa n = false →
      shareable attr = true → inDomain s.cfg (.pe q) pa attr = true → touches s.cfg pa n g →
      ∃ u, step s = .next u ∧
        ∀ k t, othersRun p k u t → nextStoreFails p t fun a => shareable a = true) ∧
    (∀ (o pa n v : Nat) (turns : List Turn),
      s.agenda = .act (.observerWrite o pa n v) :: turns → o < s.cfg.observers → 1 ≤ n →
      inSpace s.cfg pa n = true → writeAborts s pa n = false → shareable (attrAt s pa) = true →
      inDomain s.cfg (.device o) pa (attrAt s pa) = true → exempt s.cfg (.device o) pa (attrAt s pa) = false →
      touches s.cfg pa n g →
      ∃ u, step s = .next u ∧
        ∀ k t, othersRun p k u t → nextStoreFails p t fun a => shareable a = true)

/-- Of two PEs that both marked a block, the first to execute its Store-Exclusive passes, and every Store-Exclusive of
the other to a shareable location then fails until it moves (R62, R71, R231). -/
def Obligations.FirstContenderPasses : Prop :=
  ∀ (s : State) (i : Instr) (f : StoreForm) (pa : Nat) (attr : MemAttr) (q : Nat), storeForm s i = some f →
    executes s i = true → memWf s.mem = true → storeReaches s f pa attr → shareable attr = true →
    gMon s.cfg pa attr = true → markedFor s f.va pa attr → writeAborts s pa f.bytes.length = false →
    inDomain s.cfg (.pe s.cur) pa attr = true → q ≠ s.cur → q < s.npe →
    (s.pe q).gm = .exclusive (block s.cfg pa) →
    ∃ t, exec i s = .next t ∧ storePassed i f pa attr s t ∧
      ∀ k u, othersRun q k t u → nextStoreFails q u fun a => shareable a = true

/-- After a Store-Exclusive that did not abort, passed or failed, every further Store-Exclusive of the PE fails until it
moves, whatever the others do (R61, R150). -/
def Obligations.SecondStoreFails : Prop :=
  ∀ (s : State) (i : Instr) (f : StoreForm) (pa : Nat) (attr : MemAttr), storeForm s i = some f →
    executes s i = true → storeReaches s f pa attr → monitored s pa attr →
    writeAborts s pa f.bytes.length = false →
    ∃ t, exec i s = .next t ∧ ∀ k u, othersRun s.cur k t u → nextStoreFails s.cur u fun _ => True

/-- After CLREX, in A32 or in T32, every Store-Exclusive of the PE fails until it moves, whatever the others do and
whatever its global monitor holds (R150, R160). -/
def Obligations.ClrexFailsNextStore : Prop :=
  ∀ (s : State) (i : Instr), i = .clrexA ∨ i = .clrexT → executes s i = true → s.cur < s.npe →
    ∃ t, exec i s = .next t ∧ ∀ k u, othersRun s.cur k t u → nextStoreFails s.cur u fun _ => True

/-- A quiet pair passes: after a Load-Exclusive, and any number of steps in which no memory is written and nothing touches
the PE's monitors, a Store-Exclusive of the PE with the same virtual address, size and translation passes, with status 0
and its bytes written (R62, R120, R140, R153). -/
def Obligations.QuietPairPasses : Prop :=
  ∀ (s : State) (i : Instr) (f : LoadForm) (pa : Nat) (attr : MemAttr), loadForm s i = some f → executes s i = true →
    loadReaches s f pa attr → monitored s pa attr → readAborts s pa f.n = false → memWf s.mem = true →
    ∃ t, exec i s = .next t ∧
      ∀ (k : Nat) (u : State) (j : Instr) (g : StoreForm), quietRun s.cur k t u →
        storeForm { u with cur := s.cur } j = some g → executes { u with cur := s.cur } j = true → g.va = f.va →
        g.bytes.length = f.n → translate u s.cur g.va .write = some (pa, attr) → writeAborts u pa f.n = false →
        ∃ w, exec j { u with cur := s.cur } = .next w ∧ storePassed j g pa attr { u with cur := s.cur } w

/-! ## Forward progress (70_reset_and_hazards.md) -/

/-- What the conditions bar and admit: condition 1 nothing but register-only instructions and, if they do not count as
barred (open in the source, log 38), events; condition 2 as its six items say; the excuses; and what is promised (R226 to
R228, R230). What condition 1 admits condition 2 admits too. Every write a PE performs counts as a store of that PE for the
excuses, whatever status it returns: a byte that changes in a step lies in one of them, or a non-PE observer wrote it; and
of the ordinary Store-Exclusives exactly those that return 0 perform one, of their own bytes (R140, R152). A PLDW or a
software prefetch without a translation reaches no granule: condition 1 bars it, condition 2 does not (R174, R228).

Not the spec's words but the model's: CLREX and a thread switch, which the rules do not name (log 38, DESIGN CHOICE); that
condition 2 admits a Store-Exclusive to the loop's own virtual address, although its first item bars stores in the granule,
and that a write counts as a store whatever its status (both log 34, DEDUCED); that an access to another address of the
granule uses the loop's own alias exactly where its distance VA - PA is the lock's (log 43, DESIGN CHOICE). -/
def Obligations.ProgressConditions : Prop :=
  (∀ between, condition1 between = true ↔
    ∀ a ∈ between, a = .registerOnly ∨ ∃ k, a = .event k ∧ Config.countsAsBarred k = false) ∧
  (∀ (cfg : Config) (lock : Place) (retry : List Activity), condition2 cfg lock retry = true ↔
    (∀ p, .store p ∈ retry ∨ .pldw (some p) ∈ retry → inGranule cfg lock p = false) ∧
    (∀ p, .load p ∈ retry ∨ .prefetch (some p) ∈ retry → inGranule cfg lock p = true →
      (p.va : Int) - p.pa = (lock.va : Int) - lock.pa) ∧
    (∀ p, .storeExclusive p ∈ retry → p.va = lock.va) ∧
    .systemRegisterWrite ∉ retry ∧
    (.addressTranslation ∉ retry ∧ .cacheOrTlbMaintenance ∉ retry ∧ .exceptionGenerating ∉ retry ∧
      .exceptionReturn ∉ retry ∧ .indirectBranch ∉ retry ∧ .branchWithLink ∉ retry ∧ .threadSwitch ∉ retry) ∧
    (∀ k, .event k ∈ retry → Config.countsAsBarred k = false) ∧
    ∀ p q : Place, (.load p ∈ retry ∨ .store p ∈ retry ∨ .storeExclusive p ∈ retry) →
      (.load q ∈ retry ∨ .store q ∈ retry ∨ .storeExclusive q ∈ retry) → q.va + q.n ≤ p.va + 512) ∧
  (∀ (cfg : Config) (lock : Place) (xs : List Activity), condition1 xs = true → condition2 cfg lock xs = true) ∧
  (∀ (s : State) (q : Nat) (va : Word) (a : Action) (turns : List Turn), s.agenda = .act a :: turns →
    a = .pldw q va ∧ translate s q va .write = none ∨
      (∃ u, a = .foreign q (.prefetch va) u) ∧ translate s q va .read = none →
    ∃ x, activityOf s = some (q, x) ∧ condition1 [x] = false ∧ ∀ cfg lock, condition2 cfg lock [x] = true) ∧
  (∀ (cfg : Config) (lock : Place) (x : Interference), excuses cfg lock x = true ↔
    x = .instrCacheInvalidateAll ∨ (∃ pa n, inBlocks cfg pa n (block cfg lock.pa) = true ∧ x = .storeTo pa n) ∨
      ∃ pa, block cfg pa = block cfg lock.pa ∧
        (x = .prefetchToWrite pa ∨ x = .dataCacheMaintenance pa ∨ x = .instrCacheInvalidateVA pa)) ∧
  (∀ (cfg : Config) (lock : Place) (between retry : List Activity) (others : List Interference),
    let met := condition1 between = true ∧ condition2 cfg lock retry = true ∧ ∀ x ∈ others, excuses cfg lock x = false
    (met → cfg.haveLSE = false → progressPromise cfg lock between retry others = .guaranteed) ∧
    (met → cfg.haveLSE = true → progressPromise cfg lock between retry others = .likelihoodMaximised) ∧
    (¬met → progressPromise cfg lock between retry others = .none)) ∧
  (∀ (s t : State) (a : Nat), memWf s.mem = true → step s = .next t → memRead t.mem a ≠ memRead s.mem a →
    (∃ q pa n, (q, .storeTo pa n) ∈ interferencesOf s ∧ pa ≤ a ∧ a < pa + n) ∨
      ∃ k pa n v turns, s.agenda = .act (.observerWrite k pa n v) :: turns) ∧
  ∀ (s : State) (p : Nat) (i : Instr) (f : StoreForm) (pa : Nat) (attr : MemAttr), executed s = some (p, i) →
    storeForm { s with cur := p } i = some f → executes { s with cur := p } i = true →
    storeReaches { s with cur := p } f pa attr → monitored s pa attr → writeAborts s pa f.bytes.length = false →
    statusReturned s = some (p, f, 0) ∧ interferencesOf s = [(p, .storeTo pa f.bytes.length)] ∨
      statusReturned s = some (p, f, 1) ∧ interferencesOf s = []

/-- A loop that nobody disturbs makes forward progress again and again: in every infinite run in which a PE keeps
executing a loop that meets the conditions, on a location with the monitors it needs that does not abort, and every step
that is not the PE's own is quiet for it, infinitely many of its Store-Exclusives return 0 (R225 to R228). -/
def Obligations.UndisturbedLoopProgresses : Prop :=
  ∀ (sched : Nat → Turn) (r : Nat → State) (p : Nat) (lock : Place) (attr : MemAttr), infiniteRun sched r →
    p < (r 0).npe → keepsLooping sched r p lock →
    (∀ kind, translate (r 0) p (BitVec.ofNat 32 lock.va) kind = some (lock.pa, attr)) → monitored (r 0) lock.pa attr →
    readAborts (r 0) lock.pa lock.n = false → writeAborts (r 0) lock.pa lock.n = false →
    (∀ k, mover (moment sched r k) ≠ some p → quietFor p (moment sched r k)) →
    ∀ k, ∃ j, k ≤ j ∧ progressAt sched r p j
end

