-- ==== Sys2Proof/Laws/Decode.lean ====
section
/-! SUPPORT. The bit fields of the encoder and the decoder undo each other, field by field. -/

namespace Sys2Proof

variable (n7 n6 n5 n4 n3 n2 n1 n0 : BitVec 4)

theorem nib_ofNibs (k : Fin 8) :
    nib (ofNibs n7 n6 n5 n4 n3 n2 n1 n0) k = ![n0, n1, n2, n3, n4, n5, n6, n7] k := by
  fin_cases k <;>
    (apply BitVec.eq_of_getLsbD_eq
     intro i hi
     simp only [nib, ofNibs, BitVec.getLsbD_extractLsb', BitVec.getLsbD_append]
     interval_cases i <;> simp)

@[simp] theorem nib_ofNibs_7 : nib (ofNibs n7 n6 n5 n4 n3 n2 n1 n0) 7 = n7 := nib_ofNibs n7 n6 n5 n4 n3 n2 n1 n0 7
@[simp] theorem nib_ofNibs_6 : nib (ofNibs n7 n6 n5 n4 n3 n2 n1 n0) 6 = n6 := nib_ofNibs n7 n6 n5 n4 n3 n2 n1 n0 6
@[simp] theorem nib_ofNibs_5 : nib (ofNibs n7 n6 n5 n4 n3 n2 n1 n0) 5 = n5 := nib_ofNibs n7 n6 n5 n4 n3 n2 n1 n0 5
@[simp] theorem nib_ofNibs_4 : nib (ofNibs n7 n6 n5 n4 n3 n2 n1 n0) 4 = n4 := nib_ofNibs n7 n6 n5 n4 n3 n2 n1 n0 4
@[simp] theorem nib_ofNibs_3 : nib (ofNibs n7 n6 n5 n4 n3 n2 n1 n0) 3 = n3 := nib_ofNibs n7 n6 n5 n4 n3 n2 n1 n0 3
@[simp] theorem nib_ofNibs_2 : nib (ofNibs n7 n6 n5 n4 n3 n2 n1 n0) 2 = n2 := nib_ofNibs n7 n6 n5 n4 n3 n2 n1 n0 2
@[simp] theorem nib_ofNibs_1 : nib (ofNibs n7 n6 n5 n4 n3 n2 n1 n0) 1 = n1 := nib_ofNibs n7 n6 n5 n4 n3 n2 n1 n0 1
@[simp] theorem nib_ofNibs_0 : nib (ofNibs n7 n6 n5 n4 n3 n2 n1 n0) 0 = n0 := nib_ofNibs n7 n6 n5 n4 n3 n2 n1 n0 0

/-- A word is made of its nibbles. -/
theorem ofNibs_nib (w : Word) :
    ofNibs (nib w 7) (nib w 6) (nib w 5) (nib w 4) (nib w 3) (nib w 2) (nib w 1) (nib w 0) = w := by
  apply BitVec.eq_of_getLsbD_eq
  intro i hi
  simp only [nib, ofNibs, BitVec.getLsbD_extractLsb', BitVec.getLsbD_append]
  interval_cases i <;> simp

@[simp] theorem regOf_regBits (r : Reg) : regOf (regBits r) = r := rfl

@[simp] theorem regBits_regOf (n : BitVec 4) : regBits (regOf n) = n := rfl

@[simp] theorem condOf_condBits (c : Cond) : condOf (condBits c) = some c := by cases c <;> rfl

theorem condBits_of_condOf {n : BitVec 4} {c : Cond} (h : condOf n = some c) : condBits c = n := by
  revert c
  revert n
  decide

/-- A byte is made of its two nibbles. -/
theorem append_nibbles (b : BitVec 8) : b.extractLsb' 4 4 ++ b.extractLsb' 0 4 = b := by
  apply BitVec.eq_of_getLsbD_eq
  intro i hi
  simp only [BitVec.getLsbD_extractLsb', BitVec.getLsbD_append]
  interval_cases i <;> simp

/-- A halfword's bytes give the halfword. -/
@[simp] theorem halfOf_bytes (h : BitVec 16) : halfOf (h.extractLsb' 0 8) (h.extractLsb' 8 8) = h := by
  apply BitVec.eq_of_getLsbD_eq
  intro i hi
  simp only [halfOf, BitVec.getLsbD_extractLsb', BitVec.getLsbD_append]
  interval_cases i <;> simp

/-- A word's halfwords give the word. -/
@[simp] theorem wordOf_halves (w : Word) : wordOf (w.extractLsb' 16 16) (w.extractLsb' 0 16) = w := by
  apply BitVec.eq_of_getLsbD_eq
  intro i hi
  simp only [wordOf, BitVec.getLsbD_extractLsb', BitVec.getLsbD_append]
  interval_cases i <;> simp

/-- Decoding the bytes of an A32 word. -/
theorem decode_a32Bytes (w : Word) (rest : List Byte) :
    decode .a32 (a32Bytes w ++ rest) = (decodeA32Word w).map fun i => (i, rest) := by
  simp only [a32Bytes, halfBytes, List.cons_append, List.nil_append, decode, halfOf_bytes, wordOf_halves]

/-- Decoding the bytes of a two-halfword T32 instruction. -/
theorem decode_t32Bytes (w : Word) (rest : List Byte) (h : isTwoHalfwords (w.extractLsb' 16 16) = true) :
    decode .t32 (t32Bytes w ++ rest) = (decodeT32Word w).map fun i => (i, rest) := by
  simp only [t32Bytes, halfBytes, List.cons_append, List.nil_append, decode, halfOf_bytes, wordOf_halves, h, if_true]

/-- Decoding the bytes of a one-halfword T32 instruction. -/
theorem decode_halfBytes (hw : BitVec 16) (rest : List Byte) (h : isTwoHalfwords hw = false) :
    decode .t32 (halfBytes hw ++ rest) = (decodeT32Half hw).map fun i => (i, rest) := by
  simp only [halfBytes, List.cons_append, List.nil_append, decode, halfOf_bytes, h, Bool.false_eq_true, if_false]

end Sys2Proof
end

