-- ==== Sys2Proof/Laws/Memory.lean ====
section
/-! SUPPORT. Memory: read after write, and the canonical form, for one byte and for a run of bytes. -/

namespace Sys2Proof.Machine

theorem memWf_cons {k : Nat} {v : Byte} {m : Memory} :
    memWf ((k, v) :: m) = true ↔ v ≠ fillByte ∧ (∀ c ∈ m, k < c.1) ∧ memWf m = true := by
  simp [memWf, and_assoc]

/-- An address below every listed one reads as an unlisted address. -/
theorem memRead_of_lt {m : Memory} {a : Nat} (h : ∀ c ∈ m, a < c.1) : memRead m a = fillByte := by
  induction m with
  | nil => rfl
  | cons c m ih =>
    obtain ⟨k, v⟩ := c
    have hk : a < k := h (k, v) (by simp)
    rw [memRead, if_neg (by omega)]
    exact ih fun d hd => h d (by simp [hd])

theorem memRead_memWrite_self {m : Memory} (h : memWf m) (a : Nat) (b : Byte) : memRead (memWrite m a b) a = b := by
  induction m with
  | nil => by_cases hb : b = fillByte <;> simp [memWrite, memRead, hb]
  | cons c m ih =>
    obtain ⟨k, v⟩ := c
    obtain ⟨-, hlt, hm⟩ := memWf_cons.mp h
    rw [memWrite]
    split
    · split
      · rw [memRead, if_neg (by omega), memRead_of_lt (fun d hd => by have := hlt d hd; omega)]
        simp_all
      · simp [memRead]
    · split
      · rename_i hak
        subst hak
        split
        · rw [memRead_of_lt hlt]; simp_all
        · simp [memRead]
      · rw [memRead, if_neg (by omega)]
        exact ih hm

theorem memRead_memWrite_ne {m : Memory} (h : memWf m) {a a' : Nat} (b : Byte) (ha : a' ≠ a) :
    memRead (memWrite m a b) a' = memRead m a' := by
  induction m with
  | nil => by_cases hb : b = fillByte <;> simp [memWrite, memRead, hb, ha.symm]
  | cons c m ih =>
    obtain ⟨k, v⟩ := c
    obtain ⟨-, hlt, hm⟩ := memWf_cons.mp h
    rw [memWrite]
    split
    · split
      · rfl
      · simp [memRead, ha.symm]
    · split
      · rename_i hak
        subst hak
        split
        · rw [memRead, if_neg ha.symm]
        · simp [memRead, ha.symm]
      · simp only [memRead, ih hm]

theorem memWrite_bound {m : Memory} {a : Nat} {b : Byte} {c : Host.Cell} (h : c ∈ memWrite m a b) :
    c ∈ m ∨ c.1 = a := by
  induction m with
  | nil =>
    rw [memWrite] at h
    split at h <;> simp_all
  | cons d m ih =>
    obtain ⟨k, v⟩ := d
    rw [memWrite] at h
    split at h
    · split at h
      · exact .inl h
      · rcases List.mem_cons.mp h with rfl | h
        · exact .inr rfl
        · exact .inl h
    · split at h
      · split at h
        · exact .inl (by simp [h])
        · rcases List.mem_cons.mp h with rfl | h
          · exact .inr rfl
          · exact .inl (by simp [h])
      · rcases List.mem_cons.mp h with rfl | h
        · exact .inl (by simp)
        · rcases ih h with h | h
          · exact .inl (by simp [h])
          · exact .inr h

theorem memWf_memWrite {m : Memory} (h : memWf m) (a : Nat) (b : Byte) : memWf (memWrite m a b) := by
  induction m with
  | nil => by_cases hb : b = fillByte <;> simp [memWrite, memWf, hb]
  | cons c m ih =>
    obtain ⟨k, v⟩ := c
    obtain ⟨hv, hlt, hm⟩ := memWf_cons.mp h
    rw [memWrite]
    split
    · split
      · exact h
      · rename_i hak hb
        refine memWf_cons.mpr ⟨hb, fun d hd => ?_, h⟩
        rcases List.mem_cons.mp hd with rfl | hd
        · exact hak
        · exact hak.trans (hlt d hd)
    · split
      · rename_i hak
        subst hak
        split
        · exact hm
        · rename_i hb
          exact memWf_cons.mpr ⟨hb, hlt, hm⟩
      · refine memWf_cons.mpr ⟨hv, fun d hd => ?_, ih hm⟩
        rcases memWrite_bound hd with hd | hd
        · exact hlt d hd
        · omega

theorem memWf_memWriteBytes {m : Memory} (h : memWf m) (a : Nat) (bs : List Byte) : memWf (memWriteBytes m a bs) := by
  induction bs generalizing m a with
  | nil => exact h
  | cons b bs ih => exact ih (memWf_memWrite h a b) (a + 1)

/-- A byte outside the written range reads as before. -/
theorem memRead_memWriteBytes_out {m : Memory} (h : memWf m) {a x : Nat} {bs : List Byte}
    (hx : x < a ∨ a + bs.length ≤ x) : memRead (memWriteBytes m a bs) x = memRead m x := by
  induction bs generalizing m a with
  | nil => rfl
  | cons b bs ih =>
    simp only [List.length_cons] at hx
    rw [memWriteBytes, ih (memWf_memWrite h a b) (by omega), memRead_memWrite_ne h b (by omega)]

/-- A byte inside the written range reads as written. -/
theorem memRead_memWriteBytes_in {m : Memory} (h : memWf m) {a i : Nat} {bs : List Byte} (hi : i < bs.length) :
    memRead (memWriteBytes m a bs) (a + i) = bs[i] := by
  induction bs generalizing m a i with
  | nil => simp at hi
  | cons b bs ih =>
    rw [memWriteBytes]
    cases i with
    | zero => rw [memRead_memWriteBytes_out (memWf_memWrite h a b) (by omega)]; simp [memRead_memWrite_self h]
    | succ i =>
      have := ih (memWf_memWrite h a b) (a := a + 1) (i := i) (by simpa using hi)
      rw [show a + (i + 1) = a + 1 + i by omega, this]
      simp

theorem memWriteBytes_bound {m : Memory} {a : Nat} {bs : List Byte} {c : Host.Cell}
    (h : c ∈ memWriteBytes m a bs) : c ∈ m ∨ (a ≤ c.1 ∧ c.1 < a + bs.length) := by
  induction bs generalizing m a with
  | nil => exact .inl h
  | cons b bs ih =>
    simp only [List.length_cons]
    rcases ih h with h | h
    · rcases memWrite_bound h with h | h
      · exact .inl h
      · exact .inr (by omega)
    · exact .inr (by omega)

@[simp] theorem length_memReadBytes (m : Memory) (a n : Nat) : (memReadBytes m a n).length = n := by
  simp [memReadBytes]

@[simp] theorem length_bytesLE (n v : Nat) : (bytesLE n v).length = n := by
  induction n generalizing v with
  | zero => rfl
  | succ n ih => simp [bytesLE, ih]

@[simp] theorem length_disassemble (big : Bool) (n v : Nat) : (disassemble big n v).length = n := by
  cases big <;> simp [disassemble]

/-- The bytes of a number stand for that number, modulo their width. -/
theorem numberLE_bytesLE (n v : Nat) : numberLE (bytesLE n v) = v % 256 ^ n := by
  induction n generalizing v with
  | zero => simp [bytesLE, numberLE, Nat.mod_one]
  | succ n ih =>
    rw [bytesLE, numberLE, ih, BitVec.toNat_ofNat, show 256 ^ (n + 1) = 256 * 256 ^ n by ring, Nat.mod_mul]

/-- Writing a number out and reading it back in the same byte order (R55). -/
theorem assemble_disassemble (big : Bool) (n v : Nat) : assemble big (disassemble big n v) = v % 256 ^ n := by
  cases big <;> simp [assemble, disassemble, numberLE_bytesLE]

@[simp] theorem length_regBytes (s : State) (r : Reg) (n : Nat) : (regBytes s r n).length = n := by simp [regBytes]

@[simp] theorem length_pairBytes (s : State) (r r' : Reg) : (pairBytes s r r').length = 8 := by simp [pairBytes]

@[simp] theorem length_freeBytes (k r n : Nat) : (freeBytes k r n).length = n := by simp [freeBytes]

end Sys2Proof.Machine
end

