-- ==== Sys2Proof/Laws/State.lean ====
section
/-! SUPPORT. One lemma per field per update of the state, so that no proof unfolds a record update. -/

namespace Sys2Proof.Machine

variable (s : State) (p m : Nat) (f : PE → PE) (g : Nat → PE → PE) (r : Reg) (v : Word) (a : Nat) (bs : List Byte)

/-! ### updatePE -/

@[simp] theorem updatePE_cfg : (s.updatePE p f).cfg = s.cfg := rfl
@[simp] theorem updatePE_mem : (s.updatePE p f).mem = s.mem := rfl
@[simp] theorem updatePE_attrs : (s.updatePE p f).attrs = s.attrs := rfl
@[simp] theorem updatePE_xlat : (s.updatePE p f).xlat = s.xlat := rfl
@[simp] theorem updatePE_cur : (s.updatePE p f).cur = s.cur := rfl
@[simp] theorem updatePE_agenda : (s.updatePE p f).agenda = s.agenda := rfl
@[simp] theorem updatePE_fresh : (s.updatePE p f).fresh = s.fresh := rfl

/-! ### updateAll -/

@[simp] theorem updateAll_cfg : (s.updateAll g).cfg = s.cfg := rfl
@[simp] theorem updateAll_mem : (s.updateAll g).mem = s.mem := rfl
@[simp] theorem updateAll_attrs : (s.updateAll g).attrs = s.attrs := rfl
@[simp] theorem updateAll_xlat : (s.updateAll g).xlat = s.xlat := rfl
@[simp] theorem updateAll_cur : (s.updateAll g).cur = s.cur := rfl
@[simp] theorem updateAll_agenda : (s.updateAll g).agenda = s.agenda := rfl
@[simp] theorem updateAll_fresh : (s.updateAll g).fresh = s.fresh := rfl

/-! ### setReg -/

@[simp] theorem setReg_cfg : (s.setReg p r v).cfg = s.cfg := rfl
@[simp] theorem setReg_mem : (s.setReg p r v).mem = s.mem := rfl
@[simp] theorem setReg_attrs : (s.setReg p r v).attrs = s.attrs := rfl
@[simp] theorem setReg_xlat : (s.setReg p r v).xlat = s.xlat := rfl
@[simp] theorem setReg_cur : (s.setReg p r v).cur = s.cur := rfl
@[simp] theorem setReg_agenda : (s.setReg p r v).agenda = s.agenda := rfl
@[simp] theorem setReg_fresh : (s.setReg p r v).fresh = s.fresh := rfl

/-! ### tick -/

@[simp] theorem tick_cfg : (s.tick).cfg = s.cfg := rfl
@[simp] theorem tick_mem : (s.tick).mem = s.mem := rfl
@[simp] theorem tick_attrs : (s.tick).attrs = s.attrs := rfl
@[simp] theorem tick_xlat : (s.tick).xlat = s.xlat := rfl
@[simp] theorem tick_cur : (s.tick).cur = s.cur := rfl
@[simp] theorem tick_agenda : (s.tick).agenda = s.agenda := rfl
@[simp] theorem tick_fresh : (s.tick).fresh = s.fresh + 1 := rfl
@[simp] theorem tick_pes : (s.tick).pes = s.pes := rfl
@[simp] theorem tick_pe : (s.tick).pe p = s.pe p := rfl

/-! ### writeBytes -/

@[simp] theorem writeBytes_cfg : (s.writeBytes a bs).cfg = s.cfg := rfl
@[simp] theorem writeBytes_attrs : (s.writeBytes a bs).attrs = s.attrs := rfl
@[simp] theorem writeBytes_xlat : (s.writeBytes a bs).xlat = s.xlat := rfl
@[simp] theorem writeBytes_cur : (s.writeBytes a bs).cur = s.cur := rfl
@[simp] theorem writeBytes_agenda : (s.writeBytes a bs).agenda = s.agenda := rfl
@[simp] theorem writeBytes_fresh : (s.writeBytes a bs).fresh = s.fresh := rfl
@[simp] theorem writeBytes_mem : (s.writeBytes a bs).mem = memWriteBytes s.mem a bs := rfl
@[simp] theorem writeBytes_pes : (s.writeBytes a bs).pes = s.pes := rfl
@[simp] theorem writeBytes_pe : (s.writeBytes a bs).pe p = s.pe p := rfl

/-! ### The number of PEs -/

@[simp] theorem updatePE_npe : (s.updatePE p f).npe = s.npe := by simp [State.npe, State.updatePE]
@[simp] theorem updateAll_npe : (s.updateAll g).npe = s.npe := by simp [State.npe, State.updateAll]
@[simp] theorem setReg_npe : (s.setReg p r v).npe = s.npe := updatePE_npe ..
@[simp] theorem tick_npe : (s.tick).npe = s.npe := rfl
@[simp] theorem writeBytes_npe : (s.writeBytes a bs).npe = s.npe := rfl

/-! ### One PE after an update -/

theorem pe_updatePE : (s.updatePE p f).pe m = if p = m ∧ m < s.npe then f (s.pe m) else s.pe m := by
  unfold State.pe State.updatePE State.npe
  simp only [List.getElem?_modify]
  by_cases hm : m < s.pes.length
  · by_cases hp : p = m <;> simp [hp, hm]
  · simp [hm]

@[simp] theorem pe_updatePE_self (h : p < s.npe) : (s.updatePE p f).pe p = f (s.pe p) := by
  simp [pe_updatePE, h]

@[simp] theorem pe_updatePE_ne (h : m ≠ p) : (s.updatePE p f).pe m = s.pe m := by
  simp [pe_updatePE, h.symm]

@[simp] theorem pe_updateAll (h : m < s.npe) : (s.updateAll g).pe m = g m (s.pe m) := by
  unfold State.pe State.updateAll
  rw [State.npe] at h
  simp [List.getElem?_mapIdx, h]

@[simp] theorem pe_setReg_ne (h : m ≠ p) : (s.setReg p r v).pe m = s.pe m := pe_updatePE_ne _ _ _ _ h

@[simp] theorem pe_setReg_self (h : p < s.npe) :
    (s.setReg p r v).pe p = { s.pe p with regs := (s.pe p).regs.set r v } :=
  pe_updatePE_self _ _ _ h

/-! ### Registers -/

theorem reg_setReg_self (h : p < s.npe) (q : Reg) :
    (s.setReg p r v).reg p q = if q = r then v else s.reg p q := by
  simp only [State.reg, pe_setReg_self s p r v h]
  by_cases hq : q = r
  · subst hq; simp
  · have : (r : Nat) ≠ q := fun h' => hq (Fin.ext h'.symm)
    simp [hq, Vector.getElem_set, this]

theorem reg_setReg_ne (h : m ≠ p) (q : Reg) : (s.setReg p r v).reg m q = s.reg m q := by
  simp [State.reg, pe_setReg_ne s p m r v h]

/-! ### A completed instruction -/

variable (set : ISet)

@[simp] theorem complete_cfg : (complete set s p).cfg = s.cfg := rfl
@[simp] theorem complete_mem : (complete set s p).mem = s.mem := rfl
@[simp] theorem complete_attrs : (complete set s p).attrs = s.attrs := rfl
@[simp] theorem complete_xlat : (complete set s p).xlat = s.xlat := rfl
@[simp] theorem complete_cur : (complete set s p).cur = s.cur := rfl
@[simp] theorem complete_agenda : (complete set s p).agenda = s.agenda := rfl
@[simp] theorem complete_fresh : (complete set s p).fresh = s.fresh + 1 := rfl
@[simp] theorem complete_npe : (complete set s p).npe = s.npe := by simp [complete]

@[simp] theorem pe_complete_self (h : p < s.npe) :
    (complete set s p).pe p = { s.pe p with pc := (s.pe p).pc + 1, cpsr := afterInstr set (s.pe p).cpsr } := by
  simp [complete, h]

@[simp] theorem pe_complete_ne (h : m ≠ p) : (complete set s p).pe m = s.pe m := by
  simp [complete, h]

theorem reg_complete (q : Reg) : (complete set s p).reg m q = s.reg m q := by
  simp only [complete, State.reg, tick_pe, pe_updatePE]
  split <;> rfl

/-! ### An exception or a model fault -/

variable (c : EndCause)

@[simp] theorem endRun_cfg : (endRun s p c).cfg = s.cfg := rfl
@[simp] theorem endRun_mem : (endRun s p c).mem = s.mem := rfl
@[simp] theorem endRun_attrs : (endRun s p c).attrs = s.attrs := rfl
@[simp] theorem endRun_xlat : (endRun s p c).xlat = s.xlat := rfl
@[simp] theorem endRun_cur : (endRun s p c).cur = s.cur := rfl
@[simp] theorem endRun_agenda : (endRun s p c).agenda = s.agenda := rfl
@[simp] theorem endRun_fresh : (endRun s p c).fresh = s.fresh + 1 := rfl
@[simp] theorem endRun_npe : (endRun s p c).npe = s.npe := by simp [endRun]
@[simp] theorem pe_endRun_ne (h : m ≠ p) : (endRun s p c).pe m = s.pe m := by simp [endRun, h]
@[simp] theorem takeException_cfg : (takeException s p c).cfg = s.cfg := rfl
@[simp] theorem takeException_mem : (takeException s p c).mem = s.mem := rfl
@[simp] theorem takeException_attrs : (takeException s p c).attrs = s.attrs := rfl
@[simp] theorem takeException_xlat : (takeException s p c).xlat = s.xlat := rfl
@[simp] theorem takeException_cur : (takeException s p c).cur = s.cur := rfl
@[simp] theorem takeException_agenda : (takeException s p c).agenda = s.agenda := rfl
@[simp] theorem takeException_fresh : (takeException s p c).fresh = s.fresh + 1 := rfl
@[simp] theorem takeException_npe : (takeException s p c).npe = s.npe := by simp [takeException]
@[simp] theorem pe_takeException_ne (h : m ≠ p) : (takeException s p c).pe m = s.pe m := by simp [takeException, h]
@[simp] theorem pe_endRun_self (h : p < s.npe) : (endRun s p c).pe p = { s.pe p with ended := some c } := by
  simp [endRun, h]
@[simp] theorem pe_takeException_self (h : p < s.npe) :
    (takeException s p c).pe p =
      { reportFault s.cfg s.fresh c (dataAbortMonitors s.fresh p (s.pe p)) with ended := some c } := by
  simp [takeException, h]

/-! ### An observed write -/

variable (call pa len : Nat) (o : Observer) (k : WriteKind) (attr : MemAttr)

@[simp] theorem observeWrite_cfg : (observeWrite s call o pa len k attr).cfg = s.cfg := rfl
@[simp] theorem observeWrite_mem : (observeWrite s call o pa len k attr).mem = s.mem := rfl
@[simp] theorem observeWrite_attrs : (observeWrite s call o pa len k attr).attrs = s.attrs := rfl
@[simp] theorem observeWrite_xlat : (observeWrite s call o pa len k attr).xlat = s.xlat := rfl
@[simp] theorem observeWrite_cur : (observeWrite s call o pa len k attr).cur = s.cur := rfl
@[simp] theorem observeWrite_agenda : (observeWrite s call o pa len k attr).agenda = s.agenda := rfl
@[simp] theorem observeWrite_fresh : (observeWrite s call o pa len k attr).fresh = s.fresh := rfl
@[simp] theorem observeWrite_npe : (observeWrite s call o pa len k attr).npe = s.npe := updateAll_npe ..

theorem pe_observeWrite_other (h : m < s.npe) (ho : o ≠ .pe m) :
    (observeWrite s call o pa len k attr).pe m = observeOther s call o pa len attr m (s.pe m) := by
  simp [observeWrite, h, ho]

theorem pe_observeWrite_storeExcl (h : m < s.npe) :
    (observeWrite s call (.pe m) pa len .storeExcl attr).pe m = s.pe m := by
  simp [observeWrite, h]

theorem pe_observeWrite_store (h : m < s.npe) :
    (observeWrite s call (.pe m) pa len .store attr).pe m = observeOwn s call pa len m (s.pe m) := by
  simp [observeWrite, h]

end Sys2Proof.Machine
end

