-- ==== Sys2Proof/Laws/Ops.lean ====
section
/-! SUPPORT. For each shared operation, what it can do: the monitor operations, the observation of a write, an
exception, and the common steps of the exclusive instructions. -/

namespace Sys2Proof.Machine

/-! ## Operations on one PE -/

section PE
variable (x y z : PE) (b : Bool) (k : Nat)

@[simp] theorem onlyMonitors_refl : onlyMonitors x x := ⟨rfl, rfl⟩

theorem onlyMonitors_trans {x y z : PE} (h : onlyMonitors x y) (h' : onlyMonitors y z) : onlyMonitors x z := by
  obtain ⟨h, ha⟩ := h
  obtain ⟨h', ha'⟩ := h'
  refine ⟨?_, ha'.trans ha⟩
  rw [h'] at *
  rw [h]

@[simp] theorem onlyCleared_refl : onlyCleared x x := ⟨onlyMonitors_refl x, .inl rfl, .inl ⟨rfl, rfl⟩⟩

theorem onlyCleared_trans {x y z : PE} (h : onlyCleared x y) (h' : onlyCleared y z) : onlyCleared x z := by
  obtain ⟨h1, h2, h3⟩ := h
  obtain ⟨h1', h2', h3'⟩ := h'
  refine ⟨onlyMonitors_trans h1 h1', ?_, ?_⟩
  · rcases h2' with h2' | h2'
    · rcases h2 with h2 | h2
      · exact .inl (h2'.trans h2)
      · exact .inr (h2'.trans h2)
    · exact .inr h2'
  · rcases h3 with ⟨hg, he⟩ | ⟨hs, hg, he⟩ <;> rcases h3' with ⟨hg', he'⟩ | ⟨hs', hg', he'⟩
    · exact .inl ⟨hg'.trans hg, he'.trans he⟩
    · exact .inr ⟨by rwa [hg] at hs', hg', he'⟩
    · exact .inr ⟨hs, hg'.trans hg, he'.trans he⟩
    · exact .inr ⟨hs, hg', he'⟩

theorem onlyCleared_clearLocal : onlyCleared x (clearLocal x) := ⟨⟨rfl, rfl⟩, .inr rfl, .inl ⟨rfl, rfl⟩⟩

theorem onlyCleared_clearGlobal : onlyCleared x (clearGlobal x) := by
  unfold clearGlobal
  cases h : x.gm with
  | openAccess => exact onlyCleared_refl x
  | exclusive g => exact ⟨⟨rfl, rfl⟩, .inl rfl, .inr ⟨by rw [h]; rfl, rfl, rfl⟩⟩

/-- Everything `noteWrite` can do: nothing, or the moved pair of the PE becomes a written one. -/
theorem noteWrite_cases (s : State) (pa len m : Nat) :
    noteWrite s pa len m x = x ∨
      ∃ va, x.pair = .moved va ∧ noteWrite s pa len m x = { x with pair := .written va } := by
  unfold noteWrite
  split
  · rename_i va hv
    split
    · split
      · exact .inr ⟨va, hv, rfl⟩
      · exact .inl rfl
    · exact .inl rfl
  all_goals exact .inl rfl

theorem onlyCleared_noteWrite (s : State) (pa len m : Nat) : onlyCleared x (noteWrite s pa len m x) := by
  rcases noteWrite_cases x s pa len m with h | ⟨va, hv, h⟩ <;> rw [h]
  · exact onlyCleared_refl x
  · exact ⟨⟨rfl, by rw [hv]; rfl⟩, .inl rfl, .inl ⟨rfl, rfl⟩⟩

@[simp] theorem noteWrite_lm (s : State) (pa len m : Nat) : (noteWrite s pa len m x).lm = x.lm := by
  rcases noteWrite_cases x s pa len m with h | ⟨va, -, h⟩ <;> rw [h]
@[simp] theorem noteWrite_gm (s : State) (pa len m : Nat) : (noteWrite s pa len m x).gm = x.gm := by
  rcases noteWrite_cases x s pa len m with h | ⟨va, -, h⟩ <;> rw [h]
@[simp] theorem noteWrite_ev (s : State) (pa len m : Nat) : (noteWrite s pa len m x).ev = x.ev := by
  rcases noteWrite_cases x s pa len m with h | ⟨va, -, h⟩ <;> rw [h]

/-- Everything `noteMove` can do: nothing, or the open pair of the PE becomes a moved one (R177). -/
theorem noteMove_cases (s : State) (maps : List Mapping) (m : Nat) :
    noteMove s maps m x = x ∨
      ∃ va, x.pair.address = some va ∧ noteMove s maps m x = { x with pair := .moved va } := by
  unfold noteMove
  split
  · exact .inl rfl
  · rename_i va hv
    split
    · exact .inl rfl
    · exact .inr ⟨va, hv, rfl⟩

theorem onlyCleared_noteMove (s : State) (maps : List Mapping) (m : Nat) : onlyCleared x (noteMove s maps m x) := by
  rcases noteMove_cases x s maps m with h | ⟨va, hv, h⟩ <;> rw [h]
  · exact onlyCleared_refl x
  · exact ⟨⟨rfl, hv.symm⟩, .inl rfl, .inl ⟨rfl, rfl⟩⟩

theorem onlyCleared_clearLocalIf : onlyCleared x (clearLocalIf b x) := by
  cases b
  · exact onlyCleared_refl x
  · exact onlyCleared_clearLocal x

theorem clearGlobalIf_eq : clearGlobalIf b x = if b then clearGlobal x else x := by
  unfold clearGlobalIf clearGlobal
  cases x.gm <;> simp

theorem onlyCleared_clearGlobalIf : onlyCleared x (clearGlobalIf b x) := by
  rw [clearGlobalIf_eq]
  cases b
  · exact onlyCleared_refl x
  · exact onlyCleared_clearGlobal x

@[simp] theorem clearLocal_lm : (clearLocal x).lm = .openAccess := rfl
@[simp] theorem clearLocal_gm : (clearLocal x).gm = x.gm := rfl
@[simp] theorem clearLocal_ev : (clearLocal x).ev = x.ev := rfl

@[simp] theorem clearGlobal_gm : (clearGlobal x).gm = .openAccess := by
  unfold clearGlobal; cases h : x.gm <;> simp [h]

@[simp] theorem clearGlobal_lm : (clearGlobal x).lm = x.lm := by
  unfold clearGlobal; cases x.gm <;> rfl

theorem clearGlobal_ev : (clearGlobal x).ev = (x.ev || x.gm.isSet) := by
  unfold clearGlobal; cases x.gm <;> simp [Monitor.isSet]

@[simp] theorem clearGlobalIf_lm : (clearGlobalIf b x).lm = x.lm := by cases b <;> simp [clearGlobalIf_eq]
@[simp] theorem clearLocalIf_gm : (clearLocalIf b x).gm = x.gm := by cases b <;> simp [clearLocalIf]
@[simp] theorem clearLocalIf_ev : (clearLocalIf b x).ev = x.ev := by cases b <;> simp [clearLocalIf]

theorem onlyMonitors_unknownLocal (n p : Nat) : onlyMonitors x (unknownLocal n p x) := ⟨rfl, rfl⟩
theorem onlyMonitors_unknownGlobal (n p : Nat) : onlyMonitors x (unknownGlobal n p x) := ⟨rfl, rfl⟩
theorem onlyMonitors_dataAbortMonitors (n p : Nat) : onlyMonitors x (dataAbortMonitors n p x) := ⟨rfl, rfl⟩

/-- After a Data Abort a global monitor that left Exclusive Access has left its event (R58, R195). -/
theorem dataAbortMonitors_event (n p : Nat) (h : x.gm.isSet) (h' : (dataAbortMonitors n p x).gm = .openAccess) :
    (dataAbortMonitors n p x).ev = true := by
  have h2 : freeMonitor n .gmUnknown p = .openAccess := h'
  cases hx : x.gm with
  | openAccess => simp [hx, Monitor.isSet] at h
  | exclusive g => simp [dataAbortMonitors, unknownGlobal, unknownLocal, hx, h2, Monitor.isSet]

theorem onlyCleared_observeOther (s : State) (call : Nat) (o : Observer) (pa len : Nat) (attr : MemAttr)
    (m : Nat) : onlyCleared x (observeOther s call o pa len attr m x) :=
  onlyCleared_trans (onlyCleared_trans (onlyCleared_clearGlobalIf ..) (onlyCleared_clearLocalIf ..))
    (onlyCleared_noteWrite ..)

theorem onlyCleared_observeOwn (s : State) (call pa len m : Nat) :
    onlyCleared x (observeOwn s call pa len m x) :=
  onlyCleared_trans (onlyCleared_trans (onlyCleared_clearLocalIf ..) (onlyCleared_clearGlobalIf ..))
    (onlyCleared_noteWrite ..)

/-- The guaranteed clear (R71): a write in the Shareability domain to the marked block. -/
theorem observeOther_clears (s : State) (call : Nat) (o : Observer) (pa len : Nat) (attr : MemAttr) (m g : Nat)
    (hg : x.gm = .exclusive g) (hb : inBlocks s.cfg pa len g)
    (hd : shareable attr && inDomain s.cfg o pa attr && !exempt s.cfg o pa attr) :
    (observeOther s call o pa len attr m x).gm = .openAccess ∧
      (observeOther s call o pa len attr m x).ev = true := by
  simp [observeOther, hg, hb, clearsOtherGlobal, hd, clearGlobalIf_eq, clearGlobal_ev, Monitor.isSet]

/-- A write outside the marked block leaves the global state machine alone (R71). -/
theorem observeOther_outside (s : State) (call : Nat) (o : Observer) (pa len : Nat) (attr : MemAttr) (m : Nat)
    (hb : ∀ g, x.gm = .exclusive g → inBlocks s.cfg pa len g = false) :
    (observeOther s call o pa len attr m x).gm = x.gm ∧
      (observeOther s call o pa len attr m x).ev = x.ev := by
  cases hg : x.gm with
  | openAccess => simp [observeOther, hg, clearGlobalIf]
  | exclusive g => simp [observeOther, hg, hb g hg, clearGlobalIf]

/-- A choice that is fixed has its constant, and only that one (R9, D9). -/
theorem choose_fixed {s : State} {id : ChoiceId} {b : Bool} (h : fixedChoice s.cfg id = some b) (call m : Nat) :
    choose s id call m = b := by
  unfold fixedChoice at h
  unfold choose
  cases hc : choiceSetting s.cfg id <;> simp_all

theorem onlyCleared_mayClear (n m : Nat) (l g : Bool) : onlyCleared x (mayClear n m l g x) :=
  onlyCleared_trans (onlyCleared_clearGlobalIf ..) (onlyCleared_clearLocalIf ..)

/-- What reporting a fault leaves alone (R192, R198). -/
theorem reportFault_frame (cfg : Config) (n : Nat) (c : EndCause) :
    let y := reportFault cfg n c x
    y.regs = x.regs ∧ y.pc = x.pc ∧ y.program = x.program ∧ y.cpsr = x.cpsr ∧ y.fpscr = x.fpscr ∧ y.lm = x.lm ∧
      y.gm = x.gm ∧ y.ev = x.ev ∧ y.lx = x.lx ∧ y.pair = x.pair ∧ y.ended = x.ended := by
  unfold reportFault
  split <;> try (split)
  all_goals simp

end PE

/-! ## Observing a write -/

theorem onlyCleared_observeWrite (s : State) (call : Nat) (o : Observer) (pa len : Nat) (k : WriteKind) (attr : MemAttr)
    (m : Nat) : onlyCleared (s.pe m) ((observeWrite s call o pa len k attr).pe m) := by
  by_cases h : m < s.npe
  · unfold observeWrite
    rw [pe_updateAll _ _ _ h]
    split
    · split
      · exact onlyCleared_refl _
      · exact onlyCleared_observeOwn ..
    · exact onlyCleared_observeOther ..
  · have h1 : s.pe m = PE.reset := by simp [State.pe, State.npe] at *; simp [h]
    have h2 : (observeWrite s call o pa len k attr).pe m = PE.reset := by
      have : ¬ m < (observeWrite s call o pa len k attr).npe := by simpa using h
      simp only [State.pe, State.npe] at *
      simp [List.getElem?_eq_none (by omega : (observeWrite s call o pa len k attr).pes.length ≤ m)]
    rw [h1, h2]
    exact onlyCleared_refl _

/-! ## The common step of the Load-Exclusives -/

section
variable (s : State) (p : Nat) (sh : Bool) (r : LoadRecord) (x : PE)

@[simp] theorem loadMarks_lm : (loadMarks s p sh r x).lm = .exclusive (block s.cfg r.pa) := by
  unfold loadMarks recordLoad; dsimp only; split <;> rfl

@[simp] theorem loadMarks_lx : (loadMarks s p sh r x).lx = some r := rfl

@[simp] theorem loadMarks_pair : (loadMarks s p sh r x).pair = .waiting r.va := rfl

theorem loadMarks_gm :
    (loadMarks s p sh r x).gm = if sh || choose s .id12 0 p then .exclusive (block s.cfg r.pa) else x.gm := by
  unfold loadMarks recordLoad; dsimp only; split <;> rfl

/-- The marks change the two monitors, the record and the status of the pair, and nothing else of the PE. -/
theorem loadMarks_frame :
    loadMarks s p sh r x =
      { x with
        lm := .exclusive (block s.cfg r.pa), gm := (loadMarks s p sh r x).gm, lx := some r, pair := .waiting r.va } := by
  unfold loadMarks recordLoad; dsimp only; split <;> rfl

end

/-- Everything `loadExcl` can do when it gives a value. -/
theorem loadExcl_value {s t : State} {p n pa : Nat} {va : Word} (h : loadExcl s p va n = .value t pa) :
    va.toNat % n = 0 ∧ ∃ attr, translate s p va .read = some (pa, attr) ∧ readAborts s pa n = false ∧
      ∃ f, t = s.updatePE p f ∧ ∀ x,
        f x = { x with
          lm := (f x).lm, gm := (f x).gm, lx := some { va := va, pa := pa, n := n, attr := attr }
          pair := .waiting va } := by
  unfold loadExcl at h
  split at h
  · cases h
  rename_i hal
  refine ⟨by omega, ?_⟩
  split at h
  · cases h
  rename_i pa' attr htr
  split at h
  · unfold noGlobalMonitorLoad at h
    split at h
    · cases h
    split at h
    · cases h
    split at h
    · cases h
    split at h
    · cases h
    split at h
    · split at h
      · cases h
      rename_i hab
      cases h
      refine ⟨attr, htr, by simpa using hab, _, rfl, fun x => ?_⟩
      unfold loadMarks recordLoad unknownLocal
      dsimp only
      split <;> rfl
    · cases h
  · split at h
    · cases h
    rename_i hab
    cases h
    exact ⟨attr, htr, by simpa using hab, _, rfl, fun x => by rw [loadMarks_frame]⟩

/-- `loadExcl` where a global monitor is not needed or implemented and nothing aborts (R120). -/
theorem loadExcl_plain {s : State} {p n pa : Nat} {va : Word} {attr : MemAttr} (hal : va.toNat % n = 0)
    (htr : translate s p va .read = some (pa, attr)) (hg : shareable attr = true → gMon s.cfg pa attr = true)
    (hab : readAborts s pa n = false) :
    loadExcl s p va n =
      .value (s.updatePE p (loadMarks s p (shareable attr) { va := va, pa := pa, n := n, attr := attr })) pa := by
  have hg' : (shareable attr && !gMon s.cfg pa attr) = false := by
    cases h : shareable attr
    · rfl
    · simp [hg h]
  simp [loadExcl, hal, htr, hg', hab]

/-! ## The common step of the Store-Exclusives -/

/-- A store that passed leaves the PE itself as `own` leaves it (R140 step 6). -/
theorem pe_storePasses_self {s : State} {p pa : Nat} {attr : MemAttr} {bs : List Byte} {own : PE → PE}
    (h : p < s.npe) : (storePasses s p pa attr bs own).pe p = own (s.pe p) := by
  rw [storePasses, pe_observeWrite_storeExcl _ _ _ _ _ _ (by simpa using h), pe_updatePE_self _ _ _ (by simpa using h)]
  simp

theorem pe_storePasses_ne {s : State} {p m pa : Nat} {attr : MemAttr} {bs : List Byte} {own : PE → PE}
    (h : m < s.npe) (hm : m ≠ p) :
    (storePasses s p pa attr bs own).pe m =
      observeOther ((s.writeBytes pa bs).updatePE p own) 0 (.pe p) pa bs.length attr m (s.pe m) := by
  rw [storePasses, pe_observeWrite_other _ _ _ _ _ _ _ _ (by simpa using h) (by simpa using hm.symm)]
  simp [hm]

@[simp] theorem storePasses_mem (s : State) (p pa : Nat) (attr : MemAttr) (bs : List Byte) (own : PE → PE) :
    (storePasses s p pa attr bs own).mem = memWriteBytes s.mem pa bs := rfl
@[simp] theorem storePasses_cfg (s : State) (p pa : Nat) (attr : MemAttr) (bs : List Byte) (own : PE → PE) :
    (storePasses s p pa attr bs own).cfg = s.cfg := rfl
@[simp] theorem storePasses_npe (s : State) (p pa : Nat) (attr : MemAttr) (bs : List Byte) (own : PE → PE) :
    (storePasses s p pa attr bs own).npe = s.npe := by simp [storePasses]

/-- No pair mismatch: there is no record, or it agrees in all three points (R141). -/
theorem pairMismatch_none {lx : Option LoadRecord} {va : Word} {n : Nat} {attr : MemAttr} :
    pairMismatch lx va n attr = none ↔ ∀ r, lx = some r → r.va = va ∧ r.n = n ∧ r.attr = attr := by
  cases lx with
  | none => simp [pairMismatch]
  | some r =>
    simp only [pairMismatch, Option.some.injEq, forall_eq']
    by_cases h1 : va = r.va <;> by_cases h2 : n = r.n <;> by_cases h3 : attr = r.attr <;> simp_all [eq_comm]

/-- `storeExcl` for an aligned, translated and well-paired store is steps 4 to 6 of R140. -/
theorem storeExcl_paired {s : State} {p pa : Nat} {va : Word} {attr : MemAttr} {bs : List Byte}
    (hal : va.toNat % bs.length = 0) (htr : translate s p va .write = some (pa, attr))
    (hp : pairMismatch (s.pe p).lx va bs.length attr = none) :
    storeExcl s p va bs = storeChecked s p va pa attr bs := by
  simp [storeExcl, hal, htr, hp]

/-- Everything steps 5 and 6 of R140 can do where nothing aborts and the global monitor is not absent: the store fails
with status 1 and touches only the PE's own monitors, or it passes with status 0. -/
theorem storeChecked_cases {s : State} {p pa : Nat} {va : Word} {attr : MemAttr} {bs : List Byte}
    (hg : shareable attr = true → gMon s.cfg pa attr = true) (hab : writeAborts s pa bs.length = false) :
    ∃ b : Bool,
      storeChecked s p va pa attr bs = .status (s.updatePE p fun x => clearGlobalIf b (clearLocal x)) 1 [] ∨
        storeChecked s p va pa attr bs =
          .status (storePasses s p pa attr bs fun x => clearGlobalIf b (clearLocal x)) 0 [(pa, bs.length)] := by
  unfold storeChecked
  split
  · rename_i hs
    rw [if_pos (hg hs)]
    unfold storeShareable
    split
    · dsimp only
      split
      · exact ⟨_, .inr (by rw [hab]; rfl)⟩
      · exact ⟨_, .inl rfl⟩
    · exact ⟨false, .inl (by simp only [clearGlobalIf_eq, Bool.false_eq_true, if_false])⟩
  · unfold storeNonShareable
    split
    · exact ⟨_, .inr (by rw [hab]; rfl)⟩
    · exact ⟨false, .inl (by simp only [clearGlobalIf_eq, Bool.false_eq_true, if_false])⟩

/-- A store that the monitors decide, to a Non-shareable location, changes memory only in the ranges it says. -/
theorem storeNonShareable_written {s t : State} {p pa a : Nat} {va : Word} {attr : MemAttr} {bs : List Byte} {v : Word}
    {ws : List (Nat × Nat)} (hwf : memWf s.mem = true) (h : storeNonShareable s p va pa attr bs = .status t v ws)
    (ha : ∀ w ∈ ws, a < w.1 ∨ w.1 + w.2 ≤ a) : memRead t.mem a = memRead s.mem a := by
  unfold storeNonShareable at h
  split at h
  · split at h <;> cases h
    exact memRead_memWriteBytes_out hwf (ha (pa, bs.length) (.head _))
  · cases h; rfl

/-- Steps 4 to 6 of R140 change memory only in the ranges they say. -/
theorem storeChecked_written {s t : State} {p pa a : Nat} {va : Word} {attr : MemAttr} {bs : List Byte} {v : Word}
    {ws : List (Nat × Nat)} (hwf : memWf s.mem = true) (h : storeChecked s p va pa attr bs = .status t v ws)
    (ha : ∀ w ∈ ws, a < w.1 ∨ w.1 + w.2 ≤ a) : memRead t.mem a = memRead s.mem a := by
  unfold storeChecked at h
  split at h
  · split at h
    · unfold storeShareable at h
      split at h
      · dsimp only at h
        split at h
        · split at h <;> cases h
          exact memRead_memWriteBytes_out hwf (ha (pa, bs.length) (.head _))
        · cases h; rfl
      · cases h; rfl
    · unfold noGlobalMonitorStore at h
      split at h
      · cases h
      split at h
      · cases h
      split at h
      · cases h
      split at h
      · split at h <;> cases h
        rfl
      split at h
      · split at h
        · rename_i hn
          cases h
          exact (storeNonShareable_written hwf hn ha :)
        · exact storeNonShareable_written hwf h ha
      split at h
      · split at h
        · split at h <;> cases h
          exact memRead_memWriteBytes_out hwf (ha (pa, bs.length) (.head _))
        · cases h; rfl
      · cases h
  · exact storeNonShareable_written hwf h ha

/-- The common step of the Store-Exclusives changes memory only in the ranges it says it wrote (R140, R141, R191). -/
theorem storeExcl_written {s t : State} {p a : Nat} {va : Word} {bs : List Byte} {v : Word} {ws : List (Nat × Nat)}
    (hwf : memWf s.mem = true) (h : storeExcl s p va bs = .status t v ws)
    (ha : ∀ w ∈ ws, a < w.1 ∨ w.1 + w.2 ≤ a) : memRead t.mem a = memRead s.mem a := by
  have scr : ∀ (u : State) (g pa n : Nat) (attr : MemAttr), memWf u.mem = true → (a < pa ∨ pa + n ≤ a) →
      memRead (scramble u p g pa n attr).mem a = memRead u.mem a := fun u g pa n attr hu hx =>
    memRead_memWriteBytes_out (a := pa) (bs := freeBytes u.fresh g n) hu (by simpa using hx)
  unfold storeExcl at h
  split at h
  · cases h
  split at h
  · cases h
  split at h
  · exact storeChecked_written hwf h ha
  rename_i pa attr _ kind r _
  split at h
  · cases h
  split at h
  · exact storeChecked_written hwf h ha
  unfold pairEnvelope at h
  dsimp only at h
  split at h
  · cases h
  cases kind <;> cases h
  · rw [scr _ _ _ _ _ (memWf_memWriteBytes hwf _ _) (ha _ (.tail _ (.head _)))]
    exact scr _ _ _ _ _ hwf (ha _ (.head _))
  · exact scr _ _ _ _ _ hwf (ha _ (.head _))
  · exact scr _ _ _ _ _ hwf (ha _ (.head _))

/-! ## Gates -/

theorem gateA32_pos {c : Cond} {s body : State} (h : condHolds c (s.pe s.cur).cpsr = true) : gateA32 c s body = body := by
  simp [gateA32, h]

theorem gateA32_neg {c : Cond} {s body : State} (h : condHolds c (s.pe s.cur).cpsr = false) :
    gateA32 c s body = complete .a32 s s.cur := by
  simp [gateA32, h]

theorem gateT32_pos {s body : State} (h : itHolds (s.pe s.cur).cpsr = true) : gateT32 s body = body := by
  simp [gateT32, h]

theorem gateT32_neg {s body : State} (h : itHolds (s.pe s.cur).cpsr = false) :
    gateT32 s body = complete .t32 s s.cur := by
  simp [gateT32, h]

end Sys2Proof.Machine
end

