-- ==== Sys2Proof/Laws/Exec.lean ====
section
/-! SUPPORT. What `exec` answers, by the form of the instruction: one equation for the sixteen Load-Exclusives, one for
the sixteen Store-Exclusives, one for each event, one for a condition that fails; and what a step's turn is. -/

namespace Sys2Proof.Machine

/-- The registers of a Load-Exclusive, written in order. -/
def writeDests (t : State) (p pa : Nat) (ds : List LoadDest) : State :=
  ds.foldl (fun u d => u.setReg p d.reg (memNumber t (pa + d.offset) d.width)) t

/-- A Load-Exclusive that executes. -/
theorem exec_load {s : State} {i : Instr} {f : LoadForm} (h : loadForm s i = some f) (hx : executes s i = true) :
    exec i s = .next (match loadExcl s s.cur f.va f.n with
      | .value t pa => complete i.iset (writeDests t s.cur pa f.dests) s.cur
      | .noWriteback t => complete i.iset t s.cur
      | .ended t => t) := by
  cases i <;> simp only [loadForm, reduceCtorEq, Option.some.injEq] at h <;> subst h <;>
    simp only [exec, execLdrexbA, execLdaexbA, execLdrexhA, execLdaexhA, execLdrexA, execLdaexA, execLdrexdA, execLdaexdA,
      execLdrexbT, execLdaexbT, execLdrexhT, execLdaexhT, execLdrexT, execLdaexT, execLdrexdT, execLdaexdT,
      executes] at hx ⊢ <;>
    first
    | rw [gateA32_pos hx]; rfl
    | rw [gateT32_pos hx]; rfl

/-- A Store-Exclusive that executes. -/
theorem exec_store {s : State} {i : Instr} {f : StoreForm} (h : storeForm s i = some f) (hx : executes s i = true) :
    exec i s = .next (storeTo i.iset s f.rd f.va f.bytes) := by
  cases i <;> simp only [storeForm, reduceCtorEq, Option.some.injEq] at h <;> subst h <;>
    simp only [exec, execStrexbA, execStlexbA, execStrexhA, execStlexhA, execStrexA, execStlexA, execStrexdA, execStlexdA,
      execStrexbT, execStlexbT, execStrexhT, execStlexhT, execStrexT, execStlexT, execStrexdT, execStlexdT,
      executes] at hx ⊢ <;>
    first
    | rw [gateA32_pos hx]; rfl
    | rw [gateT32_pos hx]; rfl

/-- An instruction whose condition fails. -/
theorem exec_skip {s : State} {i : Instr} (hx : executes s i = false) : exec i s = .next (complete i.iset s s.cur) := by
  cases i <;> simp only [executes, Bool.true_eq_false] at hx <;>
    simp only [exec, execLdrexbA, execLdaexbA, execLdrexhA, execLdaexhA, execLdrexA, execLdaexA, execLdrexdA, execLdaexdA,
      execLdrexbT, execLdaexbT, execLdrexhT, execLdaexhT, execLdrexT, execLdaexT, execLdrexdT, execLdaexdT,
      execStrexbA, execStlexbA, execStrexhA, execStlexhA, execStrexA, execStlexA, execStrexdA, execStlexdA,
      execStrexbT, execStlexbT, execStrexhT, execStlexhT, execStrexT, execStlexT, execStrexdT, execStlexdT,
      execClrexT, execWfeA, execWfeT, execWfeW, execSevA, execSevT, execSevW, execSevlA, execSevlT, execSevlW] <;>
    first
    | rw [gateA32_neg hx]; rfl
    | rw [gateT32_neg hx]; rfl

/-- CLREX, when it executes. -/
theorem exec_clrex {s : State} {i : Instr} (h : i = .clrexA ∨ i = .clrexT) (hx : executes s i = true) :
    exec i s = .next (clrex i.iset s) := by
  rcases h with rfl | rfl
  · rfl
  · simp only [exec, execClrexT, executes] at hx ⊢; rw [gateT32_pos hx]; rfl

/-- WFE, when it executes. -/
theorem exec_wfe {s : State} {i : Instr} (h : i = .wfeT ∨ i = .wfeW ∨ ∃ c, i = .wfeA c) (hx : executes s i = true) :
    exec i s = .next (waitForEvent i.iset s) := by
  rcases h with rfl | rfl | ⟨c, rfl⟩ <;> simp only [exec, execWfeT, execWfeW, execWfeA, executes] at hx ⊢
  · rw [gateT32_pos hx]; rfl
  · rw [gateT32_pos hx]; rfl
  · rw [gateA32_pos hx]; rfl

/-- SEV, when it executes. -/
theorem exec_sev {s : State} {i : Instr} (h : i = .sevT ∨ i = .sevW ∨ ∃ c, i = .sevA c) (hx : executes s i = true) :
    exec i s = .next (sendEvent i.iset s) := by
  rcases h with rfl | rfl | ⟨c, rfl⟩ <;> simp only [exec, execSevT, execSevW, execSevA, executes] at hx ⊢
  · rw [gateT32_pos hx]; rfl
  · rw [gateT32_pos hx]; rfl
  · rw [gateA32_pos hx]; rfl

/-- SEVL, when it executes. -/
theorem exec_sevl {s : State} {i : Instr} (h : i = .sevlT ∨ i = .sevlW ∨ ∃ c, i = .sevlA c) (hx : executes s i = true) :
    exec i s = .next (sendEventLocal i.iset s) := by
  rcases h with rfl | rfl | ⟨c, rfl⟩ <;> simp only [exec, execSevlT, execSevlW, execSevlA, executes] at hx ⊢
  · rw [gateT32_pos hx]; rfl
  · rw [gateT32_pos hx]; rfl
  · rw [gateA32_pos hx]; rfl

/-- Every instruction is a Load-Exclusive, a Store-Exclusive, CLREX, WFE, SEV or SEVL. -/
theorem form_cases (s : State) (i : Instr) :
    (∃ f, loadForm s i = some f ∧ columnOf i = .loadExclusive) ∨
      (∃ f, storeForm s i = some f ∧ columnOf i = .storeExclusive) ∨ (i = .clrexA ∨ i = .clrexT) ∨
      (i = .wfeT ∨ i = .wfeW ∨ ∃ c, i = .wfeA c) ∨ (i = .sevT ∨ i = .sevW ∨ ∃ c, i = .sevA c) ∨
      (i = .sevlT ∨ i = .sevlW ∨ ∃ c, i = .sevlA c) := by
  cases i <;> simp [loadForm, storeForm, columnOf]

/-- The forms of a Load-Exclusive: one register from 1, 2 or 4 bytes, or two from 8. -/
theorem loadForm_shape {s : State} {i : Instr} {f : LoadForm} (h : loadForm s i = some f) :
    (∃ va rt, f = singleForm va 1 rt) ∨ (∃ va rt, f = singleForm va 2 rt) ∨ (∃ va rt, f = singleForm va 4 rt) ∨
      ∃ va rt rt2, f = doubleForm va rt rt2 := by
  cases i <;> simp only [loadForm, reduceCtorEq, Option.some.injEq] at h <;> subst h <;> simp [singleForm, doubleForm]

/-- The transaction sizes (R54). -/
theorem loadForm_size {s : State} {i : Instr} {f : LoadForm} (h : loadForm s i = some f) :
    f.n = 1 ∨ f.n = 2 ∨ f.n = 4 ∨ f.n = 8 := by
  rcases loadForm_shape h with ⟨va, rt, rfl⟩ | ⟨va, rt, rfl⟩ | ⟨va, rt, rfl⟩ | ⟨va, rt, rt2, rfl⟩ <;>
    simp [singleForm, doubleForm]

theorem storeForm_size {s : State} {i : Instr} {f : StoreForm} (h : storeForm s i = some f) :
    f.bytes.length = 1 ∨ f.bytes.length = 2 ∨ f.bytes.length = 4 ∨ f.bytes.length = 8 := by
  cases i <;> simp only [storeForm, reduceCtorEq, Option.some.injEq] at h <;> subst h <;> simp

/-! ## The Store-Exclusive of a step -/

/-- What a step that executes a Store-Exclusive gives (R140). -/
theorem storeResult_of {s : State} {p : Nat} {i : Instr} {f : StoreForm} (he : executed s = some (p, i))
    (hx : executes { s with cur := p } i = true) (hf : storeForm { s with cur := p } i = some f) :
    storeResult s = some (p, f, storeExcl { s with cur := p, agenda := s.agenda.tail } p f.va f.bytes) := by
  have h1 : executes { s with cur := p, agenda := s.agenda.tail } i = true := by rw [← hx]; cases i <;> rfl
  have h2 : storeForm { s with cur := p, agenda := s.agenda.tail } i = some f := by rw [← hf]; cases i <;> rfl
  simp [storeResult, he, h1, h2]

/-- A step gives a Store-Exclusive's result only where it executes one. -/
theorem storeResult_some {s : State} {p : Nat} {f : StoreForm} {x : StoreResult} (h : storeResult s = some (p, f, x)) :
    ∃ i, executed s = some (p, i) ∧ executes { s with cur := p } i = true ∧
      storeForm { s with cur := p } i = some f ∧
      x = storeExcl { s with cur := p, agenda := s.agenda.tail } p f.va f.bytes := by
  unfold storeResult at h
  split at h
  · cases h
  rename_i q i he
  dsimp only at h
  split at h
  · rename_i hx
    obtain ⟨g, hg, h⟩ := Option.map_eq_some_iff.mp h
    cases h
    exact ⟨i, he, by rw [← hx]; cases i <;> rfl, by rw [← hg]; cases i <;> rfl, rfl⟩
  · cases h

/-- The status a step returns is that of its Store-Exclusive. -/
theorem statusReturned_some {s : State} {p : Nat} {f : StoreForm} {v : Word} :
    statusReturned s = some (p, f, v) ↔ ∃ t written, storeResult s = some (p, f, .status t v written) := by
  unfold statusReturned
  constructor
  · intro h
    split at h <;> cases h
    exact ⟨_, _, by assumption⟩
  · rintro ⟨t, written, h⟩
    rw [h]

end Sys2Proof.Machine
end

