-- ==== Sys2Proof/Laws/PerInstr.lean ====
section
/-! SUPPORT. One family of facts per instruction: how many bytes an instruction's encoding has (R102). -/

namespace Sys2Proof.Laws.EncodedLength

/-- An A32 instruction and a two-halfword T32 instruction have four bytes, a one-halfword T32 instruction two. -/
def Statement (i : Instr) : Prop :=
  (encode i).length = if i = .wfeT ∨ i = .sevT ∨ i = .sevlT then 2 else 4

theorem ldrexbA (c : Cond) (rt rn : Reg) : Statement (.ldrexbA c rt rn) := rfl
theorem ldaexbA (c : Cond) (rt rn : Reg) : Statement (.ldaexbA c rt rn) := rfl
theorem ldrexhA (c : Cond) (rt rn : Reg) : Statement (.ldrexhA c rt rn) := rfl
theorem ldaexhA (c : Cond) (rt rn : Reg) : Statement (.ldaexhA c rt rn) := rfl
theorem ldrexA (c : Cond) (rt rn : Reg) : Statement (.ldrexA c rt rn) := rfl
theorem ldaexA (c : Cond) (rt rn : Reg) : Statement (.ldaexA c rt rn) := rfl
theorem ldrexdA (c : Cond) (rt rn : Reg) : Statement (.ldrexdA c rt rn) := rfl
theorem ldaexdA (c : Cond) (rt rn : Reg) : Statement (.ldaexdA c rt rn) := rfl
theorem strexbA (c : Cond) (rd rt rn : Reg) : Statement (.strexbA c rd rt rn) := rfl
theorem stlexbA (c : Cond) (rd rt rn : Reg) : Statement (.stlexbA c rd rt rn) := rfl
theorem strexhA (c : Cond) (rd rt rn : Reg) : Statement (.strexhA c rd rt rn) := rfl
theorem stlexhA (c : Cond) (rd rt rn : Reg) : Statement (.stlexhA c rd rt rn) := rfl
theorem strexA (c : Cond) (rd rt rn : Reg) : Statement (.strexA c rd rt rn) := rfl
theorem stlexA (c : Cond) (rd rt rn : Reg) : Statement (.stlexA c rd rt rn) := rfl
theorem strexdA (c : Cond) (rd rt rn : Reg) : Statement (.strexdA c rd rt rn) := rfl
theorem stlexdA (c : Cond) (rd rt rn : Reg) : Statement (.stlexdA c rd rt rn) := rfl
theorem clrexA : Statement (.clrexA) := rfl
theorem ldrexbT (rt rn : Reg) : Statement (.ldrexbT rt rn) := rfl
theorem ldaexbT (rt rn : Reg) : Statement (.ldaexbT rt rn) := rfl
theorem ldrexhT (rt rn : Reg) : Statement (.ldrexhT rt rn) := rfl
theorem ldaexhT (rt rn : Reg) : Statement (.ldaexhT rt rn) := rfl
theorem ldrexT (rt rn : Reg) (imm8 : BitVec 8) : Statement (.ldrexT rt rn imm8) := rfl
theorem ldaexT (rt rn : Reg) : Statement (.ldaexT rt rn) := rfl
theorem ldrexdT (rt rt2 rn : Reg) : Statement (.ldrexdT rt rt2 rn) := rfl
theorem ldaexdT (rt rt2 rn : Reg) : Statement (.ldaexdT rt rt2 rn) := rfl
theorem strexbT (rd rt rn : Reg) : Statement (.strexbT rd rt rn) := rfl
theorem stlexbT (rd rt rn : Reg) : Statement (.stlexbT rd rt rn) := rfl
theorem strexhT (rd rt rn : Reg) : Statement (.strexhT rd rt rn) := rfl
theorem stlexhT (rd rt rn : Reg) : Statement (.stlexhT rd rt rn) := rfl
theorem strexT (rd rt rn : Reg) (imm8 : BitVec 8) : Statement (.strexT rd rt rn imm8) := rfl
theorem stlexT (rd rt rn : Reg) : Statement (.stlexT rd rt rn) := rfl
theorem strexdT (rd rt rt2 rn : Reg) : Statement (.strexdT rd rt rt2 rn) := rfl
theorem stlexdT (rd rt rt2 rn : Reg) : Statement (.stlexdT rd rt rt2 rn) := rfl
theorem clrexT : Statement (.clrexT) := rfl
theorem wfeA (c : Cond) : Statement (.wfeA c) := rfl
theorem sevA (c : Cond) : Statement (.sevA c) := rfl
theorem sevlA (c : Cond) : Statement (.sevlA c) := rfl
theorem wfeT : Statement (.wfeT) := rfl
theorem sevT : Statement (.sevT) := rfl
theorem sevlT : Statement (.sevlT) := rfl
theorem wfeW : Statement (.wfeW) := rfl
theorem sevW : Statement (.sevW) := rfl
theorem sevlW : Statement (.sevlW) := rfl

end Sys2Proof.Laws.EncodedLength
end

