-- ==== Sys2Proof/Tests/Slice0.lean ====
section
/-! SUPPORT. Tests: the well-formedness smoke, a word of every row decoded, one vector for every instruction (the
expected results are those of spec/95_test_vectors.md or counted by hand from the rule named), and for every
obligation with hypotheses a concrete state that meets them. -/

namespace Sys2Proof.Tests

open Sys2Proof Sys2Proof.Machine

/-! ## Well-formedness refuses (R103, R107) -/

theorem test_a32_register_15 : Instr.wellFormed (.ldrexA .al 15 0) = false := by decide
theorem test_a32_base_15 : Instr.wellFormed (.strexA .al 2 1 15) = false := by decide
theorem test_t32_register_13 : Instr.wellFormed (.ldrexT 13 0 0) = false := by decide
theorem test_t32_register_15 : Instr.wellFormed (.strexbT 15 1 0) = false := by decide
theorem test_a32_pair_odd : Instr.wellFormed (.ldrexdA .al 3 0) = false := by decide
theorem test_a32_pair_14 : Instr.wellFormed (.strexdA .al 2 14 0) = false := by decide
theorem test_t32_pair_equal : Instr.wellFormed (.ldrexdT 2 2 0) = false := by decide
theorem test_status_is_base : Instr.wellFormed (.strexA .al 0 1 0) = false := by decide
theorem test_status_is_data : Instr.wellFormed (.strexhT 1 1 0) = false := by decide
theorem test_status_is_second_data : Instr.wellFormed (.strexdA .al 3 2 0) = false := by decide
theorem test_status_may_differ : Instr.wellFormed (.strexdT 4 2 2 0) = true := by decide

/-! ## A word of every row, written out from R103, R104 and R106. Rn = 3 = 0b0011, Rt = 1 (doubleword 4, 5), Rd = 2,
cond = 0b1110 -/

theorem test_words_a32_load :
    decodeA32Word 0xE1D31F9F#32 = .ok (.ldrexbA .al 1 3) ∧ decodeA32Word 0xE1D31E9F#32 = .ok (.ldaexbA .al 1 3) ∧
    decodeA32Word 0xE1F31F9F#32 = .ok (.ldrexhA .al 1 3) ∧ decodeA32Word 0xE1F31E9F#32 = .ok (.ldaexhA .al 1 3) ∧
    decodeA32Word 0xE1931F9F#32 = .ok (.ldrexA .al 1 3) ∧ decodeA32Word 0xE1931E9F#32 = .ok (.ldaexA .al 1 3) ∧
    decodeA32Word 0xE1B34F9F#32 = .ok (.ldrexdA .al 4 3) ∧ decodeA32Word 0xE1B34E9F#32 = .ok (.ldaexdA .al 4 3) := by
  decide

theorem test_words_a32_store :
    decodeA32Word 0xE1C32F91#32 = .ok (.strexbA .al 2 1 3) ∧ decodeA32Word 0xE1C32E91#32 = .ok (.stlexbA .al 2 1 3) ∧
    decodeA32Word 0xE1E32F91#32 = .ok (.strexhA .al 2 1 3) ∧ decodeA32Word 0xE1E32E91#32 = .ok (.stlexhA .al 2 1 3) ∧
    decodeA32Word 0xE1832F91#32 = .ok (.strexA .al 2 1 3) ∧ decodeA32Word 0xE1832E91#32 = .ok (.stlexA .al 2 1 3) ∧
    decodeA32Word 0xE1A32F94#32 = .ok (.strexdA .al 2 4 3) ∧ decodeA32Word 0xE1A32E94#32 = .ok (.stlexdA .al 2 4 3) := by
  decide

theorem test_words_t32_load :
    decodeT32Word 0xE8D31F4F#32 = .ok (.ldrexbT 1 3) ∧ decodeT32Word 0xE8D31FCF#32 = .ok (.ldaexbT 1 3) ∧
    decodeT32Word 0xE8D31F5F#32 = .ok (.ldrexhT 1 3) ∧ decodeT32Word 0xE8D31FDF#32 = .ok (.ldaexhT 1 3) ∧
    decodeT32Word 0xE8531F81#32 = .ok (.ldrexT 1 3 0x81) ∧ decodeT32Word 0xE8D31FEF#32 = .ok (.ldaexT 1 3) ∧
    decodeT32Word 0xE8D3457F#32 = .ok (.ldrexdT 4 5 3) ∧ decodeT32Word 0xE8D345FF#32 = .ok (.ldaexdT 4 5 3) := by
  decide

theorem test_words_t32_store :
    decodeT32Word 0xE8C31F42#32 = .ok (.strexbT 2 1 3) ∧ decodeT32Word 0xE8C31FC2#32 = .ok (.stlexbT 2 1 3) ∧
    decodeT32Word 0xE8C31F52#32 = .ok (.strexhT 2 1 3) ∧ decodeT32Word 0xE8C31FD2#32 = .ok (.stlexhT 2 1 3) ∧
    decodeT32Word 0xE8431281#32 = .ok (.strexT 2 1 3 0x81) ∧ decodeT32Word 0xE8C31FE2#32 = .ok (.stlexT 2 1 3) ∧
    decodeT32Word 0xE8C34572#32 = .ok (.strexdT 2 4 5 3) ∧ decodeT32Word 0xE8C345F2#32 = .ok (.stlexdT 2 4 5 3) := by
  decide

/-- The event instructions and CLREX; the A32 hints under NE (0b0001). -/
theorem test_words_others :
    decodeA32Word 0xF57FF01F#32 = .ok .clrexA ∧ decodeT32Word 0xF3BF8F2F#32 = .ok .clrexT ∧
    decodeA32Word 0x1320F002#32 = .ok (.wfeA .ne) ∧ decodeA32Word 0x1320F004#32 = .ok (.sevA .ne) ∧
    decodeA32Word 0x1320F005#32 = .ok (.sevlA .ne) ∧ decodeT32Half 0xBF20#16 = .ok .wfeT ∧
    decodeT32Half 0xBF40#16 = .ok .sevT ∧ decodeT32Half 0xBF50#16 = .ok .sevlT ∧
    decodeT32Word 0xF3AF8002#32 = .ok .wfeW ∧ decodeT32Word 0xF3AF8004#32 = .ok .sevW ∧
    decodeT32Word 0xF3AF8005#32 = .ok .sevlW := by
  decide

/-- A should-be-one bit at 0, the unconditional space, an unallocated hint: no row. Rd = Rn: restricted (R107). -/
theorem test_words_refused :
    decodeA32Word 0xE1931F9E#32 = .error .noRow ∧ decodeA32Word 0xF1931F9F#32 = .error .noRow ∧
    decodeA32Word 0xE320F003#32 = .error .noRow ∧ decodeT32Half 0xBF60#16 = .error .noRow ∧
    decodeA32Word 0xE1833F91#32 = .error .restricted := by
  decide

/-- The bytes of `LDREX r1, [r0]` of R111 in memory order: the A32 word little-endian, the T32 halfwords `hw1` first. -/
theorem test_bytes_in_order :
    decode .a32 [0x9F, 0x1F, 0x90, 0xE1, 0x55] = .ok (.ldrexA .al 1 0, [0x55]) ∧
    decode .t32 [0x50, 0xE8, 0x00, 0x1F] = .ok (.ldrexT 1 0 0, []) ∧
    decode .t32 [0x20, 0xBF, 0x00] = .ok (.wfeT, [0x00]) ∧ decode .t32 [0x50, 0xE8] = .error .truncated := by
  decide

theorem test_table_words :
    decodeTableWord 32 0xE1901F9F = some (.ldrexA .al 1 0) ∧ decodeTableWord 32 0xE8501F00 = some (.ldrexT 1 0 0) ∧
    decodeTableWord 16 0xBF20 = some .wfeT := by
  decide

/-! ## The configuration and memory of 95_test_vectors.md (CFG0, section 2.2), every choice fixed to false -/

def neverChoices : Choices where
  id2 := .fixed false
  id3 := .fixed false
  id4 := .fixed false
  id5 := .fixed false
  id6 := .fixed false
  id7 := .fixed false
  id8 := .fixed false
  id9 := .fixed false
  id10 := .fixed false
  id11 := .fixed false
  id12 := .fixed false
  id16 := .fixed false
  id19 := .fixed false

def cfg0 : Config := { initialConfig with choices := neverChoices }

def nonShared : MemAttr := { sharedWriteBack with share := .nonShareable }

def nonCached : MemAttr := { sharedWriteBack with inner := .nonCacheable, outer := .nonCacheable }

def regions : List AttrRegion :=
  [{ base := 0xF000, len := 0x1000, attr := nonShared, abortsRead := false, abortsWrite := false },
    { base := 0x20000, len := 0x1000, attr := nonCached, abortsRead := false, abortsWrite := false },
    { base := 0x30000, len := 0x1000, attr := sharedWriteBack, abortsRead := true, abortsWrite := true }]

def bytes0 : Memory :=
  [(0x1000, 0x11), (0x1001, 0x22), (0x1002, 0x33), (0x1003, 0x44), (0x1004, 0x55), (0x1005, 0x66), (0x1006, 0x77),
    (0x1007, 0x88), (0xF000, 0xAA)]

/-- A PE in instruction set `set`: `r0` the address, `r5`, `r6`, `r7` data, `r2` not 0 or 1. -/
def thread (set : ISet) (va : Word) : PE :=
  { PE.reset with
    cpsr := withISet set PE.reset.cpsr
    regs := ((((PE.reset.regs.set 0 va).set 2 0x99).set 5 0xCAFEBEAB).set 6 0x04030201).set 7 0x08070605 }

/-- The launch state: PE 0 as said, PE 1 in A32 at the same address. -/
def start (set : ISet) (va : Word) : State :=
  { State.reset with cfg := cfg0, mem := bytes0, attrs := regions, pes := [thread set va, thread .a32 va] }

/-- A PE after a Load-Exclusive of `n` bytes at its address. -/
def marked (x : PE) (pa n : Nat) (attr : MemAttr) : PE :=
  { x with
    lm := .exclusive (pa / 16), gm := .exclusive (pa / 16)
    lx := some { va := BitVec.ofNat 32 pa, pa := pa, n := n, attr := attr }
    pair := .waiting (BitVec.ofNat 32 pa) }

/-- Both PEs have executed a Load-Exclusive of `n` bytes at `pa` (L18, X23). -/
def loaded (set : ISet) (pa n : Nat) (attr : MemAttr) : State :=
  let s := start set (BitVec.ofNat 32 pa)
  { s with pes := s.pes.map fun x => marked x pa n attr }

def runs (o : StepOutcome) (p : State → Bool) : Bool :=
  match o with
  | .next t => p t
  | _ => false

/-- `r1` of PE 0 and both marks. -/
def got (v : Word) (b : Nat) (t : State) : Bool :=
  t.reg 0 1 == v && (t.pe 0).lm == .exclusive b && (t.pe 0).gm == .exclusive b && (t.pe 0).pc == 1

/-- `r2` and `r3` of PE 0. -/
def gotPair (v w : Word) (t : State) : Bool := t.reg 0 2 == v && t.reg 0 3 == w && (t.pe 0).lm == .exclusive 0x100

/-- The status of PE 0 in `r2`, memory from 0x1000, its local monitor and PE 1's global one. -/
def stored (v : Word) (bs : List Byte) (t : State) : Bool :=
  t.reg 0 2 == v && memReadBytes t.mem 0x1000 8 == bs && (t.pe 0).lm == .openAccess && (t.pe 1).gm == .openAccess &&
    (t.pe 1).ev

/-! ## Load-Exclusive: L1 to L8 -/

theorem test_ldrexbA : runs (exec (.ldrexbA .al 1 0) (start .a32 0x1000)) (got 0x11 0x100) := by decide
theorem test_ldaexbA : runs (exec (.ldaexbA .al 1 0) (start .a32 0x1003)) (got 0x44 0x100) := by decide
theorem test_ldrexhA : runs (exec (.ldrexhA .al 1 0) (start .a32 0x1002)) (got 0x4433 0x100) := by decide
theorem test_ldaexhA : runs (exec (.ldaexhA .al 1 0) (start .a32 0x1006)) (got 0x8877 0x100) := by decide
theorem test_ldrexA : runs (exec (.ldrexA .al 1 0) (start .a32 0x1000)) (got 0x44332211 0x100) := by decide
theorem test_ldaexA : runs (exec (.ldaexA .al 1 0) (start .a32 0x1004)) (got 0x88776655 0x100) := by decide
theorem test_ldrexdA : runs (exec (.ldrexdA .al 2 0) (start .a32 0x1000)) (gotPair 0x44332211 0x88776655) := by decide
theorem test_ldaexdA : runs (exec (.ldaexdA .al 2 0) (start .a32 0x1000)) (gotPair 0x44332211 0x88776655) := by decide
theorem test_ldrexbT : runs (exec (.ldrexbT 1 0) (start .t32 0x1000)) (got 0x11 0x100) := by decide
theorem test_ldaexbT : runs (exec (.ldaexbT 1 0) (start .t32 0x1003)) (got 0x44 0x100) := by decide
theorem test_ldrexhT : runs (exec (.ldrexhT 1 0) (start .t32 0x1002)) (got 0x4433 0x100) := by decide
theorem test_ldaexhT : runs (exec (.ldaexhT 1 0) (start .t32 0x1006)) (got 0x8877 0x100) := by decide
/-- The offset of R105: 0xF0C + 4 * 0x3D = 0x1000. -/
theorem test_ldrexT : runs (exec (.ldrexT 1 0 0x3D) (start .t32 0xF0C)) (got 0x44332211 0x100) := by decide
theorem test_ldaexT : runs (exec (.ldaexT 1 0) (start .t32 0x1004)) (got 0x88776655 0x100) := by decide
theorem test_ldrexdT : runs (exec (.ldrexdT 2 3 0) (start .t32 0x1000)) (gotPair 0x44332211 0x88776655) := by decide
theorem test_ldaexdT : runs (exec (.ldaexdT 3 2 0) (start .t32 0x1000)) (gotPair 0x88776655 0x44332211) := by decide

/-- The big-endian variant of L3. -/
theorem test_ldrexhA_big :
    runs (exec (.ldrexhA .al 1 0) { start .a32 0x1002 with cfg := { cfg0 with bigEndian := true } })
      (got 0x3344 0x100) := by decide

/-- The destination is the base (R129). -/
theorem test_ldrexA_base : runs (exec (.ldrexA .al 0 0) (start .a32 0x1000)) (fun t => t.reg 0 0 == 0x44332211) := by
  decide

/-! ## Store-Exclusive: X1 to X8, the other PE's mark as in X23 -/

theorem test_strexbA :
    runs (exec (.strexbA .al 2 5 0) (loaded .a32 0x1000 1 sharedWriteBack))
      (stored 0 [0xAB, 0x22, 0x33, 0x44, 0x55, 0x66, 0x77, 0x88]) := by decide
theorem test_stlexbA :
    runs (exec (.stlexbA .al 2 5 0) (loaded .a32 0x1000 1 sharedWriteBack))
      (stored 0 [0xAB, 0x22, 0x33, 0x44, 0x55, 0x66, 0x77, 0x88]) := by decide
theorem test_strexhA :
    runs (exec (.strexhA .al 2 5 0) (loaded .a32 0x1002 2 sharedWriteBack))
      (stored 0 [0x11, 0x22, 0xAB, 0xBE, 0x55, 0x66, 0x77, 0x88]) := by decide
theorem test_stlexhA :
    runs (exec (.stlexhA .al 2 5 0) (loaded .a32 0x1002 2 sharedWriteBack))
      (stored 0 [0x11, 0x22, 0xAB, 0xBE, 0x55, 0x66, 0x77, 0x88]) := by decide
theorem test_strexA :
    runs (exec (.strexA .al 2 5 0) (loaded .a32 0x1000 4 sharedWriteBack))
      (stored 0 [0xAB, 0xBE, 0xFE, 0xCA, 0x55, 0x66, 0x77, 0x88]) := by decide
theorem test_stlexA :
    runs (exec (.stlexA .al 2 5 0) (loaded .a32 0x1000 4 sharedWriteBack))
      (stored 0 [0xAB, 0xBE, 0xFE, 0xCA, 0x55, 0x66, 0x77, 0x88]) := by decide
theorem test_strexdA :
    runs (exec (.strexdA .al 2 6 0) (loaded .a32 0x1000 8 sharedWriteBack))
      (stored 0 [0x01, 0x02, 0x03, 0x04, 0x05, 0x06, 0x07, 0x08]) := by decide
theorem test_stlexdA :
    runs (exec (.stlexdA .al 2 6 0) (loaded .a32 0x1000 8 sharedWriteBack))
      (stored 0 [0x01, 0x02, 0x03, 0x04, 0x05, 0x06, 0x07, 0x08]) := by decide
theorem test_strexbT :
    runs (exec (.strexbT 2 5 0) (loaded .t32 0x1000 1 sharedWriteBack))
      (stored 0 [0xAB, 0x22, 0x33, 0x44, 0x55, 0x66, 0x77, 0x88]) := by decide
theorem test_stlexbT :
    runs (exec (.stlexbT 2 5 0) (loaded .t32 0x1000 1 sharedWriteBack))
      (stored 0 [0xAB, 0x22, 0x33, 0x44, 0x55, 0x66, 0x77, 0x88]) := by decide
theorem test_strexhT :
    runs (exec (.strexhT 2 5 0) (loaded .t32 0x1002 2 sharedWriteBack))
      (stored 0 [0x11, 0x22, 0xAB, 0xBE, 0x55, 0x66, 0x77, 0x88]) := by decide
theorem test_stlexhT :
    runs (exec (.stlexhT 2 5 0) (loaded .t32 0x1002 2 sharedWriteBack))
      (stored 0 [0x11, 0x22, 0xAB, 0xBE, 0x55, 0x66, 0x77, 0x88]) := by decide
theorem test_strexT :
    runs (exec (.strexT 2 5 0 0) (loaded .t32 0x1000 4 sharedWriteBack))
      (stored 0 [0xAB, 0xBE, 0xFE, 0xCA, 0x55, 0x66, 0x77, 0x88]) := by decide
theorem test_stlexT :
    runs (exec (.stlexT 2 5 0) (loaded .t32 0x1000 4 sharedWriteBack))
      (stored 0 [0xAB, 0xBE, 0xFE, 0xCA, 0x55, 0x66, 0x77, 0x88]) := by decide
theorem test_strexdT :
    runs (exec (.strexdT 2 7 6 0) (loaded .t32 0x1000 8 sharedWriteBack))
      (stored 0 [0x05, 0x06, 0x07, 0x08, 0x01, 0x02, 0x03, 0x04]) := by decide
theorem test_stlexdT :
    runs (exec (.stlexdT 2 7 6 0) (loaded .t32 0x1000 8 sharedWriteBack))
      (stored 0 [0x05, 0x06, 0x07, 0x08, 0x01, 0x02, 0x03, 0x04]) := by decide

/-- X9: with open monitors nothing is written and the status is 1. -/
theorem test_strexA_open :
    runs (exec (.strexA .al 2 5 0) (start .a32 0x1000)) (fun t => t.reg 0 2 == 1 && t.mem == bytes0) := by decide

/-- X18: alignment comes before pairing; the run ends and nothing else changes. -/
theorem test_strexhA_misaligned :
    runs (exec (.strexhA .al 2 5 0) (start .a32 0x1001))
      (fun t => (t.pe 0).ended == some (.unalignedExclusive 0x1001) && t.reg 0 2 == 0x99) := by decide

/-! ## CLREX and the events: E1, E4, E5, E7 -/

theorem test_clrexA :
    runs (exec .clrexA (loaded .a32 0x1000 4 sharedWriteBack))
      (fun t => (t.pe 0).lm == .openAccess && (t.pe 0).gm == .exclusive 0x100 && !(t.pe 0).ev) := by decide
/-- E1 with ID10 true. -/
theorem test_clrexT :
    runs (exec .clrexT
        { loaded .t32 0x1000 4 sharedWriteBack with cfg := { cfg0 with choices := { neverChoices with id10 := .fixed true } } })
      (fun t => (t.pe 0).lm == .openAccess && (t.pe 0).gm == .openAccess && (t.pe 0).ev &&
        (t.pe 1).gm == .exclusive 0x100) := by decide

def heldEvent (set : ISet) : State :=
  let s := start set 0
  { s with pes := s.pes.map fun x => { x with ev := true } }

theorem test_wfeA : runs (exec (.wfeA .al) (heldEvent .a32)) (fun t => !(t.pe 0).ev && (t.pe 1).ev && (t.pe 0).pc == 1) := by
  decide
theorem test_wfeT : runs (exec .wfeT (heldEvent .t32)) (fun t => !(t.pe 0).ev && (t.pe 1).ev && (t.pe 0).pc == 1) := by decide
theorem test_wfeW : runs (exec .wfeW (heldEvent .t32)) (fun t => !(t.pe 0).ev && (t.pe 1).ev && (t.pe 0).pc == 1) := by decide
theorem test_sevA : runs (exec (.sevA .al) (start .a32 0)) (fun t => (t.pe 0).ev && (t.pe 1).ev && (t.pe 0).pc == 1) := by decide
theorem test_sevT : runs (exec .sevT (start .t32 0)) (fun t => (t.pe 0).ev && (t.pe 1).ev && (t.pe 0).pc == 1) := by decide
theorem test_sevW : runs (exec .sevW (start .t32 0)) (fun t => (t.pe 0).ev && (t.pe 1).ev && (t.pe 0).pc == 1) := by decide
theorem test_sevlA : runs (exec (.sevlA .al) (start .a32 0)) (fun t => (t.pe 0).ev && !(t.pe 1).ev && (t.pe 0).pc == 1) := by
  decide
theorem test_sevlT : runs (exec .sevlT (start .t32 0)) (fun t => (t.pe 0).ev && !(t.pe 1).ev && (t.pe 0).pc == 1) := by decide
theorem test_sevlW : runs (exec .sevlW (start .t32 0)) (fun t => (t.pe 0).ev && !(t.pe 1).ev && (t.pe 0).pc == 1) := by decide

/-- The condition EQ fails with Z clear (R103). -/
theorem test_sevA_skipped : runs (exec (.sevA .eq) (start .a32 0)) (fun t => !(t.pe 0).ev && (t.pe 0).pc == 1) := by decide

/-! ## Other agents: E8, X28, O2, O4, S6 -/

/-- E8: a plain store to the last byte of the block clears the other PE's global mark, with the event. -/
theorem test_store_clears :
    runs (perform (loaded .a32 0x1000 4 sharedWriteBack) (.store 1 0x100F 1 0x77))
      (fun t => (t.pe 0).gm == .openAccess && (t.pe 0).ev && (t.pe 0).lm == .exclusive 0x100 &&
        memRead t.mem 0x100F == 0x77) := by decide

/-- X25: a store to the next block clears nothing. -/
theorem test_store_next_block :
    runs (perform (loaded .a32 0x1000 4 sharedWriteBack) (.store 1 0x1010 4 0))
      (fun t => (t.pe 0).gm == .exclusive 0x100 && !(t.pe 0).ev) := by decide

/-- X28, its second variant: an exempt observer with ID16 false. -/
theorem test_observer_exempt :
    runs (perform
        { loaded .a32 0x1000 4 sharedWriteBack with
          cfg := { cfg0 with exemptNonPE := [{ who := .device 0, range := { base := 0x1000, len := 16, attr := none } }] } }
        (.observerWrite 0 0x1000 4 0xDEADBEEF))
      (fun t => (t.pe 0).gm == .exclusive 0x100 && memRead t.mem 0x1003 == 0xDE) := by decide

/-- R172: one write of 24 bytes by a non-PE observer, from the block before the mark to its last byte. The local mark
draws ID5, not ID6 (R72), the global one is cleared with the event (R71), and the byte at the end is written. -/
theorem test_observer_wide :
    runs (perform
        { loaded .a32 0x1000 4 sharedWriteBack with
          cfg := { cfg0 with choices := { neverChoices with id5 := .fixed true } } }
        (.observerWrite 0 0xFF8 24 (0xA5 <<< 184)))
      (fun t => (t.pe 0).lm == .openAccess && (t.pe 0).gm == .openAccess && (t.pe 0).ev &&
        memRead t.mem 0x100F == 0xA5 && memRead t.mem 0x1000 == 0) := by decide

/-- O4. -/
theorem test_exception_return :
    runs (perform (loaded .a32 0x1000 4 sharedWriteBack) (.exceptionReturn 0))
      (fun t => (t.pe 0).lm == .openAccess && (t.pe 0).gm == .exclusive 0x100 && !(t.pe 0).ev) := by decide

/-- R177, R235: a pair whose address was moved, and whose new address was written, fails although both monitors mark. -/
theorem test_moved_and_written :
    runs (exec (.strexA .al 2 5 0)
        ((loaded .a32 0x1000 4 sharedWriteBack).updatePE 0 fun x => { x with pair := .written 0x1000 }))
      (fun t => t.reg 0 2 == 1 && t.mem == bytes0 && (t.pe 0).pair == .closed) := by decide

/-- R141 CU2: of eight UNKNOWN bytes the four that the space holds. -/
theorem test_size_in_space :
    sizeInSpace { cfg0 with paBits := 13 } 0x1FFC 8 = 4 ∧ sizeInSpace cfg0 0x1FFC 8 = 8 := by decide

/-- The registers a foreign instruction leaves: the PC moved, the flag Z set. -/
def file : RegisterFile := { regs := Vector.replicate 16 7, pc := 3, cpsr := 0x400001D3, fpscr := 0 }

/-- R180: a comparison changes the flags and no monitor. -/
theorem test_foreign :
    runs (perform (loaded .a32 0x1000 4 sharedWriteBack) (.foreign 0 .registerOnly file))
      (fun t => flagZ (t.pe 0).cpsr && (t.pe 0).pc == 3 && (t.pe 0).lm == .exclusive 0x100 &&
        (t.pe 0).gm == .exclusive 0x100) := by decide

/-- R77: a barrier changes no general register and no flag, and moves on. -/
theorem test_barrier :
    runs (perform (loaded .a32 0x1000 4 sharedWriteBack) (.foreign 0 .isb file))
      (fun t => t.pe 0 == { (loaded .a32 0x1000 4 sharedWriteBack).pe 0 with pc := 1 }) := by decide

/-- S2: the block of 0x341B4 for a = 4. -/
theorem test_block : block cfg0 0x341B4 = 0x341B ∧ block { cfg0 with ergLog2 := 11 } 0x341B4 = 0x68 := by decide

/-- A configuration with a = 3 or a = 12 is refused (ID1). -/
theorem test_granule_range :
    configOk { cfg0 with ergLog2 := 3 } = false ∧ configOk { cfg0 with ergLog2 := 12 } = false ∧ configOk cfg0 = true := by
  decide

/-! ## Witnesses: for every obligation with hypotheses, what meets all of them together -/

theorem runs_next {o : StepOutcome} {p : State → Bool} (h : runs o p = true) : ∃ t, o = .next t ∧ p t = true := by
  cases o with
  | next t => exact ⟨t, rfl, h⟩
  | fault => cases h
  | refused => cases h

/-- The hypotheses on a Load-Exclusive, as one test. -/
def loadReady (i : Instr) (f : LoadForm) (pa : Nat) (attr : MemAttr) (s : State) : Bool :=
  loadForm s i == some f && executes s i && s.cur < s.npe && f.va.toNat % f.n == 0 &&
    translate s s.cur f.va .read == some (pa, attr)

theorem loadReady_spec {i : Instr} {f : LoadForm} {pa : Nat} {attr : MemAttr} {s : State}
    (h : loadReady i f pa attr s = true) :
    loadForm s i = some f ∧ executes s i = true ∧ loadReaches s f pa attr := by
  simp only [loadReady, Bool.and_eq_true, beq_iff_eq, decide_eq_true_eq] at h
  exact ⟨h.1.1.1.1, h.1.1.1.2, h.1.1.2, h.1.2, h.2⟩

/-- The hypotheses on a Store-Exclusive of PE `p`, as one test. -/
def storeReady (p : Nat) (i : Instr) (f : StoreForm) (pa : Nat) (attr : MemAttr) (s : State) : Bool :=
  storeForm { s with cur := p } i == some f && executes { s with cur := p } i && p < s.npe &&
    f.va.toNat % f.bytes.length == 0 && translate s p f.va .write == some (pa, attr) &&
    pairMismatch (s.pe p).lx f.va f.bytes.length attr == none

theorem storeReady_spec {p : Nat} {i : Instr} {f : StoreForm} {pa : Nat} {attr : MemAttr} {s : State}
    (h : storeReady p i f pa attr s = true) :
    storeForm { s with cur := p } i = some f ∧ executes { s with cur := p } i = true ∧
      storeReaches { s with cur := p } f pa attr := by
  simp only [storeReady, Bool.and_eq_true, beq_iff_eq, decide_eq_true_eq] at h
  exact ⟨h.1.1.1.1.1, h.1.1.1.1.2, h.1.1.1.2, h.1.1.2, h.1.2, pairMismatch_none.mp h.2⟩

/-- PE 0 with a program of one instruction and a schedule. -/
def withProgram (s : State) (bs : List Byte) (turns : List Turn) : State :=
  { s with agenda := turns, pes := s.pes.map fun x => { x with program := [bs] } }

/-- Both PEs after `LDREX r1, [r0]` at 0x1000, and `STREX r2, r5, [r0]`. -/
def pair : State := loaded .a32 0x1000 4 sharedWriteBack
def strex : Instr := .strexA .al 2 5 0
def strexAt (va : Word) : StoreForm := { rd := 2, va := va, bytes := [0xAB, 0xBE, 0xFE, 0xCA] }
def ldrex : Instr := .ldrexA .al 1 0

/-- A mapping under which nothing at 0x5000 may be accessed. -/
def barred : Mapping :=
  { pe := none, kind := none, vaBase := 0x5000, len := 0x1000, paBase := 0x5000, attr := none
    readable := false, writable := false }

theorem witness_DecodeEncodeAgree : Instr.wellFormed (.strexdT 4 2 2 0) = true := by decide

theorem witness_EncodeDecodeAgree :
    decode .t32 [0x50, 0xE8, 0x81, 0x1F, 0xAA] = .ok (.ldrexT 1 0 0x81, [0xAA]) := by decide

theorem witness_WordsMatchTableRows :
    decodeA32Word 0xE1901F9F#32 = .ok ldrex ∧ decodeT32Word 0xE8501F00#32 = .ok (.ldrexT 1 0 0) ∧
    (Instr.iset ldrex = .a32 ∧ matchesRow 0xE1901F9F#32 ldrex) ∧
    (Instr.iset (.ldrexT 1 0 0) = .t32 ∧ (rowOf (.ldrexT 1 0 0)).2 > 0xFFFF ∧
      matchesRow 0xE8501F00#32 (.ldrexT 1 0 0)) ∧
    decodeT32Half 0xBF40#16 = .ok .sevT ∧ decodeT32Half 0xBF41#16 ≠ .ok .sevT := by
  unfold matchesRow; decide

theorem witness_StepRunsDecodedInstruction :
    (let s := withProgram pair [0x91, 0x2F, 0x80, 0xE1] []
     systemOk s = true ∧ s.agenda = [] ∧ s.cur < s.npe ∧ (s.pe s.cur).ended = none ∧
      (s.pe s.cur).program[(s.pe s.cur).pc]? = some [0x91, 0x2F, 0x80, 0xE1] ∧
      decode (isetOf (s.pe s.cur).cpsr) [0x91, 0x2F, 0x80, 0xE1] = .ok (.strexA .al 2 1 0, [])) ∧
    (let s := withProgram pair [0x91, 0x2F, 0x80, 0xE1] [.run 1]
     systemOk s = true ∧ s.agenda = .run 1 :: [] ∧ 1 < s.npe ∧ (s.pe 1).ended = none ∧
      (s.pe 1).program[(s.pe 1).pc]? = some [0x91, 0x2F, 0x80, 0xE1] ∧
      decode (isetOf (s.pe 1).cpsr) [0x91, 0x2F, 0x80, 0xE1] = .ok (.strexA .al 2 1 0, [])) ∧
    (let s := withProgram pair [] [.act (.pldw 0 0)]
     systemOk s = true ∧ s.agenda = .act (.pldw 0 0) :: []) := by
  decide

/-- The turn of a PE: pending, and, with an empty agenda, the current one's. -/
theorem witness_StepStopsByName :
    systemOk { pair with cfg := { cfg0 with ergLog2 := 12 } } = false ∧ systemOk { pair with pes := [] } = false ∧
    (let s := withProgram pair [0, 0, 0, 0] [.run 2]
     systemOk s = true ∧ s.agenda = .run 2 :: [] ∧ s.npe ≤ 2) ∧
    (let s : State := { pair with cur := 2 }
     systemOk s = true ∧ s.agenda = [] ∧ s.npe ≤ s.cur) ∧
    (let s : State := { endRun pair 1 (.externalAbort 0) with agenda := [.run 1] }
     systemOk s = true ∧ s.agenda = .run 1 :: [] ∧ 1 < s.npe ∧ (s.pe 1).ended = some (.externalAbort 0)) ∧
    (let s := endRun pair 0 (.externalAbort 0)
     systemOk s = true ∧ s.agenda = [] ∧ s.cur < s.npe ∧ (s.pe s.cur).ended = some (.externalAbort 0)) ∧
    (let s : State := { pair with agenda := [.run 1] }
     systemOk s = true ∧ s.agenda = .run 1 :: [] ∧ 1 < s.npe ∧ (s.pe 1).ended = none ∧
      (s.pe 1).program.length ≤ (s.pe 1).pc) ∧
    (systemOk pair = true ∧ pair.agenda = [] ∧ (pair.pe pair.cur).program.length ≤ (pair.pe pair.cur).pc) ∧
    (let s := withProgram pair [0, 0, 0, 0] [.run 1]
     systemOk s = true ∧ s.agenda = .run 1 :: [] ∧ 1 < s.npe ∧ (s.pe 1).ended = none ∧
      (s.pe 1).program[(s.pe 1).pc]? = some [0, 0, 0, 0] ∧
      decode (isetOf (s.pe 1).cpsr) [0, 0, 0, 0] = .error .noRow) := by
  decide

/-- The turn of an action: a PE that does not exist, or has ended; a plain store of 9 bytes, a plain load and an observer's
accesses of none; an access over the end of the space; a
record that is not aligned; an observer that does not exist; a mapping that breaks the alignment. -/
theorem witness_StepStopsByName_actions :
    (performerOf (.pldw 2 0) = some 2 ∧ pair.npe ≤ 2) ∧
    ((endRun pair 1 (.externalAbort 0)).pe 1).ended = some (.externalAbort 0) ∧
    ((pair.pe 1).ended = none ∧ translate pair 1 0xFFFFFFFF .read = some (0xFFFFFFFF, sharedWriteBack)) ∧
    (let s : State := { pair with cfg := { cfg0 with paBits := 32 } }
     systemOk s = true ∧ translate s 1 0xFFFFFFFF .write = some (0xFFFFFFFF, sharedWriteBack) ∧
      2 ^ s.cfg.paBits < 0xFFFFFFFF + 2 ∧ ¬2 ^ s.cfg.paBits < 0xFFFFFFFF + 1) ∧
    threadOk cfg0 (some { va := 0x1002, pa := 0x1002, n := 4, attr := sharedWriteBack }) = false ∧
    (pair.cfg.observers ≤ 1 ∧ 0 < pair.cfg.observers) ∧
    [Action.store 1 0x1000 9 0, .load 1 0x1000 0, .observerWrite 0 0x1000 0 0, .observerRead 0 0x1000 0].all (fun a =>
      match step (withProgram pair [] [.act a]) with
      | .refused .badAccessSize => true
      | _ => false) = true ∧
    [{ barred with paBase := 0x5004 }].all mappingOk = false := by
  decide

theorem witness_FetchWordRuns :
    systemOk State.reset = true ∧ State.reset.cur < State.reset.npe ∧
      decodeTableWord 32 0xE1901F9F = some ldrex := by decide

theorem witness_StepKeepsStateOk :
    stateOk (withProgram pair [0x91, 0x2F, 0x80, 0xE1] []) = true ∧
      ∃ t, step (withProgram pair [0x91, 0x2F, 0x80, 0xE1] []) = .next t ∧ (t.reg 0 2 == 0) = true :=
  ⟨by decide, runs_next (by decide)⟩

theorem witness_ResetStartsPrograms : 1 < State.reset.npe := by decide

/-- A changed translation, and an instruction. -/
theorem witness_ConfigurationAndProgramsStay :
    (∃ t, step (withProgram pair [] [.act (.remap [barred] false)]) = .next t ∧ (t.xlat == [barred]) = true) ∧
      ∃ t, step (withProgram pair [0x91, 0x2F, 0x80, 0xE1] []) = .next t ∧ (t.xlat == []) = true :=
  ⟨runs_next (by decide), runs_next (by decide)⟩

/-- A step in which the run ends, and one in which it does not; a comparison, and a System register write. -/
theorem witness_FlagsStay :
    (∃ t, step (withProgram pair [] [.act (.foreign 0 .registerOnly file)]) = .next t ∧
      flagZ (t.pe 0).cpsr = true) ∧
    (∃ t, step (withProgram pair [] [.act (.foreign 0 (.systemRegisterWrite 1 2 3 4) file)]) = .next t ∧
      ((t.pe 0).ended == none && (t.pe 0).dfar == 2) = true) ∧
    (∃ t, step (withProgram (start .a32 0x1002) [0x9F, 0x1F, 0x90, 0xE1] []) = .next t ∧
      ((t.pe 0).ended == some (.unalignedExclusive 0x1002)) = true) ∧
    ∃ t, step (withProgram (start .a32 0x1000) [0x9F, 0x1F, 0x90, 0xE1] []) = .next t ∧
      ((t.pe 0).ended == none) = true :=
  ⟨runs_next (by decide), runs_next (by decide), runs_next (by decide), runs_next (by decide)⟩

theorem witness_OthersOnlyCleared :
    mover (withProgram pair [] [.act (.store 1 0x1000 4 0)]) ≠ some 0 ∧
      ∃ t, step (withProgram pair [] [.act (.store 1 0x1000 4 0)]) = .next t ∧
        ((t.pe 0).gm == .openAccess) = true :=
  ⟨by decide, runs_next (by decide)⟩

theorem witness_OnlyLoadExclusiveSets :
    ((start .a32 0x1000).pe 0).lm.isSet = false ∧ ((start .a32 0x1000).pe 0).gm.isSet = false ∧
      ∃ t, step (withProgram (start .a32 0x1000) [0x9F, 0x1F, 0x90, 0xE1] []) = .next t ∧
        ((t.pe 0).lm.isSet && (t.pe 0).gm.isSet) = true :=
  ⟨by decide, by decide, runs_next (by decide)⟩

theorem witness_EventOnGlobalClear :
    (pair.pe 0).gm.isSet = true ∧ ((start .a32 0).pe 0).gm = .openAccess ∧
      ∃ t, step (withProgram pair [] [.act (.spontaneousClearGlobal 0)]) = .next t ∧
        ((t.pe 0).gm == .openAccess) = true :=
  ⟨by decide, by decide, runs_next (by decide)⟩

theorem witness_OnlyWfeTakesEvent :
    ((heldEvent .t32).pe 0).ev = true ∧
      ∃ t, step (withProgram (heldEvent .t32) [0x20, 0xBF] []) = .next t ∧ (!(t.pe 0).ev) = true :=
  ⟨by decide, runs_next (by decide)⟩

theorem witness_OnlyStoresWriteMemory :
    (∃ t, step (withProgram pair [0x95, 0x2F, 0x80, 0xE1] []) = .next t ∧
      (memRead t.mem 0x1003 != memRead pair.mem 0x1003) = true) ∧
    (∃ t, step (withProgram pair [] [.act (.store 1 0x1000 1 0)]) = .next t ∧
      (memRead t.mem 0x1000 != memRead pair.mem 0x1000) = true) ∧
    ∃ t, step (withProgram pair [] [.act (.observerWrite 0 0x1000 1 0)]) = .next t ∧
      (memRead t.mem 0x1000 != memRead pair.mem 0x1000) = true :=
  ⟨runs_next (by decide), runs_next (by decide), runs_next (by decide)⟩

/-- A shareable location, and a Non-shareable one. -/
theorem witness_LoadExclusiveReadsAndMarks :
    (loadReady ldrex (singleForm 0x1000 4 1) 0x1000 sharedWriteBack (start .a32 0x1000) = true ∧
      gMon cfg0 0x1000 sharedWriteBack = true ∧ readAborts (start .a32 0x1000) 0x1000 4 = false) ∧
    (loadReady ldrex (singleForm 0xF000 4 1) 0xF000 nonShared (start .a32 0xF000) = true ∧
      shareable nonShared = false ∧ readAborts (start .a32 0xF000) 0xF000 4 = false) := by
  decide

/-- One byte past, and one byte short of, an aligned address. -/
theorem witness_MisalignedExclusiveEndsRun :
    (loadForm (start .a32 0x1001) ldrex = some (singleForm 0x1001 4 1) ∧ executes (start .a32 0x1001) ldrex = true ∧
      (0x1001#32).toNat % 4 ≠ 0) ∧
    (storeForm (start .a32 0x1003) strex = some (strexAt 0x1003) ∧ executes (start .a32 0x1003) strex = true ∧
      (0x1003#32).toNat % (strexAt 0x1003).bytes.length ≠ 0) := by
  decide

theorem witness_AbortedExclusiveHasNoEffect :
    (let s : State := { start .a32 0x5000 with xlat := [barred] }
     loadForm s ldrex = some (singleForm 0x5000 4 1) ∧ translate s s.cur 0x5000 .read = none ∧
      storeForm s strex = some (strexAt 0x5000) ∧ translate s s.cur 0x5000 .write = none) ∧
    (loadReady ldrex (singleForm 0x30000 4 1) 0x30000 sharedWriteBack (start .a32 0x30000) = true ∧
      gMon cfg0 0x30000 sharedWriteBack = true ∧ readAborts (start .a32 0x30000) 0x30000 4 = true) ∧
    (let s := loaded .a32 0x30000 4 sharedWriteBack
     storeReady 0 strex (strexAt 0x30000) 0x30000 sharedWriteBack s = true ∧
      (s.pe 0).lm = .exclusive (block cfg0 0x30000) ∧ (s.pe 0).gm = .exclusive (block cfg0 0x30000) ∧
      writeAborts s 0x30000 4 = true) := by
  decide

/-- Treated as an access to a Non-shareable location, and nothing else (R190). -/
def asNonShareable : NoGMonEffects where
  externalAbort := false
  mmuFault := false
  asNop := false
  loadAsNonShareable := true
  storeAsNonShareable := true
  statusUnknown := false

theorem witness_NoGlobalMonitorLoads :
    loadReady ldrex (singleForm 0x20000 4 1) 0x20000 nonCached (start .a32 0x20000) = true ∧
      shareable nonCached = true ∧ gMon cfg0 0x20000 nonCached = false := by
  decide

/-- Not configured; treated as Non-shareable with the local monitor open, on the block and on another; drawn; a moved and
written pair, the local monitor holding no PA (log 40). -/
theorem witness_NoGlobalMonitorStores :
    (memWf (start .a32 0x20000).mem = true ∧
      storeReady 0 strex (strexAt 0x20000) 0x20000 nonCached (start .a32 0x20000) = true ∧
      shareable nonCached = true ∧ gMon cfg0 0x20000 nonCached = false) ∧
    (let c : Config := { cfg0 with noGMon := .fixed asNonShareable }
     let s : State := { loaded .a32 0x20000 4 nonCached with cfg := c }
     let u := s.updatePE 0 (markLocal 0x2001)
     configOk c = true ∧ someEffect asNonShareable = true ∧
      storeReady 0 strex (strexAt 0x20000) 0x20000 nonCached s = true ∧ gMon c 0x20000 nonCached = false ∧
      (s.pe 0).lm = .exclusive (block c 0x20000) ∧ (s.pe 0).gm.isSet = true ∧ writeAborts s 0x20000 4 = false ∧
      storeReady 0 strex (strexAt 0x20000) 0x20000 nonCached u = true ∧
      (u.pe 0).lm ≠ .exclusive (block c 0x20000) ∧ (u.pe 0).lm ≠ .openAccess ∧
      (({ start .a32 0x20000 with cfg := c } : State).pe 0).lm = .openAccess) ∧
    (let c : Config :=
       { cfg0 with
         noGMon := .fixed asNonShareable, localHoldsPA := false, choices := { neverChoices with id2 := .drawn } }
     let s : State := { (loaded .a32 0x20000 4 nonCached).updatePE 0 fun x => { x with pair := .written 0x20000 } with
       cfg := c }
     configOk c = true ∧ storeReady 0 strex (strexAt 0x20000) 0x20000 nonCached s = true ∧
      gMon c 0x20000 nonCached = false ∧ movedAndWritten s 0 0x20000 nonCached = true) ∧
    (({ cfg0 with noGMon := .unconfigured } : Config).noGMon = .unconfigured ∧ cfg0.noGMon = .drawn) := by
  decide

/-- A shareable location; a Non-shareable one with the global monitor set, and with it open. -/
theorem witness_MarkedStorePasses :
    (memWf pair.mem = true ∧ storeReady 0 strex (strexAt 0x1000) 0x1000 sharedWriteBack pair = true ∧
      gMon cfg0 0x1000 sharedWriteBack = true ∧ (pair.pe 0).lm = .exclusive (block cfg0 0x1000) ∧
      (pair.pe 0).gm = .exclusive (block cfg0 0x1000) ∧ writeAborts pair 0x1000 4 = false) ∧
    (let s := loaded .a32 0xF000 4 nonShared
     let t := s.updatePE 0 clearGlobal
     storeReady 0 strex (strexAt 0xF000) 0xF000 nonShared s = true ∧ shareable nonShared = false ∧
      (s.pe 0).lm = .exclusive (block cfg0 0xF000) ∧ (s.pe 0).gm.isSet = true ∧ writeAborts s 0xF000 4 = false ∧
      storeReady 0 strex (strexAt 0xF000) 0xF000 nonShared t = true ∧
      (t.pe 0).lm = .exclusive (block cfg0 0xF000) ∧ (t.pe 0).gm = .openAccess) := by
  decide

theorem witness_OpenLocalMonitorFailsStore :
    let s := pair.updatePE 0 clearLocal
    storeReady 0 strex (strexAt 0x1000) 0x1000 sharedWriteBack s = true ∧ gMon cfg0 0x1000 sharedWriteBack = true ∧
      (s.pe 0).lm = .openAccess := by
  decide

theorem witness_OpenGlobalMonitorFailsStore :
    let s := pair.updatePE 0 clearGlobal
    storeReady 0 strex (strexAt 0x1000) 0x1000 sharedWriteBack s = true ∧ shareable sharedWriteBack = true ∧
      gMon cfg0 0x1000 sharedWriteBack = true ∧ (s.pe 0).gm = .openAccess := by
  decide

theorem witness_StatusTellsWrite :
    memWf pair.mem = true ∧ storeReady 0 strex (strexAt 0x1000) 0x1000 sharedWriteBack pair = true ∧
      gMon cfg0 0x1000 sharedWriteBack = true ∧ writeAborts pair 0x1000 4 = false := by
  decide

/-- A marked location, and one not marked: the global monitor marks the next block. -/
theorem witness_StorePassesOnlyIfMarked :
    let s := pair.updatePE 0 (markGlobal 0x101)
    storeReady 0 strex (strexAt 0x1000) 0x1000 sharedWriteBack pair = true ∧
      storeReady 0 strex (strexAt 0x1000) 0x1000 sharedWriteBack s = true ∧
      gMon cfg0 0x1000 sharedWriteBack = true ∧ writeAborts pair 0x1000 4 = false ∧
      fixedChoice cfg0 .id2 = some false ∧ fixedChoice cfg0 .id8 = some false ∧
      (pair.pe 0).gm = .exclusive (block cfg0 0x1000) ∧ (s.pe 0).gm ≠ .exclusive (block cfg0 0x1000) := by
  decide

/-- PE 0 at 0x1000 after a Load-Exclusive of `n` bytes at `va` with attributes `attr`. -/
def mismatched (va : Word) (n : Nat) (attr : MemAttr) : State :=
  pair.updatePE 0 fun x => { x with lx := some { va := va, pa := va.toNat, n := n, attr := attr } }

/-- The three cases: the next word, the byte at the same address, other attributes. -/
theorem witness_MismatchedPairFaults :
    let f := strexAt 0x1000
    storeForm pair strex = some f ∧ executes pair strex = true ∧ f.va.toNat % f.bytes.length = 0 ∧
      translate pair 0 f.va .write = some (0x1000, sharedWriteBack) ∧
      ({ cfg0 with pairPolicy := .fault } : Config).pairPolicy = .fault ∧
      ((mismatched 0x1004 4 sharedWriteBack).pe 0).lx.map (·.va) = some 0x1004 ∧ f.va ≠ 0x1004 ∧
      ((mismatched 0x1000 1 sharedWriteBack).pe 0).lx.map (·.n) = some 1 ∧ f.bytes.length ≠ 1 ∧
      ((mismatched 0x1000 4 nonShared).pe 0).lx.map (·.attr) = some nonShared ∧ sharedWriteBack ≠ nonShared := by
  decide

/-- CU2 with the larger load; CU1 at the neighbouring word, with a byte; CU3. -/
theorem witness_MismatchedPairEnvelope :
    (let s := mismatched 0x1000 8 sharedWriteBack
     let r : LoadRecord := { va := 0x1000, pa := 0x1000, n := 8, attr := sharedWriteBack }
     storeForm s strex = some (strexAt 0x1000) ∧ executes s strex = true ∧ memWf s.mem = true ∧
      translate s 0 0x1000 .write = some (0x1000, sharedWriteBack) ∧ (s.pe 0).lx = some r ∧
      recordOk cfg0 r = true ∧ s.cfg.pairPolicy = .envelope ∧ r.n ≠ 4 ∧ gMon cfg0 0x1000 sharedWriteBack = true ∧
      writeAborts s 0x1000 4 = false) ∧
    (let s := mismatched 0x1005 1 sharedWriteBack
     let r : LoadRecord := { va := 0x1005, pa := 0x1005, n := 1, attr := sharedWriteBack }
     storeForm s strex = some (strexAt 0x1000) ∧ (s.pe 0).lx = some r ∧ recordOk cfg0 r = true ∧ r.va ≠ 0x1000) ∧
    (let s := mismatched 0x1000 4 nonShared
     let r : LoadRecord := { va := 0x1000, pa := 0x1000, n := 4, attr := nonShared }
     storeForm s strex = some (strexAt 0x1000) ∧ (s.pe 0).lx = some r ∧ recordOk cfg0 r = true ∧
      r.attr ≠ sharedWriteBack) := by
  decide

theorem witness_ClrexClearsLocal :
    (executes pair .clrexA = true ∧ pair.cur < pair.npe ∧ (pair.pe pair.cur).gm.isSet = true) ∧
    (executes (start .t32 0) .clrexT = true ∧ ((start .t32 0).pe 0).gm = .openAccess) := by
  decide

theorem witness_WaitForEventTakesOrHolds :
    (executes (heldEvent .t32) .wfeW = true ∧ ((heldEvent .t32).pe 0).ev = true) ∧
    (executes (start .a32 0) (.wfeA .al) = true ∧ ((start .a32 0).pe 0).ev = false) := by
  decide

theorem witness_SendEventReachesAll :
    executes (start .t32 0) .sevT = true ∧ (start .t32 0).cur < (start .t32 0).npe ∧ 1 < (start .t32 0).npe := by
  decide

theorem witness_SendEventLocalReachesSelf :
    executes (start .t32 0) .sevlT = true ∧ (start .t32 0).cur < (start .t32 0).npe := by
  decide

/-- In A32 under EQ with Z clear; in T32 in an IT block under EQ. -/
theorem witness_FailedConditionIsNop :
    let s := (start .t32 0x1000).updatePE 0 fun x => { x with cpsr := withItState 0x08 x.cpsr }
    executes (start .a32 0x1000) (.ldrexA .eq 1 0) = false ∧ executes s (.ldrexT 1 0 0) = false ∧ s.cur < s.npe := by
  decide

/-- One byte, the last of the block PE 0 has marked; and eight bytes from there, into the next block. -/
theorem witness_PlainStoreObserved :
    memWf pair.mem = true ∧ 1 < pair.npe ∧ (pair.pe 1).ended = none ∧
      translate pair 1 0x100F .write = some (0x100F, sharedWriteBack) ∧ inSpace cfg0 0x100F 8 = true ∧
      writeAborts pair 0x100F 8 = false ∧ (pair.pe 0).gm = .exclusive (block cfg0 0x100F) ∧
      block cfg0 (0x100F + 7) ≠ block cfg0 0x100F := by
  decide

/-- One byte, and forty over four blocks. -/
theorem witness_ObserverWriteObserved :
    memWf pair.mem = true ∧ 0 < pair.cfg.observers ∧ inSpace cfg0 0x100F 1 = true ∧ writeAborts pair 0x100F 1 = false ∧
      inSpace cfg0 0x100F 40 = true ∧ writeAborts pair 0x100F 40 = false := by
  decide

theorem witness_ReadsTouchNoMonitor :
    1 < pair.npe ∧ (pair.pe 1).ended = none ∧ translate pair 1 0x1000 .read = some (0x1000, sharedWriteBack) ∧
      inSpace cfg0 0x1000 8 = true ∧ readAborts pair 0x1000 8 = false ∧ 0 < pair.cfg.observers := by
  decide

/-- A target on the next block, for both monitors; one without a translation; PE 0 outside the domain of a Non-shareable
location. -/
theorem witness_MaintenanceOnlyClears :
    1 < pair.npe ∧ (pair.pe 1).ended = none ∧ translate pair 1 0x1010 .write = some (0x1010, sharedWriteBack) ∧
      translate pair 1 0x1010 .read = some (0x1010, sharedWriteBack) ∧
      (pair.pe 0).gm ≠ .exclusive (block cfg0 0x1010) ∧ (pair.pe 0).lm ≠ .exclusive (block cfg0 0x1010) ∧
      pair.cfg.localHoldsPA = true ∧ inDomain cfg0 (.pe 0) 0xF000 (attrAt pair 0xF000) = false ∧
      (let s : State := { pair with xlat := [barred] }
       translate s 1 0x5000 .write = none ∧ translate s 1 0x5000 .read = none) := by
  decide

theorem witness_SpontaneousClears : 1 < pair.npe := by decide

/-- The page at 0x1000 goes to 0x2000. -/
def moved : Mapping := { barred with vaBase := 0x1000, paBase := 0x2000, readable := true, writable := true }

/-- The barred page is not the one of the pairs between Load-Exclusive and Store-Exclusive; the page moved is. -/
theorem witness_ChangedTranslation :
    [barred].all mappingOk = true ∧ keepsOutstanding pair [barred] = true ∧ [moved].all mappingOk = true ∧
      0 < pair.npe ∧ (pair.pe 0).ended = none ∧ (pair.pe 0).pair.address = some 0x1000 ∧
      translateBy pair [moved] 0 0x1000 .write ≠ translate pair 0 0x1000 .write ∧
      ((pair.updatePE 0 closePair).pe 0).pair.address = none := by
  decide

/-- The pair is moved; the last byte of the new block is written by another PE, and by the PE's own plain store; its
Store-Exclusive comes. -/
theorem witness_MovedAndWrittenFailsStore :
    ([moved].all mappingOk = true ∧ (pair.pe 0).pair.address = some 0x1000 ∧
      translateBy pair [moved] 0 0x1000 .write = some (0x2000, sharedWriteBack) ∧
      (translate pair 0 0x1000 .write).map (·.1) ≠ some 0x2000) ∧
    (let s : State := { pair.updatePE 0 fun x => { x with pair := .moved 0x1000 } with xlat := [moved] }
     (s.pe 0).pair = .moved 0x1000 ∧ translate s 0 0x1000 .write = some (0x2000, sharedWriteBack) ∧
      block cfg0 (0x200F + 0) = block cfg0 0x2000 ∧ block cfg0 (0x200E + 1) = block cfg0 0x2000 ∧
      ¬(Observer.pe 1 = .pe 0 ∧ WriteKind.storeExcl = .storeExcl) ∧
      ¬(Observer.pe 0 = .pe 0 ∧ WriteKind.store = .storeExcl)) ∧
    (let s := pair.updatePE 0 fun x => { x with pair := .written 0x1000 }
     storeReady 0 strex (strexAt 0x1000) 0x1000 sharedWriteBack s = true ∧
      gMon cfg0 0x1000 sharedWriteBack = true ∧ shareable sharedWriteBack = true ∧ (s.pe 0).pair = .written 0x1000) := by
  decide

theorem witness_DataAbortLeavesMonitorsUnknown :
    0 < pair.npe ∧ (pair.pe 0).ended = none ∧ (pair.pe 0).gm.isSet = true ∧
      ((heldEvent .t32).pe 0).ev = true ∧ ((heldEvent .t32).pe 0).ended = none := by
  decide

/-- The failing Store-Exclusive after the return meets its hypotheses. -/
theorem witness_ExceptionReturnClearsLocal :
    0 < pair.npe ∧ (pair.pe 0).ended = none ∧ threadOk cfg0 none = true ∧
      threadOk cfg0 (some { va := 0x1000, pa := 0x1000, n := 8, attr := sharedWriteBack }) = true ∧
      (∃ t, perform pair (.exceptionReturn 0) = .next t ∧
        storeReady 0 strex (strexAt 0x1000) 0x1000 sharedWriteBack t = true) ∧
      ∃ t, perform pair (.exceptionReturnTo 0 none .closed) = .next t ∧
        storeReady 0 strex (strexAt 0x1000) 0x1000 sharedWriteBack t = true :=
  ⟨by decide, by decide, by decide, by decide, runs_next (by decide), runs_next (by decide)⟩

/-- A page nothing may access, a location that aborts. -/
theorem witness_PlainAccessAborts :
    (let s : State := { pair with xlat := [barred] }
     1 < s.npe ∧ (s.pe 1).ended = none ∧ translate s 1 0x5000 .write = none ∧ translate s 1 0x5000 .read = none) ∧
    (translate pair 1 0x30000 .write = some (0x30000, sharedWriteBack) ∧
      translate pair 1 0x30000 .read = some (0x30000, sharedWriteBack) ∧ inSpace cfg0 0x30000 8 = true ∧
      writeAborts pair 0x30000 8 = true ∧ readAborts pair 0x30000 8 = true ∧ 0 < pair.cfg.observers) := by
  decide

theorem witness_ForeignTouchesNoMonitor :
    0 < pair.npe ∧ (pair.pe 0).ended = none ∧ ForeignKind.addressTranslation ≠ .isb ∧
      (∀ a b c d, ForeignKind.addressTranslation ≠ .systemRegisterWrite a b c d) := by
  refine ⟨by decide, by decide, by decide, ?_⟩
  intros; simp

/-- A barrier in A32, and in T32 inside an IT block. -/
theorem witness_ForeignTouchesNoMonitor_barrier :
    (0 < pair.npe ∧ (pair.pe 0).ended = none) ∧
    (let s := (start .t32 0x1000).updatePE 0 fun x => { x with cpsr := withItState 0x04 x.cpsr }
     0 < s.npe ∧ (s.pe 0).ended = none ∧ isetOf (s.pe 0).cpsr = .t32 ∧ itState (s.pe 0).cpsr = 0x04) := by
  decide

theorem witness_MmuFaultReported :
    0 < pair.npe ∧ pair.cfg.longDescriptor = true ∧
      ({ cfg0 with longDescriptor := false } : Config).longDescriptor = false := by
  decide

theorem witness_MmuFaultRouted :
    cfg0.nonSecurePL10 = true ∧ cfg0.mmuCauseStage1 = true ∧
      (let c : Config := { cfg0 with mmuCauseStage1 := false, stage2Enabled := true }
       c.nonSecurePL10 = true ∧ c.mmuCauseStage1 = false ∧ c.stage2Enabled = true ∧ configOk c = true) := by
  decide

/-- Beyond the guaranteed types: the first and the last byte of a listed range, and the byte after it. -/
theorem witness_GuaranteedGlobalMonitor :
    sharedWriteBack.share = .innerShareable ∧
    (let c : Config := { cfg0 with gmon := [{ base := 0x20000, len := 0x1000, attr := some nonCached }] }
     nonCached.inner ≠ .writeBack ∧ gMon c 0x20000 nonCached = true ∧ gMon c 0x20FFF nonCached = true ∧
      gMon c 0x21000 nonCached = false) := by
  decide

/-- The first and the last byte of the block of the source's example, and the bytes beside it. -/
theorem witness_MarkedBlockIsAligned :
    cfg0.ergLog2 = 4 ∧ block cfg0 0x341B0 = 0x341B ∧ block cfg0 0x341BF = 0x341B ∧ block cfg0 0x341AF ≠ 0x341B ∧
      block cfg0 0x341C0 ≠ 0x341B := by
  decide

/-- A doubleword at the end of a block; a store over the end of one. -/
theorem witness_AlignedAccessInOneBlock :
    configOk cfg0 = true ∧ 0x1008 % 8 = 0 ∧ block cfg0 (0x1008 + 7) = block cfg0 0x1008 ∧
      inBlocks cfg0 0x100E 4 0x101 = true ∧ inBlocks cfg0 0x100E 4 0x102 = false := by
  decide

/-- The last byte of a word; the byte above a halfword; both ends of a pair, in both byte orders; the pair r14 and r15; the
largest offset. -/
theorem witness_DataByteOrder :
    (memNumber pair 0x1000 4 >>> 24).setWidth 8 = 0x44#8 ∧ (memNumber pair 0x1000 2 >>> 16).setWidth 8 = 0#8 ∧
      pairBytes pair 6 7 = [1, 2, 3, 4, 5, 6, 7, 8] ∧
      pairBytes { pair with cfg := { cfg0 with bigEndian := true } } 6 7 = [4, 3, 2, 1, 8, 7, 6, 5] ∧
      nextReg 14 = 15 ∧ addrOffset pair 0 0xFF = 0x13FC := by
  decide

/-- The smallest and the largest granule; a CTR that does not identify it. -/
theorem witness_GranuleFromCtr :
    configOk { cfg0 with ergLog2 := 4 } = true ∧ configOk { cfg0 with ergLog2 := 11 } = true ∧
      cfg0.ctrHasErg = true ∧ configOk { cfg0 with ctrHasErg := false } = true := by
  decide

/-- After the write of another PE, and of a non-PE observer, to the last byte of the block, the failing Store-Exclusive
of PE 0 meets its hypotheses. -/
theorem witness_InterveningWriteFailsStore :
    systemOk pair = true ∧ (pair.pe 0).gm = .exclusive 0x100 ∧ (pair.pe 1).ended = none ∧
      translate pair 1 0x100F .write = some (0x100F, sharedWriteBack) ∧ inSpace cfg0 0x100F 1 = true ∧
      writeAborts pair 0x100F 1 = false ∧ inDomain cfg0 (.pe 1) 0x100F sharedWriteBack = true ∧
      attrAt pair 0x100F = sharedWriteBack ∧ inDomain cfg0 (.device 0) 0x100F sharedWriteBack = true ∧
      exempt cfg0 (.device 0) 0x100F sharedWriteBack = false ∧ block cfg0 0x100F = 0x100 ∧
      (∃ u, step (withProgram pair [] [.act (.store 1 0x100F 1 0)]) = .next u ∧
        storeReady 0 strex (strexAt 0x1000) 0x1000 sharedWriteBack u = true) ∧
      ∃ u, step (withProgram pair [] [.act (.observerWrite 0 0x100F 1 0)]) = .next u ∧
        storeReady 0 strex (strexAt 0x1000) 0x1000 sharedWriteBack u = true :=
  ⟨by decide, by decide, by decide, by decide, by decide, by decide, by decide, by decide, by decide, by decide, by decide,
    runs_next (by decide), runs_next (by decide)⟩

theorem witness_FirstContenderPasses :
    memWf pair.mem = true ∧ storeReady 0 strex (strexAt 0x1000) 0x1000 sharedWriteBack pair = true ∧
      gMon cfg0 0x1000 sharedWriteBack = true ∧ (pair.pe 0).lm = .exclusive (block cfg0 0x1000) ∧
      (pair.pe 0).gm = .exclusive (block cfg0 0x1000) ∧ writeAborts pair 0x1000 4 = false ∧
      inDomain cfg0 (.pe 0) 0x1000 sharedWriteBack = true ∧ 1 < pair.npe ∧
      (pair.pe 1).gm = .exclusive (block cfg0 0x1000) ∧
      ∃ t, exec strex pair = .next t ∧ storeReady 1 strex (strexAt 0x1000) 0x1000 sharedWriteBack t = true :=
  ⟨by decide, by decide, by decide, by decide, by decide, by decide, by decide, by decide, by decide,
    runs_next (by decide)⟩

theorem witness_SecondStoreFails :
    storeReady 0 strex (strexAt 0x1000) 0x1000 sharedWriteBack pair = true ∧
      gMon cfg0 0x1000 sharedWriteBack = true ∧ writeAborts pair 0x1000 4 = false ∧
      ∃ t, exec strex pair = .next t ∧ storeReady 0 strex (strexAt 0x1000) 0x1000 sharedWriteBack t = true :=
  ⟨by decide, by decide, by decide, runs_next (by decide)⟩

theorem witness_ClrexFailsNextStore :
    executes pair .clrexA = true ∧ pair.cur < pair.npe ∧
      ∃ t, exec .clrexA pair = .next t ∧ storeReady 0 strex (strexAt 0x1000) 0x1000 sharedWriteBack t = true :=
  ⟨by decide, by decide, runs_next (by decide)⟩

/-- A read by a non-PE observer comes between the Load-Exclusive and the Store-Exclusive. -/
theorem witness_QuietPairPasses :
    let turns : List Turn := [.act (.observerRead 0 0x1000 4)]
    let s := withProgram (start .a32 0x1000) [] turns
    loadReady ldrex (singleForm 0x1000 4 1) 0x1000 sharedWriteBack s = true ∧ gMon cfg0 0x1000 sharedWriteBack = true ∧
      readAborts s 0x1000 4 = false ∧ memWf s.mem = true ∧
      ∃ t, exec ldrex s = .next t ∧ ∃ u, quietRun 0 1 t u ∧
        (storeReady 0 strex (strexAt 0x1000) 0x1000 sharedWriteBack u && !writeAborts u 0x1000 4) = true := by
  refine ⟨by decide, by decide, by decide, by decide, ?_⟩
  obtain ⟨t, h, ht⟩ := runs_next (o := exec ldrex (withProgram (start .a32 0x1000) [] [.act (.observerRead 0 0x1000 4)]))
    (p := fun t => t.agenda == [.act (.observerRead 0 0x1000 4)] && runs (step t) fun u =>
      storeReady 0 strex (strexAt 0x1000) 0x1000 sharedWriteBack u && !writeAborts u 0x1000 4) (by decide)
  simp only [Bool.and_eq_true, beq_iff_eq] at ht
  obtain ⟨u, hu, hr⟩ := runs_next ht.2
  refine ⟨t, h, u, ⟨?_, u, hu, rfl⟩, hr⟩
  unfold quietFor
  rw [ht.1]
  rfl

/-- What condition 1 admits and what it bars; a retry that stores to the granule; one with a Store-Exclusive to the loop's
own virtual address, and to another; one with a load of the granule through the loop's alias, and through another; the
promise with and without FEAT_LSE. -/
theorem witness_ProgressConditions :
    condition1 [.registerOnly] = true ∧ condition1 [.registerOnly, .isb] = false ∧
    (let lock : Place := { va := 0x1000, pa := 0x1000, n := 4 }
     condition2 cfg0 lock [.isb, .store { va := 0x1010, pa := 0x1010, n := 4 }] = true ∧
      condition2 cfg0 lock [.store { va := 0x100F, pa := 0x100F, n := 1 }] = false ∧
      condition2 cfg0 lock [.storeExclusive lock] = true ∧
      condition2 cfg0 lock [.storeExclusive { va := 0x1004, pa := 0x1004, n := 4 }] = false ∧
      condition2 cfg0 lock [.load { va := 0x1008, pa := 0x1008, n := 4 }] = true ∧
      condition2 cfg0 lock [.load { va := 0x9008, pa := 0x1008, n := 4 }] = false ∧
      condition2 cfg0 lock [.load { va := 0x9010, pa := 0x1010, n := 4 }] = true ∧
      within512 [.load { va := 0x1000, pa := 0x1000, n := 4 }, .load { va := 0x11FC, pa := 0x11FC, n := 4 }] = true ∧
      within512 [.load { va := 0x1000, pa := 0x1000, n := 4 }, .load { va := 0x1200, pa := 0x1200, n := 4 }] = false ∧
      progressPromise cfg0 lock [.registerOnly] [] [] = .guaranteed ∧
      progressPromise { cfg0 with haveLSE := true } lock [.registerOnly] [] [] = .likelihoodMaximised ∧
      progressPromise cfg0 lock [.registerOnly] [] [.instrCacheInvalidateAll] = .none) := by
  decide

/-- A PLDW and a software prefetch of a page nothing may access. -/
theorem witness_ProgressConditions_untranslated :
    let s : State := { pair with xlat := [barred] }
    translate s 0 0x5000 .write = none ∧ translate s 0 0x5000 .read = none ∧
      activityOf (withProgram s [] [.act (.pldw 0 0x5000)]) = some (0, .pldw none) ∧
      retryAllowed cfg0 { va := 0x1000, pa := 0x1000, n := 4 } (.pldw (some { va := 0x100F, pa := 0x100F, n := 1 })) = false ∧
      retryAllowed cfg0 { va := 0x1000, pa := 0x1000, n := 4 }
        (.prefetch (some { va := 0x9008, pa := 0x1008, n := 1 })) = false := by
  decide

/-- A byte that a Store-Exclusive changes, and one that a plain store does; a Store-Exclusive with its monitors open. -/
theorem witness_ProgressConditions_stores :
    (let s := withProgram pair [0x95, 0x2F, 0x80, 0xE1] []
     memWf s.mem = true ∧ executed s = some (0, strex) ∧
      storeReady 0 strex (strexAt 0x1000) 0x1000 sharedWriteBack s = true ∧
      gMon cfg0 0x1000 sharedWriteBack = true ∧ writeAborts s 0x1000 4 = false ∧
      (∃ t, step s = .next t ∧ (memRead t.mem 0x1003 != memRead s.mem 0x1003) = true)) ∧
    (let s := withProgram pair [] [.act (.store 1 0x1000 1 0)]
     ∃ t, step s = .next t ∧ (memRead t.mem 0x1000 != memRead s.mem 0x1000) = true) ∧
    (let s := withProgram (start .a32 0x1000) [0x95, 0x2F, 0x80, 0xE1] []
     executed s = some (0, strex) ∧ storeReady 0 strex (strexAt 0x1000) 0x1000 sharedWriteBack s = true) :=
  ⟨⟨by decide, by decide, by decide, by decide, by decide, runs_next (by decide)⟩, runs_next (by decide),
    by decide, by decide⟩

/-! A loop for ever: PE 0 executes `LDREX r1, [r0]` and `STREX r2, r5, [r0]`, a foreign branch takes it back, and PE 1
reads the location. -/

/-- PE 0 as every turn of the loop finds it. -/
def looper : PE :=
  { marked (thread .a32 0x1000) 0x1000 4 sharedWriteBack with
    program := [[0x9F, 0x1F, 0x90, 0xE1], [0x95, 0x2F, 0x80, 0xE1]]
    lm := .openAccess, pair := .closed }

/-- The state before the turns 0 to 3 of the loop, at moment `n`. -/
def loopAt (c n : Nat) : State :=
  let s : State := { start .a32 0x1000 with
    mem := [(0x1000, 0xAB), (0x1001, 0xBE), (0x1002, 0xFE), (0x1003, 0xCA)], fresh := n }
  let x := match c with
    | 0 | 3 => looper
    | 1 => { looper with
        regs := looper.regs.set 1 0xCAFEBEAB, pc := 1, lm := .exclusive 0x100, pair := .waiting 0x1000 }
    | _ => { looper with regs := (looper.regs.set 1 0xCAFEBEAB).set 2 0, pc := 2 }
  { s with pes := [x, thread .a32 0x1000] }

/-- The registers after the branch back. -/
def back : RegisterFile := { regs := looper.regs, pc := 0, cpsr := looper.cpsr, fpscr := looper.fpscr }

def loopTurn (c : Nat) : Turn :=
  match c with
  | 0 | 1 => .run 0
  | 2 => .act (.foreign 0 .registerOnly back)
  | _ => .act (.load 1 0x1000 4)

def loopSched (k : Nat) : Turn := loopTurn (k % 4)
def loopRun (k : Nat) : State := loopAt (k % 4) k

theorem state_ext {s t : State} (h1 : s.cfg = t.cfg) (h2 : s.mem = t.mem) (h3 : s.attrs = t.attrs)
    (h4 : s.xlat = t.xlat) (h5 : s.pes = t.pes) (h6 : s.cur = t.cur) (h7 : s.agenda = t.agenda)
    (h8 : s.fresh = t.fresh) : s = t := by
  cases s; cases t; simp_all

/-- The record of the loop's Load-Exclusive, and the state after its marks. -/
def loopRecord : LoadRecord := { va := 0x1000, pa := 0x1000, n := 4, attr := sharedWriteBack }
def loopLoaded (n : Nat) : State := (loopAt 0 n).updatePE 0 (loadMarks (loopAt 0 0) 0 true loopRecord)

theorem loop_ldrex (n : Nat) : exec ldrex (loopAt 0 n) = .next (loopAt 1 (n + 1)) := by
  have hl : loadExcl (loopAt 0 n) 0 0x1000 4 = .value (loopLoaded n) 0x1000 := by
    have ht : translate (loopAt 0 n) 0 0x1000 .read = some (0x1000, sharedWriteBack) := by rfl
    have hr : readAborts (loopAt 0 n) 0x1000 4 = false := by rfl
    simp only [loadExcl, ht, hr]
    rfl
  have hm : memNumber (loopAt 0 n) 0x1000 4 = 0xCAFEBEAB := by
    show memNumber (loopAt 0 0) 0x1000 4 = _
    decide
  show Host.Outcome.next (gateA32 .al (loopAt 0 n) (loadSingle .a32 (loopAt 0 n) 1 0x1000 4)) = _
  rw [gateA32, if_pos (by rfl)]
  refine congrArg Host.Outcome.next ?_
  unfold loadSingle
  rw [show (loopAt 0 n).cur = 0 from rfl, hl]
  simp only
  rw [show memNumber (loopLoaded n) 0x1000 4 = 0xCAFEBEAB from hm]
  refine state_ext rfl rfl rfl rfl ?_ rfl rfl rfl
  show (complete .a32 ((loopLoaded 0).setReg 0 1 0xCAFEBEAB) 0).pes = (loopAt 1 0).pes
  decide

theorem loop_decode0 (n : Nat) : decodeFor (loopAt 0 n) 0 [0x9F, 0x1F, 0x90, 0xE1] = .ok (ldrex, []) := by
  show decode (isetOf looper.cpsr) [0x9F, 0x1F, 0x90, 0xE1] = _
  decide

theorem loop_step0 (n : Nat) : step { loopAt 0 n with agenda := [.run 0] } = .next (loopAt 1 (n + 1)) := by
  have hs : systemOk { loopAt 0 n with agenda := [.run 0] } = true := by rfl
  have hf : fetchBytes (loopAt 0 n) 0 = some [0x9F, 0x1F, 0x90, 0xE1] := by rfl
  rw [step, if_pos hs]
  show runCurrent (loopAt 0 n) = _
  unfold runCurrent
  rw [show (loopAt 0 n).cur = 0 from rfl, hf]
  simp only [loop_decode0, loop_ldrex]
  rfl

/-- The state after the write of the loop's Store-Exclusive. -/
def loopStored (n : Nat) : State :=
  storePasses (loopAt 1 n) 0 0x1000 sharedWriteBack [0xAB, 0xBE, 0xFE, 0xCA] clearLocal

theorem loop_store (n : Nat) :
    storeExcl (loopAt 1 n) 0 0x1000 [0xAB, 0xBE, 0xFE, 0xCA] = .status (loopStored n) 0 [(0x1000, 4)] := by
  have ht : translate (loopAt 1 n) 0 0x1000 .write = some (0x1000, sharedWriteBack) := by rfl
  have hw : writeAborts (loopAt 1 n) 0x1000 4 = false := by rfl
  have hp : pairMismatch ((loopAt 1 n).pe 0).lx 0x1000 4 sharedWriteBack = none := by rfl
  have hl : localCheck (loopAt 1 n) 0 0x1000 = true := by rfl
  have hg : globalCheck (loopAt 1 n) 0 0x1000 = true := by rfl
  have hc : globalCheckClears (loopAt 1 n) 0 0x1000 = false := by rfl
  have hm : movedAndWritten (loopAt 1 n) 0 0x1000 sharedWriteBack = false := by rfl
  have h4 : [(0xAB : Byte), 0xBE, 0xFE, 0xCA].length = 4 := rfl
  simp only [storeExcl, ht, h4, hp]
  show storeShareable (loopAt 1 n) 0 0x1000 0x1000 sharedWriteBack [0xAB, 0xBE, 0xFE, 0xCA] = _
  simp only [storeShareable, hl, hm, hg, h4, hw, hc]
  rfl

theorem loop_bytes (n : Nat) : regBytes (loopAt 1 n) 5 4 = [0xAB, 0xBE, 0xFE, 0xCA] := by
  show regBytes (loopAt 1 0) 5 4 = _
  decide

theorem loop_strex (n : Nat) : exec strex (loopAt 1 n) = .next (loopAt 2 (n + 1)) := by
  show Host.Outcome.next
    (gateA32 .al (loopAt 1 n) (storeTo .a32 (loopAt 1 n) 2 0x1000 (regBytes (loopAt 1 n) 5 4))) = _
  rw [gateA32, if_pos (by rfl), loop_bytes]
  refine congrArg Host.Outcome.next ?_
  unfold storeTo
  rw [show (loopAt 1 n).cur = 0 from rfl, loop_store]
  refine state_ext rfl ?_ rfl rfl ?_ rfl rfl rfl
  · show memWriteBytes (loopAt 1 0).mem 0x1000 [0xAB, 0xBE, 0xFE, 0xCA] = (loopAt 2 0).mem
    decide
  · show (complete .a32 (((loopStored 0).updatePE 0 closePair).setReg 0 2 0) 0).pes = (loopAt 2 0).pes
    decide

theorem loop_decode1 (n : Nat) : decodeFor (loopAt 1 n) 0 [0x95, 0x2F, 0x80, 0xE1] = .ok (strex, []) := by
  show decode (isetOf looper.cpsr) [0x95, 0x2F, 0x80, 0xE1] = _
  decide

theorem loop_step1 (n : Nat) : step { loopAt 1 n with agenda := [.run 0] } = .next (loopAt 2 (n + 1)) := by
  have hs : systemOk { loopAt 1 n with agenda := [.run 0] } = true := by rfl
  have hf : fetchBytes (loopAt 1 n) 0 = some [0x95, 0x2F, 0x80, 0xE1] := by rfl
  rw [step, if_pos hs]
  show runCurrent (loopAt 1 n) = _
  unfold runCurrent
  rw [show (loopAt 1 n).cur = 0 from rfl, hf]
  simp only [loop_decode1, loop_strex]
  rfl

theorem loop_step2 (n : Nat) : step { loopAt 2 n with agenda := [loopTurn 2] } = .next (loopAt 3 (n + 1)) := by rfl
theorem loop_step3 (n : Nat) : step { loopAt 3 n with agenda := [loopTurn 3] } = .next (loopAt 0 (n + 1)) := by rfl

theorem loop_run : infiniteRun loopSched loopRun := by
  intro k
  have h : ∀ c, k % 4 = c → loopRun k = loopAt c k := fun c h => by rw [loopRun, h]
  have h' : ∀ c, (k + 1) % 4 = c → loopRun (k + 1) = loopAt c (k + 1) := fun c h => by rw [loopRun, h]
  have hc : k % 4 = 0 ∨ k % 4 = 1 ∨ k % 4 = 2 ∨ k % 4 = 3 := by omega
  rcases hc with hc | hc | hc | hc
  · rw [moment, h _ hc, h' 1 (by omega), loopSched, hc]; exact loop_step0 k
  · rw [moment, h _ hc, h' 2 (by omega), loopSched, hc]; exact loop_step1 k
  · rw [moment, h _ hc, h' 3 (by omega), loopSched, hc]; exact loop_step2 k
  · rw [moment, h _ hc, h' 0 (by omega), loopSched, hc]; exact loop_step3 k

def loopLock : Place := { va := 0x1000, pa := 0x1000, n := 4 }

theorem loop_moment {k c : Nat} (h : k % 4 = c) :
    moment loopSched loopRun k = { loopAt c k with agenda := [loopTurn c] } := by
  rw [moment, loopRun, loopSched, h]

theorem executed_run {s : State} {p : Nat} {bs rest : List Byte} {i : Instr} (ha : s.agenda = [.run p])
    (hf : fetchBytes s p = some bs) (hd : decodeFor s p bs = .ok (i, rest)) : executed s = some (p, i) := by
  unfold executed
  simp [ha, hf, hd]

theorem loop_executed0 (n : Nat) : executed { loopAt 0 n with agenda := [loopTurn 0] } = some (0, ldrex) :=
  executed_run rfl (show fetchBytes _ 0 = some [0x9F, 0x1F, 0x90, 0xE1] by rfl) (loop_decode0 n)

theorem loop_executed1 (n : Nat) : executed { loopAt 1 n with agenda := [loopTurn 1] } = some (0, strex) :=
  executed_run rfl (show fetchBytes _ 0 = some [0x95, 0x2F, 0x80, 0xE1] by rfl) (loop_decode1 n)

/-- What the loop executes at a moment. -/
theorem loop_executed {k p : Nat} {i : Instr} (h : executed (moment loopSched loopRun k) = some (p, i)) :
    k % 4 = 0 ∧ p = 0 ∧ i = ldrex ∨ k % 4 = 1 ∧ p = 0 ∧ i = strex := by
  have hc : k % 4 = 0 ∨ k % 4 = 1 ∨ k % 4 = 2 ∨ k % 4 = 3 := by omega
  rcases hc with hc | hc | hc | hc <;> rw [loop_moment hc] at h
  · rw [loop_executed0] at h; cases h; exact .inl ⟨hc, rfl, rfl⟩
  · rw [loop_executed1] at h; cases h; exact .inr ⟨hc, rfl, rfl⟩
  · cases h
  · cases h

theorem loop_loads (k : Nat) : loadsAt loopSched loopRun 0 loopLock k ↔ k % 4 = 0 := by
  constructor
  · rintro ⟨i, f, he, -, hf, -⟩
    rcases loop_executed he with ⟨h, -⟩ | ⟨-, -, rfl⟩
    · exact h
    · cases hf
  · intro h
    rw [loadsAt, loop_moment h]
    exact ⟨ldrex, singleForm 0x1000 4 1, loop_executed0 k, rfl, rfl, rfl, rfl, rfl⟩

theorem loop_stores (k : Nat) : storesAt loopSched loopRun 0 loopLock k ↔ k % 4 = 1 := by
  constructor
  · rintro ⟨i, f, he, -, hf, -⟩
    rcases loop_executed he with ⟨-, -, rfl⟩ | ⟨h, -⟩
    · cases hf
    · exact h
  · intro h
    rw [storesAt, loop_moment h]
    refine ⟨strex, strexAt 0x1000, loop_executed1 k, rfl, ?_, rfl, rfl, rfl⟩
    show some (StoreForm.mk 2 0x1000 (regBytes (loopAt 1 k) 5 4)) = _
    rw [loop_bytes]
    rfl

/-- The loop's Store-Exclusives return 0. -/
theorem loop_status {k p : Nat} {f : StoreForm} {v : Word}
    (h : statusReturned (moment loopSched loopRun k) = some (p, f, v)) : v = 0 := by
  obtain ⟨t, written, h⟩ := statusReturned_some.mp h
  obtain ⟨i, he, -, hf, hr⟩ := storeResult_some h
  rcases loop_executed he with ⟨-, -, rfl⟩ | ⟨hk, rfl, rfl⟩
  · cases hf
  rw [loop_moment hk] at hf hr
  change some (StoreForm.mk 2 0x1000 (regBytes (loopAt 1 k) 5 4)) = _ at hf
  rw [loop_bytes] at hf
  cases hf
  change _ = storeExcl (loopAt 1 k) 0 0x1000 [0xAB, 0xBE, 0xFE, 0xCA] at hr
  rw [loop_store] at hr
  cases hr
  rfl

theorem loop_keeps : keepsLooping loopSched loopRun 0 loopLock := by
  refine ⟨fun k => ⟨4 * k, by omega, (loop_loads _).mpr (by omega)⟩,
    fun k => ⟨4 * k + 1, by omega, (loop_stores _).mpr (by omega)⟩, fun k i he _ => ?_, fun j k h => ?_, fun j k h => ?_⟩
  · rcases loop_executed he with ⟨hk, -, rfl⟩ | ⟨hk, -, rfl⟩
    · exact ⟨fun _ => (loop_loads k).mpr hk, fun h => by cases h⟩
    · exact ⟨fun h => (by cases h), fun _ => (loop_stores k).mpr hk⟩
  · obtain ⟨hjk, hj, -, hm⟩ := h
    rw [loop_loads] at hj
    have hk : k = j + 1 := by
      by_contra hne
      exact (hm (j + 1) (by omega) (by omega)).2 ((loop_stores _).mpr (by omega))
    subst hk
    simp [ownActivities, condition1]
  · obtain ⟨-, ⟨f, v, hs, hv⟩, -⟩ := h
    exact absurd (loop_status hs) hv

/-- The run meets every hypothesis; PE 1's read is quiet for PE 0. -/
theorem witness_UndisturbedLoopProgresses :
    infiniteRun loopSched loopRun ∧ 0 < (loopRun 0).npe ∧ keepsLooping loopSched loopRun 0 loopLock ∧
      (∀ kind, translate (loopRun 0) 0 (BitVec.ofNat 32 loopLock.va) kind = some (loopLock.pa, sharedWriteBack)) ∧
      monitored (loopRun 0) loopLock.pa sharedWriteBack ∧ readAborts (loopRun 0) loopLock.pa loopLock.n = false ∧
      writeAborts (loopRun 0) loopLock.pa loopLock.n = false ∧
      ∀ k, mover (moment loopSched loopRun k) ≠ some 0 → quietFor 0 (moment loopSched loopRun k) := by
  refine ⟨loop_run, by decide, loop_keeps, fun kind => by cases kind <;> decide, fun _ => by decide, by decide,
    by decide, fun k h => ?_⟩
  have hc : k % 4 = 0 ∨ k % 4 = 1 ∨ k % 4 = 2 ∨ k % 4 = 3 := by omega
  rcases hc with hc | hc | hc | hc <;> rw [loop_moment hc] at h ⊢
  · exact absurd rfl h
  · exact absurd rfl h
  · exact absurd rfl h
  · show quietAction 0 (.load 1 0x1000 4) = true
    rfl
end Sys2Proof.Tests
end

section
/-! SUPPORT. How a step begins (R20, log 12): whose turn it is, which turns only stop, and, for a step that answers a next
state, the instruction or the action that answers it. -/

namespace Sys2Proof.Machine

/-! ## Operations of a PE and of an observer -/

section Gate
variable {s t : State} {p k : Nat} {o : StepOutcome}

theorem byPE_absent (h : s.npe ≤ p) : byPE s p o = .refused .noSuchAgent := if_neg (by omega)

theorem byPE_ended {c : EndCause} (h : p < s.npe) (he : (s.pe p).ended = some c) :
    byPE s p o = .fault (.runEnded p c) := by simp [byPE, h, he]

theorem byPE_running (h : p < s.npe) (he : (s.pe p).ended = none) : byPE s p o = o := by simp [byPE, h, he]

/-- An operation of a PE answers a next state only for a PE that exists and runs (D16). -/
theorem byPE_next (h : byPE s p o = .next t) : p < s.npe ∧ (s.pe p).ended = none ∧ o = .next t := by
  by_cases hp : p < s.npe
  · cases he : (s.pe p).ended with
    | none => exact ⟨hp, rfl, (byPE_running hp he).symm.trans h⟩
    | some c => cases (byPE_ended hp he).symm.trans h
  · cases (byPE_absent (by omega)).symm.trans h

theorem byObserver_absent (h : s.cfg.observers ≤ k) : byObserver s k o = .refused .noSuchAgent := if_neg (by omega)

theorem byObserver_present (h : k < s.cfg.observers) : byObserver s k o = o := if_pos h

/-- An operation of an observer answers a next state only for an observer that exists. -/
theorem byObserver_next (h : byObserver s k o = .next t) : k < s.cfg.observers ∧ o = .next t := by
  by_cases hk : k < s.cfg.observers
  · exact ⟨hk, (byObserver_present hk).symm.trans h⟩
  · cases (byObserver_absent (by omega)).symm.trans h

/-- What a PE performs happens only to a PE that exists and runs. -/
theorem perform_of_performer (s : State) {a : Action} (h : performerOf a = some p) : ∃ o, perform s a = byPE s p o := by
  cases a <;> cases h <;> exact ⟨_, rfl⟩

end Gate

/-! ## The turn of a step -/

section Turn
variable {s t : State}

theorem step_badConfiguration (h : systemOk s = false) : step s = .refused .badConfiguration := by simp [step, h]

/-- The turn of PE `p`: the pending one or, with an empty agenda, the current PE's. -/
theorem step_run {p : Nat} (hs : systemOk s = true)
    (h : s.agenda = [] ∧ p = s.cur ∨ ∃ turns, s.agenda = .run p :: turns) :
    ∃ turns, step s = runCurrent { s with cur := p, agenda := turns } := by
  rcases h with ⟨ha, rfl⟩ | ⟨turns, ha⟩
  · have hstep : step s = runCurrent s := by simp [step, hs, ha]
    exact ⟨s.agenda, hstep⟩
  · exact ⟨turns, by simp [step, hs, ha]⟩

theorem step_act {a : Action} {turns : List Turn} (hs : systemOk s = true) (h : s.agenda = .act a :: turns) :
    step s = perform { s with agenda := turns } a := by simp [step, hs, h]

/-- A step that answers a next state is a PE's turn or an action, of a system that may run. -/
theorem step_next (h : step s = .next t) :
    systemOk s = true ∧
      ((∃ p turns, runCurrent { s with cur := p, agenda := turns } = .next t) ∨
        ∃ a turns, s.agenda = .act a :: turns ∧ perform { s with agenda := turns } a = .next t) := by
  cases hs : systemOk s with
  | false => cases (step_badConfiguration hs).symm.trans h
  | true =>
    refine ⟨rfl, ?_⟩
    cases ha : s.agenda with
    | nil =>
      obtain ⟨turns, he⟩ := step_run (p := s.cur) hs (.inl ⟨ha, rfl⟩)
      exact .inl ⟨_, turns, he ▸ h⟩
    | cons turn rest =>
      cases turn with
      | run p =>
        obtain ⟨turns, he⟩ := step_run hs (.inr ⟨rest, ha⟩)
        exact .inl ⟨p, turns, he ▸ h⟩
      | act a => exact .inr ⟨a, rest, rfl, step_act hs ha ▸ h⟩

theorem runCurrent_programEnd (h : s.cur < s.npe) (he : (s.pe s.cur).ended = none)
    (hl : (s.pe s.cur).program.length ≤ (s.pe s.cur).pc) : runCurrent s = .fault (.programEnd s.cur) := by
  simp [runCurrent, byPE_running h he, fetchBytes, List.getElem?_eq_none hl]

theorem runCurrent_undecoded {bs : List Byte} {e : DecodeError} (h : s.cur < s.npe) (he : (s.pe s.cur).ended = none)
    (hb : fetchBytes s s.cur = some bs) (hd : decodeFor s s.cur bs = .error e) :
    runCurrent s = .refused (.invalidInstruction e) := by
  simp [runCurrent, byPE_running h he, hb, hd]

/-- A PE's turn that answers a next state executes the instruction at its PC. -/
theorem runCurrent_next (h : runCurrent s = .next t) :
    s.cur < s.npe ∧ (s.pe s.cur).ended = none ∧
      ∃ bs i rest, fetchBytes s s.cur = some bs ∧ decodeFor s s.cur bs = .ok (i, rest) ∧ exec i s = .next t := by
  obtain ⟨hp, he, h⟩ := byPE_next h
  refine ⟨hp, he, ?_⟩
  split at h
  · cases h
  · rename_i bs hb
    split at h
    · cases h
    · rename_i i rest hd
      exact ⟨bs, i, rest, hb, hd, h⟩

end Turn

end Sys2Proof.Machine
end

section
/-! PROOF. Which turns only stop, and by which name (R6, R26, R27, R107, R170, D16, D26). -/

namespace Sys2Proof.Machine

section Stop
variable {s : State}

/-- The turn of a PE that stops: no such PE, its run over, its program at the end, or bytes that are no instruction. -/
theorem runCurrent_stops (s : State) :
    (s.npe ≤ s.cur → runCurrent s = .refused .noSuchAgent) ∧
      (s.cur < s.npe →
        (∀ c, (s.pe s.cur).ended = some c → runCurrent s = .fault (.runEnded s.cur c)) ∧
        ((s.pe s.cur).ended = none → (s.pe s.cur).program.length ≤ (s.pe s.cur).pc →
          runCurrent s = .fault (.programEnd s.cur)) ∧
        ∀ bs e, (s.pe s.cur).ended = none → (s.pe s.cur).program[(s.pe s.cur).pc]? = some bs →
          decode (isetOf (s.pe s.cur).cpsr) bs = .error e → runCurrent s = .refused (.invalidInstruction e)) :=
  ⟨byPE_absent, fun h =>
    ⟨fun _ => byPE_ended h, runCurrent_programEnd h, fun _ _ he hb hd => runCurrent_undecoded h he hb hd⟩⟩

theorem plainStore_badSize {p n : Nat} {va : Word} {v : BitVec 64} (h : n = 0 ∨ 8 < n) :
    plainStore s p va n v = .refused .badAccessSize :=
  if_neg (by simp [storeSizeOk]; omega)

theorem plainLoad_badSize {p : Nat} {va : Word} : plainLoad s p va 0 = .refused .badAccessSize := rfl

theorem plainStore_outside {p n pa : Nat} {va : Word} {v : BitVec 64} {attr : MemAttr} (h1 : 1 ≤ n) (h8 : n ≤ 8)
    (htr : translate s p va .write = some (pa, attr)) (hout : 2 ^ s.cfg.paBits < pa + n) :
    plainStore s p va n v = .refused .noSuchAddress := by
  simp [plainStore, storeSizeOk, h1, h8, htr, inSpace, hout]

theorem plainLoad_outside {p n pa : Nat} {va : Word} {attr : MemAttr} (h1 : 1 ≤ n)
    (htr : translate s p va .read = some (pa, attr)) (hout : 2 ^ s.cfg.paBits < pa + n) :
    plainLoad s p va n = .refused .noSuchAddress := by
  simp [plainLoad, show 0 < n from h1, htr, inSpace, hout]

theorem observerWrites_outside {k pa n v : Nat} (h1 : 1 ≤ n) (hout : 2 ^ s.cfg.paBits < pa + n) :
    observerWrites s k pa n v = .refused .noSuchAddress := by
  simp [observerWrites, show 0 < n from h1, inSpace, hout]

theorem observerReads_outside {pa n : Nat} (h1 : 1 ≤ n) (hout : 2 ^ s.cfg.paBits < pa + n) :
    observerReads s pa n = .refused .noSuchAddress := by
  simp [observerReads, show 0 < n from h1, inSpace, hout]

/-- An action of a PE that runs stops for the size of its access, for its address, or for the record it installs. -/
theorem perform_running_stops (s : State) {a : Action} {p : Nat} (hp : p < s.npe) (he : (s.pe p).ended = none) :
    (∀ va n, (∃ v, a = .store p va n v ∧ (n = 0 ∨ 8 < n)) ∨ a = .load p va n ∧ n = 0 →
      perform s a = .refused .badAccessSize) ∧
    (∀ va n kind pa attr, 1 ≤ n →
      (∃ v, a = .store p va n v ∧ n ≤ 8 ∧ kind = .write) ∨ a = .load p va n ∧ kind = .read →
      translate s p va kind = some (pa, attr) → 2 ^ s.cfg.paBits < pa + n → perform s a = .refused .noSuchAddress) ∧
    (∀ lx pair, a = .exceptionReturnTo p lx pair ∨ a = .installThread p lx pair → threadOk s.cfg lx = false →
      perform s a = .refused .badLoadRecord) := by
  refine ⟨?size, ?address, ?record⟩
  case size =>
    rintro va n (⟨v, rfl, hn⟩ | ⟨rfl, rfl⟩)
    · exact (byPE_running hp he).trans (plainStore_badSize hn)
    · exact (byPE_running hp he).trans plainLoad_badSize
  case address =>
    rintro va n kind pa attr h1 (⟨v, rfl, h8, rfl⟩ | ⟨rfl, rfl⟩) htr hout
    · exact (byPE_running hp he).trans (plainStore_outside h1 h8 htr hout)
    · exact (byPE_running hp he).trans (plainLoad_outside h1 htr hout)
  case record =>
    rintro lx pair (rfl | rfl) hlx <;> exact (byPE_running hp he).trans (if_neg (by simp [hlx]))

/-- An access of a non-PE observer that stops: no such observer, no byte, or an address outside the space. -/
theorem perform_observer_stops (s : State) {a : Action} {k pa n v : Nat}
    (ha : a = .observerWrite k pa n v ∨ a = .observerRead k pa n) :
    (s.cfg.observers ≤ k → perform s a = .refused .noSuchAgent) ∧
    (k < s.cfg.observers → n = 0 → perform s a = .refused .badAccessSize) ∧
    (k < s.cfg.observers → 1 ≤ n → 2 ^ s.cfg.paBits < pa + n → perform s a = .refused .noSuchAddress) := by
  rcases ha with rfl | rfl
  · refine ⟨byObserver_absent, fun hk hn => ?_, fun hk h1 hout => ?_⟩
    · subst hn; exact byObserver_present hk
    · exact (byObserver_present hk).trans (observerWrites_outside h1 hout)
  · refine ⟨byObserver_absent, fun hk hn => ?_, fun hk h1 hout => ?_⟩
    · subst hn; exact byObserver_present hk
    · exact (byObserver_present hk).trans (observerReads_outside h1 hout)

theorem spontaneous_absent {m : Nat} {f : PE → PE} (h : s.npe ≤ m) : spontaneous s m f = .refused .noSuchAgent :=
  if_neg (by omega)

theorem changeTranslation_misaligned {maps : List Mapping} {bbm : Bool} (h : maps.all mappingOk = false) :
    changeTranslation s maps bbm = .refused .badConfiguration :=
  if_neg (by simp [h])

end Stop

/-- Settles O6: with the turn made explicit, each stop is that of the PE's turn or of the action it names. -/
theorem stepStopsByName : Obligations.StepStopsByName := by
  intro s
  refine ⟨step_badConfiguration, fun p hs hturn => ?run, fun a turns hs hturn => ?act⟩
  case run =>
    obtain ⟨turns, hstep⟩ := step_run hs hturn
    rw [hstep]
    exact runCurrent_stops { s with cur := p, agenda := turns }
  case act =>
    rw [step_act hs hturn]
    refine ⟨fun p hp => ?_, ?_, fun k pa n v => perform_observer_stops { s with agenda := turns }, ?_⟩
    · obtain ⟨o, ho⟩ := perform_of_performer { s with agenda := turns } hp
      exact ⟨fun h => ho ▸ byPE_absent h, fun c h he => ho ▸ byPE_ended h he,
        perform_running_stops { s with agenda := turns }⟩
    · rintro m (rfl | rfl) h <;> exact spontaneous_absent h
    · rintro maps bbm rfl h
      exact changeTranslation_misaligned h

end Sys2Proof.Machine
end

section
/-! SUPPORT. What every operation of a step but a change of the translation keeps (R6, R26, R27, R33, R80): one relation
from the state before to the state after, one rule per state operation, and its proof for every instruction and action. -/

namespace Sys2Proof.Machine

/-! ## The data of a state, and of one PE -/

/-- The part of `stateOk` that speaks of what instructions write: memory is canonical and inside its space (R27), every
record is one a Load-Exclusive can have left (R26). -/
structure DataOk (s : State) : Prop where
  wf : memWf s.mem = true
  space : memInSpace s = true
  records : ∀ m, threadOk s.cfg (s.pe m).lx = true

/-- A PE keeps its program text, and an acceptable record stays acceptable. -/
def keepsPE (cfg : Config) (x y : PE) : Prop :=
  y.program = x.program ∧ (threadOk cfg x.lx = true → threadOk cfg y.lx = true)

theorem forall_pe_iff {s : State} {P : PE → Prop} (hreset : P PE.reset) :
    (∀ m, P (s.pe m)) ↔ ∀ x ∈ s.pes, P x := by
  refine ⟨fun h x hx => ?_, fun h m => ?_⟩
  · obtain ⟨m, hm, rfl⟩ := List.getElem_of_mem hx
    simpa [State.pe, hm] using h m
  · cases hm : s.pes[m]? with
    | none => simpa [State.pe, hm] using hreset
    | some x => simpa [State.pe, hm] using h x (List.mem_of_getElem? hm)

theorem stateOk_iff {s : State} : stateOk s = true ↔ systemOk s = true ∧ s.cur < s.npe ∧ DataOk s := by
  have hrec := forall_pe_iff (s := s) (P := fun x => threadOk s.cfg x.lx = true) rfl
  simp only [stateOk, Bool.and_eq_true, decide_eq_true_eq, List.all_eq_true, ← hrec]
  constructor
  · rintro ⟨⟨⟨⟨hsys, hwf⟩, hspace⟩, hcur⟩, hrecords⟩
    exact ⟨hsys, hcur, hwf, hspace, hrecords⟩
  · rintro ⟨hsys, hcur, hwf, hspace, hrecords⟩
    exact ⟨⟨⟨⟨hsys, hwf⟩, hspace⟩, hcur⟩, hrecords⟩

theorem systemOk_iff {s : State} :
    systemOk s = true ↔ configOk s.cfg = true ∧ 1 ≤ s.npe ∧ s.xlat.all mappingOk = true := by
  simp [systemOk, and_assoc]

section PE
variable {cfg : Config} {x y : PE}

theorem keepsPE_refl : keepsPE cfg x x := ⟨rfl, id⟩

/-- A PE of which only monitors and the Event register differ keeps its program and its record. -/
theorem onlyMonitors.keepsPE (h : onlyMonitors x y) : keepsPE cfg x y := by
  obtain ⟨h, -⟩ := h
  rw [h]
  exact ⟨rfl, id⟩

theorem onlyCleared.keepsPE (h : onlyCleared x y) : keepsPE cfg x y := h.1.keepsPE

theorem keepsPE_installRecord {lx : Option LoadRecord} {pair : PairStatus} (h : threadOk cfg lx = true) :
    keepsPE cfg x (installRecord lx pair x) := ⟨rfl, fun _ => h⟩

theorem keepsPE_takeException (cfg' : Config) (n p : Nat) (c : EndCause) :
    keepsPE cfg x { reportFault cfg' n c (dataAbortMonitors n p x) with ended := some c } := by
  obtain ⟨-, -, hprog, -, -, -, -, -, hlx, -⟩ := reportFault_frame (dataAbortMonitors n p x) cfg' n c
  refine ⟨hprog, fun h => ?_⟩
  show threadOk cfg (reportFault cfg' n c (dataAbortMonitors n p x)).lx = true
  rw [hlx]
  exact h

theorem keepsPE_foreignStep (kind : ForeignKind) (u : RegisterFile) : keepsPE cfg x (foreignStep kind u x) := by
  cases kind <;> exact ⟨rfl, id⟩

end PE

/-! ## The relation, and one rule per state operation -/

/-- From `s` to `t` the configuration, the attributes, the translation, the number of PEs, the executing PE and every
program text stay, and data in order stay in order. -/
structure Keeps (s t : State) : Prop where
  cfg : t.cfg = s.cfg
  attrs : t.attrs = s.attrs
  xlat : t.xlat = s.xlat
  cur : t.cur = s.cur
  npe : t.npe = s.npe
  program : ∀ m, (t.pe m).program = (s.pe m).program
  data : DataOk s → DataOk t

namespace Keeps
variable {s t u : State}

theorem refl (s : State) : Keeps s s := ⟨rfl, rfl, rfl, rfl, rfl, fun _ => rfl, id⟩

theorem systemOk (h : Keeps s t) (hs : systemOk s = true) : Machine.systemOk t = true := by
  rw [systemOk_iff] at hs ⊢
  rwa [h.cfg, h.npe, h.xlat]

/-- A change of the PEs and of the step's counter. -/
theorem pes (h : Keeps s t) (hu : u = { t with pes := u.pes, fresh := u.fresh }) (hn : u.npe = t.npe)
    (hpe : ∀ m, keepsPE s.cfg (t.pe m) (u.pe m)) : Keeps s u where
  cfg := by rw [hu]; exact h.cfg
  attrs := by rw [hu]; exact h.attrs
  xlat := by rw [hu]; exact h.xlat
  cur := by rw [hu]; exact h.cur
  npe := hn.trans h.npe
  program m := (hpe m).1.trans (h.program m)
  data hd := by
    have hcfg : u.cfg = t.cfg := by rw [hu]
    have hmem : u.mem = t.mem := by rw [hu]
    obtain ⟨hwf, hspace, hrec⟩ := h.data hd
    refine ⟨hmem ▸ hwf, ?_, fun m => ?_⟩
    · unfold memInSpace at hspace ⊢
      rwa [hmem, hcfg]
    · rw [hcfg, h.cfg]
      exact (hpe m).2 (h.cfg ▸ hrec m)

theorem tick (h : Keeps s t) : Keeps s t.tick := h.pes rfl rfl fun _ => keepsPE_refl

theorem updatePE_at (h : Keeps s t) {p : Nat} {f : PE → PE} (hf : keepsPE s.cfg (t.pe p) (f (t.pe p))) :
    Keeps s (t.updatePE p f) := by
  refine h.pes rfl (updatePE_npe ..) fun m => ?_
  rw [pe_updatePE]
  split
  · rename_i hm
    obtain ⟨rfl, -⟩ := hm
    exact hf
  · exact keepsPE_refl

theorem updatePE (h : Keeps s t) {p : Nat} {f : PE → PE} (hf : ∀ x, keepsPE s.cfg x (f x)) :
    Keeps s (t.updatePE p f) := h.updatePE_at (hf _)

theorem updateAll (h : Keeps s t) {g : Nat → PE → PE} (hg : ∀ m x, keepsPE s.cfg x (g m x)) :
    Keeps s (t.updateAll g) := by
  refine h.pes rfl (updateAll_npe ..) fun m => ?_
  by_cases hm : m < t.npe
  · rw [pe_updateAll _ _ _ hm]
    exact hg _ _
  · have hm' : t.pes.length ≤ m := Nat.le_of_not_lt hm
    simpa [State.pe, State.updateAll, hm'] using keepsPE_refl

theorem setReg (h : Keeps s t) {p : Nat} {r : Reg} {v : Word} : Keeps s (t.setReg p r v) :=
  h.updatePE fun _ => ⟨rfl, id⟩

/-- A write keeps memory in its space where it lies inside it: something the data of `s` may be needed for. -/
theorem writeBytes (h : Keeps s t) {pa : Nat} {bs : List Byte} (hin : DataOk s → inSpace s.cfg pa bs.length = true) :
    Keeps s (t.writeBytes pa bs) where
  cfg := h.cfg
  attrs := h.attrs
  xlat := h.xlat
  cur := h.cur
  npe := h.npe
  program := h.program
  data hd := by
    obtain ⟨hwf, hspace, hrec⟩ := h.data hd
    refine ⟨memWf_memWriteBytes hwf pa bs, ?_, hrec⟩
    have hend : pa + bs.length ≤ 2 ^ s.cfg.paBits := by simpa [inSpace] using hin hd
    simp only [memInSpace, writeBytes_mem, writeBytes_cfg, h.cfg, List.all_eq_true, decide_eq_true_eq] at hspace ⊢
    intro c hc
    rcases memWriteBytes_bound hc with hc | ⟨-, hc⟩
    · exact hspace c hc
    · omega

theorem complete (h : Keeps s t) {set : ISet} {p : Nat} : Keeps s (complete set t p) := by
  refine (h.updatePE fun _ => ?_).tick
  exact ⟨rfl, id⟩

theorem endRun (h : Keeps s t) {p : Nat} {c : EndCause} : Keeps s (endRun t p c) := by
  refine (h.updatePE fun _ => ?_).tick
  exact ⟨rfl, id⟩

theorem takeException (h : Keeps s t) {p : Nat} {c : EndCause} : Keeps s (takeException t p c) :=
  (h.updatePE fun _ => keepsPE_takeException ..).tick

theorem observeWrite (h : Keeps s t) {call pa len : Nat} {o : Observer} {k : WriteKind} {attr : MemAttr} :
    Keeps s (observeWrite t call o pa len k attr) :=
  h.pes rfl (observeWrite_npe ..) fun _ => (onlyCleared_observeWrite ..).keepsPE

end Keeps

end Sys2Proof.Machine
end

section
/-! SUPPORT. Every exclusive access, every instruction and every action but a change of the translation keeps what `Keeps`
says; a change of the translation keeps it but for the translation. -/

namespace Sys2Proof.Machine

/-! ## Addresses (R27, R51, R54) -/

section Address
variable {s : State} {p n pa : Nat} {va : Word} {kind : AccessKind} {attr : MemAttr}

/-- What Translate can answer: an address in the space, that of the identity or of a mapping. -/
theorem translate_some (h : translate s p va kind = some (pa, attr)) :
    pa < 2 ^ s.cfg.paBits ∧
      (pa = va.toNat ∨ ∃ m ∈ s.xlat, m.vaBase ≤ va.toNat ∧ pa = m.paBase + (va.toNat - m.vaBase)) := by
  unfold translate translateBy at h
  split at h
  · obtain ⟨hin, heq⟩ := Option.ite_none_right_eq_some.mp h
    cases heq
    exact ⟨by simpa [inSpace] using hin, .inl rfl⟩
  · rename_i m hm
    obtain ⟨hin, heq⟩ := Option.ite_none_right_eq_some.mp h
    cases heq
    obtain ⟨-, hin⟩ := Bool.and_eq_true_iff.mp hin
    have hcov := List.find?_some hm
    simp only [mappingCovers, inRange, Bool.and_eq_true, decide_eq_true_eq] at hcov
    obtain ⟨⟨⟨hbase, -⟩, -⟩, -⟩ := hcov
    exact ⟨by simpa [inSpace] using hin, .inr ⟨m, List.mem_of_find?_eq_some hm, hbase, rfl⟩⟩

/-- An aligned virtual address of an exclusive access has an aligned physical one: mappings keep addresses modulo 8. -/
theorem translate_aligned (hs : systemOk s = true) (hn : n = 1 ∨ n = 2 ∨ n = 4 ∨ n = 8) (hal : va.toNat % n = 0)
    (h : translate s p va kind = some (pa, attr)) : pa % n = 0 := by
  obtain ⟨-, -, hmaps⟩ := systemOk_iff.mp hs
  obtain ⟨-, rfl | ⟨m, hm, hbase, hpa⟩⟩ := translate_some h
  · exact hal
  · have hmod : m.vaBase % 8 = m.paBase % 8 := by simpa [mappingOk] using List.all_eq_true.mp hmaps m hm
    rcases hn with rfl | rfl | rfl | rfl <;> omega

/-- An aligned exclusive access that begins inside the space lies inside it: the space is a multiple of 8 bytes. -/
theorem inSpace_of_aligned {cfg : Config} (hcfg : configOk cfg = true) (hn : n = 1 ∨ n = 2 ∨ n = 4 ∨ n = 8)
    (hal : pa % n = 0) (h : pa < 2 ^ cfg.paBits) : inSpace cfg pa n = true := by
  have hbits : 3 ≤ cfg.paBits := by
    simp only [configOk, Bool.and_eq_true, decide_eq_true_eq] at hcfg
    omega
  obtain ⟨k, hk⟩ : 2 ^ 3 ∣ 2 ^ cfg.paBits := pow_dvd_pow 2 hbits
  simp only [inSpace, decide_eq_true_eq, hk] at h ⊢
  rcases hn with rfl | rfl | rfl | rfl <;> omega

/-- The range of an aligned and translated exclusive access lies in the space. -/
theorem translate_inSpace (hs : systemOk s = true) (hn : n = 1 ∨ n = 2 ∨ n = 4 ∨ n = 8) (hal : va.toNat % n = 0)
    (h : translate s p va kind = some (pa, attr)) : inSpace s.cfg pa n = true :=
  inSpace_of_aligned (systemOk_iff.mp hs).1 hn (translate_aligned hs hn hal h) (translate_some h).1

/-- What a Load-Exclusive records is a record it can leave (R26). -/
theorem recordOk_of_translate (hs : systemOk s = true) (hn : n = 1 ∨ n = 2 ∨ n = 4 ∨ n = 8) (hal : va.toNat % n = 0)
    (h : translate s p va kind = some (pa, attr)) :
    recordOk s.cfg { va := va, pa := pa, n := n, attr := attr } = true := by
  have hpa := translate_aligned hs hn hal h
  have hin := translate_inSpace hs hn hal h
  simp [recordOk, hal, hpa, hin, hn]

theorem inSpace_sizeInSpace {cfg : Config} {size : Nat} (h : pa < 2 ^ cfg.paBits) :
    inSpace cfg pa (sizeInSpace cfg pa size) = true := by
  have hle : sizeInSpace cfg pa size ≤ 2 ^ cfg.paBits - pa := min_le_right _ _
  exact decide_eq_true (by omega)

end Address

/-! ## The Load-Exclusives (R120, R191) -/

/-- The state the common step of the Load-Exclusives leaves. -/
def LoadResult.state : LoadResult → State
  | .value t _ | .noWriteback t | .ended t => t

theorem keepsPE_loadMarks {cfg : Config} {s : State} {p : Nat} {sh : Bool} {r : LoadRecord} {x : PE}
    (h : recordOk cfg r = true) : keepsPE cfg x (loadMarks s p sh r x) :=
  ⟨by rw [loadMarks_frame], fun _ => h⟩

theorem keeps_noGlobalMonitorLoad {s : State} {p pa n : Nat} {va : Word} {attr : MemAttr}
    (h : recordOk s.cfg { va := va, pa := pa, n := n, attr := attr } = true) :
    Keeps s (noGlobalMonitorLoad s p va pa n attr).state := by
  unfold noGlobalMonitorLoad
  split
  · exact (Keeps.refl s).endRun
  split
  · exact (Keeps.refl s).takeException
  split
  · exact (Keeps.refl s).takeException
  split
  · exact Keeps.refl s
  split
  · split
    · exact (Keeps.refl s).takeException
    · refine (Keeps.refl s).updatePE fun x => ?_
      exact keepsPE_loadMarks (x := x) h
  · exact (Keeps.refl s).endRun

theorem keeps_loadExcl {s : State} {p n : Nat} {va : Word} (hs : systemOk s = true)
    (hn : n = 1 ∨ n = 2 ∨ n = 4 ∨ n = 8) : Keeps s (loadExcl s p va n).state := by
  unfold loadExcl
  split
  · exact (Keeps.refl s).endRun
  rename_i hal
  split
  · exact (Keeps.refl s).takeException
  rename_i htr
  have hrec := recordOk_of_translate hs hn (by omega) htr
  split
  · exact keeps_noGlobalMonitorLoad hrec
  split
  · exact (Keeps.refl s).takeException
  · exact (Keeps.refl s).updatePE fun x => keepsPE_loadMarks hrec

theorem Keeps.writeDests {s t : State} (h : Keeps s t) {p pa : Nat} (ds : List LoadDest) :
    Keeps s (writeDests t p pa ds) :=
  List.foldlRecOn ds _ h fun _ hu _ _ => hu.setReg

/-! ## The Store-Exclusives (R140, R141, R191) -/

/-- The state the common step of the Store-Exclusives leaves. -/
def StoreResult.state : StoreResult → State
  | .status t _ _ | .noWriteback t | .ended t => t

section Store
variable {s : State} {p pa n : Nat} {va : Word} {attr : MemAttr} {bs : List Byte}

theorem onlyCleared_clearBoth (b : Bool) (x : PE) : onlyCleared x (clearGlobalIf b (clearLocal x)) :=
  onlyCleared_trans (onlyCleared_clearLocal x) (onlyCleared_clearGlobalIf ..)

theorem keeps_storePasses {own : PE → PE} (hin : inSpace s.cfg pa bs.length = true)
    (hown : ∀ x, keepsPE s.cfg x (own x)) : Keeps s (storePasses s p pa attr bs own) :=
  (((Keeps.refl s).writeBytes fun _ => hin).updatePE hown).observeWrite

theorem keeps_storeNonShareable (hin : inSpace s.cfg pa bs.length = true) :
    Keeps s (storeNonShareable s p va pa attr bs).state := by
  unfold storeNonShareable
  split
  · split
    · exact (Keeps.refl s).takeException
    · exact keeps_storePasses hin fun x => (onlyCleared_clearBoth _ x).keepsPE
  · exact (Keeps.refl s).updatePE fun x => (onlyCleared_clearLocal x).keepsPE

theorem keeps_storeShareable (hin : inSpace s.cfg pa bs.length = true) :
    Keeps s (storeShareable s p va pa attr bs).state := by
  unfold storeShareable
  split
  · dsimp only
    split
    · split
      · exact (Keeps.refl s).takeException
      · exact keeps_storePasses hin fun x => (onlyCleared_clearBoth _ x).keepsPE
    · exact (Keeps.refl s).updatePE fun x => (onlyCleared_clearBoth _ x).keepsPE
  · exact (Keeps.refl s).updatePE fun x => (onlyCleared_clearLocal x).keepsPE

theorem keeps_noGlobalMonitorStore (hin : inSpace s.cfg pa bs.length = true) :
    Keeps s (noGlobalMonitorStore s p va pa attr bs).state := by
  unfold noGlobalMonitorStore
  split
  · exact (Keeps.refl s).endRun
  split
  · exact (Keeps.refl s).takeException
  split
  · exact (Keeps.refl s).takeException
  split
  · split <;> exact Keeps.refl s
  split
  · have hlocal := keeps_storeNonShareable (p := p) (va := va) (attr := attr) hin
    split
    · rename_i hr
      rw [hr] at hlocal
      exact hlocal.updatePE fun x => (onlyMonitors_unknownLocal x ..).keepsPE
    · exact hlocal
  split
  · split
    · split
      · exact (Keeps.refl s).takeException
      · exact keeps_storePasses hin fun _ => keepsPE_refl
    · exact Keeps.refl s
  · exact (Keeps.refl s).endRun

theorem keeps_storeChecked (hin : inSpace s.cfg pa bs.length = true) :
    Keeps s (storeChecked s p va pa attr bs).state := by
  unfold storeChecked
  split
  · split
    · exact keeps_storeShareable hin
    · exact keeps_noGlobalMonitorStore hin
  · exact keeps_storeNonShareable hin

theorem Keeps.scramble {s t : State} (h : Keeps s t) {p k pa n : Nat} {attr : MemAttr}
    (hin : DataOk s → inSpace s.cfg pa n = true) : Keeps s (scramble t p k pa n attr) :=
  (h.writeBytes (by simpa using hin)).observeWrite

/-- The record a mismatched pair names is that of the PE. -/
theorem pairMismatch_some {lx : Option LoadRecord} {kind : PairKind} {r : LoadRecord}
    (h : pairMismatch lx va n attr = some (kind, r)) : lx = some r := by
  unfold pairMismatch at h
  split at h
  · cases h
  · split_ifs at h <;> cases h <;> rfl

theorem keeps_pairEnvelope {kind : PairKind} {r : LoadRecord} (hlx : (s.pe p).lx = some r)
    (hpa : pa < 2 ^ s.cfg.paBits) (hin : inSpace s.cfg pa n = true) :
    Keeps s (pairEnvelope s p va pa n attr kind r).state := by
  have hrec : DataOk s → inSpace s.cfg r.pa r.n = true := fun hd => by
    have hr := hd.records p
    simp only [hlx, threadOk, Option.all_some, recordOk, Bool.and_eq_true] at hr
    exact hr.2
  have hclear : Keeps s (s.updatePE p clearLocal) :=
    (Keeps.refl s).updatePE fun x => (onlyCleared_clearLocal x).keepsPE
  unfold pairEnvelope
  dsimp only
  split
  · exact (Keeps.refl s).takeException
  cases kind with
  | va =>
    have habort : Keeps s (s.updatePE p (dataAbortMonitors s.fresh p)) :=
      (Keeps.refl s).updatePE fun x => (onlyMonitors_dataAbortMonitors x ..).keepsPE
    exact (habort.scramble hrec).scramble fun _ => inSpace_sizeInSpace hpa
  | size => exact hclear.scramble fun _ => inSpace_sizeInSpace hpa
  | attr => exact hclear.scramble fun _ => hin

theorem keeps_storeExcl (hs : systemOk s = true)
    (hn : bs.length = 1 ∨ bs.length = 2 ∨ bs.length = 4 ∨ bs.length = 8) :
    Keeps s (storeExcl s p va bs).state := by
  unfold storeExcl
  split
  · exact (Keeps.refl s).endRun
  rename_i hal
  split
  · exact (Keeps.refl s).takeException
  rename_i htr
  have hin := translate_inSpace hs hn (by omega) htr
  split
  · exact keeps_storeChecked hin
  rename_i hpair
  split
  · exact (Keeps.refl s).endRun
  split
  · exact keeps_storeChecked hin
  · exact keeps_pairEnvelope (pairMismatch_some hpair) (translate_some htr).1 hin

end Store

/-! ## Instructions -/

section Exec
variable {s t : State}

theorem exec_load_keeps {i : Instr} {f : LoadForm} (hs : systemOk s = true) (hf : loadForm s i = some f)
    (hx : executes s i = true) (h : exec i s = .next t) : Keeps s t := by
  have hload : Keeps s (loadExcl s s.cur f.va f.n).state := keeps_loadExcl hs (loadForm_size hf)
  cases (exec_load hf hx).symm.trans h
  split <;> rename_i hr <;> rw [hr] at hload
  · exact (hload.writeDests _).complete
  · exact hload.complete
  · exact hload

theorem keeps_storeTo {set : ISet} {rd : Reg} {va : Word} {bs : List Byte}
    (h : Keeps s (storeExcl s s.cur va bs).state) : Keeps s (storeTo set s rd va bs) := by
  have hclose : ∀ x, keepsPE s.cfg x (closePair x) := fun _ => ⟨rfl, id⟩
  unfold storeTo
  split <;> rename_i hr <;> rw [hr] at h
  · exact ((h.updatePE hclose).setReg).complete
  · exact (h.updatePE hclose).complete
  · exact h

theorem keeps_clrex {set : ISet} : Keeps s (clrex set s) :=
  ((Keeps.refl s).updatePE fun x => (onlyCleared_clearBoth _ x).keepsPE).complete

theorem keepsPE_setEvent (b : Bool) {cfg : Config} (x : PE) : keepsPE cfg x { x with ev := b } := ⟨rfl, id⟩

theorem keeps_waitForEvent {set : ISet} : Keeps s (waitForEvent set s) := by
  unfold waitForEvent
  split
  · exact ((Keeps.refl s).updatePE (keepsPE_setEvent false)).complete
  split
  · exact (Keeps.refl s).complete
  · exact (Keeps.refl s).tick

theorem keeps_sendEvent {set : ISet} : Keeps s (sendEvent set s) :=
  ((Keeps.refl s).updateAll fun _ => keepsPE_setEvent true).complete

theorem keeps_sendEventLocal {set : ISet} : Keeps s (sendEventLocal set s) :=
  ((Keeps.refl s).updatePE (keepsPE_setEvent true)).complete

/-- Every instruction, by its form. -/
theorem exec_keeps {i : Instr} (hs : systemOk s = true) (h : exec i s = .next t) : Keeps s t := by
  cases hx : executes s i with
  | false =>
    cases (exec_skip hx).symm.trans h
    exact (Keeps.refl s).complete
  | true =>
    rcases form_cases s i with ⟨f, hf, -⟩ | ⟨f, hf, -⟩ | hi | hi | hi | hi
    · exact exec_load_keeps hs hf hx h
    · cases (exec_store hf hx).symm.trans h
      exact keeps_storeTo (keeps_storeExcl hs (storeForm_size hf))
    · cases (exec_clrex hi hx).symm.trans h
      exact keeps_clrex
    · cases (exec_wfe hi hx).symm.trans h
      exact keeps_waitForEvent
    · cases (exec_sev hi hx).symm.trans h
      exact keeps_sendEvent
    · cases (exec_sevl hi hx).symm.trans h
      exact keeps_sendEventLocal

end Exec

/-! ## Actions -/

section Action
variable {s t : State} {p k n pa : Nat} {va : Word}

theorem plainStore_keeps {v : BitVec 64} (h : plainStore s p va n v = .next t) : Keeps s t := by
  unfold plainStore at h
  split at h
  · split at h
    · cases h
      exact (Keeps.refl s).takeException
    · split at h
      · rename_i hin
        split at h <;> cases h
        · exact (Keeps.refl s).takeException
        · exact ((Keeps.refl s).writeBytes fun _ => by simpa using hin).observeWrite.tick
      · cases h
  · cases h

theorem plainLoad_keeps (h : plainLoad s p va n = .next t) : Keeps s t := by
  unfold plainLoad at h
  split at h
  · split at h
    · cases h
      exact (Keeps.refl s).takeException
    · split at h
      · split at h <;> cases h
        · exact (Keeps.refl s).takeException
        · exact (Keeps.refl s).tick
      · cases h
  · cases h

theorem observerWrites_keeps {v : Nat} (h : observerWrites s k pa n v = .next t) : Keeps s t := by
  unfold observerWrites at h
  split at h
  · split at h
    · rename_i hin
      split at h <;> cases h
      · exact (Keeps.refl s).tick
      · exact ((Keeps.refl s).writeBytes fun _ => by simpa using hin).observeWrite.tick
    · cases h
  · cases h

theorem observerReads_keeps (h : observerReads s pa n = .next t) : Keeps s t := by
  unfold observerReads at h
  split at h
  · split at h <;> cases h
    exact (Keeps.refl s).tick
  · cases h

theorem Keeps.mayClearAll {s t : State} (h : Keeps s t) {k : Nat} {l g : Nat → PE → Bool} :
    Keeps s (t.updateAll fun m x => mayClear k m (l m x) (g m x) x) :=
  h.updateAll fun _ x => (onlyCleared_mayClear x ..).keepsPE

theorem keeps_preloadWrite : Keeps s (preloadWrite s p va) := by
  unfold preloadWrite
  split
  · exact (Keeps.refl s).tick
  · refine ((Keeps.refl s).updateAll fun m x => ?_).tick
    split
    · exact keepsPE_refl
    · exact (onlyCleared_mayClear x ..).keepsPE

theorem keeps_dataCacheMaintenance {target : CacheTarget} : Keeps s (dataCacheMaintenance s p target) :=
  (Keeps.refl s).mayClearAll.tick

theorem keeps_instrCacheInvalidateAll : Keeps s (instrCacheInvalidateAll s) := (Keeps.refl s).mayClearAll.tick

theorem keeps_instrCacheInvalidateVA : Keeps s (instrCacheInvalidateVA s p va) := by
  unfold instrCacheInvalidateVA
  split
  · exact (Keeps.refl s).tick
  · exact (Keeps.refl s).mayClearAll.tick

theorem Keeps.tlbInvalidation {s t : State} (h : Keeps s t) : Keeps s (tlbInvalidation t) := h.mayClearAll.tick

theorem spontaneous_keeps {f : PE → PE} (hf : ∀ x, onlyCleared x (f x)) (h : spontaneous s p f = .next t) :
    Keeps s t := by
  unfold spontaneous at h
  split at h <;> cases h
  exact ((Keeps.refl s).updatePE fun x => (hf x).keepsPE).tick

theorem keeps_returnFromException {lx : Option LoadRecord} {pair : PairStatus}
    (hlx : threadOk s.cfg (s.pe p).lx = true → threadOk s.cfg lx = true) :
    Keeps s (returnFromException s p lx pair) :=
  (Keeps.refl s).updatePE_at ⟨rfl, hlx⟩

/-- A change of the translation leaves mappings that keep alignment, and changes nothing else that `Keeps` names. -/
theorem changeTranslation_keeps {maps : List Mapping} {bbm : Bool} (h : changeTranslation s maps bbm = .next t) :
    maps.all mappingOk = true ∧ Keeps { s with xlat := maps } t := by
  unfold changeTranslation at h
  split at h
  · rename_i hmaps
    refine ⟨hmaps, ?_⟩
    have hmoved : Keeps { s with xlat := maps } (State.updateAll { s with xlat := maps } (noteMove s maps)) :=
      (Keeps.refl _).updateAll fun m x => (onlyCleared_noteMove x s maps m).keepsPE
    split at h
    · cases h
      exact hmoved.tlbInvalidation
    · split at h <;> cases h
      exact (Keeps.refl _).tick
  · cases h

/-- Every action keeps what `Keeps` says, a change of the translation all of it but the translation. -/
theorem perform_keeps {a : Action} (h : perform s a = .next t) :
    Keeps s t ∨ ∃ maps bbm, a = .remap maps bbm ∧ maps.all mappingOk = true ∧ Keeps { s with xlat := maps } t := by
  cases a with
  | remap maps bbm => exact .inr ⟨maps, bbm, rfl, changeTranslation_keeps h⟩
  | spontaneousClearLocal m => exact .inl (spontaneous_keeps onlyCleared_clearLocal h)
  | spontaneousClearGlobal m => exact .inl (spontaneous_keeps onlyCleared_clearGlobal h)
  | observerWrite k pa n v => exact .inl (observerWrites_keeps (byObserver_next h).2)
  | observerRead k pa n => exact .inl (observerReads_keeps (byObserver_next h).2)
  | store p va n v => exact .inl (plainStore_keeps (byPE_next h).2.2)
  | load p va n => exact .inl (plainLoad_keeps (byPE_next h).2.2)
  | exceptionReturnTo p lx pair =>
    obtain ⟨-, -, h⟩ := byPE_next h
    split at h <;> cases h
    rename_i hlx
    exact .inl (keeps_returnFromException fun _ => hlx).tick
  | installThread p lx pair =>
    obtain ⟨-, -, h⟩ := byPE_next h
    split at h <;> cases h
    rename_i hlx
    exact .inl ((Keeps.refl s).updatePE fun _ => keepsPE_installRecord hlx).tick
  | pldw q va => cases (byPE_next h).2.2; exact .inl keeps_preloadWrite
  | dcacheMaint q target => cases (byPE_next h).2.2; exact .inl keeps_dataCacheMaintenance
  | icacheInvalidateAll q => cases (byPE_next h).2.2; exact .inl keeps_instrCacheInvalidateAll
  | icacheInvalidateVA q va => cases (byPE_next h).2.2; exact .inl keeps_instrCacheInvalidateVA
  | tlbInvalidate q => cases (byPE_next h).2.2; exact .inl (Keeps.refl s).tlbInvalidation
  | takeDataAbort p =>
    cases (byPE_next h).2.2
    exact .inl ((Keeps.refl s).updatePE fun x => (onlyMonitors_dataAbortMonitors x ..).keepsPE).tick
  | exceptionReturn p => cases (byPE_next h).2.2; exact .inl (keeps_returnFromException id).tick
  | foreign p kind u =>
    cases (byPE_next h).2.2
    exact .inl ((Keeps.refl s).updatePE fun _ => keepsPE_foreignStep kind u).tick

end Action

/-! ## A step -/

/-- The state in which the turn of a step runs: the turn is taken from the agenda, and it is that of an existing PE, which
becomes the executing one, or an action; for a change of the translation, one with the new translation in place. -/
inductive TurnState (s : State) : State → Prop where
  | run {p : Nat} (turns : List Turn) (hp : p < s.npe) : TurnState s { s with cur := p, agenda := turns }
  | act (turns : List Turn) : TurnState s { s with agenda := turns }
  | remap {maps : List Mapping} {bbm : Bool} {turns : List Turn} (hturn : s.agenda = .act (.remap maps bbm) :: turns)
      (hmaps : maps.all mappingOk = true) : TurnState s { s with agenda := turns, xlat := maps }

/-- Everything a step can do, as far as `Keeps` says. -/
theorem step_keeps {s t : State} (h : step s = .next t) : systemOk s = true ∧ ∃ u, TurnState s u ∧ Keeps u t := by
  obtain ⟨hs, ⟨p, turns, hrun⟩ | ⟨a, turns, ha, hact⟩⟩ := step_next h
  · obtain ⟨hp, -, bs, i, rest, -, -, hexec⟩ := runCurrent_next hrun
    exact ⟨hs, _, .run turns hp, exec_keeps hs hexec⟩
  · obtain hk | ⟨maps, bbm, rfl, hmaps, hk⟩ := perform_keeps hact
    · exact ⟨hs, _, .act turns, hk⟩
    · exact ⟨hs, _, .remap ha hmaps, hk⟩

end Sys2Proof.Machine
end

section
/-! PROOF. What every step keeps: the invariant of the state, and the configuration and the programs (R6, R26, R27, R33,
R54, R80). -/

namespace Sys2Proof.Machine

/-- Taking the turn from the agenda keeps the invariant: a turn is that of a PE that exists, and a new translation keeps
alignment. -/
theorem TurnState.stateOk {s u : State} (hu : TurnState s u) (h : stateOk s = true) : Machine.stateOk u = true := by
  obtain ⟨hsys, hcur, hwf, hspace, hrec⟩ := stateOk_iff.mp h
  obtain ⟨hcfg, hnpe, -⟩ := systemOk_iff.mp hsys
  cases hu with
  | run turns hp => exact stateOk_iff.mpr ⟨hsys, hp, hwf, hspace, hrec⟩
  | act turns => exact stateOk_iff.mpr ⟨hsys, hcur, hwf, hspace, hrec⟩
  | remap _ hmaps => exact stateOk_iff.mpr ⟨systemOk_iff.mpr ⟨hcfg, hnpe, hmaps⟩, hcur, hwf, hspace, hrec⟩

theorem Keeps.stateOk {s t : State} (hk : Keeps s t) (h : stateOk s = true) : Machine.stateOk t = true := by
  obtain ⟨hsys, hcur, hdata⟩ := stateOk_iff.mp h
  exact stateOk_iff.mpr ⟨hk.systemOk hsys, by rw [hk.cur, hk.npe]; exact hcur, hk.data hdata⟩

/-- Settles O8: the turn is taken from the agenda, then the operation runs, and both keep the invariant. -/
theorem stepKeepsStateOk : Obligations.StepKeepsStateOk := by
  intro s t hs h
  obtain ⟨-, u, hu, hk⟩ := step_keeps h
  exact hk.stateOk (hu.stateOk hs)

/-- Settles O11: only the turn itself can bring a new translation, and it brings that of a `remap`. -/
theorem configurationAndProgramsStay : Obligations.ConfigurationAndProgramsStay := by
  intro s t h
  obtain ⟨-, u, hu, hk⟩ := step_keeps h
  cases hu with
  | run turns hp => exact ⟨hk.cfg, hk.attrs, hk.npe, hk.program, .inl hk.xlat⟩
  | act turns => exact ⟨hk.cfg, hk.attrs, hk.npe, hk.program, .inl hk.xlat⟩
  | remap hturn _ => exact ⟨hk.cfg, hk.attrs, hk.npe, hk.program, .inr ⟨_, _, _, hturn, hk.xlat⟩⟩

end Sys2Proof.Machine
end

section
/-! SUPPORT. CPSR after a completed instruction, the turn of a step with the instruction it executes, and the end of a
PE's run (R30, R108, D16). -/

namespace Sys2Proof.Machine

/-! ## CPSR (R30, R108) -/

section Cpsr
variable (it : BitVec 8) (set : ISet) (cpsr : Word)

@[simp] theorem itState_withItState : itState (withItState it cpsr) = it := by
  apply BitVec.eq_of_getLsbD_eq
  intro i hi
  simp only [itState, withItState, BitVec.getLsbD_extractLsb', BitVec.getLsbD_append]
  interval_cases i <;> simp

/-- Another IT state leaves every bit outside CPSR[15:10] and CPSR[26:25]. -/
theorem getLsbD_withItState {k : Nat} (hlow : ¬(10 ≤ k ∧ k ≤ 15)) (hhigh : ¬(25 ≤ k ∧ k ≤ 26)) :
    (withItState it cpsr).getLsbD k = cpsr.getLsbD k := by
  by_cases hk : k < 32
  · simp only [withItState, BitVec.getLsbD_extractLsb', BitVec.getLsbD_append]
    interval_cases k <;> simp_all
  · rw [BitVec.getLsbD_of_ge _ _ (by omega), BitVec.getLsbD_of_ge _ _ (by omega)]

theorem cpsrAdvanced_afterInstr : cpsrAdvanced set cpsr (afterInstr set cpsr) := by
  cases set with
  | a32 => rfl
  | t32 => exact ⟨itState_withItState .., fun k => getLsbD_withItState _ _⟩

theorem getLsbD_afterInstr {k : Nat} (hlow : ¬(10 ≤ k ∧ k ≤ 15)) (hhigh : ¬(25 ≤ k ∧ k ≤ 26)) :
    (afterInstr set cpsr).getLsbD k = cpsr.getLsbD k := by
  cases set with
  | a32 => rfl
  | t32 => exact getLsbD_withItState _ _ hlow hhigh

end Cpsr

/-! ## The turn of a step and its instruction -/

theorem executed_of_fetch {s : State} {p : Nat} {bs rest : List Byte} {i : Instr}
    (h : s.agenda = [] ∧ p = s.cur ∨ ∃ turns, s.agenda = .run p :: turns) (hb : fetchBytes s p = some bs)
    (hd : decodeFor s p bs = .ok (i, rest)) : mover s = some p ∧ executed s = some (p, i) := by
  rcases h with ⟨ha, rfl⟩ | ⟨turns, ha⟩ <;> simp [mover, executed, ha, hb, hd]

/-- A step that answers a next state executes an instruction of the PE whose turn it is, or performs an action. -/
theorem step_turn {s t : State} (h : step s = .next t) :
    (∃ p i turns, mover s = some p ∧ executed s = some (p, i) ∧ p < s.npe ∧ (s.pe p).ended = none ∧
        exec i { s with cur := p, agenda := turns } = .next t) ∨
      ∃ a turns, s.agenda = .act a :: turns ∧ perform { s with agenda := turns } a = .next t := by
  obtain ⟨hs, -⟩ := step_next h
  have run : ∀ p, (s.agenda = [] ∧ p = s.cur ∨ ∃ turns, s.agenda = .run p :: turns) →
      ∃ p i turns, mover s = some p ∧ executed s = some (p, i) ∧ p < s.npe ∧ (s.pe p).ended = none ∧
        exec i { s with cur := p, agenda := turns } = .next t := fun p hturn => by
    obtain ⟨turns, hstep⟩ := step_run hs hturn
    obtain ⟨hp, he, bs, i, rest, hb, hd, hexec⟩ := runCurrent_next (hstep ▸ h)
    obtain ⟨hmover, hexecuted⟩ := executed_of_fetch hturn hb hd
    exact ⟨p, i, turns, hmover, hexecuted, hp, he, hexec⟩
  cases ha : s.agenda with
  | nil => exact .inl (run s.cur (.inl ⟨ha, rfl⟩))
  | cons turn turns =>
    cases turn with
    | run p => exact .inl (run p (.inr ⟨turns, ha⟩))
    | act a => exact .inr ⟨a, turns, rfl, step_act hs ha ▸ h⟩

/-! ## A PE's run that ends (D16) -/

/-- PE `p`'s run ended in `s`, by a model fault or by an exception. -/
def runStops (s : State) (p : Nat) (t : State) : Prop := ∃ c, t = endRun s p c ∨ t = takeException s p c

section RunStops
variable {s t : State} {p : Nat}

theorem runStops_endRun {c : EndCause} : runStops s p (endRun s p c) := ⟨c, .inl rfl⟩

theorem runStops_takeException {c : EndCause} : runStops s p (takeException s p c) := ⟨c, .inr rfl⟩

theorem runStops.ended (h : runStops s p t) (hp : p < s.npe) : (t.pe p).ended ≠ none := by
  obtain ⟨c, rfl | rfl⟩ := h <;> simp [hp]

end RunStops

end Sys2Proof.Machine
end

section
/-! SUPPORT. What a step may do to each PE and to memory: four aspects of a PE and memory, each kept or permitted to
change; one rule per state operation, and the walk through every instruction and action (R25, R27, R30, R34, R192). -/

namespace Sys2Proof.Machine

/-! ## What an operation may change of a PE -/

/-- The aspects of a PE that only few operations change. -/
inductive Aspect where
  /-- the flags, the instruction set bit and FPSCR (R30) -/
  | flags
  /-- the fault report registers (R192) -/
  | report
  /-- no monitor enters Exclusive Access (R34) -/
  | marks
  /-- a held event stays held (R25) -/
  | event

/-- The flags, the instruction set bit and FPSCR. -/
def flagsOf (x : PE) : Bool × Bool × Bool × Bool × ISet × Word :=
  (flagN x.cpsr, flagZ x.cpsr, flagC x.cpsr, flagV x.cpsr, isetOf x.cpsr, x.fpscr)

/-- The fault report registers. -/
def reportOf (x : PE) : Word × Word × Word × Word := (x.dfsr, x.dfar, x.hsr, x.hdfar)

/-- An aspect of a PE is kept. -/
def Aspect.kept : Aspect → PE → PE → Prop
  | .flags, x, y => flagsOf y = flagsOf x
  | .report, x, y => reportOf y = reportOf x
  | .marks, x, y => (y.lm.isSet = true → x.lm.isSet = true) ∧ (y.gm.isSet = true → x.gm.isSet = true)
  | .event, x, y => x.ev = true → y.ev = true

/-- Every aspect of a PE but the permitted ones is kept. -/
def keepsBut (P : Aspect → Prop) (x y : PE) : Prop := ∀ a, P a ∨ a.kept x y

section PE
variable {P : Aspect → Prop} {x y z : PE}

theorem keepsBut_refl : keepsBut P x x := fun a => .inr <| by
  cases a with
  | flags | report => rfl
  | marks => exact ⟨id, id⟩
  | event => exact id

theorem keepsBut_trans (h : keepsBut P x y) (h' : keepsBut P y z) : keepsBut P x z := fun a => by
  rcases h a with h | h
  · exact .inl h
  rcases h' a with h' | h'
  · exact .inl h'
  refine .inr ?_
  cases a with
  | flags | report => exact Eq.trans h' h
  | marks => exact ⟨h.1 ∘ h'.1, h.2 ∘ h'.2⟩
  | event => exact h' ∘ h

/-- A change of registers, PC, record, pair or cause of the end alone. -/
theorem keepsBut_same (hf : flagsOf y = flagsOf x) (hr : reportOf y = reportOf x) (hl : y.lm = x.lm) (hg : y.gm = x.gm)
    (he : y.ev = x.ev) : keepsBut P x y := fun a => .inr <| by
  cases a with
  | flags => exact hf
  | report => exact hr
  | marks => exact ⟨(hl ▸ ·), (hg ▸ ·)⟩
  | event => exact (he ▸ ·)

/-- Monitors that may be marked, the other aspects kept. -/
theorem keepsBut_marks (hP : P .marks) (hf : flagsOf y = flagsOf x) (hr : reportOf y = reportOf x)
    (he : x.ev = true → y.ev = true) : keepsBut P x y := fun a => by
  cases a with
  | flags => exact .inr hf
  | report => exact .inr hr
  | marks => exact .inl hP
  | event => exact .inr he

/-- Clearing a monitor keeps every aspect: a clear marks nothing and only adds an event. -/
theorem onlyCleared.keepsBut (h : onlyCleared x y) : keepsBut P x y := fun a => .inr <| by
  obtain ⟨⟨hxy, -⟩, hl, hg⟩ := h
  cases a with
  | flags | report => rw [hxy]; rfl
  | marks =>
    refine ⟨fun hs => ?_, fun hs => ?_⟩
    · rcases hl with hl | hl
      · rwa [hl] at hs
      · rw [hl] at hs; cases hs
    · rcases hg with ⟨hg, -⟩ | ⟨-, hg, -⟩
      · rwa [hg] at hs
      · rw [hg] at hs; cases hs
  | event =>
    rcases hg with ⟨-, he⟩ | ⟨-, -, he⟩
    · exact (he ▸ ·)
    · exact fun _ => he

theorem keepsBut_setEvent : keepsBut P x { x with ev := true } := fun a => .inr <| by
  cases a with
  | flags | report => rfl
  | marks => exact ⟨id, id⟩
  | event => exact fun _ => rfl

theorem keepsBut_takeEvent (hP : P .event) : keepsBut P x { x with ev := false } := fun a => by
  cases a with
  | event => exact .inl hP
  | flags | report => exact .inr rfl
  | marks => exact .inr ⟨id, id⟩

/-- The advance of the IT state keeps the flags. -/
theorem flagsOf_afterInstr (set : ISet) (pc : Nat) :
    flagsOf { x with pc := pc, cpsr := afterInstr set x.cpsr } = flagsOf x := by
  have hbit : ∀ k, (k = 5 ∨ 28 ≤ k) → (afterInstr set x.cpsr).getLsbD k = x.cpsr.getLsbD k := fun k hk =>
    getLsbD_afterInstr set x.cpsr (by omega) (by omega)
  simp (disch := omega) only [flagsOf, flagN, flagZ, flagC, flagV, isetOf, hbit]

theorem keepsBut_complete {set : ISet} : keepsBut P x { x with pc := x.pc + 1, cpsr := afterInstr set x.cpsr } :=
  keepsBut_same (flagsOf_afterInstr ..) rfl rfl rfl rfl

theorem dataAbortMonitors_keepsEvent (n p : Nat) : x.ev = true → (dataAbortMonitors n p x).ev = true := fun h => by
  simp [dataAbortMonitors, unknownGlobal, unknownLocal, h]

theorem keepsBut_dataAbortMonitors (hP : P .marks) {n p : Nat} : keepsBut P x (dataAbortMonitors n p x) :=
  keepsBut_marks hP rfl rfl (dataAbortMonitors_keepsEvent n p)

theorem keepsBut_unknownLocal (hP : P .marks) {n p : Nat} : keepsBut P x (unknownLocal n p x) :=
  keepsBut_marks hP rfl rfl id

theorem keepsBut_loadMarks (hP : P .marks) {s : State} {p : Nat} {sh : Bool} {r : LoadRecord} :
    keepsBut P x (loadMarks s p sh r x) := by
  rw [loadMarks_frame]
  exact keepsBut_marks hP rfl rfl id

/-- Reporting a fault changes the report registers alone, and an exception the monitors too. -/
theorem keepsBut_takeException (hr : P .report) (hm : P .marks) {cfg : Config} {n p : Nat} {c : EndCause} :
    keepsBut P x { reportFault cfg n c (dataAbortMonitors n p x) with ended := some c } := fun a => by
  obtain ⟨-, -, -, hcpsr, hfpscr, -, -, hev, -⟩ := reportFault_frame (dataAbortMonitors n p x) cfg n c
  cases a with
  | flags => exact .inr (by simp only [Aspect.kept, flagsOf, hcpsr, hfpscr]; rfl)
  | report => exact .inl hr
  | marks => exact .inl hm
  | event => exact .inr fun h => hev.trans (dataAbortMonitors_keepsEvent n p h)

/-- A foreign instruction changes flags unless it is a barrier, and the report registers if it is a System register
write (R77, R180). -/
theorem keepsBut_foreignStep {kind : ForeignKind} (u : RegisterFile) (hf : kind ≠ .isb → P .flags)
    (hr : ∀ a b c d, kind = .systemRegisterWrite a b c d → P .report) :
    keepsBut P x (foreignStep kind u x) := fun a => by
  cases kind with
  | isb => exact keepsBut_complete a
  | systemRegisterWrite dfsr dfar hsr hdfar =>
    cases a with
    | flags => exact .inl (hf (by simp))
    | report => exact .inl (hr _ _ _ _ rfl)
    | marks => exact .inr ⟨id, id⟩
    | event => exact .inr id
  | registerOnly | prefetch | addressTranslation | exceptionGenerating | indirectBranch | branchWithLink =>
    cases a with
    | flags => exact .inl (hf (by simp))
    | report => exact .inr rfl
    | marks => exact .inr ⟨id, id⟩
    | event => exact .inr id

end PE

/-! ## What an operation may change of the state -/

/-- What an operation is permitted to change: of each PE, and whether memory. -/
structure Permit where
  part : Nat → Aspect → Prop
  memory : Prop

/-- From `s` to `t` nothing changes, of the aspects of the PEs and of memory, but what is permitted. -/
structure Within (P : Permit) (s t : State) : Prop where
  pe : ∀ m, keepsBut (P.part m) (s.pe m) (t.pe m)
  mem : P.memory ∨ t.mem = s.mem

namespace Within
variable {P : Permit} {s t : State} {p : Nat}

theorem refl (s : State) : Within P s s := ⟨fun _ => keepsBut_refl, .inr rfl⟩

theorem tick (h : Within P s t) : Within P s t.tick := ⟨h.pe, h.mem⟩

theorem updatePE (h : Within P s t) {f : PE → PE} (hf : ∀ x, keepsBut (P.part p) x (f x)) :
    Within P s (t.updatePE p f) := by
  refine ⟨fun m => keepsBut_trans (h.pe m) ?_, h.mem⟩
  rw [pe_updatePE]
  split
  · rename_i hm
    obtain ⟨rfl, -⟩ := hm
    exact hf _
  · exact keepsBut_refl

theorem updateAll (h : Within P s t) {g : Nat → PE → PE} (hg : ∀ m x, keepsBut (P.part m) x (g m x)) :
    Within P s (t.updateAll g) := by
  refine ⟨fun m => keepsBut_trans (h.pe m) ?_, h.mem⟩
  by_cases hm : m < t.npe
  · rw [pe_updateAll _ _ _ hm]
    exact hg _ _
  · have hm' : t.pes.length ≤ m := Nat.le_of_not_lt hm
    simpa [State.pe, State.updateAll, hm'] using keepsBut_refl

theorem setReg (h : Within P s t) {r : Reg} {v : Word} : Within P s (t.setReg p r v) :=
  h.updatePE fun _ => keepsBut_same rfl rfl rfl rfl rfl

theorem writeDests (h : Within P s t) {pa : Nat} (ds : List LoadDest) : Within P s (writeDests t p pa ds) :=
  List.foldlRecOn ds _ h fun _ hu _ _ => hu.setReg

theorem writeBytes (h : Within P s t) (hmem : P.memory) {pa : Nat} {bs : List Byte} :
    Within P s (t.writeBytes pa bs) := ⟨h.pe, .inl hmem⟩

theorem observeWrite (h : Within P s t) {call pa len : Nat} {o : Observer} {k : WriteKind} {attr : MemAttr} :
    Within P s (observeWrite t call o pa len k attr) :=
  ⟨fun m => keepsBut_trans (h.pe m) (onlyCleared_observeWrite ..).keepsBut, h.mem⟩

theorem complete (h : Within P s t) {set : ISet} : Within P s (complete set t p) :=
  (h.updatePE fun _ => keepsBut_complete).tick

theorem endRun (h : Within P s t) {c : EndCause} : Within P s (endRun t p c) := by
  refine (h.updatePE fun _ => ?_).tick
  exact keepsBut_same rfl rfl rfl rfl rfl

theorem takeException (h : Within P s t) (hr : P.part p .report) (hm : P.part p .marks) {c : EndCause} :
    Within P s (takeException t p c) :=
  (h.updatePE fun _ => keepsBut_takeException hr hm).tick

theorem closePair (h : Within P s t) : Within P s (t.updatePE p closePair) :=
  h.updatePE fun _ => keepsBut_same rfl rfl rfl rfl rfl

/-- An operation that only clears the monitors of one PE. -/
theorem clear (h : Within P s t) {f : PE → PE} (hf : ∀ x, onlyCleared x (f x)) : Within P s (t.updatePE p f) :=
  h.updatePE fun x => (hf x).keepsBut

/-- An operation that only clears monitors, of every PE. -/
theorem clearAll (h : Within P s t) {g : Nat → PE → PE} (hg : ∀ m x, onlyCleared x (g m x)) :
    Within P s (t.updateAll g) :=
  h.updateAll fun m x => (hg m x).keepsBut

theorem of_runStops (h : runStops s p t) (hr : P.part p .report) (hm : P.part p .marks) : Within P s t := by
  obtain ⟨c, rfl | rfl⟩ := h
  · exact (refl s).endRun
  · exact (refl s).takeException hr hm

end Within

/-! ## The Load-Exclusives (R120, R191) -/

section Operations
variable {P : Permit} {s t : State} {p k n pa : Nat} {va : Word} {attr : MemAttr} {bs : List Byte}

/-- A load's result ends the PE's run or stays within what is permitted. -/
def LoadResult.within (P : Permit) (s : State) (p : Nat) : LoadResult → Prop
  | .value t _ | .noWriteback t => Within P s t
  | .ended t => runStops s p t

theorem noGlobalMonitorLoad_within (hm : P.part p .marks) : (noGlobalMonitorLoad s p va pa n attr).within P s p := by
  unfold noGlobalMonitorLoad
  split
  · exact runStops_endRun
  split
  · exact runStops_takeException
  split
  · exact runStops_takeException
  split
  · exact .refl s
  split
  · split
    · exact runStops_takeException
    · exact (Within.refl s).updatePE fun x =>
        keepsBut_trans (keepsBut_loadMarks hm) (keepsBut_unknownLocal hm)
  · exact runStops_endRun

theorem loadExcl_within (hm : P.part p .marks) : (loadExcl s p va n).within P s p := by
  unfold loadExcl
  split
  · exact runStops_endRun
  split
  · exact runStops_takeException
  split
  · exact noGlobalMonitorLoad_within hm
  split
  · exact runStops_takeException
  · exact (Within.refl s).updatePE fun x => keepsBut_loadMarks hm

/-! ## The Store-Exclusives (R140, R141, R191) -/

/-- A store's result ends the PE's run or stays within what is permitted. -/
def StoreResult.within (P : Permit) (s : State) (p : Nat) : StoreResult → Prop
  | .status t _ _ | .noWriteback t => Within P s t
  | .ended t => runStops s p t

theorem Within.storePasses (h : P.memory) {own : PE → PE} (hown : ∀ x, onlyCleared x (own x)) :
    Within P s (storePasses s p pa attr bs own) :=
  (((Within.refl s).writeBytes h).clear hown).observeWrite

theorem Within.scramble (h : Within P s t) (hmem : P.memory) : Within P s (scramble t p k pa n attr) :=
  (h.writeBytes hmem).observeWrite

theorem storeNonShareable_within (hmem : P.memory) : (storeNonShareable s p va pa attr bs).within P s p := by
  unfold storeNonShareable
  split
  · split
    · exact runStops_takeException
    · exact .storePasses hmem fun x => onlyCleared_clearBoth ..
  · exact (Within.refl s).clear onlyCleared_clearLocal

theorem storeShareable_within (hmem : P.memory) : (storeShareable s p va pa attr bs).within P s p := by
  unfold storeShareable
  split
  · dsimp only
    split
    · split
      · exact runStops_takeException
      · exact .storePasses hmem fun x => onlyCleared_clearBoth ..
    · exact (Within.refl s).clear fun x => onlyCleared_clearBoth ..
  · exact (Within.refl s).clear onlyCleared_clearLocal

theorem noGlobalMonitorStore_within (hmem : P.memory) (hm : P.part p .marks) :
    (noGlobalMonitorStore s p va pa attr bs).within P s p := by
  unfold noGlobalMonitorStore
  split
  · exact runStops_endRun
  split
  · exact runStops_takeException
  split
  · exact runStops_takeException
  split
  · split <;> exact Within.refl s
  split
  · have hlocal := storeNonShareable_within (s := s) (p := p) (va := va) (pa := pa) (attr := attr) (bs := bs) hmem
    split
    · rename_i hr
      rw [hr] at hlocal
      exact Within.updatePE hlocal fun x => keepsBut_unknownLocal hm
    · exact hlocal
  split
  · split
    · split
      · exact runStops_takeException
      · exact .storePasses hmem onlyCleared_refl
    · exact Within.refl s
  · exact runStops_endRun

theorem storeChecked_within (hmem : P.memory)
    (hm : shareable attr = true → gMon s.cfg pa attr = false → P.part p .marks) :
    (storeChecked s p va pa attr bs).within P s p := by
  unfold storeChecked
  split
  · rename_i hsh
    split
    · exact storeShareable_within hmem
    · rename_i hg
      exact noGlobalMonitorStore_within hmem (hm hsh (by simpa using hg))
  · exact storeNonShareable_within hmem

theorem pairEnvelope_within {kind : PairKind} {r : LoadRecord} (hmem : P.memory)
    (hm : kind = .va → P.part p .marks) : (pairEnvelope s p va pa n attr kind r).within P s p := by
  have hclear : Within P s (s.updatePE p clearLocal) := (Within.refl s).clear onlyCleared_clearLocal
  unfold pairEnvelope
  dsimp only
  split
  · exact runStops_takeException
  cases kind with
  | va =>
    have habort : Within P s (s.updatePE p (dataAbortMonitors s.fresh p)) :=
      (Within.refl s).updatePE fun x => keepsBut_dataAbortMonitors (hm rfl)
    exact (habort.scramble hmem).scramble hmem
  | size => exact hclear.scramble hmem
  | attr => exact hclear.scramble hmem

/-- The case of another virtual address is named only where the record has another one (CU1, R141). -/
theorem pairMismatch_va {lx : Option LoadRecord} {r : LoadRecord} (h : pairMismatch lx va n attr = some (.va, r)) :
    lx = some r ∧ r.va ≠ va := by
  refine ⟨pairMismatch_some h, ?_⟩
  unfold pairMismatch at h
  split at h
  · cases h
  · split_ifs at h with hva <;> cases h
    exact Ne.symm hva

/-- A Store-Exclusive of `va` has an outcome that leaves monitors UNKNOWN: its location is shareable without a global
monitor (R191), or it names another virtual address than the Load-Exclusive (CU1, R141). -/
def marksUnknown (s : State) (p : Nat) (va : Word) : Prop :=
  ∃ pa attr, translate s p va .write = some (pa, attr) ∧
    (shareable attr = true ∧ gMon s.cfg pa attr = false ∨ ∃ r, (s.pe p).lx = some r ∧ r.va ≠ va)

theorem storeExcl_within (hmem : P.memory) (hm : marksUnknown s p va → P.part p .marks) :
    (storeExcl s p va bs).within P s p := by
  unfold storeExcl
  split
  · exact runStops_endRun
  split
  · exact runStops_takeException
  rename_i pa attr htr
  have hchecked : (storeChecked s p va pa attr bs).within P s p :=
    storeChecked_within hmem fun hsh hg => hm ⟨pa, attr, htr, .inl ⟨hsh, hg⟩⟩
  split
  · exact hchecked
  rename_i kind r hpair
  split
  · exact runStops_endRun
  split
  · exact hchecked
  · refine pairEnvelope_within hmem fun hk => hm ⟨pa, attr, htr, .inr ⟨r, ?_⟩⟩
    subst hk
    exact pairMismatch_va hpair

/-! ## Instructions -/

theorem exec_load_within {i : Instr} {f : LoadForm} (hm : P.part s.cur .marks) (hf : loadForm s i = some f)
    (hx : executes s i = true) (h : exec i s = .next t) : runStops s s.cur t ∨ Within P s t := by
  have hload : (loadExcl s s.cur f.va f.n).within P s s.cur := loadExcl_within hm
  cases (exec_load hf hx).symm.trans h
  split <;> rename_i hr <;> rw [hr] at hload
  · exact .inr (Within.writeDests hload _).complete
  · exact .inr (Within.complete hload)
  · exact .inl hload

theorem storeTo_within {set : ISet} {rd : Reg} (h : (storeExcl s s.cur va bs).within P s s.cur) :
    runStops s s.cur (storeTo set s rd va bs) ∨ Within P s (storeTo set s rd va bs) := by
  unfold storeTo
  split <;> rename_i hr <;> rw [hr] at h
  · exact .inr (Within.closePair h).setReg.complete
  · exact .inr (Within.closePair h).complete
  · exact .inl h

theorem clrex_within {set : ISet} : Within P s (clrex set s) :=
  ((Within.refl s).clear fun _ => onlyCleared_clearBoth ..).complete

theorem waitForEvent_within {set : ISet} (he : P.part s.cur .event) : Within P s (waitForEvent set s) := by
  unfold waitForEvent
  split
  · exact ((Within.refl s).updatePE fun _ => keepsBut_takeEvent he).complete
  split
  · exact (Within.refl s).complete
  · exact (Within.refl s).tick

theorem sendEvent_within {set : ISet} : Within P s (sendEvent set s) :=
  ((Within.refl s).updateAll fun _ _ => keepsBut_setEvent).complete

theorem sendEventLocal_within {set : ISet} : Within P s (sendEventLocal set s) :=
  ((Within.refl s).updatePE fun _ => keepsBut_setEvent).complete

/-- Every instruction, by its form: it ends the PE's run, or a Load-Exclusive marks, a Store-Exclusive writes memory and
marks where the outcome is UNKNOWN, WFE takes an event. -/
theorem exec_within {i : Instr} (hload : columnOf i = .loadExclusive → P.part s.cur .marks)
    (hmem : columnOf i = .storeExclusive → P.memory)
    (hstore : ∀ f, storeForm s i = some f → marksUnknown s s.cur f.va → P.part s.cur .marks)
    (hwfe : (i = .wfeT ∨ i = .wfeW ∨ ∃ c, i = .wfeA c) → P.part s.cur .event)
    (h : exec i s = .next t) : runStops s s.cur t ∨ Within P s t := by
  cases hx : executes s i with
  | false =>
    cases (exec_skip hx).symm.trans h
    exact .inr (Within.refl s).complete
  | true =>
    rcases form_cases s i with ⟨f, hf, hc⟩ | ⟨f, hf, hc⟩ | hi | hi | hi | hi
    · exact exec_load_within (hload hc) hf hx h
    · cases (exec_store hf hx).symm.trans h
      exact storeTo_within (storeExcl_within (hmem hc) (hstore f hf))
    · cases (exec_clrex hi hx).symm.trans h
      exact .inr clrex_within
    · cases (exec_wfe hi hx).symm.trans h
      exact .inr (waitForEvent_within (hwfe hi))
    · cases (exec_sev hi hx).symm.trans h
      exact .inr sendEvent_within
    · cases (exec_sevl hi hx).symm.trans h
      exact .inr sendEventLocal_within

/-! ## Actions -/

theorem plainStore_within {v : BitVec 64} (hmem : P.memory) (h : plainStore s p va n v = .next t) :
    runStops s p t ∨ Within P s t := by
  unfold plainStore at h
  split at h
  · split at h
    · cases h
      exact .inl runStops_takeException
    · split at h
      · split at h <;> cases h
        · exact .inl runStops_takeException
        · exact .inr ((Within.refl s).writeBytes hmem).observeWrite.tick
      · cases h
  · cases h

theorem plainLoad_within (h : plainLoad s p va n = .next t) : runStops s p t ∨ Within P s t := by
  unfold plainLoad at h
  split at h
  · split at h
    · cases h
      exact .inl runStops_takeException
    · split at h
      · split at h <;> cases h
        · exact .inl runStops_takeException
        · exact .inr (Within.refl s).tick
      · cases h
  · cases h

theorem observerWrites_within {v : Nat} (hmem : P.memory) (h : observerWrites s k pa n v = .next t) : Within P s t := by
  unfold observerWrites at h
  split at h
  · split at h
    · split at h <;> cases h
      · exact (Within.refl s).tick
      · exact ((Within.refl s).writeBytes hmem).observeWrite.tick
    · cases h
  · cases h

theorem observerReads_within (h : observerReads s pa n = .next t) : Within P s t := by
  unfold observerReads at h
  split at h
  · split at h <;> cases h
    exact (Within.refl s).tick
  · cases h

theorem preloadWrite_within : Within P s (preloadWrite s p va) := by
  unfold preloadWrite
  split
  · exact (Within.refl s).tick
  · refine ((Within.refl s).clearAll fun m x => ?_).tick
    split
    · exact onlyCleared_refl x
    · exact onlyCleared_mayClear ..

theorem dataCacheMaintenance_within {target : CacheTarget} : Within P s (dataCacheMaintenance s p target) :=
  ((Within.refl s).clearAll fun _ _ => onlyCleared_mayClear ..).tick

theorem instrCacheInvalidateAll_within : Within P s (instrCacheInvalidateAll s) :=
  ((Within.refl s).clearAll fun _ _ => onlyCleared_mayClear ..).tick

theorem instrCacheInvalidateVA_within : Within P s (instrCacheInvalidateVA s p va) := by
  unfold instrCacheInvalidateVA
  split
  · exact (Within.refl s).tick
  · exact ((Within.refl s).clearAll fun _ _ => onlyCleared_mayClear ..).tick

theorem Within.tlbInvalidation (h : Within P s t) : Within P s (tlbInvalidation t) :=
  (h.clearAll fun _ _ => onlyCleared_mayClear ..).tick

theorem changeTranslation_within {maps : List Mapping} {bbm : Bool} (h : changeTranslation s maps bbm = .next t) :
    Within P s t := by
  have hmoved : Within P s (s.updateAll (noteMove s maps)) :=
    (Within.refl s).clearAll fun m x => onlyCleared_noteMove x s maps m
  unfold changeTranslation at h
  split at h
  · split at h
    · cases h
      have hmapped : Within P s { s.updateAll (noteMove s maps) with xlat := maps } := ⟨hmoved.pe, hmoved.mem⟩
      exact hmapped.tlbInvalidation
    · split at h <;> cases h
      exact ⟨fun _ => keepsBut_refl, .inr rfl⟩
  · cases h

theorem spontaneous_within {f : PE → PE} (hf : ∀ x, onlyCleared x (f x)) (h : spontaneous s p f = .next t) :
    Within P s t := by
  unfold spontaneous at h
  split at h <;> cases h
  exact ((Within.refl s).clear hf).tick

theorem Within.installRecord (h : Within P s t) {lx : Option LoadRecord} {pair : PairStatus} :
    Within P s (t.updatePE p (installRecord lx pair)) :=
  h.updatePE fun _ => keepsBut_same rfl rfl rfl rfl rfl

theorem returnFromException_within {lx : Option LoadRecord} {pair : PairStatus} :
    Within P s (returnFromException s p lx pair) :=
  (Within.refl s).updatePE fun x =>
    keepsBut_trans (onlyCleared_clearLocal x).keepsBut (keepsBut_same rfl rfl rfl rfl rfl)

/-- Every action: a plain access may end its PE's run, a write writes memory, a Data Abort marks, a foreign instruction
writes flags and report registers, and nothing else changes anything that needs a permit. -/
theorem perform_within {a : Action}
    (hmem : (∃ p va n v, a = .store p va n v) ∨ (∃ k pa n v, a = .observerWrite k pa n v) → P.memory)
    (habort : ∀ p, a = .takeDataAbort p → P.part p .marks)
    (hflags : ∀ p kind u, a = .foreign p kind u → kind ≠ .isb → P.part p .flags)
    (hreport : ∀ p w x y z u, a = .foreign p (.systemRegisterWrite w x y z) u → P.part p .report)
    (h : perform s a = .next t) :
    Within P s t ∨ ∃ p, actorOf a = some p ∧ p < s.npe ∧ (s.pe p).ended = none ∧ runStops s p t := by
  cases a with
  | store p va n v =>
    obtain ⟨hp, he, h⟩ := byPE_next h
    exact (plainStore_within (hmem (.inl ⟨p, va, n, v, rfl⟩)) h).symm.imp_right fun hr => ⟨p, rfl, hp, he, hr⟩
  | load p va n =>
    obtain ⟨hp, he, h⟩ := byPE_next h
    exact (plainLoad_within h).symm.imp_right fun hr => ⟨p, rfl, hp, he, hr⟩
  | observerWrite k pa n v =>
    exact .inl (observerWrites_within (hmem (.inr ⟨k, pa, n, v, rfl⟩)) (byObserver_next h).2)
  | observerRead k pa n => exact .inl (observerReads_within (byObserver_next h).2)
  | pldw q va => cases (byPE_next h).2.2; exact .inl preloadWrite_within
  | dcacheMaint q target => cases (byPE_next h).2.2; exact .inl dataCacheMaintenance_within
  | icacheInvalidateAll q => cases (byPE_next h).2.2; exact .inl instrCacheInvalidateAll_within
  | icacheInvalidateVA q va => cases (byPE_next h).2.2; exact .inl instrCacheInvalidateVA_within
  | tlbInvalidate q => cases (byPE_next h).2.2; exact .inl (Within.refl s).tlbInvalidation
  | remap maps bbm => exact .inl (changeTranslation_within h)
  | spontaneousClearLocal m => exact .inl (spontaneous_within onlyCleared_clearLocal h)
  | spontaneousClearGlobal m => exact .inl (spontaneous_within onlyCleared_clearGlobal h)
  | takeDataAbort p =>
    cases (byPE_next h).2.2
    exact .inl ((Within.refl s).updatePE fun _ => keepsBut_dataAbortMonitors (habort p rfl)).tick
  | exceptionReturn p => cases (byPE_next h).2.2; exact .inl returnFromException_within.tick
  | exceptionReturnTo p lx pair =>
    obtain ⟨-, -, h⟩ := byPE_next h
    split at h <;> cases h
    exact .inl returnFromException_within.tick
  | installThread p lx pair =>
    obtain ⟨-, -, h⟩ := byPE_next h
    split at h <;> cases h
    exact .inl (Within.refl s).installRecord.tick
  | foreign p kind u =>
    cases (byPE_next h).2.2
    refine .inl ((Within.refl s).updatePE fun _ => keepsBut_foreignStep u (hflags p kind u rfl) ?_).tick
    rintro w x y z rfl
    exact hreport p w x y z u rfl

end Operations

end Sys2Proof.Machine
end

section
/-! SUPPORT. What one step may change: flags, fault report registers, marks, events and memory, each only where a named
cause permits it (R25, R27, R30, R34, R192). -/

namespace Sys2Proof.Machine

/-- The causes for which a step from `s` to `t` changes an aspect of a PE, or memory. -/
def stepPermit (s t : State) : Permit where
  part m
    | .flags => ∃ kind u turns, kind ≠ .isb ∧ s.agenda = .act (.foreign m kind u) :: turns
    | .report =>
      (t.pe m).ended ≠ (s.pe m).ended ∨
        ∃ a b c d u turns, s.agenda = .act (.foreign m (.systemRegisterWrite a b c d) u) :: turns
    | .marks =>
      mover s = some m ∧
        ((∃ i, executed s = some (m, i) ∧ columnOf i = .loadExclusive) ∨ (t.pe m).ended ≠ none ∨
          (∃ turns, s.agenda = .act (.takeDataAbort m) :: turns) ∨
          ∃ i f, executed s = some (m, i) ∧ storeForm { s with cur := m } i = some f ∧ marksUnknown s m f.va)
    | .event => ∃ i, executed s = some (m, i) ∧ (i = .wfeT ∨ i = .wfeW ∨ ∃ c, i = .wfeA c)
  memory :=
    (∃ p i, executed s = some (p, i) ∧ columnOf i = .storeExclusive) ∨
      (∃ p va n v turns, s.agenda = .act (.store p va n v) :: turns) ∨
      ∃ k pa n v turns, s.agenda = .act (.observerWrite k pa n v) :: turns

section Step
variable {s t : State} {p : Nat}

/-- The end of the mover's run is a cause for its report registers and its monitors. -/
theorem within_of_runStops {turns : List Turn} {cur : Nat} (hm : mover s = some p) (hp : p < s.npe)
    (he : (s.pe p).ended = none) (h : runStops { s with cur := cur, agenda := turns } p t) :
    Within (stepPermit s t) { s with cur := cur, agenda := turns } t :=
  have hended : (t.pe p).ended ≠ none := h.ended hp
  .of_runStops h (.inl (by rwa [he])) ⟨hm, .inr (.inl hended)⟩

theorem exec_within_step {i : Instr} {turns : List Turn} (hm : mover s = some p) (hi : executed s = some (p, i))
    (hp : p < s.npe) (he : (s.pe p).ended = none) (h : exec i { s with cur := p, agenda := turns } = .next t) :
    Within (stepPermit s t) { s with cur := p, agenda := turns } t := by
  have hcases : runStops { s with cur := p, agenda := turns } p t ∨
      Within (stepPermit s t) { s with cur := p, agenda := turns } t := by
    refine exec_within (fun hc => ?load) (fun hc => ?memory) (fun f hf hu => ?store) (fun hw => ?wfe) h
    case load => exact ⟨hm, .inl ⟨i, hi, hc⟩⟩
    case memory => exact .inl ⟨p, i, hi, hc⟩
    case store =>
      have hform : storeForm { s with cur := p } i = some f := by rw [← hf]; cases i <;> rfl
      exact ⟨hm, .inr (.inr (.inr ⟨i, f, hi, hform, hu⟩))⟩
    case wfe => exact ⟨i, hi, hw⟩
  exact hcases.elim (within_of_runStops hm hp he) id

theorem perform_within_step {a : Action} {turns : List Turn} (ha : s.agenda = .act a :: turns)
    (h : perform { s with agenda := turns } a = .next t) : Within (stepPermit s t) { s with agenda := turns } t := by
  have hmover : ∀ {q}, actorOf a = some q → mover s = some q := fun hq => by simp [mover, ha, hq]
  have hcases := perform_within (P := stepPermit s t) (s := { s with agenda := turns }) ?memory ?abort ?flags ?report h
  case memory =>
    rintro (⟨q, va, n, v, rfl⟩ | ⟨k, pa, n, v, rfl⟩)
    · exact .inr (.inl ⟨q, va, n, v, turns, ha⟩)
    · exact .inr (.inr ⟨k, pa, n, v, turns, ha⟩)
  case abort =>
    rintro q rfl
    exact ⟨hmover rfl, .inr (.inr (.inl ⟨turns, ha⟩))⟩
  case flags =>
    rintro q kind u rfl hk
    exact ⟨kind, u, turns, hk, ha⟩
  case report =>
    rintro q w x y z u rfl
    exact .inr ⟨w, x, y, z, u, turns, ha⟩
  obtain hw | ⟨q, hq, hp, he, hr⟩ := hcases
  · exact hw
  · exact within_of_runStops (hmover hq) hp he hr

/-- Everything a step can change, by its cause. -/
theorem step_within (h : step s = .next t) : Within (stepPermit s t) s t := by
  obtain ⟨p, i, turns, hm, hi, hp, he, hexec⟩ | ⟨a, turns, ha, hact⟩ := step_turn h
  · have hw := exec_within_step hm hi hp he hexec
    exact ⟨hw.pe, hw.mem⟩
  · have hw := perform_within_step ha hact
    exact ⟨hw.pe, hw.mem⟩

end Step

end Sys2Proof.Machine
end

section
/-! PROOF. Marks, flags, fault report registers, events and memory change in a step only for the causes the statements
name (R25, R27, R30, R34, R192). -/

namespace Sys2Proof.Machine

/-- Settles O14: a monitor that was not set before a step and is set after it was marked for a cause of `stepPermit`. -/
theorem onlyLoadExclusiveSets : Obligations.OnlyLoadExclusiveSets := by
  intro s t m h hset
  obtain ⟨hm, hcause⟩ | ⟨hl, hg⟩ := (step_within h).pe m .marks
  · refine ⟨hm, hcause.imp_right <| .imp_right <| .imp_right ?_⟩
    rintro ⟨i, f, hi, hf, pa, attr, htr, hu⟩
    exact ⟨i, f, pa, attr, hi, hf, htr, hu⟩
  · rcases hset with ⟨h0, h1⟩ | ⟨h0, h1⟩
    · cases h0.symm.trans (hl h1)
    · cases h0.symm.trans (hg h1)

/-- Settles O12: each part is one aspect of `step_within`. -/
theorem flagsStay : Obligations.FlagsStay := by
  intro s t h m
  refine ⟨?flags, fun hended => ?report⟩
  case flags =>
    obtain hforeign | hkept := (step_within h).pe m .flags
    · exact .inr hforeign
    · simp only [Aspect.kept, flagsOf, Prod.mk.injEq] at hkept
      exact .inl hkept
  case report =>
    obtain (hend | hforeign) | hkept := (step_within h).pe m .report
    · exact absurd hended hend
    · exact .inr hforeign
    · simp only [Aspect.kept, reportOf, Prod.mk.injEq] at hkept
      exact .inl hkept

/-- Settles O16: an event that is no longer held was taken, and only WFE is permitted to take one. -/
theorem onlyWfeTakesEvent : Obligations.OnlyWfeTakesEvent := by
  intro s t m h hheld htaken
  obtain hwfe | hkept := (step_within h).pe m .event
  · exact hwfe
  · cases htaken.symm.trans (hkept hheld)

/-- Settles O17: a byte that differs means that memory differs, and only the three kinds of write may change it. -/
theorem onlyStoresWriteMemory : Obligations.OnlyStoresWriteMemory := by
  intro s t a h hne
  obtain hwrite | hsame := (step_within h).mem
  · exact hwrite
  · exact absurd (by rw [hsame]) hne

end Sys2Proof.Machine
end

section
/-! PROOF. The step runs the instruction or the action of its turn, the reset state, and the granule software finds
(R29, R31, R33, R36, R53). -/

namespace Sys2Proof.Machine

theorem runCurrent_exec {s : State} {bs rest : List Byte} {i : Instr} (hp : s.cur < s.npe)
    (he : (s.pe s.cur).ended = none) (hb : fetchBytes s s.cur = some bs) (hd : decodeFor s s.cur bs = .ok (i, rest)) :
    runCurrent s = exec i s := by
  simp [runCurrent, byPE_running hp he, hb, hd]

/-- Settles O5: the turn is that of the current PE, of the PE it names, or an action. -/
theorem stepRunsDecodedInstruction : Obligations.StepRunsDecodedInstruction := by
  refine ⟨fun s bs rest i hs ha hp he hb hd => ?current, fun s p turns bs rest i hs ha hp he hb hd => ?run,
    fun s a turns => step_act⟩
  case current =>
    calc step s = runCurrent s := by simp [step, hs, ha]
      _ = exec i s := runCurrent_exec hp he hb hd
  case run =>
    calc step s = runCurrent { s with cur := p, agenda := turns } := by simp [step, hs, ha]
      _ = exec i { s with cur := p, agenda := turns } := runCurrent_exec hp he hb hd

/-- Settles O9: the reset state is closed data. -/
theorem resetIsStateOk : Obligations.ResetIsStateOk := by
  show stateOk State.reset = true
  decide

/-- A PE of the reset state is as after reset; there is no other PE at any number. -/
theorem reset_pe (p : Nat) : State.reset.pe p = PE.reset := by
  match p with
  | 0 | 1 | _ + 2 => rfl

/-- Settles O10: every PE of the reset state is `PE.reset`. -/
theorem resetStartsPrograms : Obligations.ResetStartsPrograms := by
  intro p _
  rw [reset_pe]
  exact ⟨rfl, rfl, rfl, rfl, rfl, rfl⟩

/-- CTR[23:20] is the granule field (R31). -/
theorem extractLsb'_ctr (cfg : Config) : (ctr cfg).extractLsb' 20 4 = ctrErg cfg := by
  apply BitVec.eq_of_getLsbD_eq
  intro i hi
  simp only [ctr, BitVec.getLsbD_extractLsb', BitVec.getLsbD_append]
  interval_cases i <;> simp

/-- An identified granule, 16 to 2048 bytes, fits its field: log2 of its words (R53). -/
theorem toNat_ctrErg {cfg : Config} (hok : configOk cfg = true) (h : cfg.ctrHasErg = true) :
    (ctrErg cfg).toNat = cfg.ergLog2 - 2 ∧ 4 ≤ cfg.ergLog2 := by
  simp only [configOk, Bool.and_eq_true, decide_eq_true_eq] at hok
  obtain ⟨⟨⟨⟨⟨hmin, hmax⟩, -⟩, -⟩, -⟩, -⟩ := hok
  refine ⟨?_, hmin⟩
  rw [ctrErg, if_pos h, BitVec.toNat_ofNat]
  omega

/-- Settles O53: a field that identifies the granule is not 0, and 0 stands for the maximum. -/
theorem granuleFromCtr : Obligations.GranuleFromCtr := by
  intro cfg hok
  rw [extractLsb'_ctr]
  refine ⟨fun h => ?identified, fun h => ?unknown⟩
  case identified =>
    obtain ⟨hfield, hmin⟩ := toNat_ctrErg hok h
    have hne : ctrErg cfg ≠ 0 := fun h0 => by
      rw [h0] at hfield
      have hzero : (0 : BitVec 4).toNat = 0 := rfl
      omega
    refine ⟨hfield, ?_⟩
    rw [softwareErgLog2, if_neg hne, hfield]
    omega
  case unknown =>
    have hzero : ctrErg cfg = 0#4 := by simp [ctrErg, h]
    exact ⟨hzero, by simp [softwareErgLog2, hzero]⟩

end Sys2Proof.Machine
end

section
/-! SUPPORT. A Store-Exclusive that fails, and runs in which a PE does not move (R35, R62, R140). -/

namespace Sys2Proof.Machine

/-- A Store-Exclusive whose common step only cleared the PE's monitors and gave status 1 has failed. -/
theorem storeFailed_of_storeExcl {s : State} {i : Instr} {f : StoreForm} {b : Bool} (hp : s.cur < s.npe)
    (h : storeExcl s s.cur f.va f.bytes = .status (s.updatePE s.cur fun x => clearGlobalIf b (clearLocal x)) 1 []) :
    storeFailed i f s (storeTo i.iset s f.rd f.va f.bytes) := by
  have hpe : (storeTo i.iset s f.rd f.va f.bytes).pe s.cur =
      let y := closePair (clearGlobalIf b (clearLocal (s.pe s.cur)))
      { y with regs := y.regs.set f.rd 1, pc := y.pc + 1, cpsr := afterInstr i.iset y.cpsr } := by
    simp [storeTo, h, hp]
  obtain ⟨⟨hframe, -⟩, -, -⟩ := onlyCleared_clearBoth b (s.pe s.cur)
  have hlm : (clearGlobalIf b (clearLocal (s.pe s.cur))).lm = .openAccess := by simp
  refine ⟨?system, ?memory, ?others, ?status, ?cpsr, ?pe⟩
  case system => simp [sameSystem, storeTo, h]
  case memory => intro a; simp [storeTo, h]
  case others => intro m hm; simp [storeTo, h, hm]
  case status =>
    refine ⟨?_, fun q hq => ?_⟩ <;> rw [State.reg, hpe] <;> dsimp only [closePair] <;> rw [hframe]
    · simp
    · have hne : (f.rd : Nat) ≠ q := fun h => hq (Fin.ext h.symm)
      simp [State.reg, hne]
  case cpsr =>
    rw [hpe, hframe]
    exact cpsrAdvanced_afterInstr ..
  case pe =>
    dsimp only
    rw [hpe]
    dsimp only [closePair]
    rw [hlm, hframe]

/-- A Store-Exclusive to a shareable location whose global monitor is open fails (R62, R68). -/
theorem storeShareable_of_gmOpen {s : State} {p pa : Nat} {va : Word} {attr : MemAttr} {bs : List Byte}
    (h : (s.pe p).gm = .openAccess) :
    ∃ b, storeShareable s p va pa attr bs = .status (s.updatePE p fun x => clearGlobalIf b (clearLocal x)) 1 [] := by
  have hcheck : globalCheck s p pa = false := by simp [globalCheck, h]
  unfold storeShareable
  split
  · exact ⟨globalCheckClears s p pa, by simp only [hcheck, Bool.false_eq_true, if_false]⟩
  · exact ⟨false, by simp only [clearGlobalIf_eq, Bool.false_eq_true, if_false]⟩

/-- While a PE's global monitor is open, whatever Store-Exclusive it executes next to a shareable location fails. -/
theorem nextStoreFails_of_gmOpen {u : State} {p : Nat} (h : (u.pe p).gm = .openAccess) :
    nextStoreFails p u fun a => shareable a = true := by
  intro i f pa attr hf hx ⟨hp, hal, htr, hpair⟩ hmon hsh
  refine ⟨_, exec_store hf hx, ?_⟩
  obtain ⟨b, hb⟩ := storeShareable_of_gmOpen (s := { u with cur := p }) (va := f.va) (pa := pa) (attr := attr)
    (bs := f.bytes) h
  refine storeFailed_of_storeExcl (b := b) hp ?_
  calc storeExcl { u with cur := p } p f.va f.bytes
      = storeChecked { u with cur := p } p f.va pa attr f.bytes :=
        storeExcl_paired hal htr (pairMismatch_none.mpr hpair)
    _ = storeShareable { u with cur := p } p f.va pa attr f.bytes := by
        rw [storeChecked, if_pos hsh]
        exact if_pos (hmon hsh)
    _ = _ := hb

/-- A property of a state that every step of another PE or agent keeps holds along any run of the others. -/
theorem othersRun_keeps {p : Nat} {I : State → Prop}
    (hstep : ∀ s t, mover s ≠ some p → step s = .next t → I s → I t) :
    ∀ {k s t}, othersRun p k s t → I s → I t
  | 0, _, _, h, hs => by cases h; exact hs
  | _ + 1, _, _, ⟨hm, _, hu, hrest⟩, hs => othersRun_keeps hstep hrest (hstep _ _ hm hu hs)

theorem Monitor.eq_openAccess {m : Monitor} (h : m.isSet = false) : m = .openAccess := by
  cases m with
  | openAccess => rfl
  | exclusive b => cases h

/-- An open global monitor stays open while its PE does not move: only the PE's own turn marks it (R34). -/
theorem othersRun_gmOpen {p k : Nat} {s t : State} (h : othersRun p k s t) (hs : (s.pe p).gm = .openAccess) :
    (t.pe p).gm = .openAccess := by
  refine othersRun_keeps (I := fun s => (s.pe p).gm = .openAccess) (fun s t hm hst h0 => ?_) h hs
  refine Monitor.eq_openAccess (Bool.eq_false_iff.mpr fun h1 => hm ?_)
  exact (onlyLoadExclusiveSets s t p hst (.inr ⟨by rw [h0]; rfl, h1⟩)).1

/-- A write that touches a block has it among its blocks (R54). -/
theorem inBlocks_of_touches {cfg : Config} {pa n g : Nat} (h : touches cfg pa n g) : inBlocks cfg pa n g = true := by
  obtain ⟨k, hk, rfl⟩ := h
  have hmono : ∀ {a b : Nat}, a ≤ b → block cfg a ≤ block cfg b := fun hab => by
    simp only [block, Nat.shiftRight_eq_div_pow]
    exact Nat.div_le_div_right hab
  simp only [inBlocks, Bool.and_eq_true, decide_eq_true_eq]
  exact ⟨hmono (by omega), hmono (by omega)⟩

/-- A write of another observer in the Shareability domain, not exempt, opens the global monitor that marks a block it
touches (R71, R75). -/
theorem observeWrite_opens {s : State} {call pa len p g : Nat} {o : Observer} {k : WriteKind} {attr : MemAttr}
    (hp : p < s.npe) (ho : o ≠ .pe p) (hg : (s.pe p).gm = .exclusive g) (hsh : shareable attr = true)
    (hdom : inDomain s.cfg o pa attr = true) (hex : exempt s.cfg o pa attr = false) (ht : touches s.cfg pa len g) :
    ((observeWrite s call o pa len k attr).pe p).gm = .openAccess := by
  rw [pe_observeWrite_other _ _ _ _ _ _ _ _ hp ho]
  exact (observeOther_clears _ s call o pa len attr p g hg (inBlocks_of_touches ht) (by simp [hsh, hdom, hex])).1

end Sys2Proof.Machine
end

section
/-! PROOF. What a reservation protects: a write of another agent to the marked block makes the Store-Exclusive fail
(R35, R71, R75). -/

namespace Sys2Proof.Machine

variable {s : State} {p n pa : Nat} {va : Word}

theorem plainStore_writes {v : BitVec 64} {attr : MemAttr} (h1 : 1 ≤ n) (h8 : n ≤ 8)
    (htr : translate s p va .write = some (pa, attr)) (hin : inSpace s.cfg pa n = true)
    (hab : writeAborts s pa n = false) :
    plainStore s p va n v =
      .next (observeWrite (s.writeBytes pa (disassemble s.cfg.bigEndian n v.toNat)) 0 (.pe p) pa n .store
        attr).tick := by
  simp [plainStore, storeSizeOk, h1, h8, htr, hin, hab]

theorem observerWrites_writes {k v : Nat} (h1 : 1 ≤ n) (hin : inSpace s.cfg pa n = true)
    (hab : writeAborts s pa n = false) :
    observerWrites s k pa n v =
      .next (observeWrite (s.writeBytes pa (disassemble s.cfg.bigEndian n v)) 0 (.device k) pa n .store
        (attrAt s pa)).tick := by
  simp [observerWrites, show 0 < n from h1, hin, hab]

/-- Settles O54: the write opens the marked global monitor, no step of the others marks it again, and a Store-Exclusive
whose global monitor is open fails. -/
theorem interveningWriteFailsStore : Obligations.InterveningWriteFailsStore := by
  intro s p g hs hp hg
  have protects : ∀ u : State, (u.pe p).gm = .openAccess →
      ∀ k t, othersRun p k u t → nextStoreFails p t fun a => shareable a = true :=
    fun u hu k t hrun => nextStoreFails_of_gmOpen (othersRun_gmOpen hrun hu)
  refine ⟨?store, ?observer⟩
  case store =>
    intro q va n v turns pa attr ha hqp hq he h1 h8 htr hin hab hsh hdom ht
    have hstore := plainStore_writes (s := { s with agenda := turns }) (v := v) h1 h8 htr hin hab
    refine ⟨_, (step_act hs ha).trans ((byPE_running hq he).trans hstore), protects _ ?_⟩
    rw [tick_pe]
    exact observeWrite_opens (s := State.writeBytes _ _ _) hp (by simpa using hqp) hg hsh hdom rfl ht
  case observer =>
    intro o pa n v turns ha ho h1 hin hab hsh hdom hex ht
    have hwrite := observerWrites_writes (s := { s with agenda := turns }) (k := o) (v := v) h1 hin hab
    refine ⟨_, (step_act hs ha).trans ((byObserver_present ho).trans hwrite), protects _ ?_⟩
    rw [tick_pe]
    exact observeWrite_opens (s := State.writeBytes _ _ _) hp (by simp) hg hsh hdom hex ht

end Sys2Proof.Machine
end

section
/-! SUPPORT. Which PEs an operation touches: the PE that acts, every other PE at most by a write it observes or by an
event; and the event that a cleared global monitor leaves (R58, R66, R71, R164). -/

namespace Sys2Proof.Machine

/-! ## The event of a clear, for one PE (R58) -/

/-- A global monitor that left Exclusive Access left an event, and a held event stays held. -/
def leavesEvent (x y : PE) : Prop :=
  (x.gm.isSet = true → y.gm = .openAccess → y.ev = true) ∧ (x.ev = true → y.ev = true)

section PE
variable {x y z : PE}

theorem leavesEvent_trans (h : leavesEvent x y) (h' : leavesEvent y z) : leavesEvent x z := by
  refine ⟨fun hset hopen => ?_, h'.2 ∘ h.2⟩
  cases hy : y.gm with
  | openAccess => exact h'.2 (h.1 hset hy)
  | exclusive g => exact h'.1 (by rw [hy]; rfl) hopen

/-- An operation that leaves the global monitor and the Event register alone. -/
theorem leavesEvent_of_globalKept (h : globalKept x y) : leavesEvent x y := by
  obtain ⟨hgm, hev⟩ := h
  refine ⟨fun hset hopen => ?_, (hev ▸ ·)⟩
  rw [← hgm, hopen] at hset
  cases hset

theorem leavesEvent_refl : leavesEvent x x := leavesEvent_of_globalKept ⟨rfl, rfl⟩

theorem onlyCleared.leavesEvent (h : onlyCleared x y) : leavesEvent x y := by
  obtain ⟨-, -, hkept | ⟨-, -, hev⟩⟩ := h
  · exact leavesEvent_of_globalKept hkept
  · exact ⟨fun _ _ => hev, fun _ => hev⟩

theorem leavesEvent_dataAbortMonitors (n p : Nat) : leavesEvent x (dataAbortMonitors n p x) :=
  ⟨dataAbortMonitors_event x n p, dataAbortMonitors_keepsEvent n p⟩

theorem leavesEvent_unknownLocal {n p : Nat} : leavesEvent x (unknownLocal n p x) :=
  leavesEvent_of_globalKept ⟨rfl, rfl⟩

/-- A mark never opens the global monitor. -/
theorem leavesEvent_loadMarks {s : State} {p : Nat} {sh : Bool} {r : LoadRecord} :
    leavesEvent x (loadMarks s p sh r x) := by
  have hev : (loadMarks s p sh r x).ev = x.ev := by rw [loadMarks_frame]
  refine ⟨fun hset hopen => ?_, (hev ▸ ·)⟩
  rw [loadMarks_gm] at hopen
  split at hopen
  · cases hopen
  · rw [hopen] at hset; cases hset

theorem leavesEvent_takeException {cfg : Config} {n p : Nat} {c : EndCause} :
    leavesEvent x { reportFault cfg n c (dataAbortMonitors n p x) with ended := some c } := by
  obtain ⟨-, -, -, -, -, -, hgm, hev, -⟩ := reportFault_frame (dataAbortMonitors n p x) cfg n c
  exact leavesEvent_trans (leavesEvent_dataAbortMonitors n p) (leavesEvent_of_globalKept ⟨hgm, hev⟩)

theorem globalKept_foreignStep (kind : ForeignKind) (u : RegisterFile) : globalKept x (foreignStep kind u x) := by
  cases kind <;> exact ⟨rfl, rfl⟩

end PE

/-! ## One rule per state operation -/

/-- From `s` to `t` PE `p` acted: each other PE changed as `C` says, and `p` itself kept the event of a clear. -/
structure Acts (C : PE → PE → Prop) (p : Nat) (s t : State) : Prop where
  own : leavesEvent (s.pe p) (t.pe p)
  others : ∀ m, m ≠ p → C (s.pe m) (t.pe m)

namespace Acts
variable {C : PE → PE → Prop} {s t : State} {p : Nat}

theorem refl (hC : ∀ x, C x x) : Acts C p s s := ⟨leavesEvent_refl, fun _ _ => hC _⟩

theorem tick (h : Acts C p s t) : Acts C p s t.tick := ⟨h.own, h.others⟩

theorem updatePE (h : Acts C p s t) {f : PE → PE} (hf : ∀ x, leavesEvent x (f x)) : Acts C p s (t.updatePE p f) := by
  refine ⟨leavesEvent_trans h.own ?_, fun m hm => ?_⟩
  · rw [pe_updatePE]
    split
    · exact hf _
    · exact leavesEvent_refl
  · rw [pe_updatePE_ne _ _ _ _ hm]
    exact h.others m hm

/-- An operation on the acting PE that leaves its global monitor and its Event register alone. -/
theorem updateKept (h : Acts C p s t) {f : PE → PE} (hf : ∀ x, globalKept x (f x)) : Acts C p s (t.updatePE p f) :=
  h.updatePE fun x => leavesEvent_of_globalKept (hf x)

theorem clear (h : Acts C p s t) {f : PE → PE} (hf : ∀ x, onlyCleared x (f x)) : Acts C p s (t.updatePE p f) :=
  h.updatePE fun x => (hf x).leavesEvent

theorem setReg (h : Acts C p s t) {r : Reg} {v : Word} : Acts C p s (t.setReg p r v) :=
  h.updateKept fun _ => ⟨rfl, rfl⟩

theorem writeDests (h : Acts C p s t) {pa : Nat} (ds : List LoadDest) : Acts C p s (writeDests t p pa ds) :=
  List.foldlRecOn ds _ h fun _ hu _ _ => hu.setReg

theorem complete (h : Acts C p s t) {set : ISet} : Acts C p s (complete set t p) := by
  refine (h.updateKept fun _ => ?_).tick
  exact ⟨rfl, rfl⟩

theorem endRun (h : Acts C p s t) {c : EndCause} : Acts C p s (endRun t p c) := by
  refine (h.updateKept fun _ => ?_).tick
  exact ⟨rfl, rfl⟩

theorem closePair (h : Acts C p s t) : Acts C p s (t.updatePE p closePair) :=
  h.updatePE fun _ => leavesEvent_of_globalKept ⟨rfl, rfl⟩

theorem takeException (h : Acts C p s t) {c : EndCause} : Acts C p s (takeException t p c) :=
  (h.updatePE fun _ => leavesEvent_takeException).tick

theorem writeBytes (h : Acts C p s t) {pa : Nat} {bs : List Byte} : Acts C p s (t.writeBytes pa bs) :=
  ⟨h.own, h.others⟩

/-- Every PE observes a write at most by clearing. -/
theorem observeWrite (h : Acts onlyCleared p s t) {call pa len : Nat} {o : Observer} {k : WriteKind} {attr : MemAttr} :
    Acts onlyCleared p s (observeWrite t call o pa len k attr) :=
  ⟨leavesEvent_trans h.own (onlyCleared_observeWrite ..).leavesEvent,
    fun m hm => onlyCleared_trans (h.others m hm) (onlyCleared_observeWrite ..)⟩

/-- A PE that is unchanged is one that only had monitors cleared. -/
theorem toCleared (h : Acts Eq p s t) : Acts onlyCleared p s t :=
  ⟨h.own, fun m hm => h.others m hm ▸ onlyCleared_refl _⟩

end Acts

/-! ## The exclusive accesses (R120, R140, R141, R191) -/

section Operations
variable {s t : State} {p n pa : Nat} {va : Word} {attr : MemAttr} {bs : List Byte}

theorem acts_refl : Acts Eq p s s := .refl fun _ => rfl

theorem acts_noGlobalMonitorLoad : Acts Eq p s (noGlobalMonitorLoad s p va pa n attr).state := by
  unfold noGlobalMonitorLoad
  split
  · exact acts_refl.endRun
  split
  · exact acts_refl.takeException
  split
  · exact acts_refl.takeException
  split
  · exact acts_refl
  split
  · split
    · exact acts_refl.takeException
    · exact acts_refl.updatePE fun _ => leavesEvent_trans leavesEvent_loadMarks leavesEvent_unknownLocal
  · exact acts_refl.endRun

theorem acts_loadExcl : Acts Eq p s (loadExcl s p va n).state := by
  unfold loadExcl
  split
  · exact acts_refl.endRun
  split
  · exact acts_refl.takeException
  split
  · exact acts_noGlobalMonitorLoad
  split
  · exact acts_refl.takeException
  · exact acts_refl.updatePE fun _ => leavesEvent_loadMarks

theorem acts_storePasses {own : PE → PE} (hown : ∀ x, onlyCleared x (own x)) :
    Acts onlyCleared p s (storePasses s p pa attr bs own) :=
  (acts_refl.toCleared.writeBytes.clear hown).observeWrite

theorem acts_storeNonShareable : Acts onlyCleared p s (storeNonShareable s p va pa attr bs).state := by
  unfold storeNonShareable
  split
  · split
    · exact acts_refl.takeException.toCleared
    · exact acts_storePasses fun x => onlyCleared_clearBoth _ x
  · exact acts_refl.toCleared.clear onlyCleared_clearLocal

theorem acts_storeShareable : Acts onlyCleared p s (storeShareable s p va pa attr bs).state := by
  unfold storeShareable
  split
  · dsimp only
    split
    · split
      · exact acts_refl.takeException.toCleared
      · exact acts_storePasses fun x => onlyCleared_clearBoth _ x
    · exact acts_refl.toCleared.clear fun x => onlyCleared_clearBoth _ x
  · exact acts_refl.toCleared.clear onlyCleared_clearLocal

theorem acts_noGlobalMonitorStore : Acts onlyCleared p s (noGlobalMonitorStore s p va pa attr bs).state := by
  unfold noGlobalMonitorStore
  split
  · exact acts_refl.endRun.toCleared
  split
  · exact acts_refl.takeException.toCleared
  split
  · exact acts_refl.takeException.toCleared
  split
  · split <;> exact acts_refl.toCleared
  split
  · have hlocal := acts_storeNonShareable (s := s) (p := p) (va := va) (pa := pa) (attr := attr) (bs := bs)
    split
    · rename_i hr
      rw [hr] at hlocal
      exact hlocal.updatePE fun _ => leavesEvent_unknownLocal
    · exact hlocal
  split
  · split
    · split
      · exact acts_refl.takeException.toCleared
      · exact acts_storePasses onlyCleared_refl
    · exact acts_refl.toCleared
  · exact acts_refl.endRun.toCleared

theorem acts_storeChecked : Acts onlyCleared p s (storeChecked s p va pa attr bs).state := by
  unfold storeChecked
  split
  · split
    · exact acts_storeShareable
    · exact acts_noGlobalMonitorStore
  · exact acts_storeNonShareable

theorem Acts.scramble (h : Acts onlyCleared p s t) {range : Nat} :
    Acts onlyCleared p s (scramble t p range pa n attr) :=
  h.writeBytes.observeWrite

theorem acts_pairEnvelope {kind : PairKind} {r : LoadRecord} :
    Acts onlyCleared p s (pairEnvelope s p va pa n attr kind r).state := by
  have hclear : Acts onlyCleared p s (s.updatePE p clearLocal) := acts_refl.toCleared.clear onlyCleared_clearLocal
  unfold pairEnvelope
  dsimp only
  split
  · exact acts_refl.takeException.toCleared
  cases kind with
  | va => exact (acts_refl.toCleared.updatePE fun _ => leavesEvent_dataAbortMonitors ..).scramble.scramble
  | size => exact hclear.scramble
  | attr => exact hclear.scramble

theorem acts_storeExcl : Acts onlyCleared p s (storeExcl s p va bs).state := by
  unfold storeExcl
  split
  · exact acts_refl.endRun.toCleared
  split
  · exact acts_refl.takeException.toCleared
  split
  · exact acts_storeChecked
  split
  · exact acts_refl.endRun.toCleared
  split
  · exact acts_storeChecked
  · exact acts_pairEnvelope

/-! ## Instructions -/

theorem acts_load {i : Instr} {f : LoadForm} (hf : loadForm s i = some f) (hx : executes s i = true)
    (h : exec i s = .next t) : Acts Eq s.cur s t := by
  have hload : Acts Eq s.cur s (loadExcl s s.cur f.va f.n).state := acts_loadExcl
  cases (exec_load hf hx).symm.trans h
  split <;> rename_i hr <;> rw [hr] at hload
  · exact (hload.writeDests _).complete
  · exact hload.complete
  · exact hload

theorem acts_storeTo {set : ISet} {rd : Reg} : Acts onlyCleared s.cur s (storeTo set s rd va bs) := by
  have hstore : Acts onlyCleared s.cur s (storeExcl s s.cur va bs).state := acts_storeExcl
  unfold storeTo
  split <;> rename_i hr <;> rw [hr] at hstore
  · exact hstore.closePair.setReg.complete
  · exact hstore.closePair.complete
  · exact hstore

theorem acts_clrex {set : ISet} : Acts Eq s.cur s (clrex set s) :=
  (acts_refl.clear fun x => onlyCleared_clearBoth _ x).complete

/-! ## The event instructions (R163 to R166) -/

/-- An event instruction of PE `p`: memory is unchanged, of `p` itself only the PC, the IT state and the Event register
differ, and another PE at most has come to hold an event. -/
structure OnlyEvents (p : Nat) (s t : State) : Prop where
  mem : t.mem = s.mem
  own : t.pe p = { s.pe p with pc := (t.pe p).pc, cpsr := (t.pe p).cpsr, ev := (t.pe p).ev }
  others : ∀ m, m ≠ p → t.pe m = s.pe m ∨ t.pe m = { s.pe m with ev := true }

theorem OnlyEvents.complete {set : ISet} (h : OnlyEvents p s t) : OnlyEvents p s (complete set t p) := by
  refine ⟨h.mem, ?_, fun m hm => ?_⟩
  · simp only [Machine.complete, tick_pe, pe_updatePE]
    split <;> rw [h.own]
  · rw [pe_complete_ne _ _ _ _ hm]
    exact h.others m hm

theorem onlyEvents_refl : OnlyEvents p s s := ⟨rfl, rfl, fun _ _ => .inl rfl⟩

theorem onlyEvents_setOwn (b : Bool) : OnlyEvents p s (s.updatePE p fun x => { x with ev := b }) := by
  refine ⟨rfl, ?_, fun m hm => .inl (pe_updatePE_ne _ _ _ _ hm)⟩
  rw [pe_updatePE]
  split <;> rfl

theorem onlyEvents_setAll : OnlyEvents p s (s.updateAll fun _ x => { x with ev := true }) := by
  have hall : ∀ m, (s.updateAll fun _ x => { x with ev := true }).pe m = s.pe m ∨
      (s.updateAll fun _ x => { x with ev := true }).pe m = { s.pe m with ev := true } := fun m => by
    by_cases hm : m < s.npe
    · exact .inr (pe_updateAll _ _ _ hm)
    · have hm' : s.pes.length ≤ m := Nat.le_of_not_lt hm
      exact .inl (by simp [State.pe, State.updateAll, hm'])
  refine ⟨rfl, ?_, fun m _ => hall m⟩
  rcases hall p with h | h <;> rw [h]

theorem onlyEvents_waitForEvent {set : ISet} : OnlyEvents s.cur s (waitForEvent set s) := by
  unfold waitForEvent
  split
  · exact (onlyEvents_setOwn false).complete
  split
  · exact onlyEvents_refl.complete
  · exact ⟨rfl, rfl, fun _ _ => .inl rfl⟩

theorem exec_skip_onlyEvents {i : Instr} (hx : executes s i = false) (h : exec i s = .next t) :
    OnlyEvents s.cur s t := by
  cases (exec_skip hx).symm.trans h
  exact onlyEvents_refl.complete

theorem exec_event {i : Instr} (hc : columnOf i = .event) (h : exec i s = .next t) : OnlyEvents s.cur s t := by
  cases hx : executes s i with
  | false => exact exec_skip_onlyEvents hx h
  | true =>
    rcases form_cases s i with ⟨f, -, hc'⟩ | ⟨f, -, hc'⟩ | hi | hi | hi | hi
    · cases hc.symm.trans hc'
    · cases hc.symm.trans hc'
    · rcases hi with rfl | rfl <;> cases hc
    · cases (exec_wfe hi hx).symm.trans h
      exact onlyEvents_waitForEvent
    · cases (exec_sev hi hx).symm.trans h
      exact onlyEvents_setAll.complete
    · cases (exec_sevl hi hx).symm.trans h
      exact (onlyEvents_setOwn true).complete

/-! ## Instructions -/

/-- What an instruction does to the PEs: a Store-Exclusive clears monitors of the others, an event instruction leaves
events, and any other touches its own PE alone, as does one whose condition fails. -/
theorem exec_acts {i : Instr} (h : exec i s = .next t) :
    Acts Eq s.cur s t ∨ (columnOf i = .storeExclusive ∧ Acts onlyCleared s.cur s t) ∨
      (columnOf i = .event ∧ OnlyEvents s.cur s t) := by
  by_cases hevent : columnOf i = .event
  · exact .inr (.inr ⟨hevent, exec_event hevent h⟩)
  cases hx : executes s i with
  | false =>
    cases (exec_skip hx).symm.trans h
    exact .inl acts_refl.complete
  | true =>
    rcases form_cases s i with ⟨f, hf, -⟩ | ⟨f, hf, hc⟩ | hi | hi | hi | hi
    · exact .inl (acts_load hf hx h)
    · cases (exec_store hf hx).symm.trans h
      exact .inr (.inl ⟨hc, acts_storeTo⟩)
    · cases (exec_clrex hi hx).symm.trans h
      exact .inl acts_clrex
    all_goals exact absurd (by rcases hi with rfl | rfl | ⟨c, rfl⟩ <;> rfl) hevent

/-! ## Actions -/

theorem acts_plainStore {v : BitVec 64} (h : plainStore s p va n v = .next t) : Acts onlyCleared p s t := by
  unfold plainStore at h
  split at h
  · split at h
    · cases h
      exact acts_refl.takeException.toCleared
    · split at h
      · split at h <;> cases h
        · exact acts_refl.takeException.toCleared
        · exact acts_refl.toCleared.writeBytes.observeWrite.tick
      · cases h
  · cases h

theorem acts_plainLoad (h : plainLoad s p va n = .next t) : Acts Eq p s t := by
  unfold plainLoad at h
  split at h
  · split at h
    · cases h
      exact acts_refl.takeException
    · split at h
      · split at h <;> cases h
        · exact acts_refl.takeException
        · exact acts_refl.tick
      · cases h
  · cases h

theorem Acts.installRecord {C : PE → PE → Prop} (h : Acts C p s t) {lx : Option LoadRecord} {pair : PairStatus} :
    Acts C p s (t.updatePE p (installRecord lx pair)) :=
  h.updatePE fun _ => leavesEvent_of_globalKept ⟨rfl, rfl⟩

theorem acts_returnFromException {lx : Option LoadRecord} {pair : PairStatus} :
    Acts Eq p s (returnFromException s p lx pair) :=
  acts_refl.updatePE fun _ => leavesEvent_of_globalKept ⟨rfl, rfl⟩

/-- What an action of a PE does to the PEs: a plain store clears monitors of the others, any other action touches its
own PE alone. -/
theorem perform_acts {a : Action} (ha : actorOf a = some p) (h : perform s a = .next t) :
    Acts Eq p s t ∨ ((∃ va n v, a = .store p va n v) ∧ Acts onlyCleared p s t) := by
  cases a <;> cases ha <;> obtain ⟨-, -, h⟩ := byPE_next h
  case store va n v => exact .inr ⟨⟨_, _, _, rfl⟩, acts_plainStore h⟩
  case load => exact .inl (acts_plainLoad h)
  case takeDataAbort =>
    cases h
    exact .inl (acts_refl.updatePE fun _ => leavesEvent_dataAbortMonitors ..).tick
  case exceptionReturn => cases h; exact .inl acts_returnFromException.tick
  case exceptionReturnTo =>
    split at h <;> cases h
    exact .inl acts_returnFromException.tick
  case installThread =>
    split at h <;> cases h
    exact .inl acts_refl.installRecord.tick
  case foreign =>
    cases h
    exact .inl (acts_refl.updateKept fun _ => globalKept_foreignStep ..).tick

/-- From `s` to `t` every PE had monitors cleared at most. -/
def Clears (s t : State) : Prop := ∀ m, onlyCleared (s.pe m) (t.pe m)

theorem clears_updatePE {f : PE → PE} (hf : ∀ x, onlyCleared x (f x)) : Clears s (s.updatePE p f) := fun m => by
  rw [pe_updatePE]
  split
  · exact hf _
  · exact onlyCleared_refl _

theorem Clears.updateAll (h : Clears s t) {g : Nat → PE → PE} (hg : ∀ m x, onlyCleared x (g m x)) :
    Clears s (t.updateAll g) := fun m => by
  refine onlyCleared_trans (h m) ?_
  by_cases hm : m < t.npe
  · rw [pe_updateAll _ _ _ hm]
    exact hg _ _
  · have hm' : t.pes.length ≤ m := Nat.le_of_not_lt hm
    simp [State.pe, State.updateAll, hm']

theorem clears_refl : Clears s s := fun _ => onlyCleared_refl _

theorem clears_mayClearAll {k : Nat} {l g : Nat → PE → Bool} :
    Clears s (s.updateAll fun m x => mayClear k m (l m x) (g m x) x).tick :=
  clears_refl.updateAll fun _ _ => onlyCleared_mayClear ..

theorem clears_observerWrites {k v : Nat} (h : observerWrites s k pa n v = .next t) : Clears s t := by
  unfold observerWrites at h
  split at h
  · split at h
    · split at h <;> cases h
      · exact clears_refl
      · exact fun m => onlyCleared_observeWrite (s.writeBytes pa _) 0 (.device k) pa n .store (attrAt s pa) m
    · cases h
  · cases h

theorem clears_preloadWrite : Clears s (preloadWrite s p va) := by
  unfold preloadWrite
  split
  · exact clears_refl
  · refine clears_refl.updateAll fun m x => ?_
    split
    · exact onlyCleared_refl x
    · exact onlyCleared_mayClear ..

theorem clears_instrCacheInvalidateVA : Clears s (instrCacheInvalidateVA s p va) := by
  unfold instrCacheInvalidateVA
  split
  · exact clears_refl
  · exact clears_mayClearAll

theorem clears_changeTranslation {maps : List Mapping} {bbm : Bool} (h : changeTranslation s maps bbm = .next t) :
    Clears s t := by
  have hmoved : Clears s { s.updateAll (noteMove s maps) with xlat := maps } :=
    clears_refl.updateAll fun m x => onlyCleared_noteMove x s maps m
  unfold changeTranslation at h
  split at h
  · split at h
    · cases h
      exact hmoved.updateAll fun _ _ => onlyCleared_mayClear ..
    · split at h <;> cases h
      exact clears_refl
  · cases h

theorem clears_spontaneous {f : PE → PE} (hf : ∀ x, onlyCleared x (f x)) (h : spontaneous s p f = .next t) :
    Clears s t := by
  unfold spontaneous at h
  split at h <;> cases h
  exact clears_updatePE hf

/-- An action that is not one PE's own only clears monitors (R172 to R178). -/
theorem perform_clears {a : Action} (ha : actorOf a = none) (h : perform s a = .next t) : Clears s t := by
  cases a <;> cases ha
  case observerWrite => exact clears_observerWrites (byObserver_next h).2
  case observerRead =>
    obtain ⟨-, h⟩ := byObserver_next h
    unfold observerReads at h
    split at h
    · split at h <;> cases h
      exact clears_refl
    · cases h
  case remap => exact clears_changeTranslation h
  case spontaneousClearLocal => exact clears_spontaneous onlyCleared_clearLocal h
  case spontaneousClearGlobal => exact clears_spontaneous onlyCleared_clearGlobal h
  all_goals cases (byPE_next h).2.2
  case pldw => exact clears_preloadWrite
  case icacheInvalidateVA => exact clears_instrCacheInvalidateVA
  case dcacheMaint | icacheInvalidateAll | tlbInvalidate => exact clears_mayClearAll

end Operations

end Sys2Proof.Machine
end

section
/-! PROOF. What a step does to a PE whose turn it is not, and the event of every cleared global monitor (R58, R66, R71,
R72, R164). -/

namespace Sys2Proof.Machine

/-- Nothing of a PE differs but that monitors may have been cleared and an event may have come to be held. -/
def clearedOrWoken (x y : PE) : Prop :=
  onlyMonitors x y ∧ (y.lm = x.lm ∨ y.lm = .openAccess) ∧ (y.gm = x.gm ∨ y.gm = .openAccess) ∧
    (x.ev = true → y.ev = true)

theorem onlyCleared.clearedOrWoken {x y : PE} (h : onlyCleared x y) : clearedOrWoken x y := by
  obtain ⟨-, hev⟩ := h.leavesEvent
  obtain ⟨hframe, hlm, ⟨hgm, -⟩ | ⟨-, hgm, -⟩⟩ := h
  · exact ⟨hframe, hlm, .inl hgm, hev⟩
  · exact ⟨hframe, hlm, .inr hgm, hev⟩

theorem clearedOrWoken_setEvent (x : PE) : clearedOrWoken x { x with ev := true } :=
  ⟨⟨rfl, rfl⟩, .inl rfl, .inl rfl, fun _ => rfl⟩

/-- Settles O13: an instruction touches another PE by a write it observes or by an event, an action of another agent by
clearing. -/
theorem othersOnlyCleared : Obligations.OthersOnlyCleared := by
  intro s t m h hmover
  show clearedOrWoken (s.pe m) (t.pe m)
  obtain ⟨p, i, turns, hp, -, -, -, hexec⟩ | ⟨a, turns, ha, hact⟩ := step_turn h
  · have hne : m ≠ p := fun hm => hmover (hm ▸ hp)
    obtain hload | ⟨-, hstore⟩ | ⟨-, hevent⟩ := exec_acts hexec
    · rw [← hload.others m hne]
      exact (onlyCleared_refl _).clearedOrWoken
    · exact (hstore.others m hne).clearedOrWoken
    · obtain hsame | hwoken := hevent.others m hne
      · rw [hsame]
        exact (onlyCleared_refl _).clearedOrWoken
      · rw [hwoken]
        exact clearedOrWoken_setEvent _
  · have hmoverA : mover s = actorOf a := by simp [mover, ha]
    cases hactor : actorOf a with
    | none => exact (perform_clears hactor hact m).clearedOrWoken
    | some p =>
      have hne : m ≠ p := fun hm => hmover (by rw [hmoverA, hactor, hm])
      obtain hown | ⟨-, hstore⟩ := perform_acts hactor hact
      · rw [← hown.others m hne]
        exact (onlyCleared_refl _).clearedOrWoken
      · exact (hstore.others m hne).clearedOrWoken

/-- Whoever acts, each PE keeps the event of a clear. -/
theorem Acts.leavesEvent {C : PE → PE → Prop} {p m : Nat} {s t : State} (h : Acts C p s t)
    (hC : ∀ {x y}, C x y → onlyCleared x y) : leavesEvent (s.pe m) (t.pe m) := by
  by_cases hm : m = p
  · exact hm ▸ h.own
  · exact (hC (h.others m hm)).leavesEvent

theorem OnlyEvents.gm {p m : Nat} {s t : State} (h : OnlyEvents p s t) : (t.pe m).gm = (s.pe m).gm := by
  by_cases hm : m = p
  · rw [hm, h.own]
  · obtain hsame | hwoken := h.others m hm
    · rw [hsame]
    · rw [hwoken]

/-- In every step each global monitor stays as it is or leaves the event of its clear. -/
theorem step_gmKept_or_leavesEvent {s t : State} (h : step s = .next t) (m : Nat) :
    (t.pe m).gm = (s.pe m).gm ∨ leavesEvent (s.pe m) (t.pe m) := by
  have heq : ∀ {x y : PE}, x = y → onlyCleared x y := fun h => h ▸ onlyCleared_refl _
  obtain ⟨p, i, turns, -, -, -, -, hexec⟩ | ⟨a, turns, -, hact⟩ := step_turn h
  · obtain hown | ⟨-, hstore⟩ | ⟨-, hevent⟩ := exec_acts hexec
    · exact .inr (hown.leavesEvent heq)
    · exact .inr (hstore.leavesEvent id)
    · exact .inl hevent.gm
  · cases hactor : actorOf a with
    | none => exact .inr (perform_clears hactor hact m).leavesEvent
    | some p =>
      obtain hown | ⟨-, hstore⟩ := perform_acts hactor hact
      · exact .inr (hown.leavesEvent heq)
      · exact .inr (hstore.leavesEvent id)

/-- Settles O15: a global monitor that a step opens did not stay as it is. -/
theorem eventOnGlobalClear : Obligations.EventOnGlobalClear := by
  refine ⟨fun x => ⟨fun hset => ?marked, fun hopen => ?unmarked⟩, fun s t m h hset hopen => ?step⟩
  case marked =>
    cases hgm : x.gm with
    | openAccess => rw [hgm] at hset; cases hset
    | exclusive g => simp [clearGlobal, hgm]
  case unmarked => simp [clearGlobal, hopen]
  case step =>
    obtain hsame | hleaves := step_gmKept_or_leavesEvent h m
    · rw [← hsame, hopen] at hset
      cases hset
    · exact hleaves.1 hset hopen

end Sys2Proof.Machine
end

section
/-! PROOF. Marked blocks and the byte order of data (R52, R54, R55, R103, R105, R121 to R148). -/

namespace Sys2Proof.Machine

/-! ## Blocks (R52, R54) -/

section Block
variable {cfg : Config} {pa n b : Nat}

theorem block_eq_div (cfg : Config) (pa : Nat) : block cfg pa = pa / 2 ^ cfg.ergLog2 := Nat.shiftRight_eq_div_pow ..

/-- The addresses of one block are the `2^a` bytes from its first one. -/
theorem block_eq_iff (cfg : Config) (q b : Nat) :
    block cfg q = b ↔ b <<< cfg.ergLog2 ≤ q ∧ q ≤ b <<< cfg.ergLog2 + 2 ^ cfg.ergLog2 - 1 := by
  have hpos : 0 < 2 ^ cfg.ergLog2 := Nat.two_pow_pos _
  rw [block_eq_div, Nat.shiftLeft_eq, Nat.div_eq_iff hpos]

/-- The blocks from that of the first byte to that of the last are those of some byte (R54). -/
theorem inBlocks_iff_touches (h : 1 ≤ n) : inBlocks cfg pa n b = true ↔ touches cfg pa n b := by
  refine ⟨fun hb => ?_, inBlocks_of_touches⟩
  simp only [inBlocks, Bool.and_eq_true, decide_eq_true_eq] at hb
  obtain ⟨hfirst, hlast⟩ := hb
  rcases hfirst.eq_or_lt with heq | hlt
  · exact ⟨0, h, heq⟩
  · rw [block_eq_div] at hlast hlt
    have hpos : 0 < 2 ^ cfg.ergLog2 := Nat.two_pow_pos _
    have hstart : pa < b * 2 ^ cfg.ergLog2 := (Nat.div_lt_iff_lt_mul hpos).mp hlt
    have hend : b * 2 ^ cfg.ergLog2 ≤ pa + n - 1 := (Nat.le_div_iff_mul_le hpos).mp hlast
    refine ⟨b * 2 ^ cfg.ergLog2 - pa, by omega, ?_⟩
    rw [block_eq_div, Nat.add_sub_cancel' hstart.le, Nat.mul_div_cancel _ hpos]

theorem inBlocks_eq_false (h : 1 ≤ n) (hb : ¬touches cfg pa n b) : inBlocks cfg pa n b = false :=
  Bool.eq_false_iff.mpr fun h' => hb ((inBlocks_iff_touches h).mp h')

/-- The granule is a multiple of 8 bytes, so that an aligned access does not cross into the next block (R53, R54). -/
theorem block_of_aligned {k : Nat} (hcfg : configOk cfg = true) (hn : n = 1 ∨ n = 2 ∨ n = 4 ∨ n = 8) (hal : pa % n = 0)
    (hk : k < n) : block cfg (pa + k) = block cfg pa := by
  have hgranule : 3 ≤ cfg.ergLog2 := by
    simp only [configOk, Bool.and_eq_true, decide_eq_true_eq] at hcfg
    omega
  have hdvd : n ∣ 2 ^ cfg.ergLog2 := by
    have h8 : n ∣ 2 ^ 3 := by rcases hn with rfl | rfl | rfl | rfl <;> decide
    exact h8.trans (pow_dvd_pow 2 hgranule)
  obtain ⟨c, hc⟩ := hdvd
  have hsame : (pa + k) / n = pa / n := by
    obtain ⟨j, rfl⟩ := Nat.dvd_of_mod_eq_zero hal
    have hpos : 0 < n := by omega
    rw [Nat.mul_add_div hpos, Nat.div_eq_of_lt hk, Nat.mul_div_cancel_left _ hpos, Nat.add_zero]
  rw [block_eq_div, block_eq_div, hc, ← Nat.div_div_eq_div_mul, ← Nat.div_div_eq_div_mul, hsame]

end Block

/-- Settles O50: the general fact, and the worked example at `a = 4`. -/
theorem markedBlockIsAligned : Obligations.MarkedBlockIsAligned := by
  refine ⟨fun cfg pa q => block_eq_iff cfg q (block cfg pa), fun cfg ha => ⟨?_, fun q => ?_⟩⟩
  · simp [block, ha]
  · rw [block_eq_iff, ha]
    exact Iff.rfl

/-- Settles O51: no aligned access crosses a block, and the blocks of a write are those of its bytes. -/
theorem alignedAccessInOneBlock : Obligations.AlignedAccessInOneBlock :=
  fun _ _ _ hcfg => ⟨fun hn hal _ hk => block_of_aligned hcfg hn hal hk, fun h _ => inBlocks_iff_touches h⟩

/-! ## Byte order (R55) -/

section Bytes
variable {big : Bool} {n k v : Nat} {bs : List Byte}

/-- Where byte `k` from the least significant end stands among `n` bytes at rising addresses. -/
def bytePlace (big : Bool) (n k : Nat) : Nat := if big then n - 1 - k else k

theorem bytePlace_lt (h : k < n) : bytePlace big n k < n := by
  unfold bytePlace
  split <;> omega

/-- Byte `k` of a number written out, the least significant first. -/
theorem getElem?_bytesLE (h : k < n) : (bytesLE n v)[k]? = some (BitVec.ofNat 8 (v >>> (8 * k))) := by
  induction n generalizing v k with
  | zero => omega
  | succ n ih =>
    cases k with
    | zero => rfl
    | succ k =>
      have hshift : v / 256 = v >>> 8 := (Nat.shiftRight_eq_div_pow v 8).symm
      have hplace : 8 + 8 * k = 8 * (k + 1) := by omega
      rw [bytesLE, List.getElem?_cons_succ, ih (by omega), hshift, ← Nat.shiftRight_add, hplace]

theorem getElem?_disassemble (h : k < n) :
    (disassemble big n v)[k]? = some (BitVec.ofNat 8 (v >>> (8 * bytePlace big n k))) := by
  cases big with
  | false => exact getElem?_bytesLE h
  | true =>
    have hlen : (bytesLE n v).length = n := length_bytesLE n v
    simp only [disassemble, if_true, bytePlace]
    rw [List.getElem?_reverse (by omega), hlen, getElem?_bytesLE (by omega)]

/-- Byte `k` of the number some bytes stand for; beyond them the number is 0. -/
theorem numberLE_shiftRight (bs : List Byte) (k : Nat) :
    BitVec.ofNat 8 (numberLE bs >>> (8 * k)) = bs[k]?.getD 0 := by
  induction bs generalizing k with
  | nil => simp [numberLE]
  | cons b bs ih =>
    have hb : b.toNat < 256 := b.isLt
    cases k with
    | zero =>
      apply BitVec.eq_of_toNat_eq
      simp only [numberLE, BitVec.toNat_ofNat, Nat.mul_zero, Nat.shiftRight_zero, List.getElem?_cons_zero,
        Option.getD_some]
      omega
    | succ k =>
      have hdiv : (b.toNat + 256 * numberLE bs) >>> 8 = numberLE bs := by
        rw [Nat.shiftRight_eq_div_pow]
        omega
      rw [numberLE, show 8 * (k + 1) = 8 + 8 * k by omega, Nat.shiftRight_add, hdiv, ih k]
      simp

theorem assemble_shiftRight (h : k < bs.length) :
    BitVec.ofNat 8 (assemble big bs >>> (8 * k)) = bs[bytePlace big bs.length k]?.getD 0 := by
  rw [assemble, numberLE_shiftRight]
  cases big with
  | false => rfl
  | true =>
    have hlast : bs.length - 1 - k < bs.length := by omega
    simp [bytePlace, h, hlast]

theorem assemble_shiftRight_beyond (h : bs.length ≤ k) : BitVec.ofNat 8 (assemble big bs >>> (8 * k)) = 0 := by
  rw [assemble, numberLE_shiftRight]
  cases big <;> simp [h]

end Bytes

section Access
variable {s : State} {pa n k : Nat} {r : Reg}

/-- A byte of a word is a byte of the number it was made from. -/
theorem setWidth_ofNat_shiftRight (x : Nat) (h : k < 4) :
    (BitVec.ofNat 32 x >>> (8 * k)).setWidth 8 = BitVec.ofNat 8 (x >>> (8 * k)) := by
  apply BitVec.eq_of_getLsbD_eq
  intro i hi
  have hin : 8 * k + i < 32 := by omega
  simp only [BitVec.getLsbD_setWidth, BitVec.getLsbD_ushiftRight, BitVec.getLsbD_ofNat, Nat.testBit_shiftRight, hi, hin,
    decide_true, Bool.true_and]

/-- A byte of a word, read as that of its number. -/
theorem ofNat_toNat_shiftRight {w : Nat} (x : BitVec w) (j : Nat) :
    BitVec.ofNat 8 (x.toNat >>> j) = (x >>> j).setWidth 8 := by
  apply BitVec.eq_of_toNat_eq
  simp

theorem getElem?_memReadBytes {m : Memory} (h : k < n) : (memReadBytes m pa n)[k]? = some (memRead m (pa + k)) := by
  simp [memReadBytes, h]

theorem memNumber_byte (h4 : k < 4) (h : k < n) :
    (memNumber s pa n >>> (8 * k)).setWidth 8 = memRead s.mem (pa + bytePlace s.cfg.bigEndian n k) := by
  rw [memNumber, setWidth_ofNat_shiftRight _ h4, assemble_shiftRight (by simpa using h), length_memReadBytes,
    getElem?_memReadBytes (bytePlace_lt h), Option.getD_some]

theorem memNumber_beyond (h4 : k < 4) (h : n ≤ k) : (memNumber s pa n >>> (8 * k)).setWidth 8 = 0#8 := by
  rw [memNumber, setWidth_ofNat_shiftRight _ h4]
  exact assemble_shiftRight_beyond (by simpa using h)

theorem regBytes_byte (h : k < n) :
    (regBytes s r n)[k]? = some ((s.reg s.cur r >>> (8 * bytePlace s.cfg.bigEndian n k)).setWidth 8) := by
  rw [regBytes, getElem?_disassemble h, ofNat_toNat_shiftRight]

/-- The eight bytes of a pair: those of the first register, then those of the second (R148). -/
theorem pairBytes_byte {r2 : Reg} (h : k < 4) :
    (pairBytes s r r2)[k]? = (regBytes s r 4)[k]? ∧ (pairBytes s r r2)[4 + k]? = (regBytes s r2 4)[k]? := by
  refine ⟨List.getElem?_append_left (by simpa using h), ?_⟩
  rw [pairBytes, List.getElem?_append_right (by simp)]
  simp

/-- The offset of an address is four times the immediate (R105). -/
theorem toNat_addrOffset (s : State) (rn : Reg) (imm8 : BitVec 8) :
    (addrOffset s rn imm8).toNat = ((s.reg s.cur rn).toNat + 4 * imm8.toNat) % 2 ^ 32 := by
  have himm : ((imm8 ++ 0b00#2).setWidth 32).toNat = 4 * imm8.toNat := by
    have hlt : imm8.toNat < 256 := imm8.isLt
    have happend : (imm8 ++ 0b00#2).toNat = 4 * imm8.toNat := by
      rw [BitVec.toNat_append, BitVec.toNat_ofNat, Nat.zero_mod, Nat.or_zero, Nat.shiftLeft_eq, Nat.mul_comm]
    rw [BitVec.toNat_setWidth, happend]
    omega
  rw [addrOffset, BitVec.toNat_add, himm]

end Access

/-- Settles O52: byte by byte for a number read and a register supplied, then for a pair; the rest is the operand
forms. -/
theorem dataByteOrder : Obligations.DataByteOrder := by
  refine ⟨fun s pa n k r hn hk => ⟨fun hkn => ⟨memNumber_byte hk hkn, regBytes_byte hkn⟩, memNumber_beyond hk⟩,
    fun s r r2 k hk => ?pair, fun rt hrt => ?next, fun s rn imm8 => ⟨rfl, toNat_addrOffset s rn imm8⟩⟩
  case pair =>
    obtain ⟨hlow, hhigh⟩ := pairBytes_byte (s := s) (r := r) (r2 := r2) hk
    exact ⟨hlow.trans (regBytes_byte hk), hhigh.trans (regBytes_byte hk), length_pairBytes .., length_regBytes ..⟩
  case next =>
    rw [nextReg, Fin.val_add_one_of_lt' (by omega)]

end Sys2Proof.Machine
end

section
/-! SUPPORT. What an observed write does to one PE, clause by clause (R70 to R75), and the bytes it leaves. -/

namespace Sys2Proof.Machine

/-- An outcome that follows a choice is as the configuration fixes it, or one of the two (D9). -/
theorem byChoice_of_choose {s : State} {id : ChoiceId} {call m : Nat} {yes no : Prop}
    (hyes : choose s id call m = true → yes) (hno : choose s id call m = false → no) : byChoice s.cfg id yes no := by
  refine ⟨?_, fun h => hyes (choose_fixed h ..), fun h => hno (choose_fixed h ..)⟩
  cases h : choose s id call m with
  | true => exact .inl (hyes h)
  | false => exact .inr (hno h)

/-! ## The monitors of one PE after the two clears -/

section Clears
variable {x : PE} {b : Bool}

theorem globalKept_refl : globalKept x x := ⟨rfl, rfl⟩

/-- A conditional clear of a set global monitor. -/
theorem globalCleared_clearGlobalIf (hset : x.gm.isSet = true) (hb : b = true) : globalCleared (clearGlobalIf b x) := by
  subst hb
  rw [clearGlobalIf_eq, if_pos rfl]
  exact ⟨clearGlobal_gm x, by rw [clearGlobal_ev, hset, Bool.or_true]⟩

theorem globalKept_clearGlobalIf (h : b = false) : globalKept x (clearGlobalIf b x) := by
  rw [clearGlobalIf_eq, if_neg (by simp [h])]
  exact globalKept_refl

/-- An open global monitor is left alone. -/
theorem globalKept_clearGlobalIf_open (h : x.gm = .openAccess) : globalKept x (clearGlobalIf b x) := by
  simp [clearGlobalIf, h, globalKept]

theorem clearLocalIf_lm (x : PE) (b : Bool) : (clearLocalIf b x).lm = if b then .openAccess else x.lm := by
  cases b <;> rfl

end Clears

/-! ## Observation -/

section Observe
variable {s : State} {call pa n m b : Nat} {o : Observer} {attr : MemAttr} {x : PE}

/-- Whether an observed write clears the global mark of the PE. -/
def observeClearsGlobal (s : State) (call : Nat) (o : Observer) (pa n : Nat) (attr : MemAttr) (m : Nat) (x : PE) :
    Bool :=
  match x.gm with
  | .openAccess => false
  | .exclusive b => inBlocks s.cfg pa n b && clearsOtherGlobal s call o pa attr m

/-- Whether the PE's own write clears its global mark. -/
def ownClearsGlobal (s : State) (call pa n m : Nat) (x : PE) : Bool :=
  match x.gm with
  | .openAccess => false
  | .exclusive b => inBlocks s.cfg pa n b && choose s .id19 call m

/-- Whether a write clears the local mark: by one choice where the mark covers a block of the write, else by another. -/
def clearsLocal (s : State) (inside outside : ChoiceId) (call pa n m : Nat) (x : PE) : Bool :=
  match x.lm with
  | .openAccess => false
  | .exclusive b => choose s (if localCovers s.cfg pa n b then inside else outside) call m

theorem observeOther_eq : observeOther s call o pa n attr m x =
    noteWrite s pa n m (clearLocalIf (clearsLocal s .id5 .id6 call pa n m x)
      (clearGlobalIf (observeClearsGlobal s call o pa n attr m x) x)) := rfl

theorem observeOwn_eq : observeOwn s call pa n m x =
    noteWrite s pa n m (clearGlobalIf (ownClearsGlobal s call pa n m x)
      (clearLocalIf (clearsLocal s .id4 .id3 call pa n m x) x)) := rfl

/-- The local monitor after a write, on its own block and elsewhere (R72, R73). -/
theorem byChoice_clearsLocal {inside outside : ChoiceId} {y : PE} (h1 : 1 ≤ n)
    (hy : y.lm = if clearsLocal s inside outside call pa n m x then .openAccess else x.lm) :
    (∀ b, x.lm = .exclusive b → s.cfg.localHoldsPA = true → touches s.cfg pa n b →
      byChoice s.cfg inside (y.lm = .openAccess) (y.lm = x.lm)) ∧
    (∀ b, x.lm = .exclusive b → ¬(s.cfg.localHoldsPA = true ∧ touches s.cfg pa n b) →
      byChoice s.cfg outside (y.lm = .openAccess) (y.lm = x.lm)) := by
  have hcovers : ∀ b, localCovers s.cfg pa n b = true ↔ s.cfg.localHoldsPA = true ∧ touches s.cfg pa n b := fun b => by
    rw [localCovers, Bool.and_eq_true, inBlocks_iff_touches h1]
  have follow : ∀ b id, x.lm = .exclusive b → (if localCovers s.cfg pa n b then inside else outside) = id →
      byChoice s.cfg id (y.lm = .openAccess) (y.lm = x.lm) := fun b id hb hid => by
    have hc : clearsLocal s inside outside call pa n m x = choose s id call m := by
      rw [← hid]
      simp only [clearsLocal, hb]
    exact byChoice_of_choose (call := call) (m := m) (fun h => by rw [hy, hc, if_pos h])
      (fun h => by rw [hy, hc, if_neg (by simp [h])])
  exact ⟨fun b hb hpa ht => follow b _ hb (if_pos ((hcovers b).mpr ⟨hpa, ht⟩)),
    fun b hb hout => follow b _ hb (if_neg (mt (hcovers b).mp hout))⟩

/-- What another observer's write does to a PE, as the statements say it (R70 to R72, R74, R75). -/
theorem observedByOther_observeOther (h1 : 1 ≤ n) :
    observedByOther s.cfg o pa n attr x (observeOther s call o pa n attr m x) := by
  have hlm : (observeOther s call o pa n attr m x).lm =
      if clearsLocal s .id5 .id6 call pa n m x then .openAccess else x.lm := by
    rw [observeOther_eq, noteWrite_lm, clearLocalIf_lm, clearGlobalIf_lm]
  obtain ⟨hinside, houtside⟩ := byChoice_clearsLocal h1 hlm
  have hcleared : observeClearsGlobal s call o pa n attr m x = true → x.gm.isSet = true →
      globalCleared (observeOther s call o pa n attr m x) := fun hb hset => by
    simpa [observeOther_eq, globalCleared] using globalCleared_clearGlobalIf hset hb
  have hkept : observeClearsGlobal s call o pa n attr m x = false →
      globalKept x (observeOther s call o pa n attr m x) := fun hb => by
    simpa [observeOther_eq, globalKept] using globalKept_clearGlobalIf (x := x) hb
  refine ⟨onlyCleared_observeOther .., fun g hg ht => ?touched, fun hout => hkept ?untouched, hinside, houtside⟩
  case touched =>
    have hset : x.gm.isSet = true := by rw [hg]; rfl
    have hin : inBlocks s.cfg pa n g = true := inBlocks_of_touches ht
    have hclears : observeClearsGlobal s call o pa n attr m x = clearsOtherGlobal s call o pa attr m := by
      simp [observeClearsGlobal, hg, hin]
    rw [hclears] at hcleared hkept
    unfold clearsOtherGlobal at hcleared hkept
    split
    · rename_i hguaranteed
      exact hcleared (by simp [hguaranteed]) hset
    · rename_i hopen
      rw [if_neg (by simpa [and_assoc] using hopen)] at hcleared hkept
      exact byChoice_of_choose (fun h => hcleared h hset) hkept
  case untouched =>
    cases hg : x.gm with
    | openAccess => simp [observeClearsGlobal, hg]
    | exclusive g => simp [observeClearsGlobal, hg, inBlocks_eq_false h1 (hout g hg)]

/-- What a PE's own write that is no Store-Exclusive does to it, as the statements say it (R70, R73). -/
theorem observedByWriter_observeOwn (h1 : 1 ≤ n) :
    observedByWriter s.cfg pa n x (observeOwn s call pa n m x) := by
  have hlm : (observeOwn s call pa n m x).lm =
      if clearsLocal s .id4 .id3 call pa n m x then .openAccess else x.lm := by
    rw [observeOwn_eq, noteWrite_lm, clearGlobalIf_lm, clearLocalIf_lm]
  obtain ⟨hinside, houtside⟩ := byChoice_clearsLocal h1 hlm
  have hcleared : ownClearsGlobal s call pa n m x = true → x.gm.isSet = true →
      globalCleared (observeOwn s call pa n m x) := fun hb hset => by
    have hset' : (clearLocalIf (clearsLocal s .id4 .id3 call pa n m x) x).gm.isSet = true := by rwa [clearLocalIf_gm]
    simpa [observeOwn_eq, globalCleared] using globalCleared_clearGlobalIf hset' hb
  have hkept : ownClearsGlobal s call pa n m x = false → globalKept x (observeOwn s call pa n m x) := fun hb => by
    simpa [observeOwn_eq, globalKept] using
      globalKept_clearGlobalIf (x := clearLocalIf (clearsLocal s .id4 .id3 call pa n m x) x) hb
  refine ⟨onlyCleared_observeOwn .., fun g hg ht => ?touched, fun hout => hkept ?untouched, hinside, houtside⟩
  case touched =>
    have hset : x.gm.isSet = true := by rw [hg]; rfl
    have hclears : ownClearsGlobal s call pa n m x = choose s .id19 call m := by
      simp [ownClearsGlobal, hg, inBlocks_of_touches ht]
    rw [hclears] at hcleared hkept
    exact byChoice_of_choose (fun h => hcleared h hset) hkept
  case untouched =>
    cases hg : x.gm with
    | openAccess => simp [ownClearsGlobal, hg]
    | exclusive g => simp [ownClearsGlobal, hg, inBlocks_eq_false h1 (hout g hg)]

end Observe

/-! ## The bytes of a write -/

section Written
variable {m : Memory} {pa n k v : Nat} {bs : List Byte}

theorem memReadBytes_memWriteBytes (h : memWf m = true) (pa : Nat) (bs : List Byte) :
    memReadBytes (memWriteBytes m pa bs) pa bs.length = bs := by
  apply List.ext_getElem (length_memReadBytes ..)
  intro i _ hi
  simpa [memReadBytes] using memRead_memWriteBytes_in h hi

/-- Byte `k` of a number written to memory in the byte order of data (R55). -/
theorem memRead_disassemble (h : memWf m = true) {big : Bool} (hk : k < n) :
    memRead (memWriteBytes m pa (disassemble big n v)) (pa + k) =
      BitVec.ofNat 8 (v >>> (8 * if big then n - 1 - k else k)) := by
  have hlen : k < (disassemble big n v).length := by simpa using hk
  have hbyte := getElem?_disassemble (big := big) (v := v) hk
  rw [List.getElem?_eq_getElem hlen, Option.some.injEq] at hbyte
  rw [memRead_memWriteBytes_in h hlen, hbyte]
  rfl

/-- Memory outside a written number is unchanged. -/
theorem memRead_disassemble_outside (h : memWf m = true) {big : Bool} {a : Nat} (ha : a < pa ∨ pa + n ≤ a) :
    memRead (memWriteBytes m pa (disassemble big n v)) a = memRead m a :=
  memRead_memWriteBytes_out h (by simpa using ha)

end Written

end Sys2Proof.Machine
end

section
/-! PROOF. Plain accesses, the accesses of a non-PE observer, foreign instructions, and the acquire and release forms
(R69 to R78, R170 to R173, R180). -/

namespace Sys2Proof.Machine

/-- Settles O36: the bytes by the byte order, the monitors of each PE by the observation of the write. -/
theorem plainStoreObserved : Obligations.PlainStoreObserved := by
  intro s p va n v pa attr hwf hp he h1 h8 htr hin hab
  refine ⟨_, (byPE_running hp he).trans (plainStore_writes h1 h8 htr hin hab), ?system, ?outside, fun k hk => ?bytes,
    ?writer, fun m hm hmp => ?others⟩
  case system => exact ⟨rfl, rfl, rfl, by simp, rfl, rfl, rfl⟩
  case outside => exact fun a ha => memRead_disassemble_outside hwf ha
  case bytes => exact (memRead_disassemble hwf hk).trans (ofNat_toNat_shiftRight ..)
  case writer =>
    rw [tick_pe, pe_observeWrite_store _ _ _ _ _ _ (by simpa using hp)]
    exact observedByWriter_observeOwn (s := s.writeBytes pa _) h1
  case others =>
    rw [tick_pe, pe_observeWrite_other _ _ _ _ _ _ _ _ (by simpa using hm) (by simpa using hmp.symm)]
    exact observedByOther_observeOther (s := s.writeBytes pa _) h1

/-- Settles O37: no PE is the writer. -/
theorem observerWriteObserved : Obligations.ObserverWriteObserved := by
  intro s k pa n v hwf hk h1 hin hab
  refine ⟨_, (byObserver_present hk).trans (observerWrites_writes h1 hin hab), ?system, ?outside, fun j hj => ?bytes,
    fun m hm => ?others⟩
  case system => exact ⟨rfl, rfl, rfl, by simp, rfl, rfl, rfl⟩
  case outside => exact fun a ha => memRead_disassemble_outside hwf ha
  case bytes => exact memRead_disassemble hwf hj
  case others =>
    rw [tick_pe, pe_observeWrite_other _ _ _ _ _ _ _ _ (by simpa using hm) (by simp)]
    exact observedByOther_observeOther (s := s.writeBytes pa _) h1

/-- Settles O38: such a read is a step of the counter alone. -/
theorem readsTouchNoMonitor : Obligations.ReadsTouchNoMonitor := by
  have htick : ∀ s : State, sameSystem s s.tick ∧ sameMemory s s.tick ∧ ∀ m, s.tick.pe m = s.pe m := fun s =>
    ⟨⟨rfl, rfl, rfl, rfl, rfl, rfl, rfl⟩, fun _ => rfl, fun _ => rfl⟩
  refine ⟨fun s p va n pa attr hp he h1 htr hin hab => ⟨s.tick, ?load, htick s⟩,
    fun s k pa n hk h1 hin => ⟨s.tick, ?read, htick s⟩⟩
  case load =>
    refine (byPE_running hp he).trans ?_
    simp [plainLoad, show 0 < n from h1, htr, hin, hab]
  case read =>
    refine (byObserver_present hk).trans ?_
    simp [observerReads, show 0 < n from h1, hin]

/-- Settles O46: by the kind of the instruction, what `foreignStep` makes of the PE. -/
theorem foreignTouchesNoMonitor : Obligations.ForeignTouchesNoMonitor := by
  intro s p kind u hp he
  refine ⟨_, byPE_running hp he, ?system, fun _ => rfl, fun m hm => pe_updatePE_ne _ _ _ _ hm, ?own⟩
  case system => exact ⟨rfl, rfl, rfl, by simp, rfl, rfl, rfl⟩
  case own =>
    rw [tick_pe, pe_updatePE_self _ _ _ hp]
    dsimp only
    cases kind with
    | isb => simp [foreignStep, cpsrAdvanced_afterInstr]
    | systemRegisterWrite dfsr dfar hsr hdfar => simp [foreignStep]
    | registerOnly | prefetch | addressTranslation | exceptionGenerating | indirectBranch | branchWithLink =>
      simp [foreignStep]

/-- The offset form with offset 0 has the address of the base form (R105). -/
theorem addrOffset_zero (s : State) (rn : Reg) : addrOffset s rn 0 = addrBase s rn := BitVec.add_zero _

/-- Settles O35: each acquire or release form has the meaning of the plain form; in T32 the word forms differ in the
operand form too. -/
theorem acquireReleaseAsPlain : Obligations.AcquireReleaseAsPlain := by
  refine ⟨fun _ _ _ _ => ⟨rfl, rfl, rfl, rfl⟩, fun _ _ _ _ _ => ⟨rfl, rfl, rfl, rfl⟩,
    fun rt _ rn s => ⟨rfl, rfl, ?load, rfl⟩, fun rd rt _ rn s => ⟨rfl, rfl, ?store, rfl⟩⟩
  case load =>
    show execLdaexT rt rn s = execLdrexT rt rn 0 s
    rw [execLdrexT, addrOffset_zero, execLdaexT]
  case store =>
    show execStlexT rd rt rn s = execStrexT rd rt rn 0 s
    rw [execStrexT, addrOffset_zero, execStlexT]

end Sys2Proof.Machine
end

section
/-! SUPPORT. The Store-Exclusives to a location with the monitors they need: what the monitors decide, and the state
after it (R60 to R64, R68, R140). -/

namespace Sys2Proof.Machine

/-! ## The decision of the monitors (R60 to R64, R74) -/

/-- The local monitor lets a Store-Exclusive pass, and R235 does not bar it. -/
def localPasses (s : State) (p : Nat) (va : Word) (pa : Nat) (attr : MemAttr) : Bool :=
  localCheck s p pa && !movedAndWritten s p va attr

/-- Every monitor that the location needs lets a Store-Exclusive pass. -/
def monitorsPass (s : State) (p : Nat) (va : Word) (pa : Nat) (attr : MemAttr) : Bool :=
  localPasses s p va pa attr && (!shareable attr || globalCheck s p pa)

/-- A Store-Exclusive asks for its PE's own global monitor to be cleared: after a local monitor that lets it pass, by
the global check or, at a Non-shareable location, by ID11. -/
def clearsOwnGlobal (s : State) (p : Nat) (va : Word) (pa : Nat) (attr : MemAttr) : Bool :=
  localPasses s p va pa attr && if shareable attr then globalCheckClears s p pa else choose s .id11 0 p

section Decision
variable {s : State} {p pa : Nat} {va : Word} {attr : MemAttr} {bs : List Byte}

theorem clearLocal_eq : clearLocal = fun x => clearGlobalIf false (clearLocal x) := by
  funext x
  simp [clearGlobalIf_eq]

/-- Steps 4 to 6 of R140 by the decision: a store that passes writes and is observed, one that fails changes the PE's
monitors alone. -/
theorem storeChecked_eq (hm : monitored s pa attr)
    (hab : monitorsPass s p va pa attr = true → writeAborts s pa bs.length = false) :
    storeChecked s p va pa attr bs =
      if monitorsPass s p va pa attr then
        .status (storePasses s p pa attr bs fun x => clearGlobalIf (clearsOwnGlobal s p va pa attr) (clearLocal x)) 0
          [(pa, bs.length)]
      else .status (s.updatePE p fun x => clearGlobalIf (clearsOwnGlobal s p va pa attr) (clearLocal x)) 1 [] := by
  unfold storeChecked
  cases hlocal : localPasses s p va pa attr with
  | false =>
    have hclears : clearsOwnGlobal s p va pa attr = false := by simp [clearsOwnGlobal, hlocal]
    have hpass : monitorsPass s p va pa attr = false := by simp [monitorsPass, hlocal]
    rw [hpass, hclears, ← clearLocal_eq]
    unfold localPasses at hlocal
    split
    · rename_i hsh
      simp [hm hsh, storeShareable, hlocal]
    · simp [storeNonShareable, hlocal]
  | true =>
    have hlocal' := hlocal
    unfold localPasses at hlocal'
    split
    · rename_i hsh
      have hpass : monitorsPass s p va pa attr = globalCheck s p pa := by simp [monitorsPass, hlocal, hsh]
      have hclears : clearsOwnGlobal s p va pa attr = globalCheckClears s p pa := by simp [clearsOwnGlobal, hlocal, hsh]
      rw [if_pos (hm hsh), storeShareable, if_pos hlocal', hpass, hclears]
      dsimp only
      split
      · rename_i hglobal
        rw [hab (hpass.trans hglobal)]
        rfl
      · rfl
    · rename_i hsh
      have hpass : monitorsPass s p va pa attr = true := by simp [monitorsPass, hlocal, hsh]
      have hclears : clearsOwnGlobal s p va pa attr = choose s .id11 0 p := by simp [clearsOwnGlobal, hlocal, hsh]
      rw [storeNonShareable, if_pos hlocal', hab hpass, hpass, hclears]
      rfl

/-! ## What decides -/

theorem localCheck_marked (h : (s.pe p).lm = .exclusive (block s.cfg pa)) : localCheck s p pa = true := by
  simp [localCheck, h]

theorem localPasses_lmOpen (h : (s.pe p).lm = .openAccess) : localPasses s p va pa attr = false := by
  simp [localPasses, localCheck, h]

theorem globalCheck_marked (h : (s.pe p).gm = .exclusive (block s.cfg pa)) : globalCheck s p pa = true := by
  simp [globalCheck, h]

theorem globalCheckClears_marked (h : (s.pe p).gm = .exclusive (block s.cfg pa)) :
    globalCheckClears s p pa = choose s .id7 0 p := by
  simp [globalCheckClears, h]

theorem monitorsPass_gmOpen (hsh : shareable attr = true) (h : (s.pe p).gm = .openAccess) :
    monitorsPass s p va pa attr = false := by
  simp [monitorsPass, hsh, globalCheck, h]

/-- Where ID2 is fixed to false the local monitor lets pass only the marked block (R61). -/
theorem localCheck_iff (h2 : fixedChoice s.cfg .id2 = some false) :
    localCheck s p pa = true ↔ (s.pe p).lm = .exclusive (block s.cfg pa) := by
  unfold localCheck
  cases (s.pe p).lm with
  | openAccess => simp
  | exclusive b => simp [choose_fixed h2, eq_comm]

/-- Where ID8 is fixed to false the global monitor lets pass only the marked block (R64). -/
theorem globalCheck_iff (h8 : fixedChoice s.cfg .id8 = some false) :
    globalCheck s p pa = true ↔ (s.pe p).gm = .exclusive (block s.cfg pa) := by
  unfold globalCheck
  cases (s.pe p).gm with
  | openAccess => simp
  | exclusive g => simp [choose_fixed h8, eq_comm]

end Decision

section Current
variable {s : State} {pa : Nat} {va : Word} {attr : MemAttr}

/-- The guarantee of R153: the monitors of a marked location let the store pass. -/
theorem monitorsPass_marked (h : markedFor s va pa attr) : monitorsPass s s.cur va pa attr = true := by
  obtain ⟨hlm, hgm, hmoved⟩ := h
  have hlocal : localPasses s s.cur va pa attr = true := by simp [localPasses, localCheck_marked hlm, hmoved]
  cases hsh : shareable attr with
  | false => simp [monitorsPass, hlocal, hsh]
  | true => simp [monitorsPass, hlocal, globalCheck_marked (hgm hsh)]

/-- Where ID2 and ID8 are fixed to false that guarantee is all that passes. -/
theorem monitorsPass_iff_marked (h2 : fixedChoice s.cfg .id2 = some false) (h8 : fixedChoice s.cfg .id8 = some false) :
    monitorsPass s s.cur va pa attr = true ↔ markedFor s va pa attr := by
  refine ⟨fun h => ?_, monitorsPass_marked⟩
  simp only [monitorsPass, localPasses, Bool.and_eq_true, Bool.or_eq_true, Bool.not_eq_true', localCheck_iff h2,
    globalCheck_iff h8] at h
  obtain ⟨⟨hlm, hmoved⟩, hglobal⟩ := h
  refine ⟨hlm, fun hsh => hglobal.resolve_left (by simp [hsh]), hmoved⟩

end Current

/-! ## The state after it -/

section After
variable {s : State} {i : Instr} {f : StoreForm} {pa : Nat} {attr : MemAttr} {t : State} {v : Word}
  {ws : List (Nat × Nat)} {b : Bool}

/-- The executing PE after a Store-Exclusive that wrote its status. -/
theorem pe_storeTo (hp : s.cur < t.npe) (h : storeExcl s s.cur f.va f.bytes = .status t v ws)
    (ht : t.pe s.cur = clearGlobalIf b (clearLocal (s.pe s.cur))) :
    (storeTo i.iset s f.rd f.va f.bytes).pe s.cur =
      { s.pe s.cur with
        regs := (s.pe s.cur).regs.set f.rd v, pc := (s.pe s.cur).pc + 1, cpsr := afterInstr i.iset (s.pe s.cur).cpsr
        lm := .openAccess, gm := (clearGlobalIf b (s.pe s.cur)).gm, ev := (clearGlobalIf b (s.pe s.cur)).ev
        pair := .closed } := by
  have hpe : (storeTo i.iset s f.rd f.va f.bytes).pe s.cur =
      let y := closePair (t.pe s.cur)
      { y with regs := y.regs.set f.rd v, pc := y.pc + 1, cpsr := afterInstr i.iset y.cpsr } := by
    simp [storeTo, h, hp]
  have hframe : clearGlobalIf b (clearLocal (s.pe s.cur)) =
      { s.pe s.cur with
        lm := .openAccess, gm := (clearGlobalIf b (s.pe s.cur)).gm, ev := (clearGlobalIf b (s.pe s.cur)).ev } := by
    cases hg : (s.pe s.cur).gm <;> cases b <;> simp [clearGlobalIf, clearGlobal, clearLocal, hg]
  rw [hpe, ht, hframe]
  rfl

/-- The status goes to the status register alone (R140, R152). -/
theorem statusWritten_storeTo (hp : s.cur < t.npe) (h : storeExcl s s.cur f.va f.bytes = .status t v ws)
    (ht : t.pe s.cur = clearGlobalIf b (clearLocal (s.pe s.cur))) :
    statusWritten s (storeTo i.iset s f.rd f.va f.bytes) f.rd v := by
  refine ⟨?_, fun q hq => ?_⟩ <;> rw [State.reg, pe_storeTo hp h ht]
  · simp
  · have hne : (f.rd : Nat) ≠ q := fun h => hq (Fin.ext h.symm)
    simp [State.reg, hne]

/-- A Store-Exclusive whose common step wrote its bytes and gave status 0 has passed. -/
theorem storePassed_of_storeExcl (hwf : memWf s.mem = true) (hp : s.cur < s.npe) (h1 : 1 ≤ f.bytes.length)
    (h : storeExcl s s.cur f.va f.bytes =
      .status (storePasses s s.cur pa attr f.bytes fun x => clearGlobalIf b (clearLocal x)) 0 ws) :
    storePassed i f pa attr s (storeTo i.iset s f.rd f.va f.bytes) := by
  have hp' : s.cur < (storePasses s s.cur pa attr f.bytes fun x => clearGlobalIf b (clearLocal x)).npe := by
    simpa using hp
  have hpe := pe_storeTo (i := i) hp' h (pe_storePasses_self hp)
  have hmem : (storeTo i.iset s f.rd f.va f.bytes).mem = memWriteBytes s.mem pa f.bytes := by simp [storeTo, h]
  refine ⟨?system, ?bytes, ?outside, statusWritten_storeTo hp' h (pe_storePasses_self hp),
    fun m hm hne => ?others, ?cpsr, ?own⟩
  case system => simp [sameSystem, storeTo, h, storePasses]
  case bytes => rw [holdsBytes, hmem, memReadBytes_memWriteBytes hwf]
  case outside =>
    intro a ha
    rw [hmem, memRead_memWriteBytes_out hwf ha]
  case others =>
    have hother : (storeTo i.iset s f.rd f.va f.bytes).pe m =
        (storePasses s s.cur pa attr f.bytes fun x => clearGlobalIf b (clearLocal x)).pe m := by
      simp [storeTo, h, hne]
    rw [hother, pe_storePasses_ne hm hne]
    exact observedByOther_observeOther (s := State.updatePE _ _ _) h1
  case cpsr =>
    rw [hpe]
    exact cpsrAdvanced_afterInstr ..
  case own =>
    dsimp only
    rw [hpe]

/-- What becomes of the PE's own global monitor: cleared with its event where it is set and the clear is asked for, else
kept. -/
theorem storeTo_global (hp : s.cur < t.npe) (h : storeExcl s s.cur f.va f.bytes = .status t v ws)
    (ht : t.pe s.cur = clearGlobalIf b (clearLocal (s.pe s.cur))) :
    let y := (storeTo i.iset s f.rd f.va f.bytes).pe s.cur
    (b = true → (s.pe s.cur).gm.isSet = true → globalCleared y) ∧ (b = false → globalKept (s.pe s.cur) y) ∧
      ((s.pe s.cur).gm = .openAccess → globalKept (s.pe s.cur) y) := by
  rw [pe_storeTo hp h ht]
  exact ⟨fun hb hset => globalCleared_clearGlobalIf hset hb, globalKept_clearGlobalIf, globalKept_clearGlobalIf_open⟩

end After

/-- The outcome of a Store-Exclusive that does not abort: whether its monitors let it pass (`passes`), and whether it
asks for its PE's own global monitor to be cleared (`clears`). -/
structure StoreOutcome (s : State) (i : Instr) (f : StoreForm) (pa : Nat) (attr : MemAttr) (passes clears : Bool)
    (t : State) : Prop where
  status : passes = true → t.reg s.cur f.rd = 0
  passed : passes = true → memWf s.mem = true → storePassed i f pa attr s t
  failed : passes = false → storeFailed i f s t
  lm : (t.pe s.cur).lm = .openAccess
  cleared : clears = true → (s.pe s.cur).gm.isSet = true → globalCleared (t.pe s.cur)
  kept : clears = false → globalKept (s.pe s.cur) (t.pe s.cur)
  keptOpen : (s.pe s.cur).gm = .openAccess → globalKept (s.pe s.cur) (t.pe s.cur)

/-- A Store-Exclusive that reaches a location with the monitors it needs and does not abort has the outcome that its
monitors decide. -/
theorem exec_store_outcome {s : State} {i : Instr} {f : StoreForm} {pa : Nat} {attr : MemAttr}
    (hf : storeForm s i = some f) (hx : executes s i = true) (hr : storeReaches s f pa attr) (hm : monitored s pa attr)
    (hab : monitorsPass s s.cur f.va pa attr = true → writeAborts s pa f.bytes.length = false) :
    ∃ t, exec i s = .next t ∧
      StoreOutcome s i f pa attr (monitorsPass s s.cur f.va pa attr) (clearsOwnGlobal s s.cur f.va pa attr) t := by
  obtain ⟨hp, hal, htr, hpair⟩ := hr
  have hstore := (storeExcl_paired hal htr (pairMismatch_none.mpr hpair)).trans (storeChecked_eq hm hab)
  refine ⟨_, exec_store hf hx, ?_⟩
  generalize clearsOwnGlobal s s.cur f.va pa attr = clears at hstore ⊢
  cases hpass : monitorsPass s s.cur f.va pa attr with
  | true =>
    rw [hpass, if_pos rfl] at hstore
    have h1 : 1 ≤ f.bytes.length := by have hsize := storeForm_size hf; omega
    have hp' : s.cur < (storePasses s s.cur pa attr f.bytes fun x => clearGlobalIf clears (clearLocal x)).npe := by
      simpa using hp
    have hown := pe_storePasses_self (pa := pa) (attr := attr) (bs := f.bytes)
      (own := fun x => clearGlobalIf clears (clearLocal x)) hp
    obtain ⟨hcleared, hkept, hopen⟩ := storeTo_global (i := i) hp' hstore hown
    exact {
      status := fun _ => (statusWritten_storeTo hp' hstore hown).1
      passed := fun _ hwf => storePassed_of_storeExcl hwf hp h1 hstore
      failed := nofun
      lm := by rw [pe_storeTo hp' hstore hown]
      cleared := hcleared, kept := hkept, keptOpen := hopen }
  | false =>
    rw [hpass, if_neg Bool.false_ne_true] at hstore
    have hp' : s.cur < (s.updatePE s.cur fun x => clearGlobalIf clears (clearLocal x)).npe := by simpa using hp
    have hown := pe_updatePE_self s s.cur (fun x => clearGlobalIf clears (clearLocal x)) hp
    obtain ⟨hcleared, hkept, hopen⟩ := storeTo_global (i := i) hp' hstore hown
    exact {
      status := nofun
      passed := nofun
      failed := fun _ => storeFailed_of_storeExcl hp hstore
      lm := by rw [pe_storeTo hp' hstore hown]
      cleared := hcleared, kept := hkept, keptOpen := hopen }

end Sys2Proof.Machine
end

section
/-! PROOF. Exclusive accesses: misalignment (R56), and the outcomes of a Store-Exclusive (R60 to R64, R140 to R153). -/

namespace Sys2Proof.Machine

theorem runEndedBy_endRun {s : State} {c : EndCause} (hp : s.cur < s.npe) : runEndedBy s (endRun s s.cur c) c :=
  ⟨⟨rfl, rfl, rfl, by simp, rfl, rfl, rfl⟩, fun _ => rfl, fun _ hm => pe_endRun_ne _ _ _ _ hm, pe_endRun_self _ _ _ hp⟩

/-- Settles O19: alignment is the first test of both common steps. -/
theorem misalignedExclusiveEndsRun : Obligations.MisalignedExclusiveEndsRun := by
  refine ⟨fun s i f hf hx hp hmis => ⟨_, exec_load hf hx, ?load⟩,
    fun s i f hf hx hp hmis => ⟨_, exec_store hf hx, ?store⟩⟩
  case load =>
    rw [loadExcl, if_pos hmis]
    exact runEndedBy_endRun hp
  case store =>
    rw [storeTo, storeExcl, if_pos hmis]
    exact runEndedBy_endRun hp

/-- Settles O23: a marked location passes, and the own global monitor follows ID7, or ID11 where it is not needed. -/
theorem markedStorePasses : Obligations.MarkedStorePasses := by
  intro s i f pa attr hf hx hwf hr hm hmarked hab
  have hpass := monitorsPass_marked hmarked
  obtain ⟨t, ht, hout⟩ := exec_store_outcome hf hx hr hm fun _ => hab
  obtain ⟨hlm, hgm, hmoved⟩ := hmarked
  have hlocal : localPasses s s.cur f.va pa attr = true := by simp [localPasses, localCheck_marked hlm, hmoved]
  have follow : ∀ id, clearsOwnGlobal s s.cur f.va pa attr = choose s id 0 s.cur → (s.pe s.cur).gm.isSet = true →
      byChoice s.cfg id (globalCleared (t.pe s.cur)) (globalKept (s.pe s.cur) (t.pe s.cur)) := fun id hid hset =>
    byChoice_of_choose (fun h => hout.cleared (hid.trans h) hset) fun h => hout.kept (hid.trans h)
  refine ⟨t, ht, hout.passed hpass hwf, fun hsh => ?shareable, fun hsh => ⟨?nonShareable, hout.keptOpen⟩⟩
  case shareable =>
    refine follow .id7 ?_ (by rw [hgm hsh]; rfl)
    simp [clearsOwnGlobal, hlocal, hsh, globalCheckClears_marked (hgm hsh)]
  case nonShareable => exact follow .id11 (by simp [clearsOwnGlobal, hlocal, hsh])

/-- Settles O24: an open local monitor decides alone. -/
theorem openLocalMonitorFailsStore : Obligations.OpenLocalMonitorFailsStore := by
  intro s i f pa attr hf hx hr hm hopen
  have hlocal : localPasses s s.cur f.va pa attr = false := localPasses_lmOpen hopen
  have hpass : monitorsPass s s.cur f.va pa attr = false := by simp [monitorsPass, hlocal]
  obtain ⟨t, ht, hout⟩ := exec_store_outcome hf hx hr hm fun h => by rw [hpass] at h; cases h
  exact ⟨t, ht, hout.failed hpass, hout.kept (by simp [clearsOwnGlobal, hlocal])⟩

/-- Settles O25: an open global monitor lets nothing pass, and no clear touches it. -/
theorem openGlobalMonitorFailsStore : Obligations.OpenGlobalMonitorFailsStore := by
  intro s i f pa attr hf hx hr hm hsh hopen
  have hpass : monitorsPass s s.cur f.va pa attr = false := monitorsPass_gmOpen hsh hopen
  obtain ⟨t, ht, hout⟩ := exec_store_outcome hf hx hr hm fun h => by rw [hpass] at h; cases h
  exact ⟨t, ht, hout.failed hpass, hout.keptOpen hopen⟩

/-- Settles O26: by what the monitors decide, and by the state of the own global monitor. -/
theorem statusTellsWrite : Obligations.StatusTellsWrite := by
  intro s i f pa attr hf hx hwf hr hm hab
  obtain ⟨t, ht, hout⟩ := exec_store_outcome hf hx hr hm fun _ => hab
  refine ⟨t, ht, ?settled, ?own⟩
  case settled =>
    cases hpass : monitorsPass s s.cur f.va pa attr with
    | true => exact .inl (hout.passed hpass hwf)
    | false => exact .inr (hout.failed hpass)
  case own =>
    cases hclears : clearsOwnGlobal s s.cur f.va pa attr with
    | false => exact .inl (hout.kept hclears)
    | true =>
      cases hgm : (s.pe s.cur).gm with
      | openAccess => exact .inl (hout.keptOpen hgm)
      | exclusive g => exact .inr (hout.cleared hclears (by rw [hgm]; rfl))

/-- Settles O27: with ID2 and ID8 fixed to false, the monitors let pass exactly a marked location. -/
theorem storePassesOnlyIfMarked : Obligations.StorePassesOnlyIfMarked := by
  intro s i f pa attr hf hx hr hm hab h2 h8
  obtain ⟨t, ht, hout⟩ := exec_store_outcome hf hx hr hm fun _ => hab
  refine ⟨t, ht, fun hmarked => hout.status (monitorsPass_marked hmarked), fun hmarked => hout.failed ?_⟩
  exact Bool.eq_false_iff.mpr fun h => hmarked ((monitorsPass_iff_marked h2 h8).mp h)

end Sys2Proof.Machine
end

section
/-! PROOF. Runs in which a PE does not move after a Store-Exclusive, its own or a contender's (R61, R62, R71, R150,
R231). -/

namespace Sys2Proof.Machine

/-- While a PE's local monitor is open, whatever Store-Exclusive it executes next fails. -/
theorem nextStoreFails_of_lmOpen {u : State} {p : Nat} (h : (u.pe p).lm = .openAccess) :
    nextStoreFails p u fun _ => True := by
  intro i f pa attr hf hx hr hm _
  obtain ⟨t, ht, hfailed, -⟩ := openLocalMonitorFailsStore { u with cur := p } i f pa attr hf hx hr hm h
  exact ⟨t, ht, hfailed⟩

/-- An open local monitor stays open while its PE does not move: only the PE's own turn marks it (R34). -/
theorem othersRun_lmOpen {p k : Nat} {s t : State} (h : othersRun p k s t) (hs : (s.pe p).lm = .openAccess) :
    (t.pe p).lm = .openAccess := by
  refine othersRun_keeps (I := fun s => (s.pe p).lm = .openAccess) (fun s t hm hst h0 => ?_) h hs
  refine Monitor.eq_openAccess (Bool.eq_false_iff.mpr fun h1 => hm ?_)
  exact (onlyLoadExclusiveSets s t p hst (.inl ⟨by rw [h0]; rfl, h1⟩)).1

/-- Settles O56: the Store-Exclusive leaves the local monitor open, and it stays open until the PE moves. -/
theorem secondStoreFails : Obligations.SecondStoreFails := by
  intro s i f pa attr hf hx hr hm hab
  obtain ⟨t, ht, hout⟩ := exec_store_outcome hf hx hr hm fun _ => hab
  exact ⟨t, ht, fun k u hrun => nextStoreFails_of_lmOpen (othersRun_lmOpen hrun hout.lm)⟩

/-- Settles O55: the first store passes, the contender observes it, which opens its global monitor, and that stays open
until it moves. -/
theorem firstContenderPasses : Obligations.FirstContenderPasses := by
  intro s i f pa attr q hf hx hwf hr hsh hg hmarked hab hdom hq hqn hmark
  obtain ⟨t, ht, hpassed, -⟩ := markedStorePasses s i f pa attr hf hx hwf hr (fun _ => hg) hmarked hab
  refine ⟨t, ht, hpassed, fun k u hrun => nextStoreFails_of_gmOpen (othersRun_gmOpen hrun ?_)⟩
  obtain ⟨-, -, -, -, hobserved, -⟩ := hpassed
  obtain ⟨-, hclears, -⟩ := hobserved q hqn hq
  have htouch : touches s.cfg pa f.bytes.length (block s.cfg pa) :=
    ⟨0, by have hsize := storeForm_size hf; omega, rfl⟩
  have hcleared := hclears _ hmark htouch
  rw [if_pos ⟨hsh, hdom, rfl⟩] at hcleared
  exact hcleared.1

end Sys2Proof.Machine
end

section
/-! SUPPORT. A reservation, and the steps that leave it alone (R62, R120, R153). -/

namespace Sys2Proof.Machine

/-! ## Steps that leave a PE's reservation alone -/

/-- Two states of a PE with the same monitors, record and pair. -/
def sameReservation (x y : PE) : Prop := y.lm = x.lm ∧ y.gm = x.gm ∧ y.lx = x.lx ∧ y.pair = x.pair

theorem sameReservation_refl (x : PE) : sameReservation x x := ⟨rfl, rfl, rfl, rfl⟩

theorem sameReservation_foreignStep (kind : ForeignKind) (u : RegisterFile) (x : PE) :
    sameReservation x (foreignStep kind u x) := by
  cases kind <;> exact ⟨rfl, rfl, rfl, rfl⟩

/-- From `s` to `t` nothing changed that decides whether PE `p`'s reservation holds, and memory did not change. -/
structure Undisturbed (p : Nat) (s t : State) : Prop where
  cfg : t.cfg = s.cfg
  npe : t.npe = s.npe
  mem : t.mem = s.mem
  pe : sameReservation (s.pe p) (t.pe p)

namespace Undisturbed
variable {s t : State} {p q : Nat}

theorem refl (s : State) : Undisturbed p s s := ⟨rfl, rfl, rfl, sameReservation_refl _⟩

theorem updatePE (h : Undisturbed p s t) {f : PE → PE} (hf : ∀ x, sameReservation x (f x)) :
    Undisturbed p s (t.updatePE q f) := by
  obtain ⟨hlm, hgm, hlx, hpair⟩ := h.pe
  refine ⟨h.cfg, (updatePE_npe ..).trans h.npe, h.mem, ?_⟩
  rw [pe_updatePE]
  split
  · obtain ⟨hlm', hgm', hlx', hpair'⟩ := hf (t.pe p)
    exact ⟨hlm'.trans hlm, hgm'.trans hgm, hlx'.trans hlx, hpair'.trans hpair⟩
  · exact h.pe

theorem setReg (h : Undisturbed p s t) {r : Reg} {v : Word} : Undisturbed p s (t.setReg q r v) :=
  h.updatePE fun x => sameReservation_refl { x with regs := x.regs.set r v }

theorem complete (h : Undisturbed p s t) {set : ISet} : Undisturbed p s (complete set t q) := by
  have hmoved := h.updatePE (q := q) (f := fun x => { x with pc := x.pc + 1, cpsr := afterInstr set x.cpsr })
    fun x => ⟨rfl, rfl, rfl, rfl⟩
  exact ⟨hmoved.cfg, hmoved.npe, hmoved.mem, hmoved.pe⟩

theorem writeDests (h : Undisturbed p s t) {pa : Nat} (ds : List LoadDest) : Undisturbed p s (writeDests t q pa ds) :=
  List.foldlRecOn ds _ h fun _ hu _ _ => hu.setReg

end Undisturbed

/-! ## Quiet steps -/

section Quiet
variable {s t : State} {p q : Nat}

theorem quietFor_executed {i : Instr} (h : quietFor p s) (he : executed s = some (q, i)) :
    (q ≠ p ∧ columnOf i ≠ .storeExclusive) ∨
      (q = p ∧ (columnOf i = .event ∨ executes { s with cur := p } i = false)) := by
  unfold quietFor at h
  split at h
  · rename_i ha
    simp [executed, ha] at he
  · exact h q i he
  · exact h q i he

theorem quietFor_act {a : Action} {turns : List Turn} (h : quietFor p s) (ha : s.agenda = .act a :: turns) :
    quietAction p a = true := by
  simpa [quietFor, ha] using h

theorem mem_of_runStops (h : runStops s p t) : t.mem = s.mem := by
  obtain ⟨c, rfl | rfl⟩ := h <;> rfl

/-- What does not permit memory to change: used of the instructions and actions that are no stores. -/
def memoryFixed : Permit where
  part _ _ := True
  memory := False

theorem Within.memoryFixed_mem (h : Within memoryFixed s t) : t.mem = s.mem := h.mem.resolve_left id

theorem exec_mem {i : Instr} (hc : columnOf i ≠ .storeExclusive) (h : exec i s = .next t) : t.mem = s.mem := by
  have hcases : runStops s s.cur t ∨ Within memoryFixed s t :=
    exec_within (fun _ => trivial) hc (fun _ _ _ => trivial) (fun _ => trivial) h
  exact hcases.elim mem_of_runStops Within.memoryFixed_mem

theorem OnlyEvents.sameReservation (h : OnlyEvents q s t) : sameReservation (s.pe p) (t.pe p) := by
  by_cases hp : p = q
  · rw [hp, h.own]
    exact ⟨rfl, rfl, rfl, rfl⟩
  · obtain hsame | hwoken := h.others p hp
    · rw [hsame]
      exact sameReservation_refl _
    · rw [hwoken]
      exact ⟨rfl, rfl, rfl, rfl⟩

theorem Acts.sameReservation (h : Acts Eq q s t) (hp : p ≠ q) : sameReservation (s.pe p) (t.pe p) := by
  rw [← h.others p hp]
  exact sameReservation_refl _

/-- An instruction of another PE that is no Store-Exclusive. -/
theorem exec_other_sameReservation {i : Instr} (hp : p ≠ s.cur) (hc : columnOf i ≠ .storeExclusive)
    (h : exec i s = .next t) : sameReservation (s.pe p) (t.pe p) := by
  obtain hown | ⟨hstore, -⟩ | ⟨-, hevent⟩ := exec_acts h
  · exact hown.sameReservation hp
  · exact absurd hstore hc
  · exact hevent.sameReservation

theorem quietAction_no_write {a : Action} (hq : quietAction p a = true) :
    ¬((∃ q va n v, a = .store q va n v) ∨ ∃ k pa n v, a = .observerWrite k pa n v) := by
  rintro (⟨q, va, n, v, rfl⟩ | ⟨k, pa, n, v, rfl⟩) <;> cases hq

theorem perform_mem {a : Action} (hq : quietAction p a = true) (h : perform s a = .next t) : t.mem = s.mem := by
  obtain hw | ⟨q, -, -, -, hr⟩ := perform_within (P := memoryFixed) (fun hw => absurd hw (quietAction_no_write hq))
    (fun _ _ => trivial) (fun _ _ _ _ _ => trivial) (fun _ _ _ _ _ _ _ => trivial) h
  · exact hw.memoryFixed_mem
  · exact mem_of_runStops hr

/-- A quiet action: a read of an observer, a foreign instruction, or an action on another PE. -/
theorem quietAction_cases {a : Action} (hq : quietAction p a = true) :
    (∃ k pa n, a = .observerRead k pa n) ∨ (∃ q kind u, a = .foreign q kind u) ∨
      (∃ q, q ≠ p ∧ (a = .spontaneousClearLocal q ∨ a = .spontaneousClearGlobal q)) ∨
      ∃ q, q ≠ p ∧ actorOf a = some q := by
  cases a <;> simp_all [quietAction, actorOf]

theorem observerReads_pe {pa n : Nat} (h : observerReads s pa n = .next t) : t.pe p = s.pe p := by
  unfold observerReads at h
  split at h
  · split at h <;> cases h
    rfl
  · cases h

theorem spontaneous_pe {f : PE → PE} (hp : p ≠ q) (h : spontaneous s q f = .next t) : t.pe p = s.pe p := by
  unfold spontaneous at h
  split at h <;> cases h
  exact pe_updatePE_ne _ _ _ _ hp

theorem perform_sameReservation {a : Action} (hq : quietAction p a = true) (h : perform s a = .next t) :
    sameReservation (s.pe p) (t.pe p) := by
  obtain ⟨k, pa, n, rfl⟩ | ⟨q, kind, u, rfl⟩ | ⟨q, hne, rfl | rfl⟩ | ⟨q, hne, hactor⟩ := quietAction_cases hq
  · rw [observerReads_pe (byObserver_next h).2]
    exact sameReservation_refl _
  · cases (byPE_next h).2.2
    exact ((Undisturbed.refl s).updatePE (sameReservation_foreignStep kind u)).pe
  · rw [spontaneous_pe hne.symm h]
    exact sameReservation_refl _
  · rw [spontaneous_pe hne.symm h]
    exact sameReservation_refl _
  · obtain hown | ⟨⟨va, n, v, rfl⟩, -⟩ := perform_acts hactor h
    · exact hown.sameReservation hne.symm
    · cases hq

/-- A quiet step leaves the reservation and memory alone. -/
theorem step_quiet (hq : quietFor p s) (h : step s = .next t) : Undisturbed p s t := by
  obtain ⟨hcfg, -, hnpe, -⟩ := configurationAndProgramsStay s t h
  obtain ⟨q, i, turns, -, hi, -, -, hexec⟩ | ⟨a, turns, ha, hact⟩ := step_turn h
  · obtain ⟨hne, hc⟩ | ⟨rfl, hquiet⟩ := quietFor_executed hq hi
    · have hother := exec_other_sameReservation (s := { s with cur := q, agenda := turns }) hne.symm hc hexec
      exact ⟨hcfg, hnpe, exec_mem (s := { s with cur := q, agenda := turns }) hc hexec, hother⟩
    · have hevents : OnlyEvents q { s with cur := q, agenda := turns } t := by
        obtain hevent | hskip := hquiet
        · exact exec_event hevent hexec
        · exact exec_skip_onlyEvents (by rw [← hskip]; cases i <;> rfl) hexec
      exact ⟨hcfg, hnpe, hevents.mem, hevents.sameReservation⟩
  · have haction := quietFor_act hq ha
    exact ⟨hcfg, hnpe, perform_mem (s := { s with agenda := turns }) haction hact,
      perform_sameReservation (s := { s with agenda := turns }) haction hact⟩

end Quiet

/-! ## A reservation -/

/-- PE `p` holds the reservation of the Load-Exclusive that left record `r`, at a location with the monitors it
needs. -/
structure Reserves (p : Nat) (r : LoadRecord) (s : State) : Prop where
  exists_pe : p < s.npe
  wf : memWf s.mem = true
  monitored : monitored s r.pa r.attr
  lm : (s.pe p).lm = .exclusive (block s.cfg r.pa)
  gm : shareable r.attr = true → (s.pe p).gm = .exclusive (block s.cfg r.pa)
  lx : (s.pe p).lx = some r
  pair : (s.pe p).pair = .waiting r.va

section Reservation
variable {s t : State} {p k : Nat} {r : LoadRecord}

theorem Undisturbed.reserves (h : Undisturbed p s t) (hs : Reserves p r s) : Reserves p r t := by
  obtain ⟨hcfg, hnpe, hmem, hlm, hgm, hlx, hpair⟩ := h
  exact {
    exists_pe := hnpe ▸ hs.exists_pe
    wf := hmem ▸ hs.wf
    monitored := by
      intro hsh
      rw [hcfg]
      exact hs.monitored hsh
    lm := by rw [hlm, hcfg, hs.lm]
    gm := fun hsh => by rw [hgm, hcfg, hs.gm hsh]
    lx := hlx.trans hs.lx
    pair := hpair.trans hs.pair }

theorem quietRun_reserves : ∀ {k s t}, quietRun p k s t → Reserves p r s → Reserves p r t
  | 0, _, _, h, hs => by cases h; exact hs
  | _ + 1, _, _, ⟨hq, _, hu, hrest⟩, hs => quietRun_reserves hrest ((step_quiet hq hu).reserves hs)

/-- A Load-Exclusive that reads a location with the monitors it needs leaves the reservation (R65, R66, R120). -/
theorem exec_load_reserves {i : Instr} {f : LoadForm} {pa : Nat} {attr : MemAttr} (hf : loadForm s i = some f)
    (hx : executes s i = true) (hr : loadReaches s f pa attr) (hm : monitored s pa attr)
    (hab : readAborts s pa f.n = false) (hwf : memWf s.mem = true) :
    ∃ t, exec i s = .next t ∧ Reserves s.cur { va := f.va, pa := pa, n := f.n, attr := attr } t := by
  obtain ⟨hp, hal, htr⟩ := hr
  have hexec : exec i s = .next (complete i.iset
      (writeDests (s.updatePE s.cur (loadMarks s s.cur (shareable attr)
        { va := f.va, pa := pa, n := f.n, attr := attr })) s.cur pa f.dests) s.cur) := by
    rw [exec_load hf hx, loadExcl_plain hal htr hm hab]
  refine ⟨_, hexec, ?_⟩
  refine (((Undisturbed.refl _).writeDests f.dests).complete).reserves ?_
  exact {
    exists_pe := by simpa using hp
    wf := hwf
    monitored := hm
    lm := by rw [pe_updatePE_self _ _ _ hp, loadMarks_lm]; rfl
    gm := fun hsh => by rw [pe_updatePE_self _ _ _ hp, loadMarks_gm, hsh]; rfl
    lx := by rw [pe_updatePE_self _ _ _ hp, loadMarks_lx]
    pair := by rw [pe_updatePE_self _ _ _ hp, loadMarks_pair] }

/-- A Store-Exclusive that matches the reservation reaches a marked location (R153). -/
theorem Reserves.marked {g : StoreForm} (h : Reserves p r s) (hcur : s.cur = p) (hva : g.va = r.va)
    (hn : g.bytes.length = r.n) (hal : r.va.toNat % r.n = 0)
    (htr : translate s p g.va .write = some (r.pa, r.attr)) :
    storeReaches s g r.pa r.attr ∧ markedFor s g.va r.pa r.attr := by
  subst hcur
  refine ⟨⟨h.exists_pe, by rw [hva, hn]; exact hal, htr, fun r' hr' => ?_⟩, h.lm, h.gm, ?_⟩
  · cases h.lx.symm.trans hr'
    exact ⟨hva.symm, hn.symm, rfl⟩
  · simp [movedAndWritten, h.pair]

end Reservation

end Sys2Proof.Machine
end

section
/-! PROOF. A Load-Exclusive and Store-Exclusive pair that nothing disturbs passes (R62, R120, R140, R153). -/

namespace Sys2Proof.Machine

/-- Settles O58: the Load-Exclusive leaves a reservation, quiet steps keep it, and a store to a reserved location
passes. -/
theorem quietPairPasses : Obligations.QuietPairPasses := by
  intro s i f pa attr hf hx hr hm hab hwf
  obtain ⟨t, ht, hreserves⟩ := exec_load_reserves hf hx hr hm hab hwf
  refine ⟨t, ht, fun k u j g hrun hg hxj hva hn htr hwab => ?_⟩
  obtain ⟨-, hal, -⟩ := hr
  have hu := quietRun_reserves hrun hreserves
  have hucur : Reserves s.cur { va := f.va, pa := pa, n := f.n, attr := attr } { u with cur := s.cur } :=
    ⟨hu.exists_pe, hu.wf, hu.monitored, hu.lm, hu.gm, hu.lx, hu.pair⟩
  obtain ⟨hreach, hmarked⟩ := hucur.marked rfl hva hn hal htr
  obtain ⟨w, hw, hpassed, -⟩ := markedStorePasses { u with cur := s.cur } j g pa attr hg hxj hu.wf hreach hu.monitored
    hmarked (by rw [hn]; exact hwab)
  exact ⟨w, hw, hpassed⟩

end Sys2Proof.Machine
end

section
/-! SUPPORT. The words of the two instruction sets, format by format (R103, R104): what the decoder answers for a word
of the format, and which instruction an accepted word encodes. -/

namespace Sys2Proof

/-! ## The restrictions of R107 -/

theorem checkForm_eq_ok {i j : Instr} : checkForm i = .ok j ↔ i.wellFormed = true ∧ i = j := by
  unfold checkForm
  split <;> simp_all

/-- A word that matches a row is refused only for a restriction. -/
theorem checkForm_ne_noRow (i : Instr) : checkForm i ≠ .error .noRow := by
  unfold checkForm
  split <;> simp

/-! ## Bytes (R102) -/

/-- The bytes of a 32-bit instruction word in each instruction set. -/
def wordBytes : ISet → Word → List Byte
  | .a32 => a32Bytes
  | .t32 => t32Bytes

theorem extractLsb'_halfOf (b0 b1 : Byte) :
    (halfOf b0 b1).extractLsb' 0 8 = b0 ∧ (halfOf b0 b1).extractLsb' 8 8 = b1 :=
  ⟨BitVec.extractLsb'_append_eq_right, BitVec.extractLsb'_append_eq_left⟩

theorem extractLsb'_wordOf (h l : BitVec 16) :
    (wordOf h l).extractLsb' 0 16 = l ∧ (wordOf h l).extractLsb' 16 16 = h :=
  ⟨BitVec.extractLsb'_append_eq_right, BitVec.extractLsb'_append_eq_left⟩

theorem halfBytes_halfOf (b0 b1 : Byte) : halfBytes (halfOf b0 b1) = [b0, b1] := by
  simp only [halfBytes, extractLsb'_halfOf]

theorem a32Bytes_wordOf (b0 b1 b2 b3 : Byte) : a32Bytes (wordOf (halfOf b2 b3) (halfOf b0 b1)) = [b0, b1, b2, b3] := by
  simp only [a32Bytes, extractLsb'_wordOf, halfBytes_halfOf, List.cons_append, List.nil_append]

theorem t32Bytes_wordOf (b0 b1 b2 b3 : Byte) : t32Bytes (wordOf (halfOf b0 b1) (halfOf b2 b3)) = [b0, b1, b2, b3] := by
  simp only [t32Bytes, extractLsb'_wordOf, halfBytes_halfOf, List.cons_append, List.nil_append]

theorem halfBytes_injective {h l : BitVec 16} (he : halfBytes h = halfBytes l) : h = l := by
  simp only [halfBytes, List.cons.injEq, and_true] at he
  obtain ⟨hlow, hhigh⟩ := he
  rw [← halfOf_bytes h, hlow, hhigh, halfOf_bytes]

theorem wordBytes_injective {set : ISet} {v w : Word} (h : wordBytes set v = wordBytes set w) : v = w := by
  obtain ⟨hhigh, hlow⟩ : halfBytes (v.extractLsb' 16 16) = halfBytes (w.extractLsb' 16 16) ∧
      halfBytes (v.extractLsb' 0 16) = halfBytes (w.extractLsb' 0 16) := by
    cases set with
    | a32 => exact (List.append_inj h rfl).symm
    | t32 => exact List.append_inj h rfl
  rw [← wordOf_halves v, halfBytes_injective hhigh, halfBytes_injective hlow, wordOf_halves]

/-- The bytes after an instruction are not looked at. -/
theorem map_rest_eq_ok {r : Except DecodeError Instr} {tail rest : List Byte} {i : Instr}
    (h : (r.map fun j => (j, tail)) = .ok (i, rest)) : r = .ok i ∧ tail = rest := by
  cases r with
  | error e => cases h
  | ok j => cases h; exact ⟨rfl, rfl⟩

/-! ## Nibbles -/

/-- A word is known by its nibbles. -/
theorem eq_ofNibs {w : Word} {n7 n6 n5 n4 n3 n2 n1 n0 : BitVec 4} (h7 : nib w 7 = n7) (h6 : nib w 6 = n6)
    (h5 : nib w 5 = n5) (h4 : nib w 4 = n4) (h3 : nib w 3 = n3) (h2 : nib w 2 = n2) (h1 : nib w 1 = n1)
    (h0 : nib w 0 = n0) : ofNibs n7 n6 n5 n4 n3 n2 n1 n0 = w := by
  subst_vars
  exact ofNibs_nib w

/-- The nibbles of `imm8`. -/
theorem extractLsb'_nibbles (n1 n0 : BitVec 4) : (n1 ++ n0).extractLsb' 4 4 = n1 ∧ (n1 ++ n0).extractLsb' 0 4 = n0 :=
  ⟨BitVec.extractLsb'_append_eq_left, BitVec.extractLsb'_append_eq_right⟩

theorem condBits_ne (c : Cond) : condBits c ≠ 0xF := by cases c <;> decide

theorem exists_condOf {n : BitVec 4} (h : n ≠ 0xF) : ∃ c, condOf n = some c := by
  have : ∀ n : BitVec 4, n ≠ 0xF → (condOf n).isSome = true := by decide
  exact Option.isSome_iff_exists.mp (this n h)

theorem nib_and (v w : Word) (k : Nat) : nib (v &&& w) k = nib v k &&& nib w k := BitVec.extractLsb'_and

/-- Masking works nibble by nibble. -/
theorem toNat_ofNibs_land {n7 n6 n5 n4 n3 n2 n1 n0 : BitVec 4} (m7 m6 m5 m4 m3 m2 m1 m0 : BitVec 4) :
    (ofNibs n7 n6 n5 n4 n3 n2 n1 n0).toNat &&& (ofNibs m7 m6 m5 m4 m3 m2 m1 m0).toNat =
      (ofNibs (n7 &&& m7) (n6 &&& m6) (n5 &&& m5) (n4 &&& m4) (n3 &&& m3) (n2 &&& m2) (n1 &&& m1)
        (n0 &&& m0)).toNat := by
  rw [← BitVec.toNat_and]
  refine congrArg BitVec.toNat (eq_ofNibs ?_ ?_ ?_ ?_ ?_ ?_ ?_ ?_).symm <;> simp [nib_and]

/-- A nibble under the mask is that of the match. -/
theorem nib_of_land {w : Word} {m v : Nat} (h : w.toNat &&& m = v) {k : Nat} {n : BitVec 4}
    (hmask : nib (BitVec.ofNat 32 m) k = 0xF) (hval : nib (BitVec.ofNat 32 v) k = n) : nib w k = n := by
  have hv : BitVec.ofNat 32 v = w &&& BitVec.ofNat 32 m := by
    rw [← h, BitVec.ofNat_and, BitVec.ofNat_toNat, BitVec.setWidth_eq]
  calc nib w k = nib w k &&& nib (BitVec.ofNat 32 m) k := by rw [hmask]; exact BitVec.and_allOnes.symm
    _ = nib (BitVec.ofNat 32 v) k := by rw [hv, nib_and]
    _ = n := hval

/-! ## A32 (R103) -/

section A32
variable {c : Cond} {w : Word} {i : Instr}

/-- A load word, by its nibbles. -/
theorem decodeA32Word_loadNibs (h7 : condOf (nib w 7) = some c) (h6 : nib w 6 = 0x1) (h1 : nib w 1 = 0x9)
    (hodd : (nib w 5).getLsbD 0 = true) (h0 : nib w 0 = 0xF) :
    decodeA32Word w = decodeA32Load c (nib w 5) (nib w 2) (regOf (nib w 4)) (regOf (nib w 3)) := by
  have hclrex : w ≠ 0xF57FF01F#32 := by rintro rfl; cases h7
  simp only [decodeA32Word, if_neg hclrex, h7, h6, h1, h0, hodd, and_self, if_true]

/-- A store word, by its nibbles. -/
theorem decodeA32Word_storeNibs (h7 : condOf (nib w 7) = some c) (h6 : nib w 6 = 0x1) (h1 : nib w 1 = 0x9)
    (heven : (nib w 5).getLsbD 0 = false) :
    decodeA32Word w =
      decodeA32Store c (nib w 5) (nib w 2) (regOf (nib w 4)) (regOf (nib w 3)) (regOf (nib w 0)) := by
  have hclrex : w ≠ 0xF57FF01F#32 := by rintro rfl; cases h7
  simp only [decodeA32Word, if_neg hclrex, h7, h6, h1, heven, and_self, if_true, Bool.false_eq_true, if_false]

/-- A hint word, by its nibbles. -/
theorem decodeA32Word_hintNibs (h7 : condOf (nib w 7) = some c) (h6 : nib w 6 = 0x3) (h5 : nib w 5 = 0x2)
    (h4 : nib w 4 = 0x0) (h3 : nib w 3 = 0xF) (h2 : nib w 2 = 0x0) (h1 : nib w 1 = 0x0) :
    decodeA32Word w = decodeA32Hint c (nib w 0) := by
  have hclrex : w ≠ 0xF57FF01F#32 := by rintro rfl; cases h7
  have hspace : ¬((0x3 : BitVec 4) = 0x1 ∧ (0x0 : BitVec 4) = 0x9) := by decide
  simp only [decodeA32Word, if_neg hclrex, h7, h6, h5, h4, h3, h2, h1, if_neg hspace, and_self, if_true]

theorem decodeA32Word_loadWord {sz : BitVec 4} (hodd : sz.getLsbD 0 = true) (ord : BitVec 4) (rn rt : Reg) :
    decodeA32Word (a32LoadWord c sz ord rn rt) = decodeA32Load c sz ord rn rt := by
  unfold a32LoadWord
  rw [decodeA32Word_loadNibs (c := c)] <;>
    simp only [nib_ofNibs_7, nib_ofNibs_6, nib_ofNibs_5, nib_ofNibs_4, nib_ofNibs_3, nib_ofNibs_2, nib_ofNibs_1,
      nib_ofNibs_0, condOf_condBits, regOf_regBits, hodd]

theorem decodeA32Word_storeWord {sz : BitVec 4} (heven : sz.getLsbD 0 = false) (ord : BitVec 4) (rn rd rt : Reg) :
    decodeA32Word (a32StoreWord c sz ord rn rd rt) = decodeA32Store c sz ord rn rd rt := by
  unfold a32StoreWord
  rw [decodeA32Word_storeNibs (c := c)] <;>
    simp only [nib_ofNibs_7, nib_ofNibs_6, nib_ofNibs_5, nib_ofNibs_4, nib_ofNibs_3, nib_ofNibs_2, nib_ofNibs_1,
      nib_ofNibs_0, condOf_condBits, regOf_regBits, heven]

theorem decodeA32Word_hintWord (h : BitVec 4) : decodeA32Word (a32HintWord c h) = decodeA32Hint c h := by
  unfold a32HintWord
  rw [decodeA32Word_hintNibs (c := c)] <;> simp

end A32

/-! ## T32 (R104) -/

section T32
variable {w : Word}

/-- A load or store word is none of the four fixed words. -/
theorem decodeT32Word_exclusive (h7 : nib w 7 = 0xE) (h6 : nib w 6 = 0x8) :
    decodeT32Word w =
      if nib w 5 = 0xD then
        if nib w 0 = 0xF then decodeT32Load (nib w 1) (nib w 2) (regOf (nib w 4)) (regOf (nib w 3))
        else .error .noRow
      else if nib w 5 = 0xC then
        decodeT32Store (nib w 1) (nib w 2) (regOf (nib w 4)) (regOf (nib w 3)) (regOf (nib w 0))
      else if nib w 5 = 0x5 then
        if nib w 2 = 0xF then checkForm (.ldrexT (regOf (nib w 3)) (regOf (nib w 4)) (nib w 1 ++ nib w 0))
        else .error .noRow
      else if nib w 5 = 0x4 then
        checkForm (.strexT (regOf (nib w 2)) (regOf (nib w 3)) (regOf (nib w 4)) (nib w 1 ++ nib w 0))
      else .error .noRow := by
  have hfixed : ∀ v : Word, nib v 7 = 0xF → w ≠ v := by
    rintro v hv rfl
    exact absurd (h7.symm.trans hv) (by decide)
  rw [decodeT32Word, if_neg (hfixed _ rfl), if_neg (hfixed _ rfl), if_neg (hfixed _ rfl), if_neg (hfixed _ rfl),
    if_pos ⟨h7, h6⟩]

/-- A T32-LDX word, by its nibbles. -/
theorem decodeT32Word_loadNibs (h7 : nib w 7 = 0xE) (h6 : nib w 6 = 0x8) (h5 : nib w 5 = 0xD) (h0 : nib w 0 = 0xF) :
    decodeT32Word w = decodeT32Load (nib w 1) (nib w 2) (regOf (nib w 4)) (regOf (nib w 3)) := by
  rw [decodeT32Word_exclusive h7 h6, if_pos h5, if_pos h0]

/-- A T32-STX word, by its nibbles. -/
theorem decodeT32Word_storeNibs (h7 : nib w 7 = 0xE) (h6 : nib w 6 = 0x8) (h5 : nib w 5 = 0xC) :
    decodeT32Word w =
      decodeT32Store (nib w 1) (nib w 2) (regOf (nib w 4)) (regOf (nib w 3)) (regOf (nib w 0)) := by
  rw [decodeT32Word_exclusive h7 h6, h5]
  rfl

/-- A T32-LDREX word, by its nibbles. -/
theorem decodeT32Word_ldrexNibs (h7 : nib w 7 = 0xE) (h6 : nib w 6 = 0x8) (h5 : nib w 5 = 0x5) (h2 : nib w 2 = 0xF) :
    decodeT32Word w = checkForm (.ldrexT (regOf (nib w 3)) (regOf (nib w 4)) (nib w 1 ++ nib w 0)) := by
  rw [decodeT32Word_exclusive h7 h6, h5, if_pos h2]
  rfl

/-- A T32-STREX word, by its nibbles. -/
theorem decodeT32Word_strexNibs (h7 : nib w 7 = 0xE) (h6 : nib w 6 = 0x8) (h5 : nib w 5 = 0x4) :
    decodeT32Word w =
      checkForm (.strexT (regOf (nib w 2)) (regOf (nib w 3)) (regOf (nib w 4)) (nib w 1 ++ nib w 0)) := by
  rw [decodeT32Word_exclusive h7 h6, h5]
  rfl

theorem decodeT32Word_loadWord (op n2 : BitVec 4) (rn rt : Reg) :
    decodeT32Word (t32LoadWord op n2 rn rt) = decodeT32Load op n2 rn rt := by
  unfold t32LoadWord
  rw [decodeT32Word_loadNibs] <;> simp

theorem decodeT32Word_storeWord (op n2 : BitVec 4) (rn rt rd : Reg) :
    decodeT32Word (t32StoreWord op n2 rn rt rd) = decodeT32Store op n2 rn rt rd := by
  unfold t32StoreWord
  rw [decodeT32Word_storeNibs] <;> simp

/-- A first halfword that begins 0xE8 has a second one (R102). -/
theorem isTwoHalfwords_of_nibs (h7 : nib w 7 = 0xE) (h6 : nib w 6 = 0x8) :
    isTwoHalfwords (w.extractLsb' 16 16) = true := by
  have htop : (w.extractLsb' 16 16).extractLsb' 11 5 = nib w 7 ++ (nib w 6).extractLsb' 3 1 := by
    apply BitVec.eq_of_getLsbD_eq
    intro k hk
    simp only [nib, BitVec.getLsbD_extractLsb', BitVec.getLsbD_append]
    interval_cases k <;> simp
  rw [isTwoHalfwords, htop, h7, h6]
  rfl

end T32

/-! ## From an instruction to its word (R102 to R106) -/

section Encoded
variable {w : Word} {i : Instr}

/-- The decoder reads the word an A32 instruction encodes to as that instruction. -/
theorem decodeA32Word_of_encode (hset : i.iset = .a32) (h : encode i = wordBytes .a32 w) :
    decodeA32Word w = checkForm i := by
  cases i with
  | ldrexbA c rt rn | ldaexbA c rt rn | ldrexhA c rt rn | ldaexhA c rt rn
  | ldrexA c rt rn | ldaexA c rt rn | ldrexdA c rt rn | ldaexdA c rt rn =>
    cases wordBytes_injective (set := .a32) h
    exact decodeA32Word_loadWord rfl ..
  | strexbA c rd rt rn | stlexbA c rd rt rn | strexhA c rd rt rn | stlexhA c rd rt rn
  | strexA c rd rt rn | stlexA c rd rt rn | strexdA c rd rt rn | stlexdA c rd rt rn =>
    cases wordBytes_injective (set := .a32) h
    exact decodeA32Word_storeWord rfl ..
  | wfeA c | sevA c | sevlA c =>
    cases wordBytes_injective (set := .a32) h
    exact decodeA32Word_hintWord _
  | clrexA =>
    cases wordBytes_injective (set := .a32) h
    rfl
  | _ => cases hset

/-- The decoder reads the word a two-halfword T32 instruction encodes to as that instruction, after two halfwords. -/
theorem decodeT32Word_of_encode (hset : i.iset = .t32) (h : encode i = wordBytes .t32 w) :
    isTwoHalfwords (w.extractLsb' 16 16) = true ∧ decodeT32Word w = checkForm i := by
  cases i with
  | ldrexbT rt rn | ldaexbT rt rn | ldrexhT rt rn | ldaexhT rt rn | ldaexT rt rn
  | ldrexdT rt rt2 rn | ldaexdT rt rt2 rn =>
    cases wordBytes_injective (set := .t32) h
    exact ⟨isTwoHalfwords_of_nibs (nib_ofNibs_7 ..) (nib_ofNibs_6 ..), decodeT32Word_loadWord ..⟩
  | strexbT rd rt rn | stlexbT rd rt rn | strexhT rd rt rn | stlexhT rd rt rn | stlexT rd rt rn
  | strexdT rd rt rt2 rn | stlexdT rd rt rt2 rn =>
    cases wordBytes_injective (set := .t32) h
    exact ⟨isTwoHalfwords_of_nibs (nib_ofNibs_7 ..) (nib_ofNibs_6 ..), decodeT32Word_storeWord ..⟩
  | ldrexT rt rn imm8 =>
    cases wordBytes_injective (set := .t32) h
    refine ⟨isTwoHalfwords_of_nibs (nib_ofNibs_7 ..) (nib_ofNibs_6 ..), ?_⟩
    rw [decodeT32Word_ldrexNibs] <;> simp [append_nibbles]
  | strexT rd rt rn imm8 =>
    cases wordBytes_injective (set := .t32) h
    refine ⟨isTwoHalfwords_of_nibs (nib_ofNibs_7 ..) (nib_ofNibs_6 ..), ?_⟩
    rw [decodeT32Word_strexNibs] <;> simp [append_nibbles]
  | clrexT | wfeW | sevW | sevlW =>
    cases wordBytes_injective (set := .t32) h
    exact ⟨rfl, rfl⟩
  | wfeT | sevT | sevlT => exact absurd (congrArg List.length h) (show 2 ≠ 4 by decide)
  | _ => cases hset

/-- An instruction encodes to a word, but for the three of one halfword (R102). -/
theorem exists_encode_eq (i : Instr) :
    (∃ w, encode i = wordBytes i.iset w) ∨ i = .wfeT ∨ i = .sevT ∨ i = .sevlT := by
  cases i with
  | wfeT | sevT | sevlT => exact .inr (by simp)
  | _ => exact .inl ⟨_, rfl⟩

end Encoded

/-! ## From a word to its instruction (R102 to R107) -/

/-- The word `w` is the encoding of the instruction `i` of `set`, which keeps the restrictions of R107. -/
structure Encodes (set : ISet) (w : Word) (i : Instr) : Prop where
  wellFormed : i.wellFormed = true
  iset : i.iset = set
  encode : encode i = wordBytes set w

section Accepted
variable {set : ISet} {c : Cond} {w : Word} {i j : Instr} {sz ord op n2 : BitVec 4} {rn rt rd : Reg}

/-- A row's instruction is accepted where it keeps the restrictions. -/
theorem encodes_of_checkForm (h : checkForm i = .ok j) (hset : i.iset = set) (he : encode i = wordBytes set w) :
    Encodes set w j := by
  obtain ⟨hwf, rfl⟩ := checkForm_eq_ok.mp h
  exact ⟨hwf, hset, he⟩

theorem decodeA32Load_ok (h : decodeA32Load c sz ord rn rt = .ok i) : Encodes .a32 (a32LoadWord c sz ord rn rt) i := by
  unfold decodeA32Load at h
  split_ifs at h <;> subst_vars <;> exact encodes_of_checkForm h rfl rfl

theorem decodeA32Store_ok (h : decodeA32Store c sz ord rn rd rt = .ok i) :
    Encodes .a32 (a32StoreWord c sz ord rn rd rt) i := by
  unfold decodeA32Store at h
  split_ifs at h <;> subst_vars <;> exact encodes_of_checkForm h rfl rfl

theorem decodeA32Hint_ok (h : decodeA32Hint c op = .ok i) : Encodes .a32 (a32HintWord c op) i := by
  unfold decodeA32Hint at h
  split_ifs at h <;> subst_vars <;> cases h <;> exact ⟨rfl, rfl, rfl⟩

theorem decodeT32Load_ok (h : decodeT32Load op n2 rn rt = .ok i) : Encodes .t32 (t32LoadWord op n2 rn rt) i := by
  unfold decodeT32Load at h
  split_ifs at h <;> subst_vars <;> exact encodes_of_checkForm h rfl rfl

theorem decodeT32Store_ok (h : decodeT32Store op n2 rn rt rd = .ok i) :
    Encodes .t32 (t32StoreWord op n2 rn rt rd) i := by
  unfold decodeT32Store at h
  split_ifs at h <;> subst_vars <;> exact encodes_of_checkForm h rfl rfl

/-- A word the A32 decoder accepts is the encoding of the instruction: each branch fixes the nibbles of its format. -/
theorem decodeA32Word_ok (h : decodeA32Word w = .ok i) : Encodes .a32 w i := by
  unfold decodeA32Word at h
  split at h
  · subst w
    cases h
    exact ⟨rfl, rfl, rfl⟩
  split at h
  · cases h
  rename_i c hc
  have h7 := (condBits_of_condOf hc).symm
  split_ifs at h with hexcl hodd h0 hhint
  · have hw : a32LoadWord c (nib w 5) (nib w 2) (regOf (nib w 4)) (regOf (nib w 3)) = w :=
      eq_ofNibs h7 hexcl.1 rfl rfl rfl rfl hexcl.2 h0
    exact hw ▸ decodeA32Load_ok h
  · have hw : a32StoreWord c (nib w 5) (nib w 2) (regOf (nib w 4)) (regOf (nib w 3)) (regOf (nib w 0)) = w :=
      eq_ofNibs h7 hexcl.1 rfl rfl rfl rfl hexcl.2 rfl
    exact hw ▸ decodeA32Store_ok h
  · obtain ⟨h6, h5, h4, h3, h2, h1⟩ := hhint
    have hw : a32HintWord c (nib w 0) = w := eq_ofNibs h7 h6 h5 h4 h3 h2 h1 rfl
    exact hw ▸ decodeA32Hint_ok h

/-- A word the T32 decoder accepts is the encoding of the instruction: it begins 0xE8 and each branch fixes the nibbles
of its format, or it is one of the four fixed words. -/
theorem decodeT32Word_ok (h : decodeT32Word w = .ok i) : Encodes .t32 w i := by
  by_cases hexcl : nib w 7 = 0xE ∧ nib w 6 = 0x8
  · obtain ⟨h7, h6⟩ := hexcl
    rw [decodeT32Word_exclusive h7 h6] at h
    split_ifs at h with h5 h0 h5 h5 h2 h5
    · have hw : t32LoadWord (nib w 1) (nib w 2) (regOf (nib w 4)) (regOf (nib w 3)) = w :=
        eq_ofNibs h7 h6 h5 rfl rfl rfl rfl h0
      exact hw ▸ decodeT32Load_ok h
    · have hw : t32StoreWord (nib w 1) (nib w 2) (regOf (nib w 4)) (regOf (nib w 3)) (regOf (nib w 0)) = w :=
        eq_ofNibs h7 h6 h5 rfl rfl rfl rfl rfl
      exact hw ▸ decodeT32Store_ok h
    · obtain ⟨himm1, himm0⟩ := extractLsb'_nibbles (nib w 1) (nib w 0)
      exact encodes_of_checkForm h rfl
        (congrArg t32Bytes (eq_ofNibs h7 h6 h5 rfl rfl h2 himm1.symm himm0.symm))
    · obtain ⟨himm1, himm0⟩ := extractLsb'_nibbles (nib w 1) (nib w 0)
      exact encodes_of_checkForm h rfl
        (congrArg t32Bytes (eq_ofNibs h7 h6 h5 rfl rfl rfl himm1.symm himm0.symm))
  · unfold decodeT32Word at h
    split_ifs at h <;> subst_vars <;> cases h <;> exact ⟨rfl, rfl, rfl⟩

/-- What the decoder accepts of the halfwords (R104 T32-HINT16). -/
theorem decodeT32Half_eq_ok {hw : BitVec 16} :
    decodeT32Half hw = .ok i ↔
      i = .wfeT ∧ hw = 0xBF20#16 ∨ i = .sevT ∧ hw = 0xBF40#16 ∨ i = .sevlT ∧ hw = 0xBF50#16 := by
  constructor
  · intro h
    unfold decodeT32Half at h
    split_ifs at h <;> cases h <;> simp [*]
  · rintro (⟨rfl, rfl⟩ | ⟨rfl, rfl⟩ | ⟨rfl, rfl⟩) <;> rfl

/-- A halfword the T32 decoder accepts is the encoding of the instruction. -/
theorem decodeT32Half_ok {hw : BitVec 16} (h : decodeT32Half hw = .ok i) :
    i.wellFormed = true ∧ i.iset = .t32 ∧ encode i = halfBytes hw := by
  rcases decodeT32Half_eq_ok.mp h with ⟨rfl, rfl⟩ | ⟨rfl, rfl⟩ | ⟨rfl, rfl⟩ <;> exact ⟨rfl, rfl, rfl⟩

end Accepted

end Sys2Proof
end

section
/-! SUPPORT. The row of R106 of a word: the words an instruction encodes to match it, and no word that matches it is
answered `noRow`. -/

namespace Sys2Proof

open Machine (matchesRow rowOf)

/-- The nibbles of a mask, as the numerals they are written with. -/
theorem and_ones (n : BitVec 4) : n &&& 0xF = n := BitVec.and_allOnes

theorem and_zeros (n : BitVec 4) : n &&& 0x0 = 0x0 := BitVec.and_zero

/-! ## The fixed nibbles of each format -/

section Format
variable (c : Cond) (sz ord op n2 imm1 imm0 : BitVec 4) (rn rt rd : Reg)

theorem a32LoadWord_land :
    (a32LoadWord c sz ord rn rt).toNat &&& 0x0FF00FFF = (ofNibs 0x0 0x1 sz 0x0 0x0 ord 0x9 0xF).toNat :=
  (toNat_ofNibs_land 0x0 0xF 0xF 0x0 0x0 0xF 0xF 0xF).trans (by simp only [and_ones, and_zeros])

theorem a32StoreWord_land :
    (a32StoreWord c sz ord rn rd rt).toNat &&& 0x0FF00FF0 = (ofNibs 0x0 0x1 sz 0x0 0x0 ord 0x9 0x0).toNat :=
  (toNat_ofNibs_land 0x0 0xF 0xF 0x0 0x0 0xF 0xF 0x0).trans (by simp only [and_ones, and_zeros])

theorem a32HintWord_land :
    (a32HintWord c op).toNat &&& 0x0FFFFFFF = (ofNibs 0x0 0x3 0x2 0x0 0xF 0x0 0x0 op).toNat :=
  (toNat_ofNibs_land 0x0 0xF 0xF 0xF 0xF 0xF 0xF 0xF).trans (by simp only [and_ones, and_zeros])

theorem t32LoadWord_land :
    (t32LoadWord op n2 rn rt).toNat &&& 0xFFF00FFF = (ofNibs 0xE 0x8 0xD 0x0 0x0 n2 op 0xF).toNat :=
  (toNat_ofNibs_land 0xF 0xF 0xF 0x0 0x0 0xF 0xF 0xF).trans (by simp only [and_ones, and_zeros])

/-- The doubleword rows free Rt2. -/
theorem t32LoadWord_land_double :
    (t32LoadWord op n2 rn rt).toNat &&& 0xFFF000FF = (ofNibs 0xE 0x8 0xD 0x0 0x0 0x0 op 0xF).toNat :=
  (toNat_ofNibs_land 0xF 0xF 0xF 0x0 0x0 0x0 0xF 0xF).trans (by simp only [and_ones, and_zeros])

theorem t32StoreWord_land :
    (t32StoreWord op n2 rn rt rd).toNat &&& 0xFFF00FF0 = (ofNibs 0xE 0x8 0xC 0x0 0x0 n2 op 0x0).toNat :=
  (toNat_ofNibs_land 0xF 0xF 0xF 0x0 0x0 0xF 0xF 0x0).trans (by simp only [and_ones, and_zeros])

theorem t32StoreWord_land_double :
    (t32StoreWord op n2 rn rt rd).toNat &&& 0xFFF000F0 = (ofNibs 0xE 0x8 0xC 0x0 0x0 0x0 op 0x0).toNat :=
  (toNat_ofNibs_land 0xF 0xF 0xF 0x0 0x0 0x0 0xF 0x0).trans (by simp only [and_ones, and_zeros])

theorem t32LdrexWord_land :
    (ofNibs 0xE 0x8 0x5 (regBits rn) (regBits rt) 0xF imm1 imm0).toNat &&& 0xFFF00F00 = 0xE8500F00 :=
  (toNat_ofNibs_land 0xF 0xF 0xF 0x0 0x0 0xF 0x0 0x0).trans (by simp only [and_ones, and_zeros]; rfl)

theorem t32StrexWord_land :
    (ofNibs 0xE 0x8 0x4 (regBits rn) (regBits rt) (regBits rd) imm1 imm0).toNat &&& 0xFFF00000 = 0xE8400000 :=
  (toNat_ofNibs_land 0xF 0xF 0xF 0x0 0x0 0x0 0x0 0x0).trans (by simp only [and_ones, and_zeros]; rfl)

end Format

section Row
variable {w : Word} {i : Instr}

/-! ## An encoded instruction matches its row -/

/-- A word with a condition matches an A32 row by its masked bits. -/
theorem matchesRow_of_land (h : w.toNat &&& (rowOf i).2 = (rowOf i).1) {c : Cond} (h7 : nib w 7 = condBits c) :
    matchesRow w i :=
  ⟨h, fun _ _ => h7 ▸ condBits_ne c⟩

theorem matchesRow_of_encode_a32 (hset : i.iset = .a32) (h : encode i = wordBytes .a32 w) : matchesRow w i := by
  cases i with
  | ldrexbA c rt rn | ldaexbA c rt rn | ldrexhA c rt rn | ldaexhA c rt rn
  | ldrexA c rt rn | ldaexA c rt rn | ldrexdA c rt rn | ldaexdA c rt rn =>
    cases wordBytes_injective (set := .a32) h
    exact matchesRow_of_land (a32LoadWord_land ..) (nib_ofNibs_7 ..)
  | strexbA c rd rt rn | stlexbA c rd rt rn | strexhA c rd rt rn | stlexhA c rd rt rn
  | strexA c rd rt rn | stlexA c rd rt rn | strexdA c rd rt rn | stlexdA c rd rt rn =>
    cases wordBytes_injective (set := .a32) h
    exact matchesRow_of_land (a32StoreWord_land ..) (nib_ofNibs_7 ..)
  | wfeA c | sevA c | sevlA c =>
    cases wordBytes_injective (set := .a32) h
    exact matchesRow_of_land (a32HintWord_land ..) (nib_ofNibs_7 ..)
  | clrexA =>
    cases wordBytes_injective (set := .a32) h
    exact ⟨rfl, fun _ hne => absurd rfl hne⟩
  | _ => cases hset

theorem matchesRow_of_encode_t32 (hset : i.iset = .t32) (h : encode i = wordBytes .t32 w) : matchesRow w i := by
  refine ⟨?_, fun ha32 => by rw [hset] at ha32; cases ha32⟩
  cases i with
  | ldrexbT rt rn | ldaexbT rt rn | ldrexhT rt rn | ldaexhT rt rn | ldaexT rt rn =>
    cases wordBytes_injective (set := .t32) h
    exact t32LoadWord_land ..
  | ldrexdT rt rt2 rn | ldaexdT rt rt2 rn =>
    cases wordBytes_injective (set := .t32) h
    exact t32LoadWord_land_double ..
  | strexbT rd rt rn | stlexbT rd rt rn | strexhT rd rt rn | stlexhT rd rt rn | stlexT rd rt rn =>
    cases wordBytes_injective (set := .t32) h
    exact t32StoreWord_land ..
  | strexdT rd rt rt2 rn | stlexdT rd rt rt2 rn =>
    cases wordBytes_injective (set := .t32) h
    exact t32StoreWord_land_double ..
  | ldrexT rt rn imm8 =>
    cases wordBytes_injective (set := .t32) h
    exact t32LdrexWord_land ..
  | strexT rd rt rn imm8 =>
    cases wordBytes_injective (set := .t32) h
    exact t32StrexWord_land ..
  | clrexT | wfeW | sevW | sevlW =>
    cases wordBytes_injective (set := .t32) h
    rfl
  | wfeT | sevT | sevlT => exact absurd (congrArg List.length h) (show 2 ≠ 4 by decide)
  | _ => cases hset

/-! ## A word that matches a row is decoded by that row -/

/-- A word whose row fixes every bit is the row's. -/
theorem eq_of_matchesRow (hm : matchesRow w i) (hmask : (rowOf i).2 = 2 ^ 32 - 1) :
    w = BitVec.ofNat 32 (rowOf i).1 := by
  rw [← hm.1, hmask, Nat.and_two_pow_sub_one_of_lt_two_pow w.isLt, BitVec.ofNat_toNat, BitVec.setWidth_eq]

theorem decodeA32Word_ne_noRow (hset : i.iset = .a32) (hm : matchesRow w i) : decodeA32Word w ≠ .error .noRow := by
  have hrow := hm.1
  cases i with
  | ldrexbA | ldaexbA | ldrexhA | ldaexhA | ldrexA | ldaexA | ldrexdA | ldaexdA =>
    obtain ⟨c, h7⟩ := exists_condOf (hm.2 rfl nofun)
    simp only [rowOf] at hrow
    have h5 := nib_of_land hrow (k := 5) rfl rfl
    rw [decodeA32Word_loadNibs h7 (nib_of_land hrow rfl rfl) (nib_of_land hrow rfl rfl) (by rw [h5]; rfl)
      (nib_of_land hrow rfl rfl), h5, nib_of_land hrow (k := 2) rfl rfl]
    exact checkForm_ne_noRow _
  | strexbA | stlexbA | strexhA | stlexhA | strexA | stlexA | strexdA | stlexdA =>
    obtain ⟨c, h7⟩ := exists_condOf (hm.2 rfl nofun)
    simp only [rowOf] at hrow
    have h5 := nib_of_land hrow (k := 5) rfl rfl
    rw [decodeA32Word_storeNibs h7 (nib_of_land hrow rfl rfl) (nib_of_land hrow rfl rfl) (by rw [h5]; rfl), h5,
      nib_of_land hrow (k := 2) rfl rfl]
    exact checkForm_ne_noRow _
  | wfeA | sevA | sevlA =>
    obtain ⟨c, h7⟩ := exists_condOf (hm.2 rfl nofun)
    simp only [rowOf] at hrow
    rw [decodeA32Word_hintNibs h7 (nib_of_land hrow rfl rfl) (nib_of_land hrow rfl rfl) (nib_of_land hrow rfl rfl)
      (nib_of_land hrow rfl rfl) (nib_of_land hrow rfl rfl) (nib_of_land hrow rfl rfl),
      nib_of_land hrow (k := 0) rfl rfl]
    exact nofun
  | clrexA =>
    cases eq_of_matchesRow hm rfl
    exact nofun
  | _ => cases hset

theorem decodeT32Word_ne_noRow (hset : i.iset = .t32) (hwide : (rowOf i).2 > 0xFFFF) (hm : matchesRow w i) :
    decodeT32Word w ≠ .error .noRow := by
  have hrow := hm.1
  cases i with
  | ldrexbT | ldaexbT | ldrexhT | ldaexhT | ldaexT =>
    simp only [rowOf] at hrow
    rw [decodeT32Word_loadNibs (nib_of_land hrow rfl rfl) (nib_of_land hrow rfl rfl) (nib_of_land hrow rfl rfl)
      (nib_of_land hrow rfl rfl), nib_of_land hrow (k := 1) rfl rfl, nib_of_land hrow (k := 2) rfl rfl]
    exact checkForm_ne_noRow _
  | ldrexdT | ldaexdT =>
    simp only [rowOf] at hrow
    rw [decodeT32Word_loadNibs (nib_of_land hrow rfl rfl) (nib_of_land hrow rfl rfl) (nib_of_land hrow rfl rfl)
      (nib_of_land hrow rfl rfl), nib_of_land hrow (k := 1) rfl rfl]
    exact checkForm_ne_noRow _
  | strexbT | stlexbT | strexhT | stlexhT | stlexT =>
    simp only [rowOf] at hrow
    rw [decodeT32Word_storeNibs (nib_of_land hrow rfl rfl) (nib_of_land hrow rfl rfl) (nib_of_land hrow rfl rfl),
      nib_of_land hrow (k := 1) rfl rfl, nib_of_land hrow (k := 2) rfl rfl]
    exact checkForm_ne_noRow _
  | strexdT | stlexdT =>
    simp only [rowOf] at hrow
    rw [decodeT32Word_storeNibs (nib_of_land hrow rfl rfl) (nib_of_land hrow rfl rfl) (nib_of_land hrow rfl rfl),
      nib_of_land hrow (k := 1) rfl rfl]
    exact checkForm_ne_noRow _
  | ldrexT =>
    simp only [rowOf] at hrow
    rw [decodeT32Word_ldrexNibs (nib_of_land hrow rfl rfl) (nib_of_land hrow rfl rfl) (nib_of_land hrow rfl rfl)
      (nib_of_land hrow rfl rfl)]
    exact checkForm_ne_noRow _
  | strexT =>
    simp only [rowOf] at hrow
    rw [decodeT32Word_strexNibs (nib_of_land hrow rfl rfl) (nib_of_land hrow rfl rfl) (nib_of_land hrow rfl rfl)]
    exact checkForm_ne_noRow _
  | clrexT | wfeW | sevW | sevlW =>
    cases eq_of_matchesRow hm rfl
    exact nofun
  | wfeT | sevT | sevlT => exact absurd hwide (by decide)
  | _ => cases hset

end Row

end Sys2Proof
end

section
/-! PROOF. The encoder and the decoder undo each other, and the decoder accepts what the table's rows say (R102 to R107,
R111, R112). -/

namespace Sys2Proof

/-- Settles O1: every word of an instruction is decoded by its format's equation, and so is each halfword. -/
theorem decodeEncodeAgree : Obligations.DecodeEncodeAgree := by
  intro i rest hwf
  have hcheck : checkForm i = .ok i := checkForm_eq_ok.mpr ⟨hwf, rfl⟩
  rcases exists_encode_eq i with ⟨w, hw⟩ | hhalf
  · cases hset : i.iset with
    | a32 =>
      rw [hset] at hw
      calc decode .a32 (encode i ++ rest) = (decodeA32Word w).map fun i => (i, rest) := by
            rw [hw]; exact decode_a32Bytes w rest
        _ = .ok (i, rest) := by rw [decodeA32Word_of_encode hset hw, hcheck]; rfl
    | t32 =>
      rw [hset] at hw
      obtain ⟨htwo, hword⟩ := decodeT32Word_of_encode hset hw
      calc decode .t32 (encode i ++ rest) = (decodeT32Word w).map fun i => (i, rest) := by
            rw [hw]; exact decode_t32Bytes w rest htwo
        _ = .ok (i, rest) := by rw [hword, hcheck]; rfl
  · rcases hhalf with rfl | rfl | rfl <;> exact decode_halfBytes _ rest rfl

/-- Settles O2: by the length of the instruction at the head (R102), an accepted word or halfword is its encoding. -/
theorem encodeDecodeAgree : Obligations.EncodeDecodeAgree := by
  intro set bs rest i h
  unfold decode at h
  split at h
  · obtain ⟨hword, rfl⟩ := map_rest_eq_ok h
    obtain ⟨hwf, hset, he⟩ := decodeA32Word_ok hword
    exact ⟨hwf, hset, by rw [he, wordBytes, a32Bytes_wordOf]; rfl⟩
  · cases h
  · split at h
    · split at h
      · obtain ⟨hword, rfl⟩ := map_rest_eq_ok h
        obtain ⟨hwf, hset, he⟩ := decodeT32Word_ok hword
        exact ⟨hwf, hset, by rw [he, wordBytes, t32Bytes_wordOf]; rfl⟩
      · cases h
    · obtain ⟨hhalf, rfl⟩ := map_rest_eq_ok h
      obtain ⟨hwf, hset, he⟩ := decodeT32Half_ok hhalf
      exact ⟨hwf, hset, by rw [he, halfBytes_halfOf]; rfl⟩
  · cases h

/-- Settles O4: an accepted word is the encoding of its instruction, which matches its row; a word that matches a row is
decoded by that row. -/
theorem wordsMatchTableRows : Obligations.WordsMatchTableRows := by
  refine ⟨fun w i h => ?a32, fun w i h => ?t32, fun w i => decodeA32Word_ne_noRow, fun w i => decodeT32Word_ne_noRow,
    fun hw i => ?half⟩
  case a32 =>
    obtain ⟨-, hset, he⟩ := decodeA32Word_ok h
    exact ⟨matchesRow_of_encode_a32 hset he, hset⟩
  case t32 =>
    obtain ⟨-, hset, he⟩ := decodeT32Word_ok h
    exact ⟨matchesRow_of_encode_t32 hset he, hset⟩
  case half =>
    rw [decodeT32Half_eq_ok]
    constructor
    · rintro (⟨rfl, rfl⟩ | ⟨rfl, rfl⟩ | ⟨rfl, rfl⟩) <;> exact ⟨by simp, rfl⟩
    · rintro ⟨rfl | rfl | rfl, hrow⟩
      · exact .inl ⟨rfl, BitVec.eq_of_toNat_eq hrow⟩
      · exact .inr (.inl ⟨rfl, BitVec.eq_of_toNat_eq hrow⟩)
      · exact .inr (.inr ⟨rfl, BitVec.eq_of_toNat_eq hrow⟩)

/-- Settles O3: the ten words are closed. -/
theorem knownWordsDecode : Obligations.KnownWordsDecode := by
  unfold Obligations.KnownWordsDecode
  decide

end Sys2Proof
end

section
/-! PROOF. What a step makes of an instruction: one whose condition fails is passed over (R103, R108), and one placed by
its table word is executed (R29, R106, logs 8 and 9). -/

namespace Sys2Proof.Machine

/-! ## A failed condition -/

theorem complete_passedOver {s : State} (i : Instr) (h : s.cur < s.npe) : passedOver i s (complete i.iset s s.cur) := by
  refine ⟨by simp [sameSystem], fun _ => rfl, fun m hm => pe_complete_ne _ _ _ _ hm, ?_, ?_⟩ <;>
    rw [pe_complete_self _ _ _ h]
  exact cpsrAdvanced_afterInstr ..

/-- Settles O34: the step of a failed condition is that of a completed instruction. -/
theorem failedConditionIsNop : Obligations.FailedConditionIsNop :=
  fun _ i hx h => ⟨_, exec_skip hx, complete_passedOver i h⟩

/-! ## A placed instruction -/

@[simp] theorem isetOf_withISet (set : ISet) (cpsr : Word) : isetOf (withISet set cpsr) = set := by
  cases set <;> simp [isetOf, withISet]

@[simp] theorem getElem?_putSlot (prog : List (List Byte)) (k : Nat) (bs : List Byte) :
    (putSlot prog k bs)[k]? = some bs := by
  have hlen : (prog.take k ++ List.replicate (k - prog.length) []).length = k := by simp; omega
  unfold putSlot
  rw [List.append_assoc, List.getElem?_append_right hlen.le, hlen]
  simp

theorem decode_of_decoded? {set : ISet} {bs : List Byte} {i : Instr} (h : decoded? set bs = some i) :
    ∃ rest, decode set bs = .ok (i, rest) := by
  unfold decoded? at h
  split at h
  · cases h; exact ⟨_, by assumption⟩
  · cases h

section Place
variable {s : State} (set : ISet) (bs : List Byte)

/-- Placing an instruction keeps the constraints of the system. -/
theorem systemOk_placeInstr : systemOk (placeInstr s set bs) = systemOk s := by
  have hnpe : (placeInstr s set bs).npe = s.npe := updatePE_npe ..
  simp only [systemOk, hnpe]
  rfl

/-- The executing PE after an instruction is placed for it. -/
theorem pe_placeInstr (h : s.cur < s.npe) :
    (placeInstr s set bs).pe s.cur =
      { s.pe s.cur with
        program := putSlot (s.pe s.cur).program (s.pe s.cur).pc bs, cpsr := withISet set (s.pe s.cur).cpsr
        ended := none } :=
  pe_updatePE_self _ _ _ h

/-- The step after an instruction is placed executes it and consumes its turn. -/
theorem step_placeInstr {set : ISet} {bs rest : List Byte} {i : Instr} (hs : systemOk s = true) (h : s.cur < s.npe)
    (hd : decode set bs = .ok (i, rest)) :
    step (placeInstr s set bs) = exec i { placeInstr s set bs with agenda := s.agenda } := by
  obtain ⟨hcurrent, hrun, -⟩ := stepRunsDecodedInstruction
  have hsys : systemOk (placeInstr s set bs) = true := (systemOk_placeInstr set bs).trans hs
  have hcur : s.cur < (placeInstr s set bs).npe := h.trans_eq (updatePE_npe ..).symm
  have hpe := pe_placeInstr set bs h
  have hended : ((placeInstr s set bs).pe s.cur).ended = none := by rw [hpe]
  have hfetch : ((placeInstr s set bs).pe s.cur).program[((placeInstr s set bs).pe s.cur).pc]? = some bs := by
    rw [hpe]; exact getElem?_putSlot ..
  have hdecode : decode (isetOf ((placeInstr s set bs).pe s.cur).cpsr) bs = .ok (i, rest) := by
    rw [hpe]; exact (isetOf_withISet ..).symm ▸ hd
  cases ha : s.agenda with
  | nil =>
    have hagenda : (placeInstr s set bs).agenda = [] := by simp [placeInstr, ha]
    rw [hcurrent _ bs rest i hsys hagenda hcur hended hfetch hdecode, ← hagenda]
  | cons turn turns =>
    have hagenda : (placeInstr s set bs).agenda = .run s.cur :: turn :: turns := by simp [placeInstr, ha]
    exact hrun _ s.cur (turn :: turns) bs rest i hsys hagenda hcur hended hfetch hdecode

end Place

/-- Settles O7: the word's bytes are placed for the decoder that accepts them. -/
theorem fetchWordRuns : Obligations.FetchWordRuns := by
  intro s nbits w i hs h hw
  obtain ⟨rest, hd⟩ := decode_of_decoded? hw
  exact step_placeInstr hs h hd

end Sys2Proof.Machine
end

section
/-! SUPPORT. The end of an exclusive access: the registers and the PE after a Load-Exclusive that read its value (R120 to
R128), and the exception of an access that aborts (R130, R151, R195, R197). -/

namespace Sys2Proof.Machine

/-! ## The registers of a Load-Exclusive (R121 to R128) -/

section Dests
variable {s t : State} {p : Nat}

/-- From `s` to `t` nothing changed but general registers of PE `p`. -/
structure OnlyRegs (p : Nat) (s t : State) : Prop where
  system : t = { s with pes := t.pes }
  npe : t.npe = s.npe
  others : ∀ m, m ≠ p → t.pe m = s.pe m
  own : t.pe p = { s.pe p with regs := (t.pe p).regs }

namespace OnlyRegs

theorem refl (s : State) : OnlyRegs p s s := ⟨rfl, rfl, fun _ _ => rfl, rfl⟩

theorem setReg (h : OnlyRegs p s t) (hp : p < s.npe) {r : Reg} {v : Word} : OnlyRegs p s (t.setReg p r v) where
  system := by rw [State.setReg, State.updatePE, h.system]
  npe := (setReg_npe ..).trans h.npe
  others m hm := (pe_setReg_ne _ _ _ _ _ hm).trans (h.others m hm)
  own := by rw [pe_setReg_self _ _ _ _ (h.npe ▸ hp), h.own]

theorem writeDests (hp : p < s.npe) {pa : Nat} (ds : List LoadDest) : OnlyRegs p s (writeDests s p pa ds) :=
  List.foldlRecOn ds _ (refl s) fun _ hu _ _ => hu.setReg hp

end OnlyRegs

/-- The destinations are written in order, so the last one that names a register decides its value. -/
theorem reg_writeDests (hp : s.cur < s.npe) {f : LoadForm} {pa : Nat} (r : Reg) :
    (writeDests s s.cur pa f.dests).reg s.cur r = loadedReg s f pa r := by
  obtain ⟨va, n, ds⟩ := f
  induction ds using List.reverseRecOn with
  | nil => rfl
  | append_singleton ds d ih =>
    have hlast : writeDests s s.cur pa (ds ++ [d]) =
        (writeDests s s.cur pa ds).setReg s.cur d.reg (memNumber s (pa + d.offset) d.width) := by
      simp [writeDests]
    have hnpe : (writeDests s s.cur pa ds).npe = s.npe := (OnlyRegs.writeDests hp ds).npe
    rw [hlast, reg_setReg_self _ _ _ _ (hnpe ▸ hp), ih]
    by_cases hr : d.reg = r
    · simp [loadedReg, hr]
    · simp [loadedReg, hr, Ne.symm hr]

end Dests

/-! ## A Load-Exclusive that read its value (R120) -/

section Load
variable {s : State} {i : Instr} {f : LoadForm} {pa : Nat} {g : PE → PE}

/-- A Load-Exclusive whose common step left its PE as `g` leaves it: its registers hold the bytes read, the PC and in T32
the IT state advance, and nothing else changes. -/
theorem exec_load_completes (hf : loadForm s i = some f) (hx : executes s i = true) (hp : s.cur < s.npe)
    (h : loadExcl s s.cur f.va f.n = .value (s.updatePE s.cur g) pa) (hregs : ∀ x, (g x).regs = x.regs) :
    ∃ t, exec i s = .next t ∧ sameSystem s t ∧ sameMemory s t ∧ sameOthers s t s.cur ∧
      (∀ r, t.reg s.cur r = loadedReg s f pa r) ∧
      let y := g (s.pe s.cur)
      t.pe s.cur = { y with regs := (t.pe s.cur).regs, pc := y.pc + 1, cpsr := afterInstr i.iset y.cpsr } := by
  have hp' : s.cur < (s.updatePE s.cur g).npe := by simpa using hp
  have hdests : OnlyRegs s.cur (s.updatePE s.cur g) (writeDests (s.updatePE s.cur g) s.cur pa f.dests) :=
    .writeDests hp' f.dests
  have hu : s.cur < (writeDests (s.updatePE s.cur g) s.cur pa f.dests).npe := hdests.npe ▸ hp'
  have hloaded : ∀ r, loadedReg (s.updatePE s.cur g) f pa r = loadedReg s f pa r := fun r => by
    have hreg : (s.updatePE s.cur g).reg s.cur r = s.reg s.cur r := by
      simp [State.reg, pe_updatePE_self _ _ _ hp, hregs]
    unfold loadedReg
    split
    · rfl
    · exact hreg
  have hexec : exec i s =
      .next (complete i.iset (writeDests (s.updatePE s.cur g) s.cur pa f.dests) s.cur) := by
    rw [exec_load hf hx, h]
  refine ⟨_, hexec, ?system, fun a => ?memory, fun m hm => ?others, fun r => ?regs, ?own⟩
  case system =>
    rw [hdests.system]
    exact ⟨rfl, rfl, rfl, (complete_npe ..).trans (hdests.npe.trans (updatePE_npe ..)), rfl, rfl, rfl⟩
  case memory => rw [complete_mem, hdests.system]; rfl
  case others => rw [pe_complete_ne _ _ _ _ hm, hdests.others m hm, pe_updatePE_ne _ _ _ _ hm]
  case regs => exact (reg_complete ..).trans ((reg_writeDests hp' r).trans (hloaded r))
  case own => rw [pe_complete_self _ _ _ hu, hdests.own, pe_updatePE_self _ _ _ hp]

end Load

/-! ## An exception (R192, R195, R197) -/

/-- Reporting a fault changes the report registers alone. -/
theorem reportFault_eq (cfg : Config) (n : Nat) (c : EndCause) (x : PE) :
    reportFault cfg n c x =
      let y := reportFault cfg n c x
      { x with dfsr := y.dfsr, dfar := y.dfar, hsr := y.hsr, hdfar := y.hdfar } := by
  unfold reportFault
  cases c with
  | implDefMMUFault va level =>
    cases level with
    | el1 => dsimp only; split <;> rfl
    | el2 => rfl
  | externalAbort | translationFault | unalignedExclusive | unpredictablePair | noGlobalMonitor => rfl

theorem exceptionTakenBy_takeException {s : State} {p : Nat} {c : EndCause} (hp : p < s.npe) :
    exceptionTakenBy s (takeException s p c) p c := by
  refine ⟨⟨rfl, rfl, rfl, takeException_npe .., rfl, rfl, rfl⟩, fun _ => rfl,
    fun _ hm => pe_takeException_ne _ _ _ _ hm, ?own, ?event⟩
  case own => rw [pe_takeException_self _ _ _ hp, reportFault_eq]; rfl
  case event => rw [pe_takeException_self _ _ _ hp]; exact leavesEvent_takeException

/-! ## The aborts of the common steps (R130, R151) -/

section Abort
variable {s : State} {i : Instr} {p pa n : Nat} {va : Word} {attr : MemAttr} {bs : List Byte} {c : EndCause}

theorem loadExcl_translationFault (hal : va.toNat % n = 0) (htr : translate s p va .read = none) :
    loadExcl s p va n = .ended (takeException s p (.translationFault va)) := by
  simp [loadExcl, hal, htr]

theorem loadExcl_readAborts (hal : va.toNat % n = 0) (htr : translate s p va .read = some (pa, attr))
    (hm : monitored s pa attr) (hab : readAborts s pa n = true) :
    loadExcl s p va n = .ended (takeException s p (.externalAbort va)) := by
  have hplain : (shareable attr && !gMon s.cfg pa attr) = false := by
    cases hsh : shareable attr with
    | false => rfl
    | true => simp [hm hsh]
  simp [loadExcl, hal, htr, hplain, hab]

theorem storeExcl_translationFault (hal : va.toNat % bs.length = 0) (htr : translate s p va .write = none) :
    storeExcl s p va bs = .ended (takeException s p (.translationFault va)) := by
  simp [storeExcl, hal, htr]

/-- A store that its monitors let pass meets the External abort of its bytes. -/
theorem storeChecked_writeAborts (hm : monitored s pa attr) (hpass : monitorsPass s p va pa attr = true)
    (hab : writeAborts s pa bs.length = true) :
    storeChecked s p va pa attr bs = .ended (takeException s p (.externalAbort va)) := by
  obtain ⟨hlocal, hglobal⟩ := Bool.and_eq_true_iff.mp hpass
  unfold localPasses at hlocal
  unfold storeChecked
  cases hsh : shareable attr with
  | false => simp [storeNonShareable, hlocal, hab]
  | true =>
    have hcheck : globalCheck s p pa = true := by simpa [hsh] using hglobal
    simp [hm hsh, storeShareable, hlocal, hcheck, hab]

/-- A Load-Exclusive whose common step ended in an exception. -/
theorem exec_load_exception {f : LoadForm} (hf : loadForm s i = some f) (hx : executes s i = true) (hp : s.cur < s.npe)
    (h : loadExcl s s.cur f.va f.n = .ended (takeException s s.cur c)) :
    ∃ t, exec i s = .next t ∧ exceptionTaken s t c :=
  ⟨takeException s s.cur c, by rw [exec_load hf hx, h], exceptionTakenBy_takeException hp⟩

/-- A Store-Exclusive whose common step ended in an exception. -/
theorem exec_store_exception {f : StoreForm} (hf : storeForm s i = some f) (hx : executes s i = true)
    (hp : s.cur < s.npe) (h : storeExcl s s.cur f.va f.bytes = .ended (takeException s s.cur c)) :
    ∃ t, exec i s = .next t ∧ exceptionTaken s t c :=
  ⟨takeException s s.cur c, by rw [exec_store hf hx, storeTo, h], exceptionTakenBy_takeException hp⟩

end Abort

end Sys2Proof.Machine
end

section
/-! PROOF. The Load-Exclusives that complete, and the exclusive accesses that abort (R120 to R130, R151, R195, R197). -/

namespace Sys2Proof.Machine

/-- Settles O18: the common step leaves the marks and the record, and the instruction adds its registers and moves on. -/
theorem loadExclusiveReadsAndMarks : Obligations.LoadExclusiveReadsAndMarks := by
  intro s i f pa attr hf hx ⟨hp, hal, htr⟩ hm hab
  have hvalue := loadExcl_plain hal htr hm hab
  obtain ⟨t, ht, hsystem, hmemory, hothers, hregs, hpe⟩ :=
    exec_load_completes hf hx hp hvalue fun x => by rw [loadMarks_frame]
  have hgm : (t.pe s.cur).gm =
      if shareable attr || choose s .id12 0 s.cur then .exclusive (block s.cfg pa) else (s.pe s.cur).gm := by
    rw [hpe]; exact loadMarks_gm ..
  refine ⟨t, ht, hsystem, hmemory, hothers, hregs, ?cpsr, ?own, fun hsh => ?shareable, fun hsh => ?nonShareable⟩
  case cpsr => rw [hpe, loadMarks_frame]; exact cpsrAdvanced_afterInstr ..
  case own => rw [hpe, loadMarks_frame]
  case shareable => simp [hgm, hsh]
  case nonShareable =>
    exact byChoice_of_choose (call := 0) (m := s.cur) (fun hmark => by simp [hgm, hmark])
      fun hkeep => by simp [hgm, hsh, hkeep]

/-- Settles O20: each abort ends the common step in an exception; the monitors of a marked location let a store reach
its write. -/
theorem abortedExclusiveHasNoEffect : Obligations.AbortedExclusiveHasNoEffect := by
  refine ⟨fun s i f hf hx hp hal => ⟨fun htr => ?loadFault, fun pa attr htr hm hab => ?read⟩,
    fun s i f hf hx hp hal => ⟨fun htr => ?storeFault, fun pa attr hr hm hmarked hab => ?write⟩⟩
  case loadFault => exact exec_load_exception hf hx hp (loadExcl_translationFault hal htr)
  case read => exact exec_load_exception hf hx hp (loadExcl_readAborts hal htr hm hab)
  case storeFault => exact exec_store_exception hf hx hp (storeExcl_translationFault hal htr)
  case write =>
    obtain ⟨-, -, htr, hpair⟩ := hr
    have hpaired := storeExcl_paired hal htr (pairMismatch_none.mpr hpair)
    exact exec_store_exception hf hx hp
      (hpaired.trans (storeChecked_writeAborts hm (monitorsPass_marked hmarked) hab))

end Sys2Proof.Machine
end

section
/-! PROOF. After CLREX no Store-Exclusive of the PE passes before it moves (R150, R160). -/

namespace Sys2Proof.Machine

/-- CLREX leaves the local monitor of its PE open, whatever becomes of the global one (R160). -/
theorem clrex_lm {s : State} {set : ISet} (hp : s.cur < s.npe) :
    ((clrex set s).pe s.cur).lm = .openAccess := by
  simp [clrex, hp]

/-- Settles O57: the local monitor that CLREX opened stays open until the PE moves, and an open one fails every
store. -/
theorem clrexFailsNextStore : Obligations.ClrexFailsNextStore := by
  intro s i hi hx hp
  exact ⟨_, exec_clrex hi hx, fun k u hrun => nextStoreFails_of_lmOpen (othersRun_lmOpen hrun (clrex_lm hp))⟩

end Sys2Proof.Machine
end

section
/-! SUPPORT. A Store-Exclusive that does not match the Load-Exclusive before it: which case it is, and what the common
step gives under each policy (R141, D10). -/

namespace Sys2Proof.Machine

/-! ## The case of a mismatched pair (log 20) -/

section Mismatch
variable {va : Word} {n : Nat} {attr : MemAttr} {r : LoadRecord}

theorem pairMismatch_of_va_ne (hva : va ≠ r.va) : pairMismatch (some r) va n attr = some (.va, r) := by
  simp [pairMismatch, hva]

theorem pairMismatch_of_size_ne (hva : va = r.va) (hn : n ≠ r.n) :
    pairMismatch (some r) va n attr = some (.size, r) := by
  simp [pairMismatch, hva, hn]

theorem pairMismatch_of_attr_ne (hva : va = r.va) (hn : n = r.n) (hattr : attr ≠ r.attr) :
    pairMismatch (some r) va n attr = some (.attr, r) := by
  simp [pairMismatch, hva, hn, hattr]

theorem exists_pairMismatch (h : ¬(va = r.va ∧ n = r.n ∧ attr = r.attr)) :
    ∃ kind, pairMismatch (some r) va n attr = some (kind, r) := by
  by_cases hva : va = r.va
  · by_cases hn : n = r.n
    · exact ⟨_, pairMismatch_of_attr_ne hva hn fun hattr => h ⟨hva, hn, hattr⟩⟩
    · exact ⟨_, pairMismatch_of_size_ne hva hn⟩
  · exact ⟨_, pairMismatch_of_va_ne hva⟩

end Mismatch

/-! ## The common step (R140 step 3, R141) -/

section Policy
variable {s : State} {p pa : Nat} {va : Word} {attr : MemAttr} {bs : List Byte} {kind : PairKind} {r : LoadRecord}

theorem storeExcl_mismatch_fault (hal : va.toNat % bs.length = 0) (htr : translate s p va .write = some (pa, attr))
    (hmis : pairMismatch (s.pe p).lx va bs.length attr = some (kind, r)) (hpol : s.cfg.pairPolicy = .fault) :
    storeExcl s p va bs = .ended (endRun s p (.unpredictablePair kind)) := by
  simp [storeExcl, hal, htr, hmis, hpol]

theorem storeExcl_mismatch_envelope (hal : va.toNat % bs.length = 0)
    (htr : translate s p va .write = some (pa, attr))
    (hmis : pairMismatch (s.pe p).lx va bs.length attr = some (kind, r)) (hpol : s.cfg.pairPolicy = .envelope) :
    storeExcl s p va bs =
      if Config.freeBool s.fresh .pairOrdinary p then storeChecked s p va pa attr bs
      else pairEnvelope s p va pa bs.length attr kind r := by
  simp [storeExcl, hal, htr, hmis, hpol]

end Policy

/-! ## A range of memory becomes UNKNOWN (R141) -/

section Scramble
variable {s : State} {p m range pa n : Nat} {attr : MemAttr}

@[simp] theorem scramble_npe : (scramble s p range pa n attr).npe = s.npe := by simp [scramble]

/-- The bytes outside the range are unchanged. -/
theorem sameMemoryOutside_scramble (hwf : memWf s.mem = true) :
    sameMemoryOutside s (scramble s p range pa n attr) pa n := fun _ ha =>
  memRead_memWriteBytes_out (bs := freeBytes s.fresh range n) hwf (by simpa using ha)

theorem memWf_scramble (hwf : memWf s.mem = true) : memWf (scramble s p range pa n attr).mem = true :=
  memWf_memWriteBytes hwf ..

/-- The write is the PE's own Store-Exclusive, so it does not observe it (R70). -/
theorem pe_scramble_self (hp : p < s.npe) : (scramble s p range pa n attr).pe p = s.pe p := by
  rw [scramble, pe_observeWrite_storeExcl _ _ _ _ _ _ (by simpa using hp), writeBytes_pe]

/-- Every other PE observes a write of the range (R70). -/
theorem observedByOther_scramble (hm : m < s.npe) (hne : m ≠ p) (h1 : 1 ≤ n) :
    observedByOther s.cfg (.pe p) pa n attr (s.pe m) ((scramble s p range pa n attr).pe m) := by
  rw [scramble, pe_observeWrite_other _ _ _ _ _ _ _ _ (by simpa using hm) (by simpa using hne.symm), writeBytes_pe]
  exact observedByOther_observeOther (s := s.writeBytes _ _) h1

/-- The effects of CU1 on PE `p`, on memory and on the other PEs: its monitors become UNKNOWN, then the data of the
Load-Exclusive `r`, then `n` bytes at the Store-Exclusive's address. -/
def scrambleBoth (s : State) (p : Nat) (r : LoadRecord) (pa n : Nat) (attr : MemAttr) : State :=
  scramble (scramble (s.updatePE p (dataAbortMonitors s.fresh p)) p 0 r.pa r.n r.attr) p 1 pa n attr

variable {r : LoadRecord}

@[simp] theorem scrambleBoth_npe : (scrambleBoth s p r pa n attr).npe = s.npe := by simp [scrambleBoth]

theorem pe_scrambleBoth_self (hp : p < s.npe) :
    (scrambleBoth s p r pa n attr).pe p = dataAbortMonitors s.fresh p (s.pe p) := by
  rw [scrambleBoth, pe_scramble_self (by simpa using hp), pe_scramble_self (by simpa using hp),
    pe_updatePE_self _ _ _ hp]

theorem memRead_scrambleBoth (hwf : memWf s.mem = true) {a : Nat} (hr : a < r.pa ∨ r.pa + r.n ≤ a)
    (ha : a < pa ∨ pa + n ≤ a) : memRead (scrambleBoth s p r pa n attr).mem a = memRead s.mem a :=
  have hwf' : memWf (s.updatePE p (dataAbortMonitors s.fresh p)).mem = true := hwf
  (sameMemoryOutside_scramble (memWf_scramble hwf') a ha).trans (sameMemoryOutside_scramble hwf' a hr)

/-- Every other PE observes a write of each range. -/
theorem observedByOther_scrambleBoth (hm : m < s.npe) (hne : m ≠ p) (hrn : 1 ≤ r.n) (h1 : 1 ≤ n) :
    ∃ z, observedByOther s.cfg (.pe p) r.pa r.n r.attr (s.pe m) z ∧
      observedByOther s.cfg (.pe p) pa n attr z ((scrambleBoth s p r pa n attr).pe m) := by
  have hfirst := observedByOther_scramble (s := s.updatePE p (dataAbortMonitors s.fresh p)) (range := 0) (pa := r.pa)
    (attr := r.attr) (by simpa using hm) hne hrn
  rw [pe_updatePE_ne _ _ _ _ hne] at hfirst
  exact ⟨_, hfirst, observedByOther_scramble (by simpa using hm) hne h1⟩

end Scramble

/-! ## A Store-Exclusive that completes with a status (R140, R152) -/

/-- A Store-Exclusive of form `f` went from `s` to `u`, its common step having left `t`: the status register, the PC and
in T32 the IT state changed, the pair is over, and everything else is as in `t`. -/
structure StatusStored (s : State) (i : Instr) (f : StoreForm) (t u : State) : Prop where
  system : sameSystem s u
  mem : u.mem = t.mem
  others : ∀ m, m ≠ s.cur → u.pe m = t.pe m
  regs : ∀ q, q ≠ f.rd → u.reg s.cur q = s.reg s.cur q
  cpsr : cpsrAdvanced i.iset (s.pe s.cur).cpsr (u.pe s.cur).cpsr
  own : u.pe s.cur =
    { s.pe s.cur with
      regs := (u.pe s.cur).regs, pc := (s.pe s.cur).pc + 1, cpsr := (u.pe s.cur).cpsr, lm := (t.pe s.cur).lm
      gm := (t.pe s.cur).gm, ev := (t.pe s.cur).ev, pair := .closed }

section Status
variable {s t : State} {i : Instr} {f : StoreForm} {pa : Nat} {attr : MemAttr} {v : Word} {ws : List (Nat × Nat)}

/-- A common step that gives a status and changed memory, other PEs, and of its own PE the monitors alone. -/
theorem statusStored_storeTo (hp : s.cur < s.npe) (h : storeExcl s s.cur f.va f.bytes = .status t v ws)
    (ht : t = { s with mem := t.mem, pes := t.pes }) (hnpe : t.npe = s.npe)
    (hown : onlyMonitors (s.pe s.cur) (t.pe s.cur)) :
    StatusStored s i f t (storeTo i.iset s f.rd f.va f.bytes) := by
  obtain ⟨hframe, -⟩ := hown
  have hu : storeTo i.iset s f.rd f.va f.bytes =
      complete i.iset ((t.updatePE s.cur closePair).setReg s.cur f.rd v) s.cur := by simp only [storeTo, h]
  have hpe : (storeTo i.iset s f.rd f.va f.bytes).pe s.cur =
      let y := closePair (t.pe s.cur)
      { y with regs := y.regs.set f.rd v, pc := y.pc + 1, cpsr := afterInstr i.iset y.cpsr } := by
    simp [hu, hnpe, hp]
  refine ⟨?system, by rw [hu]; rfl, fun m hm => by simp [hu, hm], fun q hq => ?regs, ?cpsr, ?own⟩
  case system =>
    rw [hu, ht]
    exact ⟨rfl, rfl, rfl, ((complete_npe ..).trans ((setReg_npe ..).trans (updatePE_npe ..))).trans hnpe, rfl, rfl,
      rfl⟩
  case regs =>
    have hne : (f.rd : Nat) ≠ q := fun h => hq (Fin.ext h.symm)
    rw [State.reg, hpe]
    dsimp only [closePair]
    rw [hframe]
    simp [State.reg, hne]
  case cpsr =>
    rw [hpe]
    dsimp only [closePair]
    rw [hframe]
    exact cpsrAdvanced_afterInstr ..
  case own =>
    rw [hpe]
    dsimp only [closePair]
    rw [hframe]

/-- An ordinary Store-Exclusive keeps its PE's global monitor or clears it with its event. -/
theorem storeTo_globalKept_or_cleared {b : Bool} (hp : s.cur < t.npe)
    (h : storeExcl s s.cur f.va f.bytes = .status t v ws)
    (ht : t.pe s.cur = clearGlobalIf b (clearLocal (s.pe s.cur))) :
    globalKept (s.pe s.cur) ((storeTo i.iset s f.rd f.va f.bytes).pe s.cur) ∨
      globalCleared ((storeTo i.iset s f.rd f.va f.bytes).pe s.cur) := by
  obtain ⟨hcleared, hkept, hopen⟩ := storeTo_global (i := i) hp h ht
  cases b with
  | false => exact .inl (hkept rfl)
  | true =>
    cases hgm : (s.pe s.cur).gm with
    | openAccess => exact .inl (hopen hgm)
    | exclusive g => exact .inr (hcleared rfl (by rw [hgm]; rfl))

/-- The monitors decide a Store-Exclusive that does not abort: it has settled. -/
theorem storeSettled_of_storeChecked (hp : s.cur < s.npe) (hwf : memWf s.mem = true) (h1 : 1 ≤ f.bytes.length)
    (hm : monitored s pa attr) (hab : writeAborts s pa f.bytes.length = false)
    (h : storeExcl s s.cur f.va f.bytes = storeChecked s s.cur f.va pa attr f.bytes) :
    storeSettled i f pa attr s (storeTo i.iset s f.rd f.va f.bytes) := by
  obtain ⟨b, hfails | hpasses⟩ := storeChecked_cases (p := s.cur) (va := f.va) hm hab
  · exact ⟨.inr (storeFailed_of_storeExcl hp (h.trans hfails)),
      storeTo_globalKept_or_cleared (by simpa using hp) (h.trans hfails) (pe_updatePE_self _ _ _ hp)⟩
  · exact ⟨.inl (storePassed_of_storeExcl hwf hp h1 (h.trans hpasses)),
      storeTo_globalKept_or_cleared (by simpa using hp) (h.trans hpasses) (pe_storePasses_self hp)⟩

end Status

/-! ## The envelope (R141) -/

/-- The bytes at the Store-Exclusive's address that become UNKNOWN for the same virtual address: its own, or where the
sizes differ the larger of the two (CU2, CU3). -/
def pairSize (cfg : Config) (pa n : Nat) (r : LoadRecord) : Nat :=
  if n = r.n then n else sizeInSpace cfg pa (max n r.n)

section Envelope
variable {s : State} {i : Instr} {f : StoreForm} {p pa n : Nat} {va : Word} {attr : MemAttr} {kind : PairKind}
  {r : LoadRecord}

theorem one_le_sizeInSpace {cfg : Config} {size : Nat} (hpa : pa < 2 ^ cfg.paBits) (h1 : 1 ≤ size) :
    1 ≤ sizeInSpace cfg pa size := by
  unfold sizeInSpace
  omega

theorem one_le_of_recordOk {cfg : Config} (h : recordOk cfg r = true) : 1 ≤ r.n := by
  simp only [recordOk, Bool.and_eq_true, List.contains_iff_mem, List.mem_cons, List.not_mem_nil, or_false] at h
  omega

/-- For the same virtual address (CU2, CU3) the local monitor opens and one range becomes UNKNOWN. -/
theorem pairEnvelope_sameAddress (hab : writeAborts s pa n = false) (hva : va = r.va)
    (hmis : pairMismatch (some r) va n attr = some (kind, r)) :
    ∃ v ws, pairEnvelope s p va pa n attr kind r =
      .status (scramble (s.updatePE p clearLocal) p 0 pa (pairSize s.cfg pa n r) attr) v ws := by
  refine ⟨Config.freeWord s.fresh .status p, [(pa, pairSize s.cfg pa n r)], ?_⟩
  by_cases hn : n = r.n
  · have hkind : kind = .attr := by
      simp only [pairMismatch, hva, hn, ne_eq, not_true_eq_false, if_false] at hmis
      split at hmis <;> cases hmis
      rfl
    simp only [pairEnvelope, hab, hkind, pairSize, if_pos hn, Bool.false_eq_true, if_false]
  · cases (pairMismatch_of_size_ne hva hn).symm.trans hmis
    simp [pairEnvelope, hab, pairSize, hn]

/-- For another virtual address (CU1) the monitors become UNKNOWN, and so do the data of both accesses. -/
theorem pairEnvelope_otherAddress (hab : writeAborts s pa n = false) :
    ∃ v ws, pairEnvelope s p va pa n attr .va r =
      .status (scrambleBoth s p r pa (sizeInSpace s.cfg pa (max n r.n)) attr) v ws :=
  ⟨Config.freeWord s.fresh .status p, [(r.pa, r.n), (pa, sizeInSpace s.cfg pa (max n r.n))], by
    simp only [pairEnvelope, scrambleBoth, hab, Bool.false_eq_true, if_false]⟩

theorem pairUnknown_sameAddress (hp : s.cur < s.npe) (hwf : memWf s.mem = true) (hva : f.va = r.va)
    (h1 : 1 ≤ pairSize s.cfg pa f.bytes.length r) {v : Word} {ws : List (Nat × Nat)}
    (h : storeExcl s s.cur f.va f.bytes =
      .status (scramble (s.updatePE s.cur clearLocal) s.cur 0 pa (pairSize s.cfg pa f.bytes.length r) attr) v ws) :
    pairUnknown i f pa attr r s (storeTo i.iset s f.rd f.va f.bytes) := by
  have hp' : s.cur < (s.updatePE s.cur clearLocal).npe := by simpa using hp
  have hself := (pe_scramble_self (range := 0) (pa := pa) (n := pairSize s.cfg pa f.bytes.length r) (attr := attr)
    hp').trans (pe_updatePE_self _ _ _ hp)
  have hst := statusStored_storeTo (i := i) hp h rfl (scramble_npe.trans (updatePE_npe ..))
    (hself ▸ (onlyCleared_clearLocal _).1)
  rw [pairUnknown]
  refine ⟨hst.system, hst.regs, hst.cpsr, ?own, ?effects⟩
  case own => rw [hst.own]
  case effects =>
    rw [if_pos hva, hst.own, hself, sameMemoryOutside, hst.mem]
    refine ⟨rfl, ⟨rfl, rfl⟩, sameMemoryOutside_scramble hwf, fun m hm hne => ?_⟩
    rw [hst.others m hne]
    have hobs := observedByOther_scramble (range := 0) (pa := pa) (attr := attr)
      (s := s.updatePE s.cur clearLocal) (m := m) (by simpa using hm) hne h1
    rwa [pe_updatePE_ne _ _ _ _ hne] at hobs

theorem pairUnknown_otherAddress (hp : s.cur < s.npe) (hwf : memWf s.mem = true) (hva : f.va ≠ r.va)
    (hrn : 1 ≤ r.n) (h1 : 1 ≤ sizeInSpace s.cfg pa (max f.bytes.length r.n)) {v : Word} {ws : List (Nat × Nat)}
    (h : storeExcl s s.cur f.va f.bytes =
      .status (scrambleBoth s s.cur r pa (sizeInSpace s.cfg pa (max f.bytes.length r.n)) attr) v ws) :
    pairUnknown i f pa attr r s (storeTo i.iset s f.rd f.va f.bytes) := by
  have hst := statusStored_storeTo (i := i) hp h rfl scrambleBoth_npe
    (pe_scrambleBoth_self hp ▸ onlyMonitors_dataAbortMonitors ..)
  rw [pairUnknown]
  refine ⟨hst.system, hst.regs, hst.cpsr, ?own, ?effects⟩
  case own => rw [hst.own]
  case effects =>
    rw [if_neg hva, hst.own, pe_scrambleBoth_self hp, hst.mem]
    obtain ⟨hevent, hheld⟩ := leavesEvent_dataAbortMonitors (x := s.pe s.cur) s.fresh s.cur
    refine ⟨hevent, hheld, fun a hr ha => memRead_scrambleBoth hwf hr ha, fun m hm hne => ?_⟩
    rw [hst.others m hne]
    exact observedByOther_scrambleBoth hm hne hrn h1

end Envelope

end Sys2Proof.Machine
end

section
/-! PROOF. The mismatched pairs under the two policies (R141, D10). -/

namespace Sys2Proof.Machine

/-- A mismatched pair under the policy `fault`, whichever case it is. -/
theorem exec_store_mismatchFault {s : State} {i : Instr} {f : StoreForm} {pa : Nat} {attr : MemAttr} {r : LoadRecord}
    {kind : PairKind} (hf : storeForm s i = some f) (hx : executes s i = true) (hp : s.cur < s.npe)
    (hal : f.va.toNat % f.bytes.length = 0) (htr : translate s s.cur f.va .write = some (pa, attr))
    (hmis : pairMismatch (s.pe s.cur).lx f.va f.bytes.length attr = some (kind, r)) (hpol : s.cfg.pairPolicy = .fault) :
    ∃ t, exec i s = .next t ∧ runEndedBy s t (.unpredictablePair kind) := by
  refine ⟨_, exec_store hf hx, ?_⟩
  rw [storeTo, storeExcl_mismatch_fault hal htr hmis hpol]
  exact runEndedBy_endRun hp

/-- Settles O28: the pairing test names the case, and the policy ends the run with it. -/
theorem mismatchedPairFaults : Obligations.MismatchedPairFaults := by
  intro s i f pa attr r hf hx hp hal htr hlx hpol
  have ends : ∀ kind, pairMismatch (some r) f.va f.bytes.length attr = some (kind, r) →
      ∃ t, exec i s = .next t ∧ runEndedBy s t (.unpredictablePair kind) := fun kind hmis =>
    exec_store_mismatchFault hf hx hp hal htr (hlx ▸ hmis) hpol
  exact ⟨fun hva => ends _ (pairMismatch_of_va_ne hva), fun hva hn => ends _ (pairMismatch_of_size_ne hva hn),
    fun hva hn hattr => ends _ (pairMismatch_of_attr_ne hva hn hattr)⟩

/-- Settles O29: a free choice takes the ordinary outcome, which the monitors decide, or the one of R141, that of
the same virtual address or of another. -/
theorem mismatchedPairEnvelope : Obligations.MismatchedPairEnvelope := by
  intro s i f pa attr r hf hx hwf hp hal htr hlx hrec hpol hmis hm hab
  refine ⟨_, exec_store hf hx, ?_⟩
  have h1 : 1 ≤ f.bytes.length := by have hsize := storeForm_size hf; omega
  have hwide : 1 ≤ sizeInSpace s.cfg pa (max f.bytes.length r.n) :=
    one_le_sizeInSpace (translate_some htr).1 (le_max_of_le_left h1)
  obtain ⟨kind, hkind⟩ := exists_pairMismatch hmis
  have hstore := storeExcl_mismatch_envelope hal htr (hlx ▸ hkind) hpol
  split at hstore
  · exact .inl (storeSettled_of_storeChecked hp hwf h1 hm hab hstore)
  right
  by_cases hva : f.va = r.va
  · obtain ⟨v, ws, henv⟩ := pairEnvelope_sameAddress (p := s.cur) hab hva hkind
    have hsize : 1 ≤ pairSize s.cfg pa f.bytes.length r := by unfold pairSize; split <;> assumption
    exact pairUnknown_sameAddress hp hwf hva hsize (hstore.trans henv)
  · cases (pairMismatch_of_va_ne hva).symm.trans hkind
    obtain ⟨v, ws, henv⟩ := pairEnvelope_otherAddress (p := s.cur) (va := f.va) (attr := attr) (r := r) hab
    exact pairUnknown_otherAddress hp hwf hva (one_le_of_recordOk hrec) hwide (hstore.trans henv)

end Sys2Proof.Machine
end

section
/-! SUPPORT. The end of an instruction that works on PEs alone: what it leaves unchanged, and the executing PE after it
(R160, R163 to R166). -/

namespace Sys2Proof.Machine

/-! ## Only PEs change -/

/-- From `s` to `u` nothing changed but PEs, and no PE was added or removed. -/
structure OnlyPEs (s u : State) : Prop where
  system : u = { s with pes := u.pes }
  npe : u.npe = s.npe

theorem onlyPEs_refl (s : State) : OnlyPEs s s := ⟨rfl, rfl⟩

theorem onlyPEs_updatePE (s : State) (p : Nat) (f : PE → PE) : OnlyPEs s (s.updatePE p f) := ⟨rfl, updatePE_npe ..⟩

theorem onlyPEs_updateAll (s : State) (g : Nat → PE → PE) : OnlyPEs s (s.updateAll g) := ⟨rfl, updateAll_npe ..⟩

section Complete
variable {s u : State} {p : Nat} {set : ISet}

theorem OnlyPEs.sameSystem_complete (h : OnlyPEs s u) : sameSystem s (complete set u p) := by
  rw [h.system]
  exact ⟨rfl, rfl, rfl, (complete_npe ..).trans (h.system ▸ h.npe), rfl, rfl, rfl⟩

theorem OnlyPEs.sameMemory_complete (h : OnlyPEs s u) : sameMemory s (complete set u p) := by
  rw [h.system]
  exact fun _ => rfl

theorem sameOthers_complete (h : sameOthers s u p) : sameOthers s (complete set u p) p := fun m hm =>
  (pe_complete_ne _ _ _ _ hm).trans (h m hm)

theorem sameOthers_complete_updatePE (f : PE → PE) : sameOthers s (complete set (s.updatePE p f) p) p :=
  sameOthers_complete fun _ hm => pe_updatePE_ne _ _ _ _ hm

/-- An instruction that left `ev` in the Event register of its PE, and of that PE changed nothing else, ends as an event
instruction does. -/
theorem OnlyPEs.eventFrame_complete {i : Instr} {ev : Bool} (h : OnlyPEs s u) (hp : s.cur < s.npe)
    (hown : u.pe s.cur = { s.pe s.cur with ev := ev }) : eventFrame i s (complete i.iset u s.cur) ev := by
  have hpe := pe_complete_self u s.cur i.iset (h.npe ▸ hp)
  rw [hown] at hpe
  refine ⟨h.sameSystem_complete, h.sameMemory_complete, ?_, ?_⟩ <;> rw [hpe]
  exact cpsrAdvanced_afterInstr ..

end Complete

/-! ## The executing PE after CLREX (R160) -/

theorem clearGlobalIf_clearLocal (b : Bool) (x : PE) :
    clearGlobalIf b (clearLocal x) =
      { x with lm := .openAccess, gm := (clearGlobalIf b x).gm, ev := (clearGlobalIf b x).ev } := by
  cases hg : x.gm <;> cases b <;> simp [clearGlobalIf, clearGlobal, clearLocal, hg]

theorem pe_clrex {s : State} {set : ISet} (hp : s.cur < s.npe) :
    (clrex set s).pe s.cur =
      let x := s.pe s.cur
      let cleared := clearGlobalIf (choose s .id10 0 s.cur) x
      { x with
        pc := x.pc + 1, cpsr := afterInstr set x.cpsr, lm := .openAccess, gm := cleared.gm, ev := cleared.ev } := by
  rw [clrex, pe_complete_self _ _ _ (by simpa using hp), pe_updatePE_self _ _ _ hp, clearGlobalIf_clearLocal]

/-! ## The three ways of WFE (R163, log 25) -/

section Wait
variable {s : State} {set : ISet}

theorem waitForEvent_held (h : (s.pe s.cur).ev = true) :
    waitForEvent set s = complete set (s.updatePE s.cur fun x => { x with ev := false }) s.cur := if_pos h

/-- Without an event WFE completes or holds. -/
theorem waitForEvent_none (h : (s.pe s.cur).ev = false) :
    waitForEvent set s = complete set s s.cur ∨ waitForEvent set s = s.tick := by
  rw [waitForEvent, if_neg (by simp [h])]
  exact ite_eq_or_eq ..

end Wait

end Sys2Proof.Machine
end

section
/-! PROOF. CLREX, and the event instructions WFE, SEV and SEVL (R160, R163 to R166, D17). -/

namespace Sys2Proof.Machine

/-- Settles O30: CLREX clears within its PE and completes; what becomes of the global monitor is the conditional clear
that ID10 decides. -/
theorem clrexClearsLocal : Obligations.ClrexClearsLocal := by
  intro s i hi hx hp
  have honly := onlyPEs_updatePE s s.cur fun x => clearGlobalIf (choose s .id10 0 s.cur) (clearLocal x)
  refine ⟨_, exec_clrex hi hx, honly.sameSystem_complete, honly.sameMemory_complete, sameOthers_complete_updatePE _, ?_⟩
  rw [pe_clrex hp]
  refine ⟨cpsrAdvanced_afterInstr .., rfl, fun hset => ?set, fun hopen => ?opened⟩
  case set => exact byChoice_of_choose (globalCleared_clearGlobalIf hset) globalKept_clearGlobalIf
  case opened => exact globalKept_clearGlobalIf_open hopen

/-- Settles O31: a held event is taken; without one the instruction completes on the state as it is, or the step passes
and the PE stays at the WFE. -/
theorem waitForEventTakesOrHolds : Obligations.WaitForEventTakesOrHolds := by
  intro s i hi hx hp
  refine ⟨fun hev => ⟨_, exec_wfe hi hx, ?_⟩, fun hev => ⟨_, exec_wfe hi hx, ?_⟩⟩
  · rw [waitForEvent_held hev]
    exact ⟨sameOthers_complete_updatePE _,
      (onlyPEs_updatePE ..).eventFrame_complete hp (pe_updatePE_self _ _ _ hp)⟩
  · have hown : s.pe s.cur = { s.pe s.cur with ev := false } := by rw [← hev]
    rcases waitForEvent_none (set := i.iset) hev with hdone | hhold
    · rw [hdone]
      exact ⟨sameOthers_complete fun _ _ => rfl, .inl ((onlyPEs_refl s).eventFrame_complete hp hown)⟩
    · rw [hhold]
      exact ⟨fun _ _ => rfl, .inr ⟨⟨rfl, rfl, rfl, rfl, rfl, rfl, rfl⟩, fun _ => rfl, rfl⟩⟩

/-- Settles O32: the event is given to every PE before the executing one completes. -/
theorem sendEventReachesAll : Obligations.SendEventReachesAll := by
  intro s i hi hx hp
  refine ⟨_, exec_sev hi hx, (onlyPEs_updateAll ..).eventFrame_complete hp (pe_updateAll _ _ _ hp), fun m hm hne => ?_⟩
  exact (pe_complete_ne _ _ _ _ hne).trans (pe_updateAll _ _ _ hm)

/-- Settles O33: the event is given to the executing PE alone. -/
theorem sendEventLocalReachesSelf : Obligations.SendEventLocalReachesSelf := fun _ _ hi hx hp =>
  ⟨_, exec_sevl hi hx, sameOthers_complete_updatePE _,
    (onlyPEs_updatePE ..).eventFrame_complete hp (pe_updatePE_self _ _ _ hp)⟩

end Sys2Proof.Machine
end

section
/-! SUPPORT. The other operations: a step that works on PEs alone, what maintenance leaves of each PE, the plain
accesses that abort, and the record of a pair whose address moves and is written (R170 to R178, R235). -/

namespace Sys2Proof.Machine

/-! ## A step that works on PEs alone -/

section Step
variable {s u : State}

theorem OnlyPEs.sameSystem_tick (h : OnlyPEs s u) : sameSystem s u.tick := by
  rw [h.system]
  exact ⟨rfl, rfl, rfl, h.npe, rfl, rfl, rfl⟩

theorem OnlyPEs.sameMemory_tick (h : OnlyPEs s u) : sameMemory s u.tick := by
  rw [h.system]
  exact fun _ => rfl

/-- Every PE after an update of all, a number that is no PE's among them. -/
theorem pe_updateAll_eq (s : State) (g : Nat → PE → PE) (m : Nat) :
    (s.updateAll g).pe m = if m < s.npe then g m (s.pe m) else s.pe m := by
  split
  · rename_i hm
    exact pe_updateAll _ _ _ hm
  · rename_i hm
    have hbeyond : s.pes.length ≤ m := Nat.le_of_not_lt hm
    simp [State.pe, State.updateAll, hbeyond]

end Step

/-! ## The monitor environment (R178) -/

theorem spontaneous_next {s : State} {m : Nat} {f : PE → PE} (hm : m < s.npe) :
    spontaneous s m f = .next (s.updatePE m f).tick := if_pos hm

theorem clearGlobal_eq (x : PE) : clearGlobal x = { x with gm := .openAccess, ev := x.ev || x.gm.isSet } := by
  unfold clearGlobal
  cases hg : x.gm with
  | openAccess => simp [Monitor.isSet, ← hg]
  | exclusive g => simp [Monitor.isSet]

/-! ## Monitors that maintenance may clear (R174 to R177) -/

/-- The global monitor of a PE, and the local one where it holds a PA, were left alone unless they mark block `b`. -/
def keptOffBlock (cfg : Config) (b : Nat) (x y : PE) : Prop :=
  (x.gm ≠ .exclusive b → globalKept x y) ∧
    (cfg.localHoldsPA = true → x.lm ≠ .exclusive b → y.lm = x.lm)

section MayClear
variable {cfg : Config} {n m b : Nat} {l g : Bool} {x : PE}

@[simp] theorem mayClear_none : mayClear n m false false x = x := by
  simp [mayClear, clearGlobalIf_eq, clearLocalIf]

theorem mayClear_lm (hl : l = false) : (mayClear n m l g x).lm = x.lm := by
  simp [mayClear, clearLocalIf, hl]

theorem globalKept_mayClear (hg : g = false) : globalKept x (mayClear n m l g x) := by
  simp [mayClear, globalKept, clearGlobalIf_eq, hg]

theorem keptOffBlock_refl : keptOffBlock cfg b x x := ⟨fun _ => globalKept_refl, fun _ _ => rfl⟩

theorem keptOffBlock_mayClear : keptOffBlock cfg b x (mayClear n m (localMarks cfg x b) (globalMarks x b) x) :=
  ⟨fun hg => globalKept_mayClear (by simp [globalMarks, hg]),
    fun hpa hl => mayClear_lm (by simp [localMarks, hpa, hl])⟩

end MayClear

section Maintenance
variable {s : State} {q m pa : Nat} {va : Word} {attr : MemAttr}

theorem preloadWrite_none (h : translate s q va .write = none) : preloadWrite s q va = s.tick := by
  simp [preloadWrite, h]

theorem preloadWrite_some (h : translate s q va .write = some (pa, attr)) :
    preloadWrite s q va = (s.updateAll fun m x =>
      if m = q then x
      else mayClear s.fresh m (localMarks s.cfg x (block s.cfg pa)) (globalMarks x (block s.cfg pa)) x).tick := by
  simp [preloadWrite, h]

theorem instrCacheInvalidateVA_none (h : translate s q va .read = none) : instrCacheInvalidateVA s q va = s.tick := by
  simp [instrCacheInvalidateVA, h]

theorem instrCacheInvalidateVA_some (h : translate s q va .read = some (pa, attr)) :
    instrCacheInvalidateVA s q va = (s.updateAll fun m x =>
      mayClear s.fresh m (localMarks s.cfg x (block s.cfg pa)) (globalMarks x (block s.cfg pa)) x).tick := by
  simp [instrCacheInvalidateVA, h]

theorem preloadWrite_onlyPEs (s : State) (q : Nat) (va : Word) : ∃ u, OnlyPEs s u ∧ preloadWrite s q va = u.tick := by
  cases h : translate s q va .write with
  | none => exact ⟨s, onlyPEs_refl s, preloadWrite_none h⟩
  | some target => exact ⟨_, onlyPEs_updateAll .., preloadWrite_some h⟩

theorem instrCacheInvalidateVA_onlyPEs (s : State) (q : Nat) (va : Word) :
    ∃ u, OnlyPEs s u ∧ instrCacheInvalidateVA s q va = u.tick := by
  cases h : translate s q va .read with
  | none => exact ⟨s, onlyPEs_refl s, instrCacheInvalidateVA_none h⟩
  | some target => exact ⟨_, onlyPEs_updateAll .., instrCacheInvalidateVA_some h⟩

/-- A PLDW leaves its own PE alone (R174). -/
theorem preloadWrite_pe_self (s : State) (q : Nat) (va : Word) : (preloadWrite s q va).pe q = s.pe q := by
  cases h : translate s q va .write with
  | none => rw [preloadWrite_none h, tick_pe]
  | some target => simp [preloadWrite_some h, pe_updateAll_eq]

theorem preloadWrite_keptOffBlock (h : translate s q va .write = some (pa, attr)) (m : Nat) :
    keptOffBlock s.cfg (block s.cfg pa) (s.pe m) ((preloadWrite s q va).pe m) := by
  rw [preloadWrite_some h, tick_pe, pe_updateAll_eq]
  split
  · split
    · exact keptOffBlock_refl
    · exact keptOffBlock_mayClear
  · exact keptOffBlock_refl

theorem instrCacheInvalidateVA_keptOffBlock (h : translate s q va .read = some (pa, attr)) (m : Nat) :
    keptOffBlock s.cfg (block s.cfg pa) (s.pe m) ((instrCacheInvalidateVA s q va).pe m) := by
  rw [instrCacheInvalidateVA_some h, tick_pe, pe_updateAll_eq]
  split
  · exact keptOffBlock_mayClear
  · exact keptOffBlock_refl

/-- Data cache maintenance leaves another PE alone that is outside the domain of the location, of any location for
maintenance by set/way (R175). -/
theorem dataCacheMaintenance_pe_ne {target : CacheTarget} (hm : m ≠ q)
    (hout : ∀ pa, target = .address pa → inDomain s.cfg (.pe m) pa (attrAt s pa) = false) :
    (dataCacheMaintenance s q target).pe m = s.pe m := by
  have hne : (m == q) = false := beq_false_of_ne hm
  rw [dataCacheMaintenance, tick_pe, pe_updateAll_eq]
  cases target with
  | address pa => simp [hne, hout pa rfl]
  | setWayOrAll => simp [hne]

end Maintenance

/-! ## A changed translation (R177, R235, D21) -/

section Remap
variable {s : State} {maps : List Mapping} {p : Nat} {va : Word} {x : PE}

theorem changeTranslation_breakBeforeMake (h : maps.all mappingOk = true) :
    changeTranslation s maps true = .next (tlbInvalidation { s.updateAll (noteMove s maps) with xlat := maps }) := by
  simp [changeTranslation, h]

theorem changeTranslation_kept (h : maps.all mappingOk = true) (hkeep : keepsOutstanding s maps = true) :
    changeTranslation s maps false = .next (State.tick { s with xlat := maps }) := by
  simp [changeTranslation, h, hkeep]

theorem changeTranslation_refused (h : maps.all mappingOk = true) (hkeep : keepsOutstanding s maps = false) :
    changeTranslation s maps false = .refused .translationChanged := by
  simp [changeTranslation, h, hkeep]

theorem retranslated_eq_false_iff :
    retranslated s maps p va = false ↔ ∀ kind, translateBy s maps p va kind = translate s p va kind := by
  simp only [retranslated, Bool.or_eq_false_iff, bne_eq_false_iff_eq]
  refine ⟨fun ⟨hread, hwrite⟩ kind => ?_, fun h => ⟨h .read, h .write⟩⟩
  cases kind with
  | read => exact hread
  | write => exact hwrite

theorem keepsOutstanding_iff :
    keepsOutstanding s maps = true ↔ ∀ p va, p < s.npe → (s.pe p).ended = none → (s.pe p).pair.address = some va →
      ∀ kind, translateBy s maps p va kind = translate s p va kind := by
  simp only [← retranslated_eq_false_iff, keepsOutstanding, List.all_eq_true, List.mem_range, Bool.or_eq_true,
    Option.all_eq_true, Bool.not_eq_true', Option.isSome_iff_ne_none, or_iff_not_imp_left, ne_eq, not_not]
  exact ⟨fun h p va hp he => h p hp he va, fun h p hp he va => h p va hp he⟩

theorem noteMove_moved (ha : x.pair.address = some va)
    (hne : (translateBy s maps p va .write).map (·.1) ≠ (translate s p va .write).map (·.1)) :
    noteMove s maps p x = { x with pair := .moved va } := by
  simp only [noteMove, ha, if_neg hne]

end Remap

/-! ## What the record of a pair notes (R177, log 24) -/

section Pair
variable {s : State} {x : PE}

@[simp] theorem clearLocalIf_pair (b : Bool) (x : PE) : (clearLocalIf b x).pair = x.pair := by cases b <;> rfl

@[simp] theorem clearGlobalIf_pair (b : Bool) (x : PE) : (clearGlobalIf b x).pair = x.pair := by
  cases hg : x.gm <;> cases b <;> simp [clearGlobalIf, clearGlobal, hg]

@[simp] theorem mayClear_pair (n m : Nat) (l g : Bool) (x : PE) : (mayClear n m l g x).pair = x.pair := by
  simp [mayClear]

/-- A write to the block of the new physical address of a moved pair is noted. -/
theorem noteWrite_written {wpa n m pa : Nat} {va : Word} {attr : MemAttr} (hx : x.pair = .moved va)
    (htr : translate s m va .write = some (pa, attr)) (ht : touches s.cfg wpa n (block s.cfg pa)) :
    (noteWrite s wpa n m x).pair = .written va := by
  simp [noteWrite, hx, htr, inBlocks_of_touches ht]

/-- A moved and written pair lets no Store-Exclusive of its address pass the local monitor (R235). -/
theorem localPasses_written {p pa : Nat} {va : Word} {attr : MemAttr} (h : (s.pe p).pair = .written va)
    (hguard : shareable attr = true ∨ s.cfg.localHoldsPA = true) : localPasses s p va pa attr = false := by
  have hbarred : movedAndWritten s p va attr = true := by simp [movedAndWritten, h, hguard]
  simp [localPasses, hbarred]

end Pair

/-! ## The aborts of the plain accesses (R170 to R172) -/

section Abort
variable {s : State} {p pa n : Nat} {va : Word} {attr : MemAttr}

theorem plainStore_translationFault {v : BitVec 64} (h1 : 1 ≤ n) (h8 : n ≤ 8)
    (htr : translate s p va .write = none) :
    plainStore s p va n v = .next (takeException s p (.translationFault va)) := by
  simp [plainStore, storeSizeOk, h1, h8, htr]

theorem plainStore_writeAborts {v : BitVec 64} (h1 : 1 ≤ n) (h8 : n ≤ 8)
    (htr : translate s p va .write = some (pa, attr)) (hin : inSpace s.cfg pa n = true)
    (hab : writeAborts s pa n = true) : plainStore s p va n v = .next (takeException s p (.externalAbort va)) := by
  simp [plainStore, storeSizeOk, h1, h8, htr, hin, hab]

theorem plainLoad_translationFault (h1 : 1 ≤ n) (htr : translate s p va .read = none) :
    plainLoad s p va n = .next (takeException s p (.translationFault va)) := by
  simp [plainLoad, show 0 < n from h1, htr]

theorem plainLoad_readAborts (h1 : 1 ≤ n) (htr : translate s p va .read = some (pa, attr))
    (hin : inSpace s.cfg pa n = true) (hab : readAborts s pa n = true) :
    plainLoad s p va n = .next (takeException s p (.externalAbort va)) := by
  simp [plainLoad, show 0 < n from h1, htr, hin, hab]

theorem observerWrites_aborts {k v : Nat} (h1 : 1 ≤ n) (hin : inSpace s.cfg pa n = true)
    (hab : writeAborts s pa n = true) : observerWrites s k pa n v = .next s.tick := by
  simp [observerWrites, show 0 < n from h1, hin, hab]

end Abort

end Sys2Proof.Machine
end

section
/-! PROOF. Maintenance, the monitor environment, changed translations and the plain accesses that abort (R170 to R178,
R195, R197, R235, D21). -/

namespace Sys2Proof.Machine

/-- Settles O39: each operation is an update of the PEs by clears that a free Boolean allows; whether a monitor is
concerned depends on its mark (PLDW, invalidation by address) or on its PE (data cache maintenance). -/
theorem maintenanceOnlyClears : Obligations.MaintenanceOnlyClears := by
  intro s q hq he
  have runs : ∀ {o : StepOutcome}, byPE s q o = o := byPE_running hq he
  have clears : ∀ {a u}, actorOf a = none → perform s a = .next (State.tick u) → OnlyPEs s u →
      ∃ t, perform s a = .next t ∧ sameSystem s t ∧ sameMemory s t ∧ ∀ m, onlyCleared (s.pe m) (t.pe m) :=
    fun ha h hu => ⟨_, h, hu.sameSystem_tick, hu.sameMemory_tick, perform_clears ha h⟩
  refine ⟨fun a ha => ?each, fun va => ⟨_, runs, preloadWrite_pe_self s q va⟩,
    fun va pa attr => ⟨fun htr => ⟨_, runs, preloadWrite_keptOffBlock htr⟩,
      fun htr => ⟨_, runs, instrCacheInvalidateVA_keptOffBlock htr⟩⟩,
    fun va => ⟨fun htr => ⟨_, runs, fun m => ?pldwFault⟩, fun htr => ⟨_, runs, fun m => ?icacheFault⟩⟩,
    ⟨_, runs, fun m hm => dataCacheMaintenance_pe_ne hm nofun⟩, fun pa => ⟨_, runs, fun m hm hout => ?domain⟩⟩
  case each =>
    rcases ha with rfl | rfl | ⟨va, rfl⟩ | ⟨va, rfl⟩ | ⟨target, rfl⟩
    · exact clears rfl runs (onlyPEs_updateAll ..)
    · exact clears rfl runs (onlyPEs_updateAll ..)
    · obtain ⟨u, hu, h⟩ := preloadWrite_onlyPEs s q va
      exact clears rfl (runs.trans (congrArg _ h)) hu
    · obtain ⟨u, hu, h⟩ := instrCacheInvalidateVA_onlyPEs s q va
      exact clears rfl (runs.trans (congrArg _ h)) hu
    · exact clears rfl runs (onlyPEs_updateAll ..)
  case pldwFault => rw [preloadWrite_none htr, tick_pe]
  case icacheFault => rw [instrCacheInvalidateVA_none htr, tick_pe]
  case domain => exact dataCacheMaintenance_pe_ne hm fun _ h => by cases h; exact hout

/-- Settles O41: a break-before-make sequence installs the mappings and ends in a TLB invalidation; without one the
mappings are installed exactly where they keep every outstanding pair. -/
theorem changedTranslation : Obligations.ChangedTranslation := by
  intro s maps hok
  refine ⟨?sequence, fun hkeep => ?kept, fun ⟨p, va, kind, hp, he, ha, hne⟩ => ?moved⟩
  case sequence =>
    have hnext := changeTranslation_breakBeforeMake (s := s) hok
    exact ⟨_, hnext, rfl, fun _ => rfl, clears_changeTranslation hnext⟩
  case kept => exact changeTranslation_kept hok (keepsOutstanding_iff.mpr hkeep)
  case moved =>
    exact changeTranslation_refused hok
      (Bool.eq_false_iff.mpr fun h => hne (keepsOutstanding_iff.mp h p va hp he ha kind))

/-- Settles O42: the sequence notes the move, an observed write to the new block notes the write, and with both noted
the local check fails. -/
theorem movedAndWrittenFailsStore : Obligations.MovedAndWrittenFailsStore := by
  refine ⟨?moved, ?written, ?fails⟩
  case moved =>
    intro s maps p pa va attr hok hp ha hnew hold
    have hmove : noteMove s maps p (s.pe p) = { s.pe p with pair := .moved va } :=
      noteMove_moved ha (by rw [hnew]; exact hold.symm)
    refine ⟨_, changeTranslation_breakBeforeMake hok, ?_, hnew⟩
    rw [tlbInvalidation, tick_pe, pe_updateAll _ _ _ ((updateAll_npe ..).symm ▸ hp), mayClear_pair]
    exact congrArg PE.pair ((pe_updateAll _ _ _ hp).trans hmove)
  case written =>
    intro s call o wpa n kind wattr p pa va attr hp _ hpair htr ht hno
    rw [observeWrite, pe_updateAll _ _ _ hp]
    split
    · rename_i ho
      cases kind with
      | storeExcl => exact absurd ⟨ho, rfl⟩ hno
      | store => exact noteWrite_written (by simpa using hpair) htr ht
    · exact noteWrite_written (by simpa using hpair) htr ht
  case fails =>
    intro s i f pa attr hf hx hr hm hpair hguard
    have hlocal : localPasses s s.cur f.va pa attr = false := localPasses_written hpair hguard
    have hpass : monitorsPass s s.cur f.va pa attr = false := by simp [monitorsPass, hlocal]
    obtain ⟨t, ht, hout⟩ := exec_store_outcome hf hx hr hm fun h => by rw [hpass] at h; cases h
    exact ⟨t, ht, hout.failed hpass, hout.kept (by simp [clearsOwnGlobal, hlocal])⟩

/-- Settles O45: each abort of a PE's access is an exception of that PE; an observer's write that aborts is a step of
the counter alone. -/
theorem plainAccessAborts : Obligations.PlainAccessAborts := by
  refine ⟨fun s p va n hp he h1 => ?access, fun s k pa n v hk h1 hin hab => ?observer⟩
  case access =>
    have takes : ∀ {a : Action} {o : StepOutcome} {c : EndCause}, perform s a = byPE s p o →
        o = .next (takeException s p c) → ∃ t, perform s a = .next t ∧ exceptionTakenBy s t p c :=
      fun ha ho => ⟨_, ha.trans ((byPE_running hp he).trans ho), exceptionTakenBy_takeException hp⟩
    exact ⟨fun v h8 htr => takes rfl (plainStore_translationFault h1 h8 htr),
      fun v pa attr h8 htr hin hab => takes rfl (plainStore_writeAborts h1 h8 htr hin hab),
      fun htr => takes rfl (plainLoad_translationFault h1 htr),
      fun pa attr htr hin hab => takes rfl (plainLoad_readAborts h1 htr hin hab)⟩
  case observer =>
    exact ⟨_, (byObserver_present hk).trans (observerWrites_aborts h1 hin hab), (onlyPEs_refl s).sameSystem_tick,
      (onlyPEs_refl s).sameMemory_tick, fun _ => rfl⟩

/-- Settles O40: both are an update of one PE, by the two clears. -/
theorem spontaneousClears : Obligations.SpontaneousClears := by
  intro s m hm
  have opens : ∀ {f : PE → PE} {y : PE}, f (s.pe m) = y → ∃ t, spontaneous s m f = .next t ∧ sameSystem s t ∧
      sameMemory s t ∧ sameOthers s t m ∧ t.pe m = y := fun {f _} hf =>
    have honly := onlyPEs_updatePE s m f
    ⟨_, spontaneous_next hm, honly.sameSystem_tick, honly.sameMemory_tick, fun _ hne => pe_updatePE_ne _ _ _ _ hne,
      (pe_updatePE_self _ _ _ hm).trans hf⟩
  exact ⟨opens rfl, opens (clearGlobal_eq _)⟩

end Sys2Proof.Machine
end

section
/-! SUPPORT. The actions that update one PE, the report of the IMPLEMENTATION DEFINED MMU fault, and where a global
monitor is implemented (R161, R190, R192, R195, R196). -/

namespace Sys2Proof.Machine

/-! ## An action that updates one PE -/

/-- An action that updates PE `p` changes no other PE, no memory and nothing of the system. -/
theorem perform_updatePE {s : State} {p : Nat} {a : Action} {g : PE → PE} (hp : p < s.npe)
    (h : perform s a = .next (s.updatePE p g).tick) :
    ∃ t, perform s a = .next t ∧ sameSystem s t ∧ sameMemory s t ∧ sameOthers s t p ∧ t.pe p = g (s.pe p) :=
  have honly := onlyPEs_updatePE s p g
  ⟨_, h, honly.sameSystem_tick, honly.sameMemory_tick, fun _ hm => pe_updatePE_ne _ _ _ _ hm, pe_updatePE_self _ _ _ hp⟩

section Actions
variable {s : State} {p : Nat} {lx : Option LoadRecord} {pair : PairStatus}

theorem perform_takeDataAbort (hp : p < s.npe) (he : (s.pe p).ended = none) :
    perform s (.takeDataAbort p) = .next (s.updatePE p (dataAbortMonitors s.fresh p)).tick := byPE_running hp he

/-- A return to the same thread (R196). -/
theorem perform_exceptionReturn (hp : p < s.npe) (he : (s.pe p).ended = none) :
    perform s (.exceptionReturn p) =
      .next (s.updatePE p fun x => installRecord (s.pe p).lx (s.pe p).pair (clearLocal x)).tick := byPE_running hp he

/-- A return to another thread (R196, R26). -/
theorem perform_exceptionReturnTo (hp : p < s.npe) (he : (s.pe p).ended = none) (hlx : threadOk s.cfg lx = true) :
    perform s (.exceptionReturnTo p lx pair) =
      .next (s.updatePE p fun x => installRecord lx pair (clearLocal x)).tick :=
  (byPE_running hp he).trans (if_pos hlx)

/-- A thread switch without an exception return (R161). -/
theorem perform_installThread (hp : p < s.npe) (he : (s.pe p).ended = none) (hlx : threadOk s.cfg lx = true) :
    perform s (.installThread p lx pair) = .next (s.updatePE p (installRecord lx pair)).tick :=
  (byPE_running hp he).trans (if_pos hlx)

end Actions

/-! ## The report of a fault (R192, GK5) -/

section Report
variable (w : Word) {cfg : Config} {n : Nat} {va : Word} {x : PE}

@[simp] theorem extractLsb'_withLow6 (v : BitVec 6) : (withLow6 w v).extractLsb' 0 6 = v := by
  apply BitVec.eq_of_getLsbD_eq
  intro i hi
  simp only [withLow6, BitVec.getLsbD_extractLsb', BitVec.getLsbD_append]
  simp [hi]

/-- The field DFSR.FS: bit 10 and bits [3:0]. -/
@[simp] theorem extractLsb'_withFS (v : BitVec 5) :
    (withFS w v).extractLsb' 10 1 ++ (withFS w v).extractLsb' 0 4 = v := by
  apply BitVec.eq_of_getLsbD_eq
  intro i hi
  simp only [withFS, BitVec.getLsbD_append, BitVec.getLsbD_extractLsb']
  interval_cases i <;> simp

/-- The report to EL1 in the Long-descriptor format. -/
theorem reportFault_el1_long (h : cfg.longDescriptor = true) :
    reportFault cfg n (.implDefMMUFault va .el1) x =
      { x with dfsr := withLow6 (Config.freeWord n .report 0) mmuFaultStatus, dfar := va } := if_pos h

/-- The report to EL1 in the Short-descriptor format. -/
theorem reportFault_el1_short (h : cfg.longDescriptor = false) :
    reportFault cfg n (.implDefMMUFault va .el1) x =
      { x with dfsr := withFS (Config.freeWord n .report 0) mmuFaultFS, dfar := va } := if_neg (by simp [h])

end Report

/-! ## Where a global monitor is implemented (R190) -/

section GMon
variable {attr : MemAttr} {r : PaRange} {pa : Nat}

theorem shareable_iff :
    shareable attr = true ↔ attr.share = .innerShareable ∨ attr.share = .outerShareable := by
  cases h : attr.share <;> simp [shareable, h]

/-- The two memory types of R190. -/
theorem guaranteedGMon_iff :
    guaranteedGMon attr = true ↔ attr.memType = .normal ∧ attr.inner = .writeBack ∧ attr.outer = .writeBack ∧
      (attr.share = .innerShareable ∨ attr.share = .outerShareable) := by
  simp only [guaranteedGMon, Bool.and_eq_true, decide_eq_true_eq, shareable_iff]
  tauto

/-- A range covers an address that lies in it, with its attributes or any. -/
theorem rangeCovers_iff :
    rangeCovers r pa attr = true ↔ r.base ≤ pa ∧ pa < r.base + r.len ∧ (r.attr = none ∨ r.attr = some attr) := by
  cases h : r.attr <;> simp [rangeCovers, inRange, h, and_assoc]

end GMon

end Sys2Proof.Machine
end

section
/-! PROOF. The monitors after a Data Abort and after an exception return, the report and the routing of the MMU fault,
and where a global monitor is guaranteed (R190, R192, R193, R195, R196). -/

namespace Sys2Proof.Machine

/-- Settles O43: the step updates the PE by `dataAbortMonitors`, which changes its monitors alone and leaves the event
of a global monitor that left Exclusive Access. -/
theorem dataAbortLeavesMonitorsUnknown : Obligations.DataAbortLeavesMonitorsUnknown := by
  intro s p hp he
  obtain ⟨t, ht, hsystem, hmemory, hothers, hpe⟩ :=
    perform_updatePE hp (perform_takeDataAbort hp he)
  obtain ⟨hevent, hheld⟩ := leavesEvent_dataAbortMonitors (x := s.pe p) s.fresh p
  refine ⟨t, ht, hsystem, hmemory, hothers, ?_⟩
  rw [hpe]
  exact ⟨onlyMonitors_dataAbortMonitors .., hevent, hheld⟩

/-- Settles O44: both forms of the return update the PE and leave its local monitor open, which stays open until the PE
moves and fails every store; a thread switch updates the record alone. -/
theorem exceptionReturnClearsLocal : Obligations.ExceptionReturnClearsLocal := by
  intro s p hp he
  have fails : ∀ {t : State}, (t.pe p).lm = .openAccess →
      ∀ k u, othersRun p k t u → nextStoreFails p u fun _ => True :=
    fun hlm _ _ hrun => nextStoreFails_of_lmOpen (othersRun_lmOpen hrun hlm)
  refine ⟨?same, fun lx pair hlx => ⟨?other, ?switch⟩⟩
  case same =>
    obtain ⟨t, ht, hsystem, hmemory, hothers, hpe⟩ :=
      perform_updatePE hp (perform_exceptionReturn hp he)
    exact ⟨t, ht, hsystem, hmemory, hothers, hpe, fails (by rw [hpe]; rfl)⟩
  case other =>
    obtain ⟨t, ht, hsystem, hmemory, hothers, hpe⟩ :=
      perform_updatePE hp (perform_exceptionReturnTo (pair := pair) hp he hlx)
    exact ⟨t, ht, hsystem, hmemory, hothers, hpe, fails (by rw [hpe]; rfl)⟩
  case switch =>
    exact perform_updatePE hp (perform_installThread hp he hlx)

/-- Settles O47: the report to EL1 in either format, and the report to EL2, written over the PE whose monitors alone
changed. -/
theorem mmuFaultReported : Obligations.MmuFaultReported := by
  intro s p va hp
  dsimp only
  rw [pe_takeException_self _ _ _ hp, pe_takeException_self _ _ _ hp]
  have hel2 : reportFault s.cfg s.fresh (.implDefMMUFault va .el2) (dataAbortMonitors s.fresh p (s.pe p)) =
    { dataAbortMonitors s.fresh p (s.pe p) with
      hsr := withLow6 (Config.freeWord s.fresh .report 0) mmuFaultStatus, hdfar := va } := rfl
  rw [hel2]
  cases hformat : s.cfg.longDescriptor with
  | true =>
    rw [reportFault_el1_long hformat]
    exact ⟨fun _ => extractLsb'_withLow6 .., nofun, rfl, rfl, rfl, extractLsb'_withLow6 .., rfl, rfl, rfl⟩
  | false =>
    rw [reportFault_el1_short hformat]
    exact ⟨nofun, fun _ => extractLsb'_withFS .., rfl, rfl, rfl, extractLsb'_withLow6 .., rfl, rfl, rfl⟩

/-- Settles O48: in the Non-secure PL1&0 regime the cause and the second stage decide the level. -/
theorem mmuFaultRouted : Obligations.MmuFaultRouted := by
  intro cfg n p hregime
  refine ⟨fun hfirst => ?_, fun hcause hstage => ?_⟩
  · rcases hfirst with hcause | hstage
    · simp [mmuFaultLevel, hregime, hcause]
    · simp [mmuFaultLevel, hregime, hstage]
  · simp [mmuFaultLevel, hregime, hcause, hstage]

/-- Settles O49: `gMon` is the two guaranteed types or a range of the configuration. -/
theorem guaranteedGlobalMonitor : Obligations.GuaranteedGlobalMonitor := by
  intro cfg pa attr
  refine ⟨fun hnormal hinner houter hshare => ?guaranteed, fun hother => ?configured⟩
  case guaranteed =>
    have hattr := guaranteedGMon_iff.mpr ⟨hnormal, hinner, houter, hshare⟩
    simp [gMon, hattr]
  case configured =>
    have hattr : guaranteedGMon attr = false := Bool.eq_false_iff.mpr (mt guaranteedGMon_iff.mp hother)
    simp [gMon, hattr, List.any_eq_true, rangeCovers_iff]

end Sys2Proof.Machine
end

section
/-! SUPPORT. The exclusive accesses to a shareable location without a global monitor: the effects that are shown, and
the end of an access for each of them (R191). -/

namespace Sys2Proof.Machine

/-! ## The effects shown (R190, R191, log 21) -/

section Shown
variable {cfg : Config} {n : Nat} {e : NoGMonEffects}

theorem unconfigured_of_shownEffects (h : shownEffects cfg n = none) : cfg.noGMon = .unconfigured := by
  unfold shownEffects at h
  split at h
  · assumption
  all_goals cases h

/-- A drawn set of effects that came out empty is replaced by one that is not. -/
theorem shows_of_shownEffects (h : shownEffects cfg n = some e) : shows cfg e := by
  unfold shownEffects at h
  split at h
  · cases h
  · rename_i hfixed
    cases h
    exact .inl hfixed
  · rename_i hdrawn
    refine .inr ⟨hdrawn, ?_⟩
    rw [Option.some.injEq] at h
    rw [← h]
    split
    · assumption
    · rfl

end Shown

/-! ## Outcomes -/

/-- A result and an outcome that are chosen by the same condition. -/
theorem ite_of_eq_ite {α : Type} {c A B : Prop} [Decidable c] {r a b : α} (h : r = if c then a else b)
    (ha : r = a → A) (hb : r = b → B) : if c then A else B := by
  split
  · rename_i hc
    exact ha (h.trans (if_pos hc))
  · rename_i hc
    exact hb (h.trans (if_neg hc))

/-- An instruction has one next state. -/
theorem holds_of_exec {s t : State} {i : Instr} {P : State → Prop} (ht : exec i s = .next t)
    (h : ∃ u, exec i s = .next u ∧ P u) : P t := by
  obtain ⟨u, hu, hP⟩ := h
  cases ht.symm.trans hu
  exact hP

/-- A local monitor set to another block lets a Store-Exclusive pass by choice ID2 (R61). -/
theorem localCheck_other {s : State} {p pa : Nat} (hset : (s.pe p).lm ≠ .openAccess)
    (hother : (s.pe p).lm ≠ .exclusive (block s.cfg pa)) : localCheck s p pa = choose s .id2 0 p := by
  unfold localCheck
  cases hlm : (s.pe p).lm with
  | openAccess => exact absurd hlm hset
  | exclusive b => exact if_neg fun hb => hother (hlm.trans (congrArg _ hb.symm))

/-- A conditional clear by a choice, as the statements say it (R58, R74). -/
theorem byChoice_clearGlobalIf {s : State} {id : ChoiceId} {call m : Nat} {x y : PE}
    (hgm : y.gm = (clearGlobalIf (choose s id call m) x).gm) (hev : y.ev = (clearGlobalIf (choose s id call m) x).ev) :
    (x.gm.isSet = true → byChoice s.cfg id (globalCleared y) (globalKept x y)) ∧
      (x.gm = .openAccess → globalKept x y) := by
  rw [globalCleared, globalKept, hgm, hev]
  exact ⟨fun hset => byChoice_of_choose (globalCleared_clearGlobalIf hset) globalKept_clearGlobalIf,
    globalKept_clearGlobalIf_open⟩

/-! ## The Load-Exclusives -/

section Load
variable {s : State} {i : Instr} {f : LoadForm} {p pa n : Nat} {va : Word} {attr : MemAttr}

theorem loadExcl_unmonitored (hal : va.toNat % n = 0) (htr : translate s p va .read = some (pa, attr))
    (hsh : shareable attr = true) (hg : gMon s.cfg pa attr = false) :
    loadExcl s p va n = noGlobalMonitorLoad s p va pa n attr := by
  simp [loadExcl, hal, htr, hsh, hg]

theorem noGlobalMonitorLoad_none (he : shownEffects s.cfg s.fresh = none) :
    noGlobalMonitorLoad s p va pa n attr = .ended (endRun s p (.noGlobalMonitor va)) := by
  simp only [noGlobalMonitorLoad, he]

/-- What a Load-Exclusive treated as from a Non-shareable location does to its PE: the marks, and an UNKNOWN local
monitor. -/
def marksAsNonShareable (s : State) (p : Nat) (r : LoadRecord) (x : PE) : PE :=
  unknownLocal s.fresh p (loadMarks s p false r x)

theorem marksAsNonShareable_eq (s : State) (p : Nat) (r : LoadRecord) (x : PE) :
    marksAsNonShareable s p r x =
      { x with
        lm := freeMonitor s.fresh .lmUnknown p
        gm := if choose s .id12 0 p then .exclusive (block s.cfg r.pa) else x.gm
        lx := some r, pair := .waiting r.va } := by
  rw [marksAsNonShareable, loadMarks_frame, loadMarks_gm]
  rfl

/-- `NoGlobalMonitor_Load` where the effects `e` are shown, in the order of the rule. -/
theorem noGlobalMonitorLoad_shown {e : NoGMonEffects} (he : shownEffects s.cfg s.fresh = some e) :
    noGlobalMonitorLoad s p va pa n attr =
      if e.externalAbort then .ended (takeException s p (.externalAbort va))
      else if e.mmuFault then .ended (takeException s p (.implDefMMUFault va (mmuFaultLevel s.cfg s.fresh p)))
      else if e.asNop then .noWriteback s
      else if e.loadAsNonShareable then
        if readAborts s pa n then .ended (takeException s p (.externalAbort va))
        else .value (s.updatePE p (marksAsNonShareable s p { va := va, pa := pa, n := n, attr := attr })) pa
      else .ended (endRun s p (.noGlobalMonitor va)) := by
  simp only [noGlobalMonitorLoad, he]
  rfl

/-- The outcome of a Load-Exclusive that is treated as from a Non-shareable location and does not abort. -/
def loadedAsNonShareable (i : Instr) (s t : State) (f : LoadForm) (pa : Nat) (attr : MemAttr) : Prop :=
  sameSystem s t ∧ sameMemory s t ∧ sameOthers s t s.cur ∧ (∀ r, t.reg s.cur r = loadedReg s f pa r) ∧
    cpsrAdvanced i.iset (s.pe s.cur).cpsr (t.pe s.cur).cpsr ∧
    t.pe s.cur = { s.pe s.cur with
      regs := (t.pe s.cur).regs, pc := (s.pe s.cur).pc + 1, cpsr := (t.pe s.cur).cpsr, lm := (t.pe s.cur).lm
      gm := (t.pe s.cur).gm, lx := some { va := f.va, pa := pa, n := f.n, attr := attr }, pair := .waiting f.va } ∧
    byChoice s.cfg .id12 ((t.pe s.cur).gm = .exclusive (block s.cfg pa)) ((t.pe s.cur).gm = (s.pe s.cur).gm)

theorem exec_load_asNonShareable (hf : loadForm s i = some f) (hx : executes s i = true) (hp : s.cur < s.npe)
    (h : loadExcl s s.cur f.va f.n =
      .value (s.updatePE s.cur (marksAsNonShareable s s.cur { va := f.va, pa := pa, n := f.n, attr := attr })) pa) :
    ∃ t, exec i s = .next t ∧ loadedAsNonShareable i s t f pa attr := by
  obtain ⟨t, ht, hsystem, hmemory, hothers, hregs, hpe⟩ :=
    exec_load_completes hf hx hp h fun x => by rw [marksAsNonShareable_eq]
  rw [marksAsNonShareable_eq] at hpe
  refine ⟨t, ht, hsystem, hmemory, hothers, hregs, ?cpsr, ?own, ?global⟩
  case cpsr => rw [hpe]; exact cpsrAdvanced_afterInstr ..
  case own => rw [hpe]
  case global =>
    rw [hpe]
    exact byChoice_of_choose (fun hmark => if_pos hmark) fun hkeep => if_neg (by simp [hkeep])

/-- A Load-Exclusive ended its PE's run by a model fault. -/
theorem exec_load_endRun {c : EndCause} (hf : loadForm s i = some f) (hx : executes s i = true) (hp : s.cur < s.npe)
    (h : loadExcl s s.cur f.va f.n = .ended (endRun s s.cur c)) : ∃ t, exec i s = .next t ∧ runEndedBy s t c :=
  ⟨endRun s s.cur c, by rw [exec_load hf hx, h], runEndedBy_endRun hp⟩

/-- A Load-Exclusive treated as a NOP. -/
theorem exec_load_passedOver (hf : loadForm s i = some f) (hx : executes s i = true) (hp : s.cur < s.npe)
    (h : loadExcl s s.cur f.va f.n = .noWriteback s) : ∃ t, exec i s = .next t ∧ passedOver i s t :=
  ⟨complete i.iset s s.cur, by rw [exec_load hf hx, h], complete_passedOver i hp⟩

/-- The outcomes of R191 for a Load-Exclusive: the effects decide the end of the common step and the outcome in one
order. -/
theorem noMonitorLoad_of_exec {t : State} {e : NoGMonEffects} (hf : loadForm s i = some f) (hx : executes s i = true)
    (hp : s.cur < s.npe) (he : shownEffects s.cfg s.fresh = some e)
    (h : loadExcl s s.cur f.va f.n = noGlobalMonitorLoad s s.cur f.va pa f.n attr) (ht : exec i s = .next t) :
    noMonitorLoad i s t f pa attr e := by
  rw [noGlobalMonitorLoad_shown he] at h
  refine ite_of_eq_ite h (fun h => ?externalAbort) fun h => ite_of_eq_ite h (fun h => ?mmuFault) fun h =>
    ite_of_eq_ite h (fun h => ?nop) fun h => ite_of_eq_ite h
      (fun h => ite_of_eq_ite h (fun h => ?readAborts) fun h => ?nonShareable) fun h => ?notStated
  case externalAbort => exact holds_of_exec ht (exec_load_exception hf hx hp h)
  case mmuFault => exact holds_of_exec ht (exec_load_exception hf hx hp h)
  case nop => exact holds_of_exec ht (exec_load_passedOver hf hx hp h)
  case readAborts => exact holds_of_exec ht (exec_load_exception hf hx hp h)
  case nonShareable => exact holds_of_exec ht (exec_load_asNonShareable hf hx hp h)
  case notStated => exact holds_of_exec ht (exec_load_endRun hf hx hp h)

end Load

/-! ## The Store-Exclusives -/

section Store
variable {s t u : State} {i : Instr} {f : StoreForm} {p pa : Nat} {va v : Word} {attr : MemAttr} {bs : List Byte}
  {ws : List (Nat × Nat)} {e : NoGMonEffects} {g : PE → PE}

theorem storeChecked_unmonitored (hsh : shareable attr = true) (hg : gMon s.cfg pa attr = false) :
    storeChecked s p va pa attr bs = noGlobalMonitorStore s p va pa attr bs := by
  simp [storeChecked, hsh, hg]

theorem noGlobalMonitorStore_none (he : shownEffects s.cfg s.fresh = none) :
    noGlobalMonitorStore s p va pa attr bs = .ended (endRun s p (.noGlobalMonitor va)) := by
  simp only [noGlobalMonitorStore, he]

/-- What a Store-Exclusive treated as to a Non-shareable location leaves, its local monitor UNKNOWN, and a status that
is UNKNOWN where that effect is shown. -/
def resultAsNonShareable (s : State) (p : Nat) (e : NoGMonEffects) : StoreResult → StoreResult
  | .status t v written =>
    .status (t.updatePE p (unknownLocal s.fresh p))
      (if e.statusUnknown then Config.freeWord s.fresh .status p else v) written
  | .noWriteback t => .noWriteback t
  | .ended t => .ended t

/-- `NoGlobalMonitor_Store` where the effects `e` are shown, in the order of the rule. -/
theorem noGlobalMonitorStore_shown (he : shownEffects s.cfg s.fresh = some e) :
    noGlobalMonitorStore s p va pa attr bs =
      if e.externalAbort then .ended (takeException s p (.externalAbort va))
      else if e.mmuFault then .ended (takeException s p (.implDefMMUFault va (mmuFaultLevel s.cfg s.fresh p)))
      else if e.asNop then
        if e.statusUnknown then .status s (Config.freeWord s.fresh .status p) [] else .noWriteback s
      else if e.storeAsNonShareable then resultAsNonShareable s p e (storeNonShareable s p va pa attr bs)
      else if e.statusUnknown then
        if Config.freeBool s.fresh .noGMonStore p then
          if writeAborts s pa bs.length then .ended (takeException s p (.externalAbort va))
          else .status (storePasses s p pa attr bs id) (Config.freeWord s.fresh .status p) [(pa, bs.length)]
        else .status s (Config.freeWord s.fresh .status p) []
      else .ended (endRun s p (.noGlobalMonitor va)) := by
  simp only [noGlobalMonitorStore, he]
  cases storeNonShareable s p va pa attr bs <;> rfl

/-- The local monitor decides a Store-Exclusive treated as to a Non-shareable location (R61, R74, R235). -/
theorem storeNonShareable_eq : storeNonShareable s p va pa attr bs =
    if localPasses s p va pa attr then
      if writeAborts s pa bs.length then .ended (takeException s p (.externalAbort va))
      else .status (storePasses s p pa attr bs fun x => clearGlobalIf (choose s .id11 0 p) (clearLocal x)) 0
        [(pa, bs.length)]
    else .status (s.updatePE p clearLocal) 1 [] := rfl

/-! ### The words of the outcome -/

/-- The Store-Exclusive completed: the PC and in T32 the IT state advanced, the pair is over, the monitors and the Event
register are as said, and no register but the status register may differ. -/
def storeCompleted (i : Instr) (f : StoreForm) (s t : State) (lm gm : Monitor) (ev : Bool) : Prop :=
  sameSystem s t ∧ (∀ q, q ≠ f.rd → t.reg s.cur q = s.reg s.cur q) ∧
    cpsrAdvanced i.iset (s.pe s.cur).cpsr (t.pe s.cur).cpsr ∧
    t.pe s.cur = { s.pe s.cur with
      regs := (t.pe s.cur).regs, pc := (s.pe s.cur).pc + 1, cpsr := (t.pe s.cur).cpsr, lm := lm, gm := gm, ev := ev
      pair := .closed }

/-- The bytes were written, and every other PE observed the write. -/
def bytesStored (f : StoreForm) (pa : Nat) (attr : MemAttr) (s t : State) : Prop :=
  holdsBytes t pa f.bytes ∧ sameMemoryOutside s t pa f.bytes.length ∧
    ∀ m, m < s.npe → m ≠ s.cur → observedByOther s.cfg (.pe s.cur) pa f.bytes.length attr (s.pe m) (t.pe m)

/-- Memory and every other PE are unchanged. -/
def nothingStored (s t : State) : Prop := sameMemory s t ∧ sameOthers s t s.cur

/-- The status register holds `v`, unless its value is UNKNOWN. -/
def statusShown (f : StoreForm) (e : NoGMonEffects) (s t : State) (v : Word) : Prop :=
  e.statusUnknown = false → t.reg s.cur f.rd = v

/-- Treated as to a Non-shareable location the store passes its monitor: it aborts, or it is done. -/
def passesAsNonShareable (i : Instr) (f : StoreForm) (pa : Nat) (attr : MemAttr) (e : NoGMonEffects) (s t : State) :
    Prop :=
  if writeAborts s pa f.bytes.length then exceptionTaken s t (.externalAbort f.va)
  else
    storeCompleted i f s t (t.pe s.cur).lm (t.pe s.cur).gm (t.pe s.cur).ev ∧ bytesStored f pa attr s t ∧
      statusShown f e s t 0 ∧
      ((s.pe s.cur).gm.isSet = true →
        byChoice s.cfg .id11 (globalCleared (t.pe s.cur)) (globalKept (s.pe s.cur) (t.pe s.cur))) ∧
      ((s.pe s.cur).gm = .openAccess → globalKept (s.pe s.cur) (t.pe s.cur))

/-- Treated as to a Non-shareable location the store fails. -/
def failsAsNonShareable (i : Instr) (f : StoreForm) (e : NoGMonEffects) (s t : State) : Prop :=
  storeCompleted i f s t (t.pe s.cur).lm (s.pe s.cur).gm (s.pe s.cur).ev ∧ nothingStored s t ∧ statusShown f e s t 1

/-- The outcomes that the statement lists, in these words. -/
theorem noMonitorStore_eq : noMonitorStore i s t f pa attr e =
    if e.externalAbort then exceptionTaken s t (.externalAbort f.va)
    else if e.mmuFault then exceptionTaken s t (.implDefMMUFault f.va (mmuFaultLevel s.cfg s.fresh s.cur))
    else if e.asNop then
      storeCompleted i f s t (s.pe s.cur).lm (s.pe s.cur).gm (s.pe s.cur).ev ∧ nothingStored s t ∧
        statusShown f e s t (s.reg s.cur f.rd)
    else if e.storeAsNonShareable then
      if (s.pe s.cur).lm = .openAccess ∨ movedAndWritten s s.cur f.va attr = true then failsAsNonShareable i f e s t
      else if (s.pe s.cur).lm = .exclusive (block s.cfg pa) then passesAsNonShareable i f pa attr e s t
      else byChoice s.cfg .id2 (passesAsNonShareable i f pa attr e s t) (failsAsNonShareable i f e s t)
    else if e.statusUnknown then
      exceptionTaken s t (.externalAbort f.va) ∧ writeAborts s pa f.bytes.length = true ∨
        storeCompleted i f s t (s.pe s.cur).lm (s.pe s.cur).gm (s.pe s.cur).ev ∧
          (bytesStored f pa attr s t ∨ nothingStored s t)
    else runEndedBy s t (.noGlobalMonitor f.va) := rfl

/-! ### The end of the instruction -/

theorem storeTo_ended {set : ISet} {rd : Reg} (h : storeExcl s s.cur va bs = .ended t) :
    storeTo set s rd va bs = t := by
  simp only [storeTo, h]

/-- The status register after a Store-Exclusive that gives a status (R140, R152). -/
theorem reg_storeTo_status (h : storeExcl s s.cur f.va f.bytes = .status t v ws) (hp : s.cur < t.npe) :
    (storeTo i.iset s f.rd f.va f.bytes).reg s.cur f.rd = v := by
  simp [storeTo, h, reg_complete, reg_setReg_self, hp]

/-- A Store-Exclusive treated as a NOP writes no register. -/
theorem reg_storeTo_noWriteback (h : storeExcl s s.cur f.va f.bytes = .noWriteback s) (hp : s.cur < s.npe) (q : Reg) :
    (storeTo i.iset s f.rd f.va f.bytes).reg s.cur q = s.reg s.cur q := by
  simp [storeTo, h, State.reg, hp, closePair]

/-- A Store-Exclusive treated as a NOP moves on as one that gives a status does. -/
theorem statusStored_noWriteback (h : storeExcl s s.cur f.va f.bytes = .noWriteback s) (hp : s.cur < s.npe) :
    StatusStored s i f s (storeTo i.iset s f.rd f.va f.bytes) := by
  have hu : storeTo i.iset s f.rd f.va f.bytes = complete i.iset (s.updatePE s.cur closePair) s.cur := by
    simp only [storeTo, h]
  have honly := onlyPEs_updatePE s s.cur closePair
  have hpe := pe_complete_self (s.updatePE s.cur closePair) s.cur i.iset (honly.npe ▸ hp)
  rw [pe_updatePE_self _ _ _ hp, ← hu] at hpe
  refine ⟨?system, by rw [hu]; rfl, ?others, fun q _ => reg_storeTo_noWriteback h hp q, ?cpsr, by rw [hpe]; rfl⟩
  case system => rw [hu]; exact honly.sameSystem_complete
  case others => rw [hu]; exact sameOthers_complete_updatePE closePair
  case cpsr => rw [hpe]; exact cpsrAdvanced_afterInstr ..

theorem StatusStored.completed (h : StatusStored s i f t u) :
    storeCompleted i f s u (t.pe s.cur).lm (t.pe s.cur).gm (t.pe s.cur).ev :=
  ⟨h.system, h.regs, h.cpsr, h.own⟩

/-- The executing PE's local monitor, global monitor and Event register are those the common step left. -/
theorem StatusStored.monitors (h : StatusStored s i f t u) :
    (u.pe s.cur).lm = (t.pe s.cur).lm ∧ (u.pe s.cur).gm = (t.pe s.cur).gm ∧ (u.pe s.cur).ev = (t.pe s.cur).ev := by
  rw [h.own]
  exact ⟨rfl, rfl, rfl⟩

theorem StatusStored.nothingStored (h : StatusStored s i f t u) (hmem : t.mem = s.mem)
    (hothers : sameOthers s t s.cur) : nothingStored s u :=
  ⟨fun _ => by rw [h.mem, hmem], fun m hm => (h.others m hm).trans (hothers m hm)⟩

/-- A common step that wrote the bytes and had the write observed. -/
theorem StatusStored.bytesStored (h : StatusStored s i f t u) (hwf : memWf s.mem = true) (h1 : 1 ≤ f.bytes.length)
    (hmem : t.mem = memWriteBytes s.mem pa f.bytes)
    (hothers : sameOthers (storePasses s s.cur pa attr f.bytes g) t s.cur) : bytesStored f pa attr s u := by
  refine ⟨?bytes, fun a ha => ?outside, fun m hm hne => ?others⟩
  case bytes => rw [holdsBytes, h.mem, hmem, memReadBytes_memWriteBytes hwf]
  case outside => rw [h.mem, hmem, memRead_memWriteBytes_out hwf ha]
  case others =>
    rw [h.others m hne, hothers m hne, pe_storePasses_ne hm hne]
    exact observedByOther_observeOther (s := State.updatePE _ _ _) h1

/-! ### The outcomes -/

/-- Where the local monitor does not let it pass the store fails (R61, R191). -/
theorem failsAsNonShareable_storeTo (hp : s.cur < s.npe) (hlocal : localPasses s s.cur f.va pa attr = false)
    (h : storeExcl s s.cur f.va f.bytes =
      resultAsNonShareable s s.cur e (storeNonShareable s s.cur f.va pa attr f.bytes)) :
    failsAsNonShareable i f e s (storeTo i.iset s f.rd f.va f.bytes) := by
  rw [storeNonShareable_eq, hlocal, if_neg Bool.false_ne_true] at h
  have hnpe : ((s.updatePE s.cur clearLocal).updatePE s.cur (unknownLocal s.fresh s.cur)).npe = s.npe := by simp
  have hpe : ((s.updatePE s.cur clearLocal).updatePE s.cur (unknownLocal s.fresh s.cur)).pe s.cur =
      unknownLocal s.fresh s.cur (clearLocal (s.pe s.cur)) := by simp [hp]
  have hst := statusStored_storeTo (i := i) hp h rfl hnpe
    (hpe ▸ onlyMonitors_trans (onlyCleared_clearLocal _).1 (onlyMonitors_unknownLocal ..))
  have hcompleted := hst.completed
  rw [← hst.monitors.1, hpe] at hcompleted
  refine ⟨hcompleted, hst.nothingStored rfl fun m hm => by simp [hm], fun hstatus => ?_⟩
  rw [reg_storeTo_status h (hnpe ▸ hp), hstatus, if_neg Bool.false_ne_true]

/-- Where the local monitor lets it pass the store aborts or is done (R61, R74, R191). -/
theorem passesAsNonShareable_storeTo (hp : s.cur < s.npe) (hwf : memWf s.mem = true) (h1 : 1 ≤ f.bytes.length)
    (hlocal : localPasses s s.cur f.va pa attr = true)
    (h : storeExcl s s.cur f.va f.bytes =
      resultAsNonShareable s s.cur e (storeNonShareable s s.cur f.va pa attr f.bytes)) :
    passesAsNonShareable i f pa attr e s (storeTo i.iset s f.rd f.va f.bytes) := by
  rw [storeNonShareable_eq, if_pos hlocal] at h
  unfold passesAsNonShareable
  split
  · rename_i hab
    rw [if_pos hab] at h
    rw [storeTo_ended h]
    exact exceptionTakenBy_takeException hp
  rename_i hab
  rw [if_neg hab] at h
  have hnpe : ((storePasses s s.cur pa attr f.bytes fun x =>
      clearGlobalIf (choose s .id11 0 s.cur) (clearLocal x)).updatePE s.cur (unknownLocal s.fresh s.cur)).npe =
        s.npe := by simp
  have hpe : ((storePasses s s.cur pa attr f.bytes fun x =>
      clearGlobalIf (choose s .id11 0 s.cur) (clearLocal x)).updatePE s.cur (unknownLocal s.fresh s.cur)).pe s.cur =
        unknownLocal s.fresh s.cur (clearGlobalIf (choose s .id11 0 s.cur) (clearLocal (s.pe s.cur))) := by
    rw [pe_updatePE_self _ _ _ (by simpa using hp), pe_storePasses_self hp]
  have hst := statusStored_storeTo (i := i) hp h rfl hnpe
    (hpe ▸ onlyMonitors_trans (onlyCleared_clearBoth ..).1 (onlyMonitors_unknownLocal ..))
  obtain ⟨hlm, hgm, hev⟩ := hst.monitors
  have hcompleted := hst.completed
  rw [← hlm, ← hgm, ← hev] at hcompleted
  rw [hpe] at hgm hev
  refine ⟨hcompleted, hst.bytesStored hwf h1 rfl fun m hm => pe_updatePE_ne _ _ _ _ hm, fun hstatus => ?status,
    byChoice_clearGlobalIf (x := clearLocal (s.pe s.cur)) hgm hev⟩
  case status => rw [reg_storeTo_status h (hnpe ▸ hp), hstatus, if_neg Bool.false_ne_true]

/-- The local monitor, and a pair that was moved and written, decide between the two (R60, R61, R177, R235). -/
theorem storeTo_asNonShareable (hp : s.cur < s.npe) (hwf : memWf s.mem = true) (h1 : 1 ≤ f.bytes.length)
    (h : storeExcl s s.cur f.va f.bytes =
      resultAsNonShareable s s.cur e (storeNonShareable s s.cur f.va pa attr f.bytes)) :
    let u := storeTo i.iset s f.rd f.va f.bytes
    if (s.pe s.cur).lm = .openAccess ∨ movedAndWritten s s.cur f.va attr = true then failsAsNonShareable i f e s u
    else if (s.pe s.cur).lm = .exclusive (block s.cfg pa) then passesAsNonShareable i f pa attr e s u
    else byChoice s.cfg .id2 (passesAsNonShareable i f pa attr e s u) (failsAsNonShareable i f e s u) := by
  have passes : localPasses s s.cur f.va pa attr = true →
      passesAsNonShareable i f pa attr e s (storeTo i.iset s f.rd f.va f.bytes) :=
    fun hl => passesAsNonShareable_storeTo hp hwf h1 hl h
  have fails : localPasses s s.cur f.va pa attr = false →
      failsAsNonShareable i f e s (storeTo i.iset s f.rd f.va f.bytes) :=
    fun hl => failsAsNonShareable_storeTo hp hl h
  dsimp only
  split
  · rename_i hbarred
    rcases hbarred with hopen | hmoved
    · exact fails (localPasses_lmOpen hopen)
    · exact fails (by simp [localPasses, hmoved])
  rename_i hbarred
  obtain ⟨hset, hmoved⟩ := not_or.mp hbarred
  have hlocal : localPasses s s.cur f.va pa attr = localCheck s s.cur pa := by simp [localPasses, hmoved]
  split
  · rename_i hmarked
    exact passes (hlocal.trans (localCheck_marked hmarked))
  · rename_i hother
    rw [hlocal, localCheck_other hset hother] at passes fails
    exact byChoice_of_choose passes fails

/-- A Store-Exclusive treated as a NOP, whatever becomes of the status register. -/
theorem storeTo_asNop (hp : s.cur < s.npe)
    (h : storeExcl s s.cur f.va f.bytes =
      if e.statusUnknown then .status s (Config.freeWord s.fresh .status s.cur) [] else .noWriteback s) :
    let u := storeTo i.iset s f.rd f.va f.bytes
    storeCompleted i f s u (s.pe s.cur).lm (s.pe s.cur).gm (s.pe s.cur).ev ∧ nothingStored s u ∧
      statusShown f e s u (s.reg s.cur f.rd) := by
  split at h
  · rename_i hunknown
    have hst := statusStored_storeTo (i := i) hp h rfl rfl (onlyMonitors_refl _)
    exact ⟨hst.completed, hst.nothingStored rfl fun _ _ => rfl, fun hknown => by rw [hunknown] at hknown; cases hknown⟩
  · have hst := statusStored_noWriteback (i := i) h hp
    exact ⟨hst.completed, hst.nothingStored rfl fun _ _ => rfl, fun _ => reg_storeTo_noWriteback h hp _⟩

/-- A Store-Exclusive of which only the UNKNOWN status is stated: it aborts, it stored, or it did not. -/
theorem storeTo_statusUnknown (hp : s.cur < s.npe) (hwf : memWf s.mem = true) (h1 : 1 ≤ f.bytes.length) {done : Bool}
    (h : storeExcl s s.cur f.va f.bytes =
      if done then
        if writeAborts s pa f.bytes.length then .ended (takeException s s.cur (.externalAbort f.va))
        else .status (storePasses s s.cur pa attr f.bytes id) v ws
      else .status s v []) :
    let u := storeTo i.iset s f.rd f.va f.bytes
    exceptionTaken s u (.externalAbort f.va) ∧ writeAborts s pa f.bytes.length = true ∨
      storeCompleted i f s u (s.pe s.cur).lm (s.pe s.cur).gm (s.pe s.cur).ev ∧
        (bytesStored f pa attr s u ∨ nothingStored s u) := by
  split at h
  · split at h
    · rename_i hab
      exact .inl ⟨by rw [storeTo_ended h]; exact exceptionTakenBy_takeException hp, hab⟩
    · have hpe := pe_storePasses_self (pa := pa) (attr := attr) (bs := f.bytes) (own := id) hp
      have hst := statusStored_storeTo (i := i) hp h rfl (storePasses_npe ..) (hpe ▸ onlyMonitors_refl _)
      have hcompleted := hst.completed
      rw [hpe] at hcompleted
      exact .inr ⟨hcompleted, .inl (hst.bytesStored hwf h1 rfl fun _ _ => rfl)⟩
  · have hst := statusStored_storeTo (i := i) hp h rfl rfl (onlyMonitors_refl _)
    exact .inr ⟨hst.completed, .inr (hst.nothingStored rfl fun _ _ => rfl)⟩

/-- The outcomes of R191 for a Store-Exclusive: the effects decide the end of the common step and the outcome in one
order. -/
theorem noMonitorStore_storeTo (hp : s.cur < s.npe) (hwf : memWf s.mem = true) (h1 : 1 ≤ f.bytes.length)
    (he : shownEffects s.cfg s.fresh = some e)
    (h : storeExcl s s.cur f.va f.bytes = noGlobalMonitorStore s s.cur f.va pa attr f.bytes) :
    noMonitorStore i s (storeTo i.iset s f.rd f.va f.bytes) f pa attr e := by
  rw [noGlobalMonitorStore_shown he] at h
  rw [noMonitorStore_eq]
  refine ite_of_eq_ite h (fun h => ?externalAbort) fun h => ite_of_eq_ite h (fun h => ?mmuFault) fun h =>
    ite_of_eq_ite h (storeTo_asNop hp) fun h => ite_of_eq_ite h (storeTo_asNonShareable hp hwf h1) fun h =>
      ite_of_eq_ite h (storeTo_statusUnknown hp hwf h1) fun h => ?notStated
  case externalAbort => rw [storeTo_ended h]; exact exceptionTakenBy_takeException hp
  case mmuFault => rw [storeTo_ended h]; exact exceptionTakenBy_takeException hp
  case notStated => rw [storeTo_ended h]; exact runEndedBy_endRun hp

end Store

end Sys2Proof.Machine
end

section
/-! PROOF. The exclusive accesses to a shareable location without a global monitor (R190, R191). -/

namespace Sys2Proof.Machine

/-- Settles O21: the access reaches `noGlobalMonitorLoad`, which stops where nothing is configured and else shows
effects of the configuration. -/
theorem noGlobalMonitorLoads : Obligations.NoGlobalMonitorLoads := by
  intro s i f pa attr hf hx ⟨hp, hal, htr⟩ hsh hg
  have hload := loadExcl_unmonitored hal htr hsh hg
  cases he : shownEffects s.cfg s.fresh with
  | none =>
    obtain ⟨t, ht, hended⟩ := exec_load_endRun hf hx hp (hload.trans (noGlobalMonitorLoad_none he))
    exact ⟨t, ht, .inl ⟨unconfigured_of_shownEffects he, hended⟩⟩
  | some e =>
    exact ⟨_, exec_load hf hx, .inr ⟨e, shows_of_shownEffects he,
      noMonitorLoad_of_exec hf hx hp he hload (exec_load hf hx)⟩⟩

/-- Settles O22: the same for `noGlobalMonitorStore`, which a well-paired store reaches. -/
theorem noGlobalMonitorStores : Obligations.NoGlobalMonitorStores := by
  intro s i f pa attr hf hx hwf ⟨hp, hal, htr, hpair⟩ hsh hg
  have hstore := (storeExcl_paired hal htr (pairMismatch_none.mpr hpair)).trans (storeChecked_unmonitored hsh hg)
  refine ⟨_, exec_store hf hx, ?_⟩
  cases he : shownEffects s.cfg s.fresh with
  | none =>
    rw [storeTo_ended (hstore.trans (noGlobalMonitorStore_none he))]
    exact .inl ⟨unconfigured_of_shownEffects he, runEndedBy_endRun hp⟩
  | some e =>
    have h1 : 1 ≤ f.bytes.length := by have hsize := storeForm_size hf; omega
    exact .inr ⟨e, shows_of_shownEffects he, noMonitorStore_storeTo hp hwf h1 he hstore⟩

end Sys2Proof.Machine
end

section
/-! SUPPORT. The moments of an infinite run: what stays from one to the next, which PE still runs, and a Load-Exclusive with
the next Store-Exclusive after it (R33, R76, R222, R227, D16). -/

namespace Sys2Proof.Machine

/-! ## The turn of a step -/

section Turn
variable {s t : State} {p : Nat} {i : Instr}

theorem executed_turn (h : executed s = some (p, i)) :
    s.agenda = [] ∧ p = s.cur ∨ ∃ turns, s.agenda = .run p :: turns := by
  unfold executed at h
  split at h <;> rename_i ha
  · obtain ⟨bs, -, h⟩ := Option.bind_eq_some_iff.mp h
    split at h <;> cases h
    exact .inl ⟨ha, rfl⟩
  · obtain ⟨bs, -, h⟩ := Option.bind_eq_some_iff.mp h
    split at h <;> cases h
    exact .inr ⟨_, ha⟩
  · cases h

theorem executed_mover (h : executed s = some (p, i)) : mover s = some p := by
  obtain ⟨ha, rfl⟩ | ⟨turns, ha⟩ := executed_turn h <;> simp [mover, ha]

theorem executed_act {a : Action} {turns : List Turn} (ha : s.agenda = .act a :: turns) : executed s = none := by
  simp [executed, ha]

/-- A step that answers a next state and executes an instruction answers what the instruction does. -/
theorem step_executed (h : step s = .next t) (he : executed s = some (p, i)) :
    p < s.npe ∧ exec i { s with cur := p, agenda := s.agenda.tail } = .next t := by
  have hturn := executed_turn he
  obtain ⟨hs, -⟩ := step_next h
  have hstep : step s = runCurrent { s with cur := p, agenda := s.agenda.tail } := by
    obtain ⟨ha, rfl⟩ | ⟨turns, ha⟩ := hturn
    · simp only [step, hs, ha, if_true, List.tail_nil]
      rw [← ha]
    · simp only [step, hs, ha, if_true, List.tail_cons]
  obtain ⟨hp, -, bs, j, rest, hb, hd, hexec⟩ := runCurrent_next (hstep ▸ h)
  cases (executed_of_fetch hturn hb hd).2.symm.trans he
  exact ⟨hp, hexec⟩

theorem performerOf_of_actorOf {a : Action} (h : actorOf a = some p) : performerOf a = some p := by
  cases a <;> simp_all [actorOf, performerOf]

/-- Only a PE that still runs is given a turn that answers a next state (D16). -/
theorem step_mover_running (h : step s = .next t) (hm : mover s = some p) : (s.pe p).ended = none := by
  obtain ⟨q, j, turns, hq, -, -, he, -⟩ | ⟨a, turns, ha, hact⟩ := step_turn h
  · cases hq.symm.trans hm
    exact he
  · have hactor : actorOf a = some p := by simpa [mover, ha] using hm
    obtain ⟨o, ho⟩ := perform_of_performer { s with agenda := turns } (performerOf_of_actorOf hactor)
    exact (byPE_next (ho.symm.trans hact)).2.1

/-- A run that has ended stays ended: a PE that runs after a step ran before it (D16). -/
theorem step_running (h : step s = .next t) (he : (t.pe p).ended = none) : (s.pe p).ended = none := by
  by_cases hm : mover s = some p
  · exact step_mover_running h hm
  · obtain ⟨⟨hframe, -⟩, -⟩ := othersOnlyCleared s t p h hm
    rwa [hframe] at he

@[simp] theorem executes_agenda (s : State) (turns : List Turn) (i : Instr) :
    executes { s with agenda := turns } i = executes s i := by cases i <;> rfl

@[simp] theorem loadForm_agenda (s : State) (turns : List Turn) (i : Instr) :
    loadForm { s with agenda := turns } i = loadForm s i := by cases i <;> rfl

theorem loadForm_of_storeForm {f : StoreForm} (h : storeForm s i = some f) (u : State) : loadForm u i = none := by
  cases i <;> simp_all [storeForm, loadForm]

end Turn

/-! ## Where an access goes, and what it meets there -/

/-- From `s` to `t` nothing changed that says where an access goes and which monitors and aborts it meets there. -/
structure SameMap (s t : State) : Prop where
  cfg : t.cfg = s.cfg
  attrs : t.attrs = s.attrs
  xlat : t.xlat = s.xlat

namespace SameMap
variable {s t u : State}

theorem refl (s : State) : SameMap s s := ⟨rfl, rfl, rfl⟩

theorem trans (h : SameMap s t) (h' : SameMap t u) : SameMap s u :=
  ⟨h'.cfg.trans h.cfg, h'.attrs.trans h.attrs, h'.xlat.trans h.xlat⟩

/-- Giving the turn to a PE changes no part of the map. -/
theorem turn (h : SameMap s t) (p : Nat) (turns : List Turn) : SameMap s { t with cur := p, agenda := turns } :=
  ⟨h.cfg, h.attrs, h.xlat⟩

theorem translate (h : SameMap s t) (p : Nat) (va : Word) (kind : AccessKind) :
    Machine.translate t p va kind = Machine.translate s p va kind := by
  simp only [Machine.translate, translateBy, attrAt, regionAt, h.cfg, h.attrs, h.xlat]

theorem readAborts (h : SameMap s t) (pa n : Nat) : Machine.readAborts t pa n = Machine.readAborts s pa n := by
  simp only [Machine.readAborts, regionAt, h.attrs]

theorem writeAborts (h : SameMap s t) (pa n : Nat) : Machine.writeAborts t pa n = Machine.writeAborts s pa n := by
  simp only [Machine.writeAborts, regionAt, h.attrs]

theorem monitored (h : SameMap s t) {pa : Nat} {attr : MemAttr} (hm : monitored s pa attr) :
    Machine.monitored t pa attr := fun hsh => by
  rw [h.cfg]
  exact hm hsh

end SameMap

/-- Only a `remap` changes the map, and no `remap` is quiet. -/
theorem step_sameMap {s t : State} {p : Nat} (h : step s = .next t) (hq : mover s ≠ some p → quietFor p s) :
    SameMap s t := by
  obtain ⟨hcfg, hattrs, -, -, hxlat | ⟨maps, bbm, turns, ha, -⟩⟩ := configurationAndProgramsStay s t h
  · exact ⟨hcfg, hattrs, hxlat⟩
  · have hquiet := quietFor_act (hq (by simp [mover, ha, actorOf])) ha
    cases hquiet

/-! ## What condition 1 allows is quiet (R227) -/

section Between
variable {s : State} {p : Nat} {i : Instr}

theorem betweenAllowed_accessActivity {va : Word} {n : Nat} {kind : AccessKind} {f : Place → Activity}
    (hf : ∀ place, betweenAllowed (f place) = false) : betweenAllowed (accessActivity s p va n kind f) = false := by
  unfold accessActivity
  split
  · exact hf _
  · rfl

theorem instrActivity_allowed (h : betweenAllowed (instrActivity s i) = true) :
    columnOf i = .event ∨ executes s i = false := by
  cases hx : executes s i with
  | false => exact .inr rfl
  | true =>
    left
    rw [instrActivity, if_pos hx] at h
    rcases form_cases s i with ⟨f, hf, -⟩ | ⟨f, hf, -⟩ | hi | hi | hi | hi
    · rw [hf] at h
      cases (betweenAllowed_accessActivity fun _ => rfl).symm.trans h
    · rw [hf, loadForm_of_storeForm hf] at h
      cases (betweenAllowed_accessActivity fun _ => rfl).symm.trans h
    · rcases hi with rfl | rfl <;> cases h
    all_goals rcases hi with rfl | rfl | ⟨c, rfl⟩ <;> rfl

theorem actionActivity_allowed {a : Action} {x : Activity} (h : actionActivity s a = some (p, x))
    (hx : betweenAllowed x = true) : quietAction p a = true := by
  cases a with
  | foreign => rfl
  | store | load =>
    cases h
    cases (betweenAllowed_accessActivity fun _ => rfl).symm.trans hx
  | pldw | dcacheMaint | icacheInvalidateAll | icacheInvalidateVA | tlbInvalidate | takeDataAbort | exceptionReturn
  | exceptionReturnTo | installThread =>
    cases h
    cases hx
  | observerWrite | observerRead | remap | spontaneousClearLocal | spontaneousClearGlobal => cases h

/-- Every action of a PE's own turn is an activity of that PE. -/
theorem actionActivity_of_actor {a : Action} (h : actorOf a = some p) : ∃ x, actionActivity s a = some (p, x) := by
  cases a <;> cases h <;> exact ⟨_, rfl⟩

/-- A turn of PE `p` whose activity condition 1 allows is quiet for `p`. -/
theorem quietFor_of_allowed (hm : mover s = some p)
    (h : ∀ x, activityOf s = some (p, x) → betweenAllowed x = true) : quietFor p s := by
  have hinstr : (∀ i, executed s = some (p, i) → activityOf s = some (p, instrActivity { s with cur := p } i)) →
      ∀ q i, executed s = some (q, i) →
        (q ≠ p ∧ columnOf i ≠ .storeExclusive) ∨
          (q = p ∧ (columnOf i = .event ∨ executes { s with cur := p } i = false)) := fun hact q i he => by
    cases (executed_mover he).symm.trans hm
    exact .inr ⟨rfl, instrActivity_allowed (h _ (hact i he))⟩
  cases ha : s.agenda with
  | nil =>
    simp only [quietFor, ha]
    exact hinstr fun i he => by simp [activityOf, ha, he]
  | cons turn turns =>
    cases turn with
    | run q =>
      simp only [quietFor, ha]
      exact hinstr fun i he => by simp [activityOf, ha, he]
    | act a =>
      simp only [quietFor, ha]
      obtain ⟨x, hx⟩ := actionActivity_of_actor (s := s) (a := a) (by simpa [mover, ha] using hm)
      exact actionActivity_allowed hx (h x (by simpa [activityOf, ha] using hx))

end Between

/-! ## A reservation of one PE (R153) -/

/-- The PE holds the reservation of the Load-Exclusive that left record `r`. -/
structure Reserved (cfg : Config) (r : LoadRecord) (x : PE) : Prop where
  lm : x.lm = .exclusive (block cfg r.pa)
  gm : shareable r.attr = true → x.gm = .exclusive (block cfg r.pa)
  lx : x.lx = some r
  pair : x.pair = .waiting r.va

section Reserved
variable {s t : State} {p : Nat} {i : Instr} {r : LoadRecord}

theorem Reserved.same {cfg : Config} {x y : PE} (h : Reserved cfg r x) (hxy : sameReservation x y) :
    Reserved cfg r y := by
  obtain ⟨hlm, hgm, hlx, hpair⟩ := hxy
  exact ⟨hlm.trans h.lm, fun hsh => hgm.trans (h.gm hsh), hlx.trans h.lx, hpair.trans h.pair⟩

theorem reserved_loadMarks (s : State) (p : Nat) (r : LoadRecord) (x : PE) :
    Reserved s.cfg r (loadMarks s p (shareable r.attr) r x) where
  lm := loadMarks_lm ..
  gm hsh := by rw [loadMarks_gm, hsh]; rfl
  lx := loadMarks_lx ..
  pair := loadMarks_pair ..

/-- A Load-Exclusive that reads a location with the monitors it needs reserves it, whatever memory holds (R65, R66,
R120). -/
theorem exec_load_reserved {f : LoadForm} {pa : Nat} {attr : MemAttr} (hf : loadForm s i = some f)
    (hx : executes s i = true) (hr : loadReaches s f pa attr) (hm : monitored s pa attr)
    (hab : readAborts s pa f.n = false) (h : exec i s = .next t) :
    Reserved s.cfg { va := f.va, pa := pa, n := f.n, attr := attr } (t.pe s.cur) := by
  obtain ⟨hp, hal, htr⟩ := hr
  rw [exec_load hf hx, loadExcl_plain hal htr hm hab] at h
  cases h
  have hmarks := reserved_loadMarks s s.cur { va := f.va, pa := pa, n := f.n, attr := attr } (s.pe s.cur)
  refine Reserved.same ?_ (((Undisturbed.refl _).writeDests f.dests).complete).pe
  rwa [pe_updatePE_self _ _ _ hp]

/-- A Store-Exclusive that matches its PE's reservation returns 0 (R140, R153). -/
theorem statusReturned_reserved {f : StoreForm} (he : executed s = some (p, i))
    (hx : executes { s with cur := p } i = true) (hf : storeForm { s with cur := p } i = some f)
    (hres : Reserved s.cfg r (s.pe p)) (hva : f.va = r.va) (hn : f.bytes.length = r.n) (hal : r.va.toNat % r.n = 0)
    (htr : translate s p f.va .write = some (r.pa, r.attr)) (hm : monitored s r.pa r.attr)
    (hab : writeAborts s r.pa r.n = false) : statusReturned s = some (p, f, 0) := by
  have hpair : pairMismatch (s.pe p).lx f.va f.bytes.length r.attr = none :=
    pairMismatch_none.mpr fun r' hr' => by
      cases hres.lx.symm.trans hr'
      exact ⟨hva.symm, hn.symm, rfl⟩
  have hmarked : markedFor { s with cur := p, agenda := s.agenda.tail } f.va r.pa r.attr :=
    ⟨hres.lm, hres.gm, by
      show movedAndWritten s p f.va r.attr = false
      simp [movedAndWritten, hres.pair]⟩
  have hstore := (storeExcl_paired (s := { s with cur := p, agenda := s.agenda.tail }) (by rw [hn, hva]; exact hal) htr
    hpair).trans (storeChecked_eq hm fun _ => by rw [hn]; exact hab)
  rw [if_pos (monitorsPass_marked hmarked)] at hstore
  exact statusReturned_some.mpr ⟨_, _, by rw [storeResult_of he hx hf, hstore]⟩

end Reserved

/-! ## Two moments next to each other -/

/-- Of two kinds of moments that both come again and again and never fall together, one of the first kind is followed by
one of the second with neither kind between. -/
theorem exists_adjacent {L S : Nat → Prop} (hL : ∀ k, ∃ j, k ≤ j ∧ L j) (hS : ∀ k, ∃ j, k ≤ j ∧ S j)
    (hne : ∀ k, L k → ¬S k) (k : Nat) : ∃ j m, k ≤ j ∧ j < m ∧ L j ∧ S m ∧ ∀ x, j < x → x < m → ¬L x ∧ ¬S x := by
  classical
  have hsome : ∃ d j, k ≤ j ∧ L j ∧ S (j + d) := by
    obtain ⟨j, hkj, hj⟩ := hL k
    obtain ⟨m, hjm, hm⟩ := hS j
    exact ⟨m - j, j, hkj, hj, by rwa [Nat.add_sub_cancel' hjm]⟩
  obtain ⟨j, hkj, hj, hm⟩ := Nat.find_spec hsome
  have hleast : ∀ j' m', k ≤ j' → j' ≤ m' → L j' → S m' → Nat.find hsome ≤ m' - j' := fun j' m' hk' hle hl hs =>
    Nat.find_le ⟨j', hk', hl, by rwa [Nat.add_sub_cancel' hle]⟩
  have hpos : Nat.find hsome ≠ 0 := fun h0 => hne j hj (by simpa [h0] using hm)
  refine ⟨j, j + Nat.find hsome, hkj, by omega, hj, hm, fun x hjx hxm => ⟨fun hx => ?_, fun hx => ?_⟩⟩
  · have hle := hleast x _ (by omega) hxm.le hx hm
    omega
  · have hle := hleast j x hkj hjx.le hj hx
    omega

end Sys2Proof.Machine
end

section
/-! SUPPORT. The run of a loop that nobody disturbs: its PE runs for ever, its Load-Exclusive reserves the location, and the
reservation stays until its Store-Exclusive (R222, R225 to R228). -/

namespace Sys2Proof.Machine

/-- PE `p` keeps executing a loop on `lock` that meets the conditions and that nobody disturbs: what the statement on
forward progress asks of a run (R225 to R228). `Tests.witness_UndisturbedLoopProgresses` is such a run. -/
structure UndisturbedLoop (sched : Nat → Turn) (r : Nat → State) (p : Nat) (lock : Place) (attr : MemAttr) : Prop where
  run : infiniteRun sched r
  loop : keepsLooping sched r p lock
  translated : ∀ kind, translate (r 0) p (BitVec.ofNat 32 lock.va) kind = some (lock.pa, attr)
  monitored : monitored (r 0) lock.pa attr
  reads : readAborts (r 0) lock.pa lock.n = false
  writes : writeAborts (r 0) lock.pa lock.n = false
  quiet : ∀ k, mover (moment sched r k) ≠ some p → quietFor p (moment sched r k)

/-- The record that a Load-Exclusive of the lock leaves (R26). -/
def lockRecord (lock : Place) (attr : MemAttr) : LoadRecord :=
  { va := BitVec.ofNat 32 lock.va, pa := lock.pa, n := lock.n, attr := attr }

theorem eq_ofNat_of_toNat {va : Word} {n : Nat} (h : va.toNat = n) : va = BitVec.ofNat 32 n := by
  rw [← h, BitVec.ofNat_toNat, BitVec.setWidth_eq]

section Moments
variable {sched : Nat → Turn} {r : Nat → State} {p j k : Nat} {lock : Place} {attr : MemAttr}

theorem running_of_later (hrun : infiniteRun sched r) (hjk : j ≤ k) :
    ((r k).pe p).ended = none → ((r j).pe p).ended = none := by
  induction hjk with
  | refl => exact id
  | step _ ih => exact fun he => ih (step_running (s := moment sched r _) (hrun _) he)

/-- No moment is both a Load-Exclusive and a Store-Exclusive of the loop. -/
theorem not_storesAt_of_loadsAt (h : loadsAt sched r p lock k) : ¬storesAt sched r p lock k := by
  obtain ⟨i, f, he, -, hf, -⟩ := h
  rintro ⟨i', g, he', -, hg, -⟩
  cases he.symm.trans he'
  cases (loadForm_of_storeForm hg _).symm.trans hf

theorem mem_ownActivities {m : Nat} {x : Activity} (hjm : j < m) (hmk : m < k)
    (h : activityOf (moment sched r m) = some (p, x)) : x ∈ ownActivities sched r p j k := by
  refine List.mem_filterMap.mpr ⟨m - (j + 1), List.mem_range.mpr (by omega), ?_⟩
  rw [Nat.add_sub_cancel' hjm, h]
  exact if_pos rfl

end Moments

namespace UndisturbedLoop
variable {sched : Nat → Turn} {r : Nat → State} {p j k : Nat} {lock : Place} {attr : MemAttr}
  (h : UndisturbedLoop sched r p lock attr)
include h

theorem sameMap (k : Nat) : SameMap (r 0) (r k) := by
  induction k with
  | zero => exact .refl _
  | succ k ih => exact (ih.turn (r k).cur [sched k]).trans (step_sameMap (h.run k) (h.quiet k))

/-- A PE that stores again and again never ends its run. -/
theorem running (k : Nat) : ((r k).pe p).ended = none := by
  obtain ⟨m, hkm, i, f, he, -⟩ := h.loop.2.1 k
  exact running_of_later h.run hkm (step_mover_running (s := moment sched r m) (h.run m) (executed_mover he))

/-- The Load-Exclusive of the loop is aligned, since a misaligned one would end the run of its PE, and it reserves the
location (R56, R65, R66). -/
theorem load_reserves (hl : loadsAt sched r p lock j) :
    (lockRecord lock attr).va.toNat % (lockRecord lock attr).n = 0 ∧
      Reserved (r 0).cfg (lockRecord lock attr) ((r (j + 1)).pe p) := by
  obtain ⟨i, f, he, hx, hf, hva, hn, -⟩ := hl
  obtain ⟨hp, hexec⟩ := step_executed (h.run j) he
  have hx' : executes { moment sched r j with cur := p, agenda := [] } i = true :=
    (executes_agenda { moment sched r j with cur := p } [] i).trans hx
  have hf' : loadForm { moment sched r j with cur := p, agenda := [] } i = some f :=
    (loadForm_agenda { moment sched r j with cur := p } [] i).trans hf
  have hmap : SameMap (r 0) { moment sched r j with cur := p, agenda := [] } := (h.sameMap j).turn p []
  have hva' : f.va = BitVec.ofNat 32 lock.va := eq_ofNat_of_toNat hva
  have hal : f.va.toNat % f.n = 0 := by
    by_contra hmis
    obtain ⟨t, ht, -, -, -, hended⟩ := misalignedExclusiveEndsRun.1 _ i f hf' hx' hp hmis
    cases hexec.symm.trans ht
    have hrunning := h.running (j + 1)
    rw [hended] at hrunning
    cases hrunning
  have htr := (hmap.translate p f.va .read).trans (hva' ▸ h.translated .read)
  have hres := exec_load_reserved hf' hx' ⟨hp, hal, htr⟩ (hmap.monitored h.monitored)
    ((hmap.readAborts _ _).trans (hn ▸ h.reads)) hexec
  rw [hmap.cfg, hva', hn] at hres
  rw [hva', hn] at hal
  exact ⟨hal, hres⟩

/-- Between the pair every step is quiet: the PE's own by condition 1, every other by hypothesis (R227). -/
theorem quiet_between (hpair : pairAt sched r p lock j k) {m : Nat} (hjm : j < m) (hmk : m < k) :
    quietFor p (moment sched r m) := by
  obtain ⟨-, -, -, hcondition1, -⟩ := h.loop
  by_cases hm : mover (moment sched r m) = some p
  · exact quietFor_of_allowed hm fun x hx =>
      List.all_eq_true.mp (hcondition1 j k hpair) x (mem_ownActivities hjm hmk hx)
  · exact h.quiet m hm

theorem reserved_between (hpair : pairAt sched r p lock j k) {m : Nat} (hjm : j < m) :
    m ≤ k → Reserved (r 0).cfg (lockRecord lock attr) ((r m).pe p) := by
  induction hjm with
  | refl => exact fun _ => (h.load_reserves hpair.2.1).2
  | step hjm ih => exact fun hmk => (ih (by omega)).same (step_quiet (h.quiet_between hpair hjm hmk) (h.run _)).pe

/-- The Store-Exclusive of a pair of the loop returns 0 (R225). -/
theorem progress (hpair : pairAt sched r p lock j k) : progressAt sched r p k := by
  obtain ⟨hjk, hload, ⟨i, f, he, hx, hf, hva, hn, -⟩, -⟩ := id hpair
  have hmap : SameMap (r 0) (moment sched r k) := (h.sameMap k).turn (r k).cur [sched k]
  have hva' : f.va = BitVec.ofNat 32 lock.va := eq_ofNat_of_toNat hva
  have hres := h.reserved_between hpair hjk le_rfl
  rw [← hmap.cfg] at hres
  exact ⟨f, statusReturned_reserved he hx hf hres hva' hn (h.load_reserves hload).1
    ((hmap.translate p f.va .write).trans (hva' ▸ h.translated .write)) (hmap.monitored h.monitored)
    ((hmap.writeAborts _ _).trans h.writes)⟩

theorem exists_pairAt (k : Nat) : ∃ j m, k ≤ j ∧ pairAt sched r p lock j m := by
  obtain ⟨hloads, hstores, -⟩ := h.loop
  obtain ⟨j, m, hkj, hjm, hj, hm, hbetween⟩ := exists_adjacent hloads hstores (fun _ => not_storesAt_of_loadsAt) k
  exact ⟨j, m, hkj, hjm, hj, hm, hbetween⟩

end UndisturbedLoop

end Sys2Proof.Machine
end

section
/-! PROOF. Forward progress of a loop that nobody disturbs (R225 to R228). -/

namespace Sys2Proof.Machine

/-- Settles O60: after every moment there is a Load-Exclusive of the loop with its Store-Exclusive, every step between them
is quiet, and so the reservation stays and the Store-Exclusive passes. -/
theorem undisturbedLoopProgresses : Obligations.UndisturbedLoopProgresses := by
  intro sched r p lock attr hrun _ hloop htranslated hmonitored hreads hwrites hquiet k
  have h : UndisturbedLoop sched r p lock attr := ⟨hrun, hloop, htranslated, hmonitored, hreads, hwrites, hquiet⟩
  obtain ⟨j, m, hkj, hpair⟩ := h.exists_pairAt k
  exact ⟨m, hkj.trans hpair.1.le, h.progress hpair⟩

end Sys2Proof.Machine
end

section
/-! SUPPORT. What the software conditions bar and allow, item by item (R226 to R228, R230). -/

namespace Sys2Proof.Machine

section Conditions
variable {cfg : Config} {lock p : Place} {a : Activity} {xs : List Activity}

/-! ## Condition 1 (R227) -/

theorem betweenAllowed_iff :
    betweenAllowed a = true ↔ a = .registerOnly ∨ ∃ k, a = .event k ∧ Config.countsAsBarred k = false := by
  cases a <;> simp [betweenAllowed]

theorem condition1_iff : condition1 xs = true ↔
    ∀ a ∈ xs, a = .registerOnly ∨ ∃ k, a = .event k ∧ Config.countsAsBarred k = false := by
  simp only [condition1, List.all_eq_true, betweenAllowed_iff]

/-! ## Condition 2 (R228) -/

theorem condition2_iff :
    condition2 cfg lock xs = true ↔ (∀ a ∈ xs, retryAllowed cfg lock a = true) ∧ within512 xs = true := by
  simp only [condition2, Bool.and_eq_true, List.all_eq_true]

/-- A place of the granule is reached the loop's own way where it keeps the lock's distance VA - PA (log 43). -/
theorem throughOtherAlias_eq_false : throughOtherAlias cfg lock p = false ↔
    (inGranule cfg lock p = true → (p.va : Int) - p.pa = (lock.va : Int) - lock.pa) := by
  simp only [throughOtherAlias, otherAlias, Bool.and_eq_false_imp, decide_eq_false_iff_not, ne_eq, not_not]
  exact imp_congr_right fun _ => eq_comm

/-- The first five items of condition 2, by the kinds of activity they speak of. -/
theorem all_retryAllowed_iff : (∀ a ∈ xs, retryAllowed cfg lock a = true) ↔
    (∀ p, .store p ∈ xs ∨ .pldw (some p) ∈ xs → inGranule cfg lock p = false) ∧
    (∀ p, .load p ∈ xs ∨ .prefetch (some p) ∈ xs → throughOtherAlias cfg lock p = false) ∧
    (∀ p, .storeExclusive p ∈ xs → p.va = lock.va) ∧
    .systemRegisterWrite ∉ xs ∧
    (.addressTranslation ∉ xs ∧ .cacheOrTlbMaintenance ∉ xs ∧ .exceptionGenerating ∉ xs ∧
      .exceptionReturn ∉ xs ∧ .indirectBranch ∉ xs ∧ .branchWithLink ∉ xs ∧ .threadSwitch ∉ xs) ∧
    ∀ k, .event k ∈ xs → Config.countsAsBarred k = false := by
  constructor
  · intro h
    have barred : ∀ {a}, retryAllowed cfg lock a = false → a ∉ xs := fun ha hmem => by
      cases ha.symm.trans (h _ hmem)
    refine ⟨fun p hp => ?stores, fun p hp => ?loads, fun p hp => by simpa [retryAllowed] using h _ hp, barred rfl,
      ⟨barred rfl, barred rfl, barred rfl, barred rfl, barred rfl, barred rfl, barred rfl⟩,
      fun k hk => by simpa [retryAllowed] using h _ hk⟩
    case stores => rcases hp with hp | hp <;> simpa [retryAllowed] using h _ hp
    case loads => rcases hp with hp | hp <;> simpa [retryAllowed] using h _ hp
  · rintro ⟨hstore, hload, hexclusive, hsystem, ⟨htranslation, hmaintenance, hexception, hreturn, hindirect, hlink,
      hswitch⟩, hevent⟩ a ha
    cases a with
    | registerOnly | isb | clearExclusive => rfl
    | event k => simpa [retryAllowed] using hevent k ha
    | load p => simpa [retryAllowed] using hload p (.inl ha)
    | store p => simpa [retryAllowed] using hstore p (.inl ha)
    | storeExclusive p => simpa [retryAllowed] using hexclusive p ha
    | prefetch place =>
      cases place with
      | none => rfl
      | some p => simpa [retryAllowed] using hload p (.inr ha)
    | pldw place =>
      cases place with
      | none => rfl
      | some p => simpa [retryAllowed] using hstore p (.inr ha)
    | systemRegisterWrite => exact absurd ha hsystem
    | addressTranslation => exact absurd ha htranslation
    | cacheOrTlbMaintenance => exact absurd ha hmaintenance
    | exceptionGenerating => exact absurd ha hexception
    | exceptionReturn => exact absurd ha hreturn
    | indirectBranch => exact absurd ha hindirect
    | branchWithLink => exact absurd ha hlink
    | threadSwitch => exact absurd ha hswitch

theorem placeOf_eq_some : placeOf a = some p ↔ a = .load p ∨ a = .store p ∨ a = .storeExclusive p := by
  cases a <;> simp [placeOf]

theorem mem_filterMap_placeOf :
    p ∈ xs.filterMap placeOf ↔ .load p ∈ xs ∨ .store p ∈ xs ∨ .storeExclusive p ∈ xs := by
  simp only [List.mem_filterMap, placeOf_eq_some]
  constructor
  · rintro ⟨a, ha, rfl | rfl | rfl⟩
    · exact .inl ha
    · exact .inr (.inl ha)
    · exact .inr (.inr ha)
  · rintro (h | h | h)
    · exact ⟨_, h, .inl rfl⟩
    · exact ⟨_, h, .inr (.inl rfl)⟩
    · exact ⟨_, h, .inr (.inr rfl)⟩

/-- The last item of condition 2. -/
theorem within512_iff : within512 xs = true ↔
    ∀ p q : Place, (.load p ∈ xs ∨ .store p ∈ xs ∨ .storeExclusive p ∈ xs) →
      (.load q ∈ xs ∨ .store q ∈ xs ∨ .storeExclusive q ∈ xs) → q.va + q.n ≤ p.va + 512 := by
  simp only [within512, List.all_eq_true, decide_eq_true_eq, mem_filterMap_placeOf]
  exact ⟨fun h p q hp hq => h p hp q hq, fun h p hp q hq => h p q hp hq⟩

theorem condition2_of_condition1 (h : condition1 xs = true) : condition2 cfg lock xs = true := by
  have hkinds := condition1_iff.mp h
  refine condition2_iff.mpr ⟨fun a ha => ?_, within512_iff.mpr fun p q hp _ => ?_⟩
  · obtain rfl | ⟨k, rfl, hk⟩ := hkinds a ha
    · rfl
    · simp [retryAllowed, hk]
  · rcases hp with hp | hp | hp <;> obtain hp | ⟨k, hp, -⟩ := hkinds _ hp <;> cases hp

/-- A PLDW or a software prefetch that reaches no place: condition 1 bars the kind, no item of condition 2 does (R174,
R228). -/
theorem activityOf_untranslated {s : State} {q : Nat} {va : Word} {act : Action} {turns : List Turn}
    (ha : s.agenda = .act act :: turns)
    (h : act = .pldw q va ∧ translate s q va .write = none ∨
      (∃ u, act = .foreign q (.prefetch va) u) ∧ translate s q va .read = none) :
    activityOf s = some (q, .pldw none) ∨ activityOf s = some (q, .prefetch none) := by
  obtain ⟨rfl, htr⟩ | ⟨⟨u, rfl⟩, htr⟩ := h
  · exact .inl (by simp [activityOf, ha, actionActivity, placeAt, htr])
  · exact .inr (by simp [activityOf, ha, actionActivity, foreignActivity, placeAt, htr])

/-! ## Excuses and promise (R226, R230) -/

theorem excuses_iff {x : Interference} : excuses cfg lock x = true ↔
    x = .instrCacheInvalidateAll ∨ (∃ pa n, inBlocks cfg pa n (block cfg lock.pa) = true ∧ x = .storeTo pa n) ∨
      ∃ pa, block cfg pa = block cfg lock.pa ∧
        (x = .prefetchToWrite pa ∨ x = .dataCacheMaintenance pa ∨ x = .instrCacheInvalidateVA pa) := by
  cases x <;> simp [excuses]

theorem progressPromise_eq {between retry : List Activity} {others : List Interference} :
    progressPromise cfg lock between retry others =
      if condition1 between = true ∧ condition2 cfg lock retry = true ∧ ∀ x ∈ others, excuses cfg lock x = false then
        if cfg.haveLSE then .likelihoodMaximised else .guaranteed
      else .none := by
  simp only [progressPromise, Bool.and_eq_true, Bool.not_eq_true', List.any_eq_false, Bool.not_eq_true, and_assoc]

end Conditions

end Sys2Proof.Machine
end

section
/-! SUPPORT. The writes of a step as interferences (R140, R141, R170, R191, R230). -/

namespace Sys2Proof.Machine

/-! ## What a Store-Exclusive writes -/

/-- The ranges of memory that the common step of the Store-Exclusives wrote. -/
def StoreResult.written : StoreResult → List (Nat × Nat)
  | .status _ _ ws => ws
  | .noWriteback _ | .ended _ => []

section Written
variable {s t : State} {p pa n a : Nat} {va : Word} {attr : MemAttr} {bs : List Byte}

theorem storeNonShareable_ne_noWriteback : storeNonShareable s p va pa attr bs ≠ .noWriteback t := by
  unfold storeNonShareable
  split
  · split <;> nofun
  · nofun

theorem storeShareable_ne_noWriteback : storeShareable s p va pa attr bs ≠ .noWriteback t := by
  unfold storeShareable
  split
  · dsimp only
    split
    · split <;> nofun
    · nofun
  · nofun

theorem pairEnvelope_ne_noWriteback {kind : PairKind} {r : LoadRecord} :
    pairEnvelope s p va pa n attr kind r ≠ .noWriteback t := by
  unfold pairEnvelope
  dsimp only
  split
  · nofun
  · cases kind <;> nofun

/-- A Store-Exclusive treated as a NOP leaves the state as it was (R191). -/
theorem noGlobalMonitorStore_noWriteback (h : noGlobalMonitorStore s p va pa attr bs = .noWriteback t) : t = s := by
  unfold noGlobalMonitorStore at h
  split at h
  · cases h
  split at h
  · cases h
  split at h
  · cases h
  split at h
  · split at h <;> cases h
    rfl
  split at h
  · split at h
    · cases h
    · exact absurd h storeNonShareable_ne_noWriteback
  split at h
  · split at h
    · split at h <;> cases h
    · cases h
  · cases h

theorem storeChecked_noWriteback (h : storeChecked s p va pa attr bs = .noWriteback t) : t = s := by
  unfold storeChecked at h
  split at h
  · split at h
    · exact absurd h storeShareable_ne_noWriteback
    · exact noGlobalMonitorStore_noWriteback h
  · exact absurd h storeNonShareable_ne_noWriteback

theorem storeExcl_noWriteback (h : storeExcl s p va bs = .noWriteback t) : t = s := by
  unfold storeExcl at h
  split at h
  · cases h
  split at h
  · cases h
  split at h
  · exact storeChecked_noWriteback h
  split at h
  · cases h
  split at h
  · exact storeChecked_noWriteback h
  · exact absurd h pairEnvelope_ne_noWriteback

/-- The end of a run writes nothing to memory. -/
theorem storeExcl_ended_mem (h : storeExcl s p va bs = .ended t) : t.mem = s.mem := by
  have hwithin := storeExcl_within (P := { part := fun _ _ => True, memory := True }) (s := s) (p := p) (va := va)
    (bs := bs) trivial fun _ => trivial
  rw [h] at hwithin
  exact mem_of_runStops hwithin

/-- Whatever its result, the common step changes memory only in the ranges it wrote. -/
theorem storeExcl_mem_outside (hwf : memWf s.mem = true)
    (ha : ∀ w ∈ (storeExcl s p va bs).written, a < w.1 ∨ w.1 + w.2 ≤ a) :
    memRead (storeExcl s p va bs).state.mem a = memRead s.mem a := by
  cases h : storeExcl s p va bs with
  | status t v ws =>
    rw [h] at ha
    exact storeExcl_written hwf h ha
  | noWriteback t => rw [storeExcl_noWriteback h]; rfl
  | ended t => exact congrArg (memRead · a) (storeExcl_ended_mem h)

theorem storeTo_mem {set : ISet} {rd : Reg} :
    (storeTo set s rd va bs).mem = (storeExcl s s.cur va bs).state.mem := by
  unfold storeTo
  split <;> rename_i h <;> rw [h] <;> rfl

end Written

/-! ## What a step writes -/

section Step
variable {s t : State} {p q n a : Nat} {va : Word} {i : Instr} {f : StoreForm}

/-- A step that executes a Store-Exclusive stores to the ranges it wrote, whatever status it returns (log 34). -/
theorem interferencesOf_storeExcl (he : executed s = some (p, i)) (hx : executes { s with cur := p } i = true)
    (hf : storeForm { s with cur := p } i = some f) :
    interferencesOf s =
      (storeExcl { s with cur := p, agenda := s.agenda.tail } p f.va f.bytes).written.map fun w =>
        (p, .storeTo w.1 w.2) := by
  have hperformed : interferencesOf s = (storesPerformed s).map fun w => (w.1, .storeTo w.2.1 w.2.2) := by
    obtain ⟨ha, -⟩ | ⟨turns, ha⟩ := executed_turn he <;> simp only [interferencesOf, ha]
  rw [hperformed, storesPerformed, storeResult_of he hx hf]
  cases storeExcl { s with cur := p, agenda := s.agenda.tail } p f.va f.bytes with
  | status u v ws => simp [StoreResult.written]
  | noWriteback u => rfl
  | ended u => rfl

theorem exists_storeForm (u : State) (hc : columnOf i = .storeExclusive) : ∃ f, storeForm u i = some f := by
  cases i <;> simp_all [columnOf, storeForm]

/-- A byte that an instruction changes lies in a range its Store-Exclusive wrote. -/
theorem step_executed_changes (hwf : memWf s.mem = true) (h : step s = .next t) (he : executed s = some (p, i))
    (hc : columnOf i = .storeExclusive) (hne : memRead t.mem a ≠ memRead s.mem a) :
    ∃ q pa n, (q, .storeTo pa n) ∈ interferencesOf s ∧ pa ≤ a ∧ a < pa + n := by
  obtain ⟨-, hexec⟩ := step_executed h he
  cases hx : executes { s with cur := p } i with
  | false =>
    cases (exec_skip ((executes_agenda { s with cur := p } s.agenda.tail i).trans hx)).symm.trans hexec
    exact absurd rfl hne
  | true =>
    obtain ⟨f, hf⟩ := exists_storeForm { s with cur := p } hc
    have hf' : storeForm { s with cur := p, agenda := s.agenda.tail } i = some f := by rw [← hf]; cases i <;> rfl
    cases (exec_store hf' ((executes_agenda { s with cur := p } s.agenda.tail i).trans hx)).symm.trans hexec
    rw [interferencesOf_storeExcl he hx hf]
    by_contra hnone
    refine hne ?_
    rw [storeTo_mem]
    refine storeExcl_mem_outside (s := { s with cur := p, agenda := s.agenda.tail }) hwf fun w hw => ?_
    by_contra hin
    exact hnone ⟨p, w.1, w.2, List.mem_map.mpr ⟨w, hw, rfl⟩, by omega, by omega⟩

/-- A byte that a plain store changes lies in the range it writes (R170). -/
theorem plainStore_changes {v : BitVec 64} (hwf : memWf s.mem = true) (h : plainStore s q va n v = .next t)
    (hne : memRead t.mem a ≠ memRead s.mem a) :
    ∃ pa attr, translate s q va .write = some (pa, attr) ∧ pa ≤ a ∧ a < pa + n := by
  unfold plainStore at h
  split at h
  · split at h
    · cases h
      exact absurd rfl hne
    rename_i pa attr htr
    split at h
    · split at h <;> cases h
      · exact absurd rfl hne
      refine ⟨pa, attr, htr, ?_⟩
      by_contra hout
      exact hne (memRead_disassemble_outside hwf (by omega))
    · cases h
  · cases h

/-- A byte that changes in a step lies in a store of the PE that performs it, or a non-PE observer wrote it (R27, R70,
R230). -/
theorem step_changes (hwf : memWf s.mem = true) (h : step s = .next t) (hne : memRead t.mem a ≠ memRead s.mem a) :
    (∃ q pa n, (q, .storeTo pa n) ∈ interferencesOf s ∧ pa ≤ a ∧ a < pa + n) ∨
      ∃ k pa n v turns, s.agenda = .act (.observerWrite k pa n v) :: turns := by
  obtain ⟨p, i, he, hc⟩ | ⟨q, va, n, v, turns, ha⟩ | hobserver := onlyStoresWriteMemory s t a h hne
  · exact .inl (step_executed_changes hwf h he hc hne)
  · obtain ⟨hs, -⟩ := step_next h
    obtain ⟨-, -, hstore⟩ := byPE_next ((step_act hs ha).symm.trans h)
    obtain ⟨pa, attr, htr, hle, hlt⟩ := plainStore_changes (s := { s with agenda := turns }) hwf hstore hne
    have htr' : translate s q va .write = some (pa, attr) := htr
    exact .inl ⟨q, pa, n, by simp [interferencesOf, ha, htr'], hle, hlt⟩
  · exact .inr hobserver

/-- An ordinary Store-Exclusive that does not abort returns 0 and stores its bytes, or returns 1 and stores nothing (R140,
R152). -/
theorem ordinaryStore_interferences {pa : Nat} {attr : MemAttr} (he : executed s = some (p, i))
    (hf : storeForm { s with cur := p } i = some f) (hx : executes { s with cur := p } i = true)
    (hr : storeReaches { s with cur := p } f pa attr) (hm : monitored s pa attr)
    (hab : writeAborts s pa f.bytes.length = false) :
    statusReturned s = some (p, f, 0) ∧ interferencesOf s = [(p, .storeTo pa f.bytes.length)] ∨
      statusReturned s = some (p, f, 1) ∧ interferencesOf s = [] := by
  obtain ⟨-, hal, htr, hpair⟩ := hr
  have hpaired := storeExcl_paired (s := { s with cur := p, agenda := s.agenda.tail }) hal htr
    (pairMismatch_none.mpr hpair)
  have hstatus : ∀ {u v ws},
      storeExcl { s with cur := p, agenda := s.agenda.tail } p f.va f.bytes = .status u v ws →
        statusReturned s = some (p, f, v) ∧ interferencesOf s = ws.map fun w => (p, .storeTo w.1 w.2) :=
    fun hresult =>
      ⟨statusReturned_some.mpr ⟨_, _, by rw [storeResult_of he hx hf, hresult]⟩,
        by rw [interferencesOf_storeExcl he hx hf, hresult]; rfl⟩
  obtain ⟨b, hfails | hpasses⟩ := storeChecked_cases (s := { s with cur := p, agenda := s.agenda.tail }) (p := p)
    (va := f.va) hm hab
  · exact .inr (hstatus (hpaired.trans hfails))
  · exact .inl (hstatus (hpaired.trans hpasses))

end Step

end Sys2Proof.Machine
end

section
/-! PROOF. The conditions, the excuses, the promise, and the writes that count as stores (R226 to R228, R230). -/

namespace Sys2Proof.Machine

/-- Settles O59: each condition item by item over the kinds of activity; and the ranges that the common step of the
Store-Exclusives says it wrote hold every byte it changed. -/
theorem progressConditions : Obligations.ProgressConditions := by
  refine ⟨fun between => condition1_iff, fun cfg lock retry => ?condition2, fun cfg lock xs => condition2_of_condition1,
    fun s q va a turns ha h => ?untranslated, fun cfg lock x => excuses_iff, fun cfg lock between retry others => ?promise,
    fun s t a hwf h hne => step_changes hwf h hne,
    fun s p i f pa attr he hf hx hr hm hab => ordinaryStore_interferences he hf hx hr hm hab⟩
  case condition2 =>
    simp only [condition2_iff, all_retryAllowed_iff, within512_iff, throughOtherAlias_eq_false, and_assoc]
  case untranslated =>
    obtain hpldw | hprefetch := activityOf_untranslated ha h
    · exact ⟨_, hpldw, rfl, fun _ _ => rfl⟩
    · exact ⟨_, hprefetch, rfl, fun _ _ => rfl⟩
  case promise =>
    refine ⟨fun hmet hlse => ?_, fun hmet hlse => ?_, fun hmet => ?_⟩
    · rw [progressPromise_eq, if_pos hmet, hlse]; rfl
    · rw [progressPromise_eq, if_pos hmet, hlse]; rfl
    · rw [progressPromise_eq, if_neg hmet]

end Sys2Proof.Machine
end
